-- ==== Sys2Proof/Word.lean ====
section
/-! DEFINITION. The widths the spec names: a byte of a stream or an internal memory, a 16-bit code, CRC or table
entry, a 32-bit host register (10_state.md R42), a 64-bit size or count (00_scope.md R18). -/

namespace Sys2Proof

/-- A byte of the source, the sink, the window, the token buffer or the decode window. -/
abbrev Byte := BitVec 8

/-- A 16-bit quantity: CRC, bit buffer, codeword, frequency, table entry. -/
abbrev Half := BitVec 16

/-- A host register, or a command word (10_state.md R42, 30_encoding.md R138). -/
abbrev Word := BitVec 32

/-- A 64-bit size or byte count (00_scope.md R18). -/
abbrev Quad := BitVec 64

/-- A code length, 0..16 (00_scope.md R14). -/
abbrev Len := BitVec 5

end Sys2Proof
end

