-- ==== Sys2Proof/Syntax.lean ====
section
/-! DEFINITION. The thirteen commands of the opcode map (30_encoding.md R139), one constructor per row of
spec/opcode_table.json. Operands other than N and BYTE come from the host registers (R138). -/

namespace Sys2Proof

/-- A host command. `n` is the N field (a bit count), `b` the BYTE field of the command word (30_encoding.md R138). -/
inductive Instr where
  | nop
  | encode
  | decode
  | crcInit
  | crcByte (b : Byte)
  | crcRead
  | bwInit
  | bwPut (n : BitVec 5)
  | bwFlush
  | brInit
  | brPeek (n : BitVec 5)
  | brAdvance (n : BitVec 5)
  | brGet (n : BitVec 5)
deriving DecidableEq, Repr

end Sys2Proof
end

