-- ==== Sys2Proof/WellFormed.lean ====
section
/-! DEFINITION. Which commands have a legal command word: the bit count N is at most 16 (30_encoding.md R140). -/

namespace Sys2Proof

/-- The bit count of BW_PUT, BR_PEEK, BR_ADVANCE and BR_GET is 0..16 (30_encoding.md R138, R140). Every other form is
well formed: its operand fields hold exactly what its command word can. -/
def Instr.wf : Instr → Bool
  | .nop => true
  | .encode => true
  | .decode => true
  | .crcInit => true
  | .crcByte _ => true
  | .crcRead => true
  | .bwInit => true
  | .bwPut n => decide (n.toNat ≤ 16)
  | .bwFlush => true
  | .brInit => true
  | .brPeek n => decide (n.toNat ≤ 16)
  | .brAdvance n => decide (n.toNat ≤ 16)
  | .brGet n => decide (n.toNat ≤ 16)

end Sys2Proof
end

