-- ==== Sys2Proof/Decode.lean ====
section
/-! DEFINITION. The command word CMD32 (30_encoding.md R138-R141): reading one, total on every 32-bit value and
rejecting by name, then writing one, from the same field table. -/

namespace Sys2Proof

/-- Why a command word is illegal (30_encoding.md R140). All five raise CommandError (60_exceptions.md R406). -/
inductive Reject where
  /-- OP is not in the opcode map (R139). -/
  | opcode
  /-- N is above 16 for a command that takes N. -/
  | countRange
  /-- N is not 0 for a command that takes no N. -/
  | countField
  /-- BYTE is not 0 for a command other than CRC_BYTE. -/
  | byteField
  /-- A reserved bit (15:13 or 31:24) is 1. -/
  | reservedBit
deriving DecidableEq, Repr

/-- OP, bits 7:0 (R138). -/
def fieldOp (w : Word) : BitVec 8 := w.extractLsb' 0 8

/-- N, bits 12:8 (R138). -/
def fieldN (w : Word) : BitVec 5 := w.extractLsb' 8 5

/-- Reserved bits 15:13 (R138). -/
def fieldReservedLow (w : Word) : BitVec 3 := w.extractLsb' 13 3

/-- BYTE, bits 23:16 (R138). -/
def fieldByte (w : Word) : Byte := w.extractLsb' 16 8

/-- Reserved bits 31:24 (R138). -/
def fieldReservedHigh (w : Word) : BitVec 8 := w.extractLsb' 24 8

/-- A command that takes neither N nor BYTE (R140). -/
def plainForm (n : BitVec 5) (b : Byte) (i : Instr) : Except Reject Instr :=
  if n ≠ 0#5 then .error .countField else if b ≠ 0#8 then .error .byteField else .ok i

/-- A command that takes N, 0..16, and no BYTE (R140). -/
def countForm (n : BitVec 5) (b : Byte) (mk : BitVec 5 → Instr) : Except Reject Instr :=
  if b ≠ 0#8 then .error .byteField else if 16 < n.toNat then .error .countRange else .ok (mk n)

/-- CRC_BYTE: BYTE and no N (R140). -/
def byteForm (n : BitVec 5) (b : Byte) (mk : Byte → Instr) : Except Reject Instr :=
  if n ≠ 0#5 then .error .countField else .ok (mk b)

/-- Read a command word (R138-R140): the command, or why the word is illegal. -/
def decode (w : Word) : Except Reject Instr :=
  let n := fieldN w
  let b := fieldByte w
  if fieldReservedLow w ≠ 0#3 ∨ fieldReservedHigh w ≠ 0#8 then .error .reservedBit
  else
    match (fieldOp w).toNat with
    | 0x00 => plainForm n b .nop
    | 0x01 => plainForm n b .encode
    | 0x02 => plainForm n b .decode
    | 0x10 => plainForm n b .crcInit
    | 0x11 => byteForm n b .crcByte
    | 0x12 => plainForm n b .crcRead
    | 0x20 => plainForm n b .bwInit
    | 0x21 => countForm n b .bwPut
    | 0x22 => plainForm n b .bwFlush
    | 0x28 => plainForm n b .brInit
    | 0x29 => countForm n b .brPeek
    | 0x2A => countForm n b .brAdvance
    | 0x2B => countForm n b .brGet
    | _ => .error .opcode

/-- The decoder on a word numbered as spec/opcode_table.json numbers it; the table gives every row 32 bits, one whole
CMD write (R141), and a bit above `nbits` is 0. -/
def decodeTableWord (nbits w : Nat) : Option Instr :=
  match decode (BitVec.ofNat 32 (w % 2 ^ nbits)) with
  | .ok i => some i
  | .error _ => none

/-- The command word from its fields, high to low: reserved, BYTE, reserved, N, OP (R138). -/
def assemble (op : BitVec 8) (n : BitVec 5) (b : Byte) : Word :=
  0#8 ++ (b ++ (0#3 ++ (n ++ op)))

/-- Write a command word (R138, R139). -/
def encode : Instr → Word
  | .nop => assemble 0x00#8 0#5 0#8
  | .encode => assemble 0x01#8 0#5 0#8
  | .decode => assemble 0x02#8 0#5 0#8
  | .crcInit => assemble 0x10#8 0#5 0#8
  | .crcByte b => assemble 0x11#8 0#5 b
  | .crcRead => assemble 0x12#8 0#5 0#8
  | .bwInit => assemble 0x20#8 0#5 0#8
  | .bwPut n => assemble 0x21#8 n 0#8
  | .bwFlush => assemble 0x22#8 0#5 0#8
  | .brInit => assemble 0x28#8 0#5 0#8
  | .brPeek n => assemble 0x29#8 n 0#8
  | .brAdvance n => assemble 0x2A#8 n 0#8
  | .brGet n => assemble 0x2B#8 n 0#8

end Sys2Proof
end

