-- ==== Sys2Proof/Config.lean ====
section
/-! DEFINITION. The parameters of a build of the LZH core (00_scope.md R9-R17), fixed for the machine and no part of
its state (10_state.md R40). Every operation of the model takes them as an argument; `Config.build` is the one
configuration the machine of `Sys2Proof.core` has, the spec's defaults. -/

namespace Sys2Proof

/-- The parameters a build fixes (00_scope.md R9-R17; 93_implementation_defined.md A1-A5). -/
structure Params where
  /-- log2 of the dictionary size (R9). -/
  dicBit : Nat
  /-- `M`, the maximum match length (R10). -/
  maxMatch : Nat
  /-- `THRESHOLD`, the minimum back-reference length (R11). -/
  threshold : Nat
  /-- Width of the C table's size field and of a long zero run's count (R13). -/
  cBit : Nat
  /-- Width of the T table's size field (R13). -/
  tBit : Nat
  /-- Width of the P table's size field (R13). -/
  pBit : Nat
  /-- Width of a block's size field (R13; 93_implementation_defined.md A2). -/
  sizeBit : Nat
  /-- `NT`, the size of the meta alphabet: three run symbols and one per code length 1..16 (R12;
  93_implementation_defined.md A2). -/
  nt : Nat
  /-- Direct lookup bits of the C table (R15). -/
  cTableBits : Nat
  /-- Direct lookup bits of the T and P tables (R15). -/
  ptTableBits : Nat
  /-- Bytes of the token buffer (R16). -/
  bufSiz : Nat
  /-- Does consuming a bit past the declared compressed size fault (R17)? -/
  strictEof : Bool
deriving DecidableEq, Repr

/-- `D`, the dictionary size (R9). -/
def Params.dicSiz (P : Params) : Nat := 2 ^ P.dicBit

/-- `NC`, the size of the literal/length alphabet (R12). -/
def Params.nc (P : Params) : Nat := 256 + (P.maxMatch - P.threshold + 1)

/-- `NP`, the size of the position-class alphabet (R12). -/
def Params.np (P : Params) : Nat := P.dicBit + 1

/-- The constraints the spec puts on the parameters (R9-R11, R13, R15, R16). DEDUCED (log entry 29): `NT` has a symbol
for each length 1..16 (R12), and the block size field, at most one PutBits wide (R14), holds the tokens of a full buffer
(R16). DESIGN CHOICE (log entry 30): `CBIT`, `TBIT`, `PBIT` and `DICBIT` have no upper bound here, though R14 caps a
width at 16; R9 and R13 give none. -/
def Params.wf (P : Params) : Bool :=
  decide (9 ≤ P.dicBit) && decide (P.np < 2 ^ P.pBit)
    && decide (P.maxMatch ≤ 256) && decide (P.threshold < P.maxMatch) && decide (1 ≤ P.threshold)
    && decide (P.nc < 2 ^ P.cBit) && decide (P.nt < 2 ^ P.tBit) && decide (19 ≤ P.nt)
    && decide (P.sizeBit ≤ 16) && decide (P.bufSiz < 2 ^ P.sizeBit)
    && decide (1 ≤ P.cTableBits) && decide (P.cTableBits ≤ 16)
    && decide (1 ≤ P.ptTableBits) && decide (P.ptTableBits ≤ 16)
    && decide (64 ≤ P.bufSiz) && decide (P.bufSiz ≤ 65535)

/-- The spec's default values (00_scope.md R9-R17). -/
def Config.default : Params where
  dicBit := 13
  maxMatch := 256
  threshold := 3
  cBit := 9
  tBit := 5
  pBit := 4
  sizeBit := 16
  nt := 19
  cTableBits := 12
  ptTableBits := 8
  bufSiz := 16384
  strictEof := false

/-- The build `Sys2Proof.core` is: the default configuration. DESIGN CHOICE (log entry 1): the spec lets a build fix
each parameter; the machine takes the defaults, every operation takes any `Params`. -/
def Config.build : Params := Config.default

/-- `REG_BASE`, where a platform puts the register window (20_memory.md R107): the platform's choice, so a constant
without a value. The model's accesses carry the offset inside the window, so no step reads it. -/
opaque Config.regBase : Nat

/-- The bus address of the register at `offset` of the window (R107). -/
def Config.busAddress (offset : BitVec 8) : Nat := Config.regBase + offset.toNat

end Sys2Proof
end

