-- ==== Sys2Proof/Machine/State.lean ====
section
/-! DEFINITION. The state of the LZH core (10_state.md, 20_memory.md), its reset value (70_reset_and_hazards.md R431),
and the reasons a step of the model stops. Every field is plain data. A memory is a list of cells in one canonical
form (`Memory.wf`); what an unlisted element reads as is the memory's default, named where the field is declared. -/

namespace Sys2Proof.Machine

/-- An indexed memory: its listed cells, addresses strictly rising, none equal to the memory's default. A memory of
bytes is a list of `Host.Cell`. -/
abbrev Memory (α : Type) := List (Nat × α)

/-- Are the addresses strictly rising? -/
def Memory.rising {α : Type} : Memory α → Bool
  | [] => true
  | [_] => true
  | (a, _) :: (b, w) :: rest => decide (a < b) && Memory.rising ((b, w) :: rest)

/-- The canonical form: addresses strictly rising, no listed cell equal to what an unlisted one reads as. -/
def Memory.wf {α : Type} [DecidableEq α] (d : α) (m : Memory α) : Bool :=
  Memory.rising m && m.all fun c => decide (c.2 ≠ d)

/-! ### Error kinds and ports -/

/-- The error kind of the last command (60_exceptions.md R402). -/
inductive ErrKind where
  /-- Code 0: the command ended normally. -/
  | none
  /-- Code 1: illegal command word (R406). -/
  | commandError
  /-- Code 2: the compressed stream breaks the format (R403). -/
  | malformedInput
  /-- Code 3: reserved for the source's kind, never raised (R405). -/
  | allocationFailure
  /-- Code 4: a tree or code invariant failed (R404). -/
  | internalInconsistency
deriving DecidableEq, Repr

/-- The four things the sequencer waits on the host for (20_memory.md R98-R100). -/
inductive Port where
  /-- `SrcRead`: the host has presented no further byte. -/
  | source
  /-- `SnkWrite`: the host accepts no further byte. -/
  | sink
  /-- `SnkDiscard`: the host has not acknowledged. -/
  | discard
  /-- `SrcRewind`: the host has not acknowledged. -/
  | rewind
deriving DecidableEq, Repr

/-! ### The sequencer's control state -/

/-- Which of the two tables written as `ptlen` fields is being read (42_huffman_decode.md R272). -/
inductive PtKind where
  | t
  | p
deriving DecidableEq, Repr

/-- A point of a command's pseudocode: one atomic operation still to do, with its local variables
(10_state.md R55, 00_scope.md R7). -/
inductive Task where
  /-- PutBits: the `n` low bits of `x` are still to be appended, bit `n-1` first (R203). -/
  | putBits (n x : Nat)
  /-- EmitByte (R204). -/
  | emitByte (b : Byte)
  /-- The reset of `wacc` and `wn` after a completed byte (R203). -/
  | clearAcc
  /-- Advance: the count and the STRICT_EOF check (R209). -/
  | advance (n : Nat)
  /-- Fill: the shift of `bitbuf` (R209). -/
  | fill (n : Nat)
  /-- Fill: its loop, `n` bits of `bitbuf` still to be filled (R209). -/
  | fillLoop (n : Nat)
  /-- The end of BrInit: `consumed <- 0` (R206). -/
  | brInitEnd
  /-- RESULT <- v, the end of BR_GET (R224). -/
  | setResult (v : Word)
  /-- EncodeInit up to its first read (R343). -/
  | encodeInit
  /-- ReadSrc: byte `i` of `k` goes to `text[off + i]` (R349). -/
  | readSrc (off i k : Nat)
  /-- EncodeInit after its first read, which took `k` bytes (R343). -/
  | encodeFirst (k : Nat)
  /-- The clamp of `matchlen` to `remainder` (R343, R345). -/
  | clampMatch
  /-- The head of EncodeLoop's loop (R345). -/
  | encodeLoop
  /-- EncodeLoop after GetNextMatch and its clamp: which token (R345). -/
  | chooseToken
  /-- EncodeLoop: `n` further GetNextMatch, then the clamp (R345). -/
  | skipMatch (n : Nat)
  /-- GetNextMatch: advance and slide (R344). -/
  | getNextMatch
  /-- GetNextMatch after the slide's read, which took `n` bytes (R344). -/
  | slideEnd (n : Nat)
  /-- DeleteNode (R320). -/
  | deleteNode
  /-- InsertNode (R308). -/
  | insertNode
  /-- Output of a token (R240). -/
  | output (c p : Nat)
  /-- Output after the SendBlock it called (R240). -/
  | outputAfterBlock (c p : Nat)
  /-- SendBlock: the C tree and the block size (R249). -/
  | sendBlock
  /-- SendBlock: the T and C tables, `root` being MakeTree's for the C code (R249). -/
  | sendTables (root : Nat)
  /-- SendBlock: the P tree and table (R249). -/
  | sendPTable
  /-- SendBlock: token `t` of `size`, at `buf[k]`, under the flag byte `flags` (R249). -/
  | sendToken (size t k : Nat) (flags : Byte)
  /-- SendBlock: the test of `unpackable` after a token, then the next token (R249). -/
  | sendNext (size t k : Nat) (flags : Byte)
  /-- HufEncodeEnd (R248). -/
  | hufEncodeEnd
  /-- ENCODE's choice between StoreFallback and EncodeFinish (R342). -/
  | encodeEnd
  /-- SnkDiscard, the first request of StoreFallback (R352). -/
  | snkDiscard
  /-- SrcRewind, the second request of StoreFallback (R352). -/
  | srcRewind
  /-- StoreFallback: `CrcInit` (R352). -/
  | storeInit
  /-- StoreFallback: `n` bytes are still to be copied (R352). -/
  | storeCopy (n : Nat)
  /-- StoreFallback: `SnkWrite` of the byte just read (R352). -/
  | storeWrite (b : Byte)
  /-- StoreFallback: the writes of COMP_SIZE, CRC and STORED (R352). -/
  | storeEnd
  /-- DECODE up to its choice of method (R355). -/
  | decodeInit
  /-- DecodeStored: `n` bytes are still to be copied (R360). -/
  | storedCopy (n : Nat)
  /-- The end of HufDecodeStart: `blocksize <- 0` (R270). -/
  | hufDecodeStart
  /-- The head of DECODE's loop (R355). -/
  | decodeLoop
  /-- OutByte (R356). -/
  | outByte (b : Byte)
  /-- DecodeC: does a block header come first (R281)? -/
  | decodeC
  /-- DecodeC: the codeword (R281). -/
  | decodeSym
  /-- DECODE with the C symbol just decoded (R355). -/
  | gotC (c : Nat)
  /-- DecodeP: the codeword, for a match of length `len` (R282). -/
  | decodeP (len : Nat)
  /-- DecodeP with the position class just decoded (R282). -/
  | gotP (len j : Nat)
  /-- CopyMatch (R358). -/
  | copyMatch (j p : Nat)
  /-- CopyMatch's loop: `j` bytes from output offset `s` (R358). -/
  | copyLoop (j s : Nat)
  /-- DecodeFinish (R363). -/
  | decodeFinish
  /-- ReadBlockHeader: the block size field (R271). -/
  | readHeader
  /-- ReadBlockHeader with the size field just read (R271). -/
  | gotSize (x : Nat)
  /-- ReadPtLen: the table size field (R272). -/
  | readPt (w : PtKind)
  /-- ReadPtLen with the table size just read (R272). -/
  | ptCount (w : PtKind) (n : Nat)
  /-- ReadPtLen with the degenerate symbol just read (R272). -/
  | ptConst (w : PtKind) (s : Nat)
  /-- ReadPtLen's loop, at length `i` of `n` (R272). -/
  | ptLoop (w : PtKind) (n i : Nat)
  /-- ReadPtLen with length `i` just read as `k` (R272). -/
  | ptLen (w : PtKind) (n i k : Nat)
  /-- ReadPtLen: `z` zero lengths of the skip field are still to be written (R272). -/
  | ptSkip (w : PtKind) (n i z : Nat)
  /-- ReadCLen: the table size field (R274). -/
  | readC
  /-- ReadCLen with the table size just read (R274). -/
  | cCount (n : Nat)
  /-- ReadCLen with the degenerate symbol just read (R274). -/
  | cConst (s : Nat)
  /-- ReadCLen's loop, at length `i` of `n` (R274). -/
  | cLoop (n i : Nat)
  /-- ReadCLen with the T symbol just decoded (R274). -/
  | cSym (n i s : Nat)
  /-- ReadCLen: `r` zero lengths of a run are still to be written (R274). -/
  | cRun (n i r : Nat)
deriving DecidableEq, Repr

/-- The sequencer's control state (10_state.md R55): idle, or running a command with these operations still to do,
the next one first. With nothing left the command ends (44_pipeline.md R340). -/
inductive Phase where
  | idle
  | run (cmd : Instr) (todo : List Task)
deriving DecidableEq, Repr

/-! ### The host's side -/

/-- One thing the host does to the block. An access carries its width in bytes and its offset in the register window
(20_memory.md R97). -/
inductive HostAct where
  /-- A register write (10_state.md R42). -/
  | write (bytes : Nat) (offset : BitVec 8) (value : Word)
  /-- A register read (10_state.md R42). -/
  | read (bytes : Nat) (offset : BitVec 8)
  /-- The host's WAIT loop: STATUS is read until DONE is 1, then DONE is cleared (30_encoding.md R143). -/
  | waitDone
  /-- `SRC`: these bytes become the source sequence (30_encoding.md R142). -/
  | source (bytes : List Byte)
  /-- Further bytes of the source sequence arrive (20_memory.md R98). -/
  | supply (bytes : List Byte)
  /-- The host accepts so many further sink bytes, or all of them (20_memory.md R99). -/
  | accept (room : Option Nat)
  /-- Does the host acknowledge SnkDiscard (20_memory.md R100)? -/
  | ackDiscard (yes : Bool)
  /-- Does the host acknowledge SrcRewind (20_memory.md R100)? -/
  | ackRewind (yes : Bool)
  /-- The host drops what its sink holds (44_pipeline.md R365, 70_reset_and_hazards.md R432). -/
  | dropSink
  /-- The power-on reset input is asserted (70_reset_and_hazards.md R430). -/
  | assertReset
  /-- The power-on reset input is released (70_reset_and_hazards.md R430). -/
  | releaseReset
deriving DecidableEq, Repr

/-- A turn of the host: what it does, and how many sequencer steps follow before its next turn (`none`: the sequencer
runs until its command ends or waits at a port). Any interleaving at step boundaries is legal
(93_implementation_defined.md A31), and this is the data that says which one happens. -/
structure HostTurn where
  act : HostAct
  pace : Option Nat
deriving DecidableEq, Repr

/-- The two byte-stream ports as the host holds them (20_memory.md R98-R100). -/
structure Ports where
  /-- The source sequence, as far as the host has presented it. -/
  source : List Byte
  /-- How many bytes of it the block has taken. -/
  taken : Nat
  /-- The sink sequence. -/
  sink : List Byte
  /-- The length of the sink sequence when the current command started (what SnkDiscard keeps, R100). -/
  mark : Nat
  /-- How many further bytes the host accepts; `none`: every one. -/
  room : Option Nat
  /-- The host acknowledges SnkDiscard. -/
  ackDiscard : Bool
  /-- The host acknowledges SrcRewind. -/
  ackRewind : Bool
deriving DecidableEq, Repr

/-! ### Registers and units -/

/-- The stored fields of the host register file (10_state.md R42-R53). STATUS.BUSY and STATUS.UNPACKABLE are views of
`State.phase` and `Writer.unpackable` (R54, R55); ID, PARAM0 and PARAM1 are constants of the build. -/
structure HostRegs where
  /-- CTRL.METHOD, bit 0 (R46). -/
  method : Bool
  /-- CTRL.CRC_CHECK, bit 1 (R46). -/
  crcCheck : Bool
  /-- STATUS.DONE (R48). -/
  done : Bool
  /-- STATUS.ERRCODE (R48). -/
  errcode : ErrKind
  /-- STATUS.STORED (R48). -/
  stored : Bool
  /-- STATUS.CRC_MISMATCH (R48). -/
  crcMismatch : Bool
  /-- STATUS.CMD_LOST (R48). -/
  cmdLost : Bool
  /-- ORIG_SIZE, both words (R49). -/
  origSize : Quad
  /-- COMP_SIZE, both words (R50). -/
  compSize : Quad
  /-- CRC, bits 15:0 (R51). -/
  crc : Half
  /-- EXPECTED_CRC, bits 15:0 (R52). -/
  expectedCrc : Half
  /-- ARG (R53). -/
  arg : Word
  /-- RESULT (R53). -/
  result : Word
deriving DecidableEq, Repr

/-- BSU writer (10_state.md R56, R54). -/
structure Writer where
  /-- The pending bits as an integer below `2^wn`; the completed byte while it waits at the sink. -/
  wacc : Byte
  /-- The number of pending bits: 0..7, and 8 while a completed byte waits at the sink. -/
  wn : Nat
  compsize : Quad
  limit : Quad
  unpackable : Bool
deriving DecidableEq, Repr

/-- BSU reader (10_state.md R57). -/
structure Reader where
  bitbuf : Half
  subbuf : Byte
  subn : Nat
  csize : Quad
  remaining : Quad
  consumed : Quad
deriving DecidableEq, Repr

/-- A match-tree node (10_state.md R60). NIL is `none` of `Option Handle`. -/
inductive Handle where
  | root (b : Byte)
  | inner (i : Nat)
  | leaf (p : Nat)
deriving DecidableEq, Repr

/-- The tagged representative position of an inner node (10_state.md R62). -/
inductive RepPos where
  | fresh (v : Nat)
  | stale (v : Nat)
deriving DecidableEq, Repr

/-- A leaf record (10_state.md R61). -/
structure LeafRec where
  parent : Option Handle
  edge : Byte
  succ : Option Handle
deriving DecidableEq, Repr

/-- An inner node record (10_state.md R62). -/
structure InnerRec where
  parent : Option Handle
  edge : Byte
  level : Nat
  position : RepPos
  childcount : Nat
deriving DecidableEq, Repr

/-- A leaf that is not in the tree: what InitSlide leaves (43_match_finder.md R302). -/
def LeafRec.out : LeafRec := { parent := none, edge := 0, succ := none }

/-- What an inner record that nothing has written reads as (log entry 4). -/
def InnerRec.blank : InnerRec :=
  { parent := none, edge := 0, level := 0, position := .fresh 0, childcount := 0 }

/-- Match finder (10_state.md R59-R65) with its window (20_memory.md R91, R92). The root records are constants (R63). -/
structure MatchFinder where
  /-- `text[0 .. 2D+M-1]`; an unlisted byte is 0. -/
  text : Memory Byte
  pos : Nat
  matchpos : Nat
  matchlen : Nat
  remainder : Int
  nread : Quad
  lastmatchlen : Nat
  lastmatchpos : Nat
  /-- `Leaf(p)`, p in `D .. 2D-1`; an unlisted record is `LeafRec.out`. -/
  leaves : Memory LeafRec
  /-- `Inner(i)`, i in `1 .. D-1`; an unlisted record is `InnerRec.blank`. -/
  inners : Memory InnerRec
  /-- The child map: a partial map, keyed by parent and byte (R64). -/
  children : Memory Handle
  /-- The inner nodes not in use, top first (R65). -/
  freepool : List Nat
deriving DecidableEq, Repr

/-- The heap and tree scratch of MakeTree (20_memory.md R93); an unlisted element is 0. -/
structure TreeScratch where
  heap : Memory Nat
  /-- `freq` of the inner nodes `n .. 2n-2`. -/
  freq : Memory Nat
  left : Memory Nat
  right : Memory Nat
  sortlist : List Nat
  lenCnt : Memory Nat
deriving DecidableEq, Repr

/-- Encoder block state (10_state.md R66, 20_memory.md R93, R94); an unlisted element is 0. -/
structure EncBlock where
  cFreq : Memory Half
  pFreq : Memory Half
  buf : Memory Byte
  bufpos : Nat
  flagmask : Byte
  cpos : Nat
  cLen : Memory Len
  cCode : Memory Half
  tFreq : Memory Half
  tLen : Memory Len
  tCode : Memory Half
  pLen : Memory Len
  pCode : Memory Half
  scratch : TreeScratch
deriving DecidableEq, Repr

/-- A decode table in one of its two forms (10_state.md R67, 20_memory.md R95): `lookup`, `left` and `right` are
partial, an element the construction has not written is EMPTY (42_huffman_decode.md R275). -/
inductive Table where
  | const (s : Nat)
  | coded (lookup left right : Memory Half)
deriving DecidableEq, Repr

/-- Decoder block and output state (10_state.md R67, R68, 20_memory.md R95, R96); an unlisted element is 0. -/
structure DecBlock where
  blocksize : Half
  cLen : Memory Len
  tLen : Memory Len
  pLen : Memory Len
  cTab : Table
  tTab : Table
  pTab : Table
  outcount : Quad
  dwin : Memory Byte
deriving DecidableEq, Repr

/-- The block and the host's side of its ports. -/
structure State where
  regs : HostRegs
  phase : Phase
  bw : Writer
  br : Reader
  /-- The CRC accumulator (10_state.md R58). -/
  crc : Half
  mf : MatchFinder
  enc : EncBlock
  dec : DecBlock
  port : Ports
  /-- The model's own: what the host will do, its next turn first. -/
  agenda : List HostTurn
  /-- The model's own: how many sequencer steps the host's last turn leaves before the next one. -/
  pace : Option Nat
  /-- The power-on reset input is asserted (70_reset_and_hazards.md R430). -/
  por : Bool
  /-- The model's own: the value the host's last register read returned. -/
  rdata : Word
deriving DecidableEq, Repr

/-- Why the model stops with a fault. -/
inductive Fault where
  /-- Raised by `step` alone, when the sequencer waits at this port and the host has nothing left to do: the command
  never ends (60_exceptions.md R422, 93_implementation_defined.md A23). Safe: the model stops where the hardware waits
  for ever. -/
  | portStarved (p : Port)
deriving DecidableEq, Repr

/-- Why the model has no meaning for something. -/
inductive Refusal where
  /-- Raised by `exec` for a command without a meaning yet. Safe. -/
  | notModelled (mnemonic : String)
  /-- Raised by a host register access that is not 32 bits wide or not 4-byte aligned (20_memory.md R97, R105; "a
  model refuses it"). Safe. -/
  | badAccess (bytes : Nat) (offset : BitVec 8)
deriving DecidableEq, Repr

/-! ### Reset (70_reset_and_hazards.md R431) -/

/-- CTRL = 1, every other stored register field 0 (R431). -/
def HostRegs.reset : HostRegs where
  method := true
  crcCheck := false
  done := false
  errcode := .none
  stored := false
  crcMismatch := false
  cmdLost := false
  origSize := 0
  compSize := 0
  crc := 0
  expectedCrc := 0
  arg := 0
  result := 0

/-- R431, R56. -/
def Writer.reset : Writer := { wacc := 0, wn := 0, compsize := 0, limit := 0, unpackable := false }

/-- R431, R57. -/
def Reader.reset : Reader :=
  { bitbuf := 0, subbuf := 0, subn := 0, csize := 0, remaining := 0, consumed := 0 }

/-- R431 leaves every part unspecified; DESIGN CHOICE (log entry 4): 0, empty, no node in the tree. -/
def MatchFinder.reset : MatchFinder where
  text := []
  pos := 0
  matchpos := 0
  matchlen := 0
  remainder := 0
  nread := 0
  lastmatchlen := 0
  lastmatchpos := 0
  leaves := []
  inners := []
  children := []
  freepool := []

/-- R431 leaves it unspecified; DESIGN CHOICE (log entry 4): 0. -/
def TreeScratch.reset : TreeScratch :=
  { heap := [], freq := [], left := [], right := [], sortlist := [], lenCnt := [] }

/-- R431 leaves every part unspecified; DESIGN CHOICE (log entry 4): 0. -/
def EncBlock.reset : EncBlock where
  cFreq := []
  pFreq := []
  buf := []
  bufpos := 0
  flagmask := 0
  cpos := 0
  cLen := []
  cCode := []
  tFreq := []
  tLen := []
  tCode := []
  pLen := []
  pCode := []
  scratch := TreeScratch.reset

/-- R431 leaves every part unspecified; DESIGN CHOICE (log entry 4): 0, every table degenerate with symbol 0. -/
def DecBlock.reset : DecBlock where
  blocksize := 0
  cLen := []
  tLen := []
  pLen := []
  cTab := .const 0
  tTab := .const 0
  pTab := .const 0
  outcount := 0
  dwin := []

/-- The host's side is not the block's to reset; DESIGN CHOICE (log entry 3): a host that has presented nothing, whose
sink is empty, that accepts every byte and acknowledges every request (its duties, R434, R444). -/
def Ports.start : Ports where
  source := []
  taken := 0
  sink := []
  mark := 0
  room := none
  ackDiscard := true
  ackRewind := true

/-- The machine right after reset (R431), with a host that has nothing to do. -/
def State.reset : State where
  regs := HostRegs.reset
  phase := .idle
  bw := Writer.reset
  br := Reader.reset
  crc := 0xFFFF
  mf := MatchFinder.reset
  enc := EncBlock.reset
  dec := DecBlock.reset
  port := Ports.start
  agenda := []
  pace := none
  por := false
  rdata := 0

end Sys2Proof.Machine
end

