-- ==== Sys2Proof/Machine/Ops.lean ====
section
/-! DEFINITION. The shared operations: the indexed memories, the two ports, the sequencer's list of operations to do,
the start and the end of a command, taking a fault, and reset. -/

namespace Sys2Proof.Machine

/-! ### Indexed memories (00_scope.md R20) -/

/-- The listed cell at an address. -/
def cellGet {α : Type} : Memory α → Nat → Option α
  | [], _ => none
  | (k, v) :: rest, a => if a = k then some v else if a < k then none else cellGet rest a

/-- List a cell, in place of the one at its address. -/
def cellPut {α : Type} : Memory α → Nat → α → Memory α
  | [], a, v => [(a, v)]
  | (k, w) :: rest, a, v =>
    if a < k then (a, v) :: (k, w) :: rest
    else if a = k then (a, v) :: rest
    else (k, w) :: cellPut rest a v

/-- Unlist the cell at an address. -/
def cellDrop {α : Type} : Memory α → Nat → Memory α
  | [], _ => []
  | (k, w) :: rest, a =>
    if a < k then (k, w) :: rest else if a = k then rest else (k, w) :: cellDrop rest a

/-- `mem[a]`, for a memory whose unlisted elements read as `d`. -/
def memRead {α : Type} (d : α) (m : Memory α) (a : Nat) : α := (cellGet m a).getD d

/-- `mem[a] <- v`, keeping the canonical form. -/
def memWrite {α : Type} [DecidableEq α] (d : α) (m : Memory α) (a : Nat) (v : α) : Memory α :=
  if v = d then cellDrop m a else cellPut m a v

/-- `for e in a..<b: m[e] <- v`, for a partial memory. -/
def cellFill {α : Type} (m : Memory α) (a b : Nat) (v : α) : Memory α :=
  m.filter (fun c => decide (c.1 < a))
    ++ (List.range' a (b - a)).map (fun e => (e, v))
    ++ m.filter (fun c => decide (a ≤ c.1) && decide (b ≤ c.1))

/-- Write `f i` at every index below `n`. -/
def memInit {α : Type} [DecidableEq α] (d : α) (n : Nat) (f : Nat → α) (m : Memory α) : Memory α :=
  (List.range n).foldl (fun acc i => memWrite d acc i (f i)) m

/-- A code length as an integer. -/
def lenAt (m : Memory Len) (i : Nat) : Nat := (memRead 0 m i).toNat

/-- A 16-bit element as an integer. -/
def halfAt (m : Memory Half) (i : Nat) : Nat := (memRead 0 m i).toNat

/-! ### The ports (20_memory.md R98-R100) -/

/-- `SrcRead()`: the next byte of the source sequence, or a wait (R98). -/
def srcRead (s : State) : Except Port (Byte × State) :=
  match s.port.source[s.port.taken]? with
  | some b => .ok (b, { s with port := { s.port with taken := s.port.taken + 1 } })
  | none => .error .source

/-- `SnkWrite(b)`: the host accepts the byte, or a wait (R99). -/
def snkWrite (b : Byte) (s : State) : Except Port State :=
  match s.port.room with
  | none => .ok { s with port := { s.port with sink := s.port.sink ++ [b] } }
  | some 0 => .error .sink
  | some (n + 1) => .ok { s with port := { s.port with sink := s.port.sink ++ [b], room := some n } }

/-- `SnkDiscard()`: the host deletes what the sink has received since the command started, or a wait (R100). -/
def snkDiscard (s : State) : Except Port State :=
  if s.port.ackDiscard then .ok { s with port := { s.port with sink := s.port.sink.take s.port.mark } }
  else .error .discard

/-- `SrcRewind()`: the host presents the source sequence again from its first byte, or a wait (R100). -/
def srcRewind (s : State) : Except Port State :=
  if s.port.ackRewind then .ok { s with port := { s.port with taken := 0 } } else .error .rewind

/-! ### The sequencer's control state (10_state.md R55) -/

/-- STATUS.BUSY: a command is running (R48, R55). -/
def State.busy (s : State) : Bool :=
  match s.phase with
  | .idle => false
  | .run _ _ => true

/-- Put operations before those the running command still has to do. -/
def push (ts : List Task) (s : State) : State :=
  match s.phase with
  | .idle => s
  | .run cmd todo => { s with phase := .run cmd (ts ++ todo) }

/-- EndCommand(k) (44_pipeline.md R340). -/
def endCommand (k : ErrKind) (s : State) : State :=
  { s with regs := { s.regs with errcode := k, done := true }, phase := .idle }

/-- `raise Fault(k, _)` (60_exceptions.md R401): the command ends with error kind `k`, everything it has done so far
stays, nothing else is saved: there is no saved pc, no mode and no handler to go to. -/
def raise (k : ErrKind) (s : State) : State := endCommand k s

/-- There is no return instruction (60_exceptions.md R410): after a fault the block is idle and the next CMD write
starts the next command. This is what that write does first (44_pipeline.md R340): DONE and ERRCODE are cleared and
the block is busy. -/
def beginCommand (i : Instr) (todo : List Task) (s : State) : State :=
  { s with regs := { s.regs with done := false, errcode := .none }, phase := .run i todo }

/-- A legal command's start (R340): the sink bytes from here on are this command's (20_memory.md R100). -/
def markSink (s : State) : State :=
  { s with port := { s.port with mark := s.port.sink.length } }

/-- ENCODE and DECODE also clear STORED and CRC_MISMATCH (R340). -/
def clearOutcome (s : State) : State :=
  { s with regs := { s.regs with stored := false, crcMismatch := false } }

/-- A CMD write while a command runs is dropped and recorded (70_reset_and_hazards.md R441). -/
def loseCommand (s : State) : State := { s with regs := { s.regs with cmdLost := true } }

/-- What an operation with an invariant check answers: the state after it, or the state at the raise, which is then
InternalInconsistency (R401, R404). -/
abbrev Checked (σ : Type) := Except σ σ

/-! ### Reset (70_reset_and_hazards.md R430-R432) -/

/-- Every piece of the block's state takes its value of R431; the host's side of the ports, and what the host does
next, are the host's (R432). -/
def resetBlock (s : State) : State :=
  { State.reset with port := s.port, agenda := s.agenda, pace := s.pace, por := s.por, rdata := s.rdata }

end Sys2Proof.Machine
end

