-- ==== Sys2Proof/Machine/Flags.lean ====
section
/-! DEFINITION. The flags: STATUS and CTRL as words, the error codes, and every computation that sets or clears a flag
(10_state.md R46, R48, R54; 60_exceptions.md R402, R407, R408). -/

namespace Sys2Proof.Machine

/-- The code of an error kind (60_exceptions.md R402). -/
def ErrKind.code : ErrKind → BitVec 3
  | .none => 0
  | .commandError => 1
  | .malformedInput => 2
  | .allocationFailure => 3
  | .internalInconsistency => 4

/-- A bit as a register field. -/
def bit (b : Bool) : BitVec 1 := if b then 1#1 else 0#1

/-- STATUS (10_state.md R48), from bit 31 down: reserved, CMD_LOST, CRC_MISMATCH, UNPACKABLE, STORED, reserved,
ERRCODE, reserved, DONE, BUSY. -/
def statusWord (s : State) : Word :=
  0#20 ++ (bit s.regs.cmdLost ++ (bit s.regs.crcMismatch ++ (bit s.bw.unpackable ++ (bit s.regs.stored ++
    (0#1 ++ (s.regs.errcode.code ++ (0#1 ++ (0#1 ++ (bit s.regs.done ++ bit s.busy)))))))))

/-- CTRL as it reads (10_state.md R46): CRC_CHECK, METHOD; SRST and the reserved bits read 0. -/
def ctrlWord (s : State) : Word := 0#30 ++ (bit s.regs.crcCheck ++ bit s.regs.method)

/-- The `done` output (60_exceptions.md R413). -/
def doneLine (s : State) : Bool := s.regs.done

/-- A write to STATUS clears DONE and CMD_LOST where it writes 1, and nothing else (10_state.md R48). -/
def writeStatus (v : Word) (s : State) : State :=
  { s with regs := { s.regs with
      done := s.regs.done && !v.getLsbD 1
      cmdLost := s.regs.cmdLost && !v.getLsbD 11 } }

/-- A byte would exceed the ceiling (40_bitstream_crc.md R204; 60_exceptions.md R408). -/
def setUnpackable (s : State) : State := { s with bw := { s.bw with unpackable := true } }

/-- DECODE's CRC check (44_pipeline.md R362, R363): CRC_MISMATCH is set when the check is on and the CRC differs. -/
def checkCrc (v : Half) (s : State) : State :=
  if s.regs.crcCheck = true ∧ v ≠ s.regs.expectedCrc then
    { s with regs := { s.regs with crcMismatch := true } }
  else s

/-- STATUS.STORED <- 1 (44_pipeline.md R352). -/
def setStored (s : State) : State := { s with regs := { s.regs with stored := true } }

end Sys2Proof.Machine
end

