-- ==== Sys2Proof/Machine/Operands.lean ====
section
/-! DEFINITION. The operands of the commands (30_encoding.md R138): the N field, and the host registers a command reads;
and the register file itself, each register read and written under its own offset (10_state.md R42-R53). -/

namespace Sys2Proof.Machine

/-! ### Operands -/

/-- The bit count of a command: its N field as an integer (30_encoding.md R138). -/
def countOperand (n : BitVec 5) : Nat := n.toNat

/-- BW_PUT's bit-value operand, ARG[15:0] (10_state.md R53). -/
def argBits (s : State) : Nat := (s.regs.arg.extractLsb' 0 16).toNat

/-- ORIG_SIZE as an integer (10_state.md R49). -/
def origSize (s : State) : Nat := s.regs.origSize.toNat

/-- COMP_SIZE as an integer (10_state.md R50). -/
def compSize (s : State) : Nat := s.regs.compSize.toNat

/-! ### The register file -/

/-- ID (10_state.md R43). -/
def idWord : Word := 0x4C5A4831

/-- PARAM0 (10_state.md R44): BUFSIZ, THRESHOLD, M - 1, DICBIT. DESIGN CHOICE (log entry 27): a parameter that does not
fit its field reads modulo the field's range. -/
def param0Word (P : Params) : Word :=
  BitVec.ofNat 16 P.bufSiz ++ (BitVec.ofNat 4 P.threshold ++
    (BitVec.ofNat 8 (P.maxMatch - 1) ++ BitVec.ofNat 4 P.dicBit))

/-- PARAM1 (10_state.md R45): reserved, STRICT_EOF, PTTABLEBITS, CTABLEBITS, TBIT, PBIT, CBIT. DESIGN CHOICE (log entry
27): a parameter that does not fit its field, PTTABLEBITS or CTABLEBITS = 16 among them, reads modulo 16. -/
def param1Word (P : Params) : Word :=
  0#11 ++ (bit P.strictEof ++ (BitVec.ofNat 4 P.ptTableBits ++ (BitVec.ofNat 4 P.cTableBits ++
    (BitVec.ofNat 4 P.tBit ++ (BitVec.ofNat 4 P.pBit ++ BitVec.ofNat 4 P.cBit)))))

/-- The value a register reads as (10_state.md R42-R53); CMD and every reserved offset read 0. No read has a side
effect (20_memory.md R106). -/
def readReg (P : Params) (s : State) (offset : BitVec 8) : Word :=
  match offset.toNat with
  | 0x00 => idWord
  | 0x04 => param0Word P
  | 0x08 => param1Word P
  | 0x0C => ctrlWord s
  | 0x14 => statusWord s
  | 0x18 => s.regs.origSize.extractLsb' 0 32
  | 0x1C => s.regs.origSize.extractLsb' 32 32
  | 0x20 => s.regs.compSize.extractLsb' 0 32
  | 0x24 => s.regs.compSize.extractLsb' 32 32
  | 0x28 => s.regs.crc.setWidth 32
  | 0x2C => s.regs.expectedCrc.setWidth 32
  | 0x30 => s.regs.arg
  | 0x34 => s.regs.result
  | _ => 0

/-- A new low word of a 64-bit register. -/
def withLow (q : Quad) (v : Word) : Quad := q.extractLsb' 32 32 ++ v

/-- A new high word of a 64-bit register. -/
def withHigh (q : Quad) (v : Word) : Quad := v ++ q.extractLsb' 0 32

/-- A write to CTRL (10_state.md R46, 70_reset_and_hazards.md R432, R442): SRST resets the block, and then the other
bits are ignored; METHOD and CRC_CHECK keep their values while a command runs. -/
def writeCtrl (v : Word) (s : State) : State :=
  if v.getLsbD 31 then resetBlock s
  else if s.busy then s
  else { s with regs := { s.regs with method := v.getLsbD 0, crcCheck := v.getLsbD 1 } }

/-- A write to an operand register: ignored while a command runs (70_reset_and_hazards.md R442). -/
def writeOperand (f : HostRegs → HostRegs) (s : State) : State :=
  if s.busy then s else { s with regs := f s.regs }

/-- A write to a register other than CMD (10_state.md R42-R53): read-only registers and reserved offsets ignore it. -/
def writeReg (s : State) (offset : BitVec 8) (v : Word) : State :=
  match offset.toNat with
  | 0x0C => writeCtrl v s
  | 0x14 => writeStatus v s
  | 0x18 => writeOperand (fun r => { r with origSize := withLow r.origSize v }) s
  | 0x1C => writeOperand (fun r => { r with origSize := withHigh r.origSize v }) s
  | 0x20 => writeOperand (fun r => { r with compSize := withLow r.compSize v }) s
  | 0x24 => writeOperand (fun r => { r with compSize := withHigh r.compSize v }) s
  | 0x2C => writeOperand (fun r => { r with expectedCrc := v.extractLsb' 0 16 }) s
  | 0x30 => writeOperand (fun r => { r with arg := v }) s
  | _ => s

end Sys2Proof.Machine
end

