-- ==== Sys2Proof/Machine/Crc.lean ====
section
/-! DEFINITION. The CRC-16 accumulator (40_bitstream_crc.md R211-R214). -/

namespace Sys2Proof.Machine

/-- One bit of the table's construction (R211). -/
def crcShift (r : Half) : Half := if r.getLsbD 0 then (r >>> 1) ^^^ 0x8408#16 else r >>> 1

/-- `crctable[i]`, a constant of the block (R211, 20_memory.md R93). -/
def crcTable (i : Byte) : Half :=
  crcShift (crcShift (crcShift (crcShift (crcShift (crcShift (crcShift (crcShift (i.setWidth 16))))))))

/-- The value of the accumulator after one byte (R213). -/
def crcStep (crc : Half) (b : Byte) : Half := crcTable ((crc ^^^ b.setWidth 16).setWidth 8) ^^^ (crc >>> 8)

/-- CrcInit (R212). -/
def crcInit (s : State) : State := { s with crc := 0xFFFF#16 }

/-- CrcUpdate(b) (R213). -/
def crcUpdate (b : Byte) (s : State) : State := { s with crc := crcStep s.crc b }

/-- CrcFinal (R214): the accumulator is unchanged. -/
def crcFinal (s : State) : Half := s.crc ^^^ 0xFFFF#16

/-- The CRC-16 of a byte string (R214). -/
def crc16 (bs : List Byte) : Half := bs.foldl crcStep 0xFFFF#16 ^^^ 0xFFFF#16

/-- CRC[15:0] <- v (10_state.md R51). -/
def setCrcReg (v : Half) (s : State) : State := { s with regs := { s.regs with crc := v } }

/-- RESULT <- v (10_state.md R53). -/
def setResult (v : Word) (s : State) : State := { s with regs := { s.regs with result := v } }

/-- CRC_READ's effect (R217). -/
def crcRead (s : State) : State := setCrcReg (crcFinal s) (setResult ((crcFinal s).setWidth 32) s)

end Sys2Proof.Machine
end

