-- ==== Sys2Proof/Machine/Bitstream.lean ====
section
/-! DEFINITION. The bitstream unit: writer (40_bitstream_crc.md R201-R205) and reader (R206-R210). Bits are most
significant first (20_memory.md R101). -/

namespace Sys2Proof.Machine

/-! ### Writer -/

/-- BwInit(lim) (R201). -/
def bwInit (lim : Quad) (s : State) : State :=
  { s with bw := { wacc := 0, wn := 0, compsize := 0, limit := lim, unpackable := false } }

/-- One bit enters the pending bits (R203). -/
def appendBit (b : Bool) (w : Writer) : Writer :=
  { w with wacc := (w.wacc <<< 1) ||| (bit b).setWidth 8, wn := w.wn + 1 }

/-- PutBits, one bit a step, bit `n-1` of `x` first (R203): a completed byte goes to EmitByte, and then the pending
bits are cleared. Only bits below `n` are ever looked at. -/
def putBitsTask (n x : Nat) (s : State) : State :=
  match n with
  | 0 => s
  | i + 1 =>
    let w := appendBit (x.testBit i) s.bw
    let s1 := { s with bw := w }
    if w.wn = 8 then push [.emitByte w.wacc, .clearAcc, .putBits i x] s1 else push [.putBits i x] s1

/-- `wacc <- 0; wn <- 0` (R203). -/
def clearAccTask (s : State) : State := { s with bw := { s.bw with wacc := 0, wn := 0 } }

/-- EmitByte(b) (R204): below the ceiling the byte goes to the sink, at the ceiling it is dropped. -/
def emitByteTask (b : Byte) (s : State) : Except Port State :=
  if s.bw.compsize.toNat < s.bw.limit.toNat then
    match snkWrite b s with
    | .error p => .error p
    | .ok s1 => .ok { s1 with bw := { s1.bw with compsize := s1.bw.compsize + 1 } }
  else .ok (setUnpackable s)

/-- The operations of one PutBits(n, x). -/
def putBits (n x : Nat) : Task := .putBits n x

/-- BwFlush (R205). -/
def bwFlushTasks : List Task := [putBits 7 0]

/-! ### Reader -/

/-- BrInit up to its Fill (R206). -/
def brInit (csize : Quad) (s : State) : State :=
  { s with br := { s.br with bitbuf := 0, subbuf := 0, subn := 0, csize := csize, remaining := csize } }

/-- The rest of BrInit: Fill(16), then `consumed <- 0` (R206). -/
def brInitTasks : List Task := [.fill 16, .brInitEnd]

/-- `consumed <- 0` (R206). -/
def brInitEndTask (s : State) : State := { s with br := { s.br with consumed := 0 } }

/-- FetchByte (R207): the next compressed byte, 0 past the declared size. -/
def fetchByte (s : State) : Except Port (Byte × State) :=
  if s.br.remaining.toNat = 0 then .ok (0, s)
  else
    match srcRead s with
    | .error p => .error p
    | .ok (b, s1) => .ok (b, { s1 with br := { s1.br with remaining := s1.br.remaining - 1 } })

/-- Fill(n): its shift (R209). -/
def fillTask (n : Nat) (s : State) : State :=
  push [.fillLoop n] { s with br := { s.br with bitbuf := s.br.bitbuf <<< n } }

/-- Fill(n): one turn of its loop, or its end (R209). -/
def fillLoopTask (n : Nat) (s : State) : Except Port State :=
  if s.br.subn < n then
    let m := n - s.br.subn
    match fetchByte s with
    | .error p => .error p
    | .ok (b, s1) =>
      .ok (push [.fillLoop m] { s1 with br := { s1.br with
        bitbuf := s1.br.bitbuf ||| (s1.br.subbuf.setWidth 16 <<< m), subbuf := b, subn := 8 } })
  else
    let k := s.br.subn - n
    .ok { s with br := { s.br with
      bitbuf := s.br.bitbuf ||| (s.br.subbuf >>> k).setWidth 16
      subbuf := s.br.subbuf &&& BitVec.ofNat 8 (2 ^ k - 1)
      subn := k } }

/-- PeekBits(n) (R208): `bitbuf >> (16 - n)`. DESIGN CHOICE (log entry 30): for `n` above 16, which only a build with a
field wider than R14 allows asks for, the whole of `bitbuf`. -/
def peekBits (n : Nat) (s : State) : Nat := (s.br.bitbuf >>> (16 - n)).toNat

/-- Advance(n) (R209): the count, then the STRICT_EOF check before anything else changes, then Fill(n). DESIGN CHOICE (log
entry 31): in a STRICT_EOF build whose `consumed` is already past the end, Advance(0) faults too, as the pseudocode
has it. -/
def advanceTask (P : Params) (n : Nat) (s : State) : State :=
  let s1 := { s with br := { s.br with consumed := s.br.consumed + BitVec.ofNat 64 n } }
  if P.strictEof = true ∧ 8 * s1.br.csize.toNat < s1.br.consumed.toNat then raise .malformedInput s1
  else push [.fill n] s1

/-- GetBits(n) for a rule that goes on with the bits: Advance(n), then what comes next (R210). The bits themselves are
`peekBits n`, taken before the advance. -/
def afterBits (n : Nat) (next : Task) (s : State) : State := push [.advance n, next] s

end Sys2Proof.Machine
end

