-- ==== Sys2Proof/Machine/HuffDecode.lean ====
section
/-! DEFINITION. The table-driven Huffman decoder with tree fallback (42_huffman_decode.md R270-R285). -/

namespace Sys2Proof.Machine

/-! ### MakeTable (R275, R276) -/

/-- `count[k]` (R275). -/
def lenCount (nchar : Nat) (len : Nat → Nat) : Memory Nat :=
  (List.range nchar).foldl (fun c i => memWrite 0 c (len i) (memRead 0 c (len i) + 1)) []

/-- `start[1] = 0`, `start[k+1] = start[k] + (count[k] << (16 - k))` (R275): left-aligned 16-bit first codes. -/
def tableStart (count : Memory Nat) : Nat → Nat
  | 0 => 0
  | 1 => 0
  | k + 2 => tableStart count (k + 1) + memRead 0 count (k + 1) * 2 ^ (16 - (k + 1))

/-- A table under construction. -/
structure TableBuild where
  /-- `start[k]`. -/
  start : Memory Nat
  lookup : Memory Half
  left : Memory Half
  right : Memory Half
  /-- The next tree node's number. -/
  avail : Nat
deriving DecidableEq, Repr

/-- A storage place of a table (R275). -/
inductive Slot where
  | entry (i : Nat)
  | left (i : Nat)
  | right (i : Nat)
deriving DecidableEq, Repr

/-- What a place holds; `none` is EMPTY (R275). -/
def slotGet (b : TableBuild) : Slot → Option Half
  | .entry i => cellGet b.lookup i
  | .left i => cellGet b.left i
  | .right i => cellGet b.right i

/-- `slot <- v` (R275). -/
def slotPut (b : TableBuild) (v : Half) : Slot → TableBuild
  | .entry i => { b with lookup := cellPut b.lookup i v }
  | .left i => { b with left := cellPut b.left i v }
  | .right i => { b with right := cellPut b.right i v }

/-- The tree node a place leads to, a new one where it is EMPTY (R275). -/
def slotNode (b : TableBuild) (slot : Slot) : TableBuild × Nat :=
  match slotGet b slot with
  | some v => (b, v.toNat)
  | none =>
    let k := b.avail
    (slotPut { b with left := cellDrop b.left k, right := cellDrop b.right k, avail := k + 1 }
      (BitVec.ofNat 16 k) slot, k)

/-- The walk of a code longer than the table width (R275): so many bits of `code`, each tested at bit `mask`, the code
moving left under it. -/
def walkSlot (mask : Nat) : Nat → TableBuild → Slot → Nat → TableBuild × Slot
  | 0, b, slot, _ => (b, slot)
  | steps + 1, b, slot, code =>
    let node := slotNode b slot
    walkSlot mask steps node.1 (if code.testBit mask then .right node.2 else .left node.2) (code * 2 % 2 ^ 16)

/-- `weight[k]` (R275). -/
def tableWeight (tb k : Nat) : Nat := if k ≤ tb then 2 ^ (tb - k) else 2 ^ (16 - k)

/-- One symbol enters the table (R275). -/
def addSymbol (tb ch k : Nat) (b : TableBuild) : TableBuild :=
  if k = 0 then b
  else
    let st := memRead 0 b.start k
    let next := st + tableWeight tb k
    let b1 :=
      if k ≤ tb then { b with lookup := cellFill b.lookup st next (BitVec.ofNat 16 ch) }
      else
        let w := walkSlot (15 - tb) (k - tb) b (.entry (st / 2 ^ (16 - tb))) st
        slotPut w.1 (BitVec.ofNat 16 ch) w.2
    { b1 with start := memWrite 0 b1.start k next }

/-- MakeTable(nchar, bitlen, tablebits) (R275); `none` is the failed Kraft check (R276). -/
def makeTable (nchar : Nat) (len : Nat → Nat) (tb : Nat) : Option Table :=
  let count := lenCount nchar len
  if tableStart count 17 ≠ 2 ^ 16 then none
  else
    let start := memInit 0 17
      (fun k => if k ≤ tb then tableStart count k / 2 ^ (16 - tb) else tableStart count k) []
    let b := (List.range nchar).foldl (fun b ch => addSymbol tb ch (len ch) b)
      { start := start, lookup := [], left := [], right := [], avail := nchar }
    some (.coded b.lookup b.left b.right)

/-! ### TableDecode (R279, R280) -/

/-- The tree walk from node or symbol `j`, the next bit tested being `fuel - 1` (R280); `none` past bit 0. -/
def walkTree (bitbuf : Half) (left right : Memory Half) (nchar : Nat) : Nat → Nat → Option Nat
  | fuel, j =>
    if j < nchar then some j
    else
      match fuel with
      | 0 => none
      | f + 1 => walkTree bitbuf left right nchar f (halfAt (if bitbuf.getLsbD f then right else left) j)

/-- The symbol TableDecode finds in the next 16 bits (R280); `none` is the walk guard. -/
def lookupSymbol (tab : Table) (tb nchar : Nat) (s : State) : Option Nat :=
  match tab with
  | .const c => some c
  | .coded lookup left right =>
    walkTree s.br.bitbuf left right nchar (16 - tb) (halfAt lookup (peekBits tb s))

/-- TableDecode for a rule that goes on with the symbol (R280): a degenerate table consumes no bits and does not
advance, a coded one advances by the symbol's length. -/
def tableDecode (tab : Table) (len : Memory Len) (tb nchar : Nat) (next : Nat → Task) (s : State) : State :=
  match lookupSymbol tab tb nchar s with
  | none => raise .malformedInput s
  | some j =>
    match tab with
    | .const _ => push [next j] s
    | .coded _ _ _ => push [.advance (lenAt len j), next j] s

/-! ### Stream start and block header (R270, R271) -/

/-- The end of HufDecodeStart (R270). -/
def hufDecodeStartTask (s : State) : State := { s with dec := { s.dec with blocksize := 0 } }

/-- ReadBlockHeader: the size field (R271). -/
def readHeaderTask (P : Params) (s : State) : State := afterBits P.sizeBit (.gotSize (peekBits P.sizeBit s)) s

/-- ReadBlockHeader with the size (R271). -/
def gotSizeTask (x : Nat) (s : State) : State :=
  let s1 := { s with dec := { s.dec with blocksize := BitVec.ofNat 16 x } }
  if x = 0 then raise .malformedInput s1 else push [.readPt .t, .readC, .readPt .p] s1

/-! ### ReadPtLen (R272) -/

/-- The alphabet size `nn`. -/
def ptAlphabet (P : Params) : PtKind → Nat
  | .t => P.nt
  | .p => P.np

/-- The field width `nbit`. -/
def ptBits (P : Params) : PtKind → Nat
  | .t => P.tBit
  | .p => P.pBit

/-- The skip position `special`: 3 for T, none for P. -/
def ptSpecial : PtKind → Option Nat
  | .t => some 3
  | .p => none

/-- The lengths being read. -/
def ptLens (w : PtKind) (d : DecBlock) : Memory Len :=
  match w with
  | .t => d.tLen
  | .p => d.pLen

/-- Replace the lengths being read. -/
def setPtLens (w : PtKind) (m : Memory Len) (d : DecBlock) : DecBlock :=
  match w with
  | .t => { d with tLen := m }
  | .p => { d with pLen := m }

/-- Replace the table. -/
def setPtTable (w : PtKind) (tab : Table) (d : DecBlock) : DecBlock :=
  match w with
  | .t => { d with tTab := tab }
  | .p => { d with pTab := tab }

/-- `for j in i..<nn: len[j] <- 0`. -/
def zeroLens (i nn : Nat) (m : Memory Len) : Memory Len :=
  (List.range' i (nn - i)).foldl (fun m j => memWrite 0 m j 0) m

/-- `len[i] <- k`. -/
def writePtLenAt (w : PtKind) (i k : Nat) (s : State) : State :=
  { s with dec := setPtLens w (memWrite 0 (ptLens w s.dec) i (BitVec.ofNat 5 k)) s.dec }

/-- `for j in i..<nn: len[j] <- 0`. -/
def zeroPtFrom (w : PtKind) (i nn : Nat) (s : State) : State :=
  { s with dec := setPtLens w (zeroLens i nn (ptLens w s.dec)) s.dec }

/-- ReadPtLen: the table size field. -/
def readPtTask (P : Params) (w : PtKind) (s : State) : State :=
  afterBits (ptBits P w) (.ptCount w (peekBits (ptBits P w) s)) s

/-- ReadPtLen with the table size: degenerate, too large, or a coded table. -/
def ptCountTask (P : Params) (w : PtKind) (n : Nat) (s : State) : State :=
  if n = 0 then afterBits (ptBits P w) (.ptConst w (peekBits (ptBits P w) s)) s
  else if ptAlphabet P w < n then raise .malformedInput s
  else push [.ptLoop w n 0] s

/-- ReadPtLen's degenerate form. -/
def ptConstTask (P : Params) (w : PtKind) (c : Nat) (s : State) : State :=
  if ptAlphabet P w ≤ c then raise .malformedInput s
  else
    let s1 := zeroPtFrom w 0 (ptAlphabet P w) s
    { s1 with dec := setPtTable w (.const c) s1.dec }

/-- The further one bits of a long length field, counted from bit `fuel - 1` of `bitbuf` down (R272, R273). -/
def countOnes (bitbuf : Half) : Nat → Nat
  | 0 => 0
  | f + 1 => if bitbuf.getLsbD f then countOnes bitbuf f + 1 else 0

/-- The length a `ptlen` field stands for, from the peeked bits (R272): up to 20 can be seen. -/
def peekPtLen (s : State) : Nat :=
  let k := peekBits 3 s
  if k = 7 then 7 + countOnes s.br.bitbuf 13 else k

/-- ReadPtLen's loop: the next length field, or the end with MakeTable. -/
def ptLoopTask (P : Params) (w : PtKind) (n i : Nat) (s : State) : State :=
  if i < n then
    let k := peekPtLen s
    if 16 < k then raise .malformedInput s
    else push [.advance (if k < 7 then 3 else k - 3), .ptLen w n i k] s
  else
    let s1 := zeroPtFrom w i (ptAlphabet P w) s
    match makeTable (ptAlphabet P w) (lenAt (ptLens w s1.dec)) P.ptTableBits with
    | none => raise .malformedInput s1
    | some tab => { s1 with dec := setPtTable w tab s1.dec }

/-- ReadPtLen with a length: it is stored, and after the third one of a T table the skip field follows. -/
def ptLenTask (w : PtKind) (n i k : Nat) (s : State) : State :=
  let s1 := writePtLenAt w i k s
  if ptSpecial w = some (i + 1) then afterBits 2 (.ptSkip w n (i + 1) (peekBits 2 s1)) s1
  else push [.ptLoop w n (i + 1)] s1

/-- ReadPtLen: the zeros of the skip field, one at a time. -/
def ptSkipTask (P : Params) (w : PtKind) (n i z : Nat) (s : State) : State :=
  match z with
  | 0 => push [.ptLoop w n i] s
  | z' + 1 =>
    if ptAlphabet P w ≤ i then raise .malformedInput s
    else push [.ptSkip w n (i + 1) z'] (writePtLenAt w i 0 s)

/-! ### ReadCLen (R274) -/

/-- `c_len[i] <- k`. -/
def writeCLenAt (i k : Nat) (s : State) : State :=
  { s with dec := { s.dec with cLen := memWrite 0 s.dec.cLen i (BitVec.ofNat 5 k) } }

/-- `for j in i..<NC: c_len[j] <- 0`. -/
def zeroCFrom (i nc : Nat) (s : State) : State :=
  { s with dec := { s.dec with cLen := zeroLens i nc s.dec.cLen } }

/-- ReadCLen: the table size field. -/
def readCTask (P : Params) (s : State) : State := afterBits P.cBit (.cCount (peekBits P.cBit s)) s

/-- ReadCLen with the table size: degenerate, too large, or a coded table. -/
def cCountTask (P : Params) (n : Nat) (s : State) : State :=
  if n = 0 then afterBits P.cBit (.cConst (peekBits P.cBit s)) s
  else if P.nc < n then raise .malformedInput s
  else push [.cLoop n 0] s

/-- ReadCLen's degenerate form. -/
def cConstTask (P : Params) (c : Nat) (s : State) : State :=
  if P.nc ≤ c then raise .malformedInput s
  else
    let s1 := zeroCFrom 0 P.nc s
    { s1 with dec := { s1.dec with cTab := .const c } }

/-- ReadCLen's loop: the next T symbol, or the end with MakeTable. -/
def cLoopTask (P : Params) (n i : Nat) (s : State) : State :=
  if i < n then tableDecode s.dec.tTab s.dec.tLen P.ptTableBits P.nt (fun y => .cSym n i y) s
  else
    let s1 := zeroCFrom i P.nc s
    match makeTable P.nc (lenAt s1.dec.cLen) P.cTableBits with
    | none => raise .malformedInput s1
    | some tab => { s1 with dec := { s1.dec with cTab := tab } }

/-- ReadCLen with a T symbol: a run of zero lengths, with its count field, or one length. -/
def cSymTask (P : Params) (n i y : Nat) (s : State) : State :=
  if y = 0 then push [.cRun n i 1] s
  else if y = 1 then afterBits 4 (.cRun n i (peekBits 4 s + 3)) s
  else if y = 2 then afterBits P.cBit (.cRun n i (peekBits P.cBit s + 20)) s
  else push [.cLoop n (i + 1)] (writeCLenAt i (y - 2) s)

/-- ReadCLen: a run of zero lengths, one at a time. -/
def cRunTask (P : Params) (n i r : Nat) (s : State) : State :=
  match r with
  | 0 => push [.cLoop n i] s
  | r' + 1 =>
    if P.nc ≤ i then raise .malformedInput s
    else push [.cRun n (i + 1) r'] (writeCLenAt i 0 s)

/-! ### Symbols (R281, R282) -/

/-- DecodeC: a block header is read when its first symbol is wanted (R281). -/
def decodeCTask (s : State) : State :=
  if s.dec.blocksize = 0 then push [.readHeader, .decodeSym] s else push [.decodeSym] s

/-- DecodeC: the codeword (R281). -/
def decodeSymTask (P : Params) (s : State) : State :=
  let s1 := { s with dec := { s.dec with blocksize := s.dec.blocksize - 1 } }
  tableDecode s1.dec.cTab s1.dec.cLen P.cTableBits P.nc (fun c => .gotC c) s1

/-- DecodeP: the codeword (R282). -/
def decodePTask (P : Params) (len : Nat) (s : State) : State :=
  tableDecode s.dec.pTab s.dec.pLen P.ptTableBits P.np (fun j => .gotP len j) s

/-- DecodeP with the class: the extra bits give the distance (R282). -/
def gotPTask (len j : Nat) (s : State) : State :=
  if j = 0 then push [.copyMatch len 0] s
  else afterBits (j - 1) (.copyMatch len (2 ^ (j - 1) + peekBits (j - 1) s)) s

end Sys2Proof.Machine
end

