-- ==== Sys2Proof/Machine/HuffEncode.lean ====
section
/-! DEFINITION. The canonical Huffman encoder (41_huffman_encode.md R230-R251): the tree builder, the token buffer, the
table writers and the block emitter. -/

namespace Sys2Proof.Machine

/-! ### Heap (R231, R232) -/

/-- `freq[x]`: the symbols' own frequencies below `n`, the inner nodes' in the scratch (R231). -/
def nodeFreq (n : Nat) (f : Nat → Nat) (inner : Memory Nat) (x : Nat) : Nat :=
  if x < n then f x else memRead 0 inner x

/-- DownHeap's loop for the node `k`, now at position `i` (R232); `i` doubles, so `size` turns are enough. -/
def downHeapLoop (fr : Nat → Nat) (size k : Nat) : Nat → Nat → Memory Nat → Memory Nat
  | 0, i, h => memWrite 0 h i k
  | fuel + 1, i, h =>
    if 2 * i ≤ size then
      let j := if 2 * i < size ∧ fr (memRead 0 h (2 * i + 1)) < fr (memRead 0 h (2 * i)) then 2 * i + 1 else 2 * i
      if fr k ≤ fr (memRead 0 h j) then memWrite 0 h i k
      else downHeapLoop fr size k fuel j (memWrite 0 h i (memRead 0 h j))
    else memWrite 0 h i k

/-- DownHeap(i) (R232). -/
def downHeap (fr : Nat → Nat) (size i : Nat) (h : Memory Nat) : Memory Nat :=
  downHeapLoop fr size (memRead 0 h i) size i h

/-- The heap's initial fill, in symbol order, from `heap[1] <- 0` on (R231): the heap and its size. -/
def fillHeap (n : Nat) (f : Nat → Nat) (h : Memory Nat) : Memory Nat × Nat :=
  (List.range n).foldl
    (fun (acc : Memory Nat × Nat) i => if f i ≠ 0 then (memWrite 0 acc.1 (acc.2 + 1) i, acc.2 + 1) else acc)
    (memWrite 0 h 1 0, 0)

/-- `for i in floor(size / 2) down to 1: DownHeap(i)` (R231). -/
def heapify (fr : Nat → Nat) (size : Nat) : Nat → Memory Nat → Memory Nat
  | 0, h => h
  | i + 1, h => heapify fr size i (downHeap fr size (i + 1) h)

/-- Append a node to the sort list when it is a leaf (R231). -/
def noteLeaf (n i : Nat) (l : List Nat) : List Nat := if i < n then l ++ [i] else l

/-- MakeTree's loop (R231): the root and the scratch. Each turn makes the heap one smaller, so `size` turns are enough. -/
def mergeNodes (n : Nat) (f : Nat → Nat) : Nat → Nat → Nat → TreeScratch → Nat × TreeScratch
  | 0, _, avail, s => (avail - 1, s)
  | fuel + 1, size, avail, s =>
    let i := memRead 0 s.heap 1
    let h1 := memWrite 0 s.heap 1 (memRead 0 s.heap size)
    let size' := size - 1
    let h2 := downHeap (nodeFreq n f s.freq) size' 1 h1
    let j := memRead 0 h2 1
    let k := avail
    let freq' := memWrite 0 s.freq k (nodeFreq n f s.freq i + nodeFreq n f s.freq j)
    let h3 := downHeap (nodeFreq n f freq') size' 1 (memWrite 0 h2 1 k)
    let s' : TreeScratch := { s with
      heap := h3, freq := freq', left := memWrite 0 s.left k i, right := memWrite 0 s.right k j
      sortlist := noteLeaf n j (noteLeaf n i s.sortlist) }
    if size' ≤ 1 then (k, s') else mergeNodes n f fuel size' (avail + 1) s'

/-! ### Lengths (R235-R237) -/

/-- CountLen (R235), a depth first walk; a tree of `n` leaves is less than `n` deep. -/
def countLen (n : Nat) (left right : Memory Nat) : Nat → Nat → Nat → Memory Nat → Memory Nat
  | 0, _, _, cnt => cnt
  | fuel + 1, x, d, cnt =>
    if x < n then memWrite 0 cnt (min d 16) (memRead 0 cnt (min d 16) + 1)
    else
      countLen n left right fuel (memRead 0 right x) (d + 1)
        (countLen n left right fuel (memRead 0 left x) (d + 1) cnt)

/-- `cum`, the Kraft sum in units of `2^-16` (R236). -/
def kraftSum (cnt : Memory Nat) : Nat :=
  (List.range' 1 16).foldl (fun a i => a + memRead 0 cnt i * 2 ^ (16 - i)) 0

/-- The longest length below 16 that some leaf has, searched from `i` down (R236). -/
def longestBelow (cnt : Memory Nat) : Nat → Option Nat
  | 0 => none
  | i + 1 => if memRead 0 cnt (i + 1) ≠ 0 then some (i + 1) else longestBelow cnt i

/-- The length limit's loop (R236). Each turn makes `cum` one smaller; `.error` is InternalInconsistency. -/
def limitLens : Nat → Nat → Memory Nat → Checked (Memory Nat)
  | fuel, cum, cnt =>
    if cum = 2 ^ 16 then .ok cnt
    else
      let cnt1 := memWrite 0 cnt 16 (memRead 0 cnt 16 - 1)
      match fuel, longestBelow cnt1 15 with
      | f + 1, some i =>
        let cnt2 := memWrite 0 cnt1 i (memRead 0 cnt1 i - 1)
        limitLens f (cum - 1) (memWrite 0 cnt2 (i + 1) (memRead 0 cnt2 (i + 1) + 2))
      | _, _ => .error cnt1

/-- The lengths in the order they are handed out: 16 first, each as often as it is counted (R237). -/
def lengthOrder (cnt : Memory Nat) : List Nat :=
  ((List.range' 1 16).reverse).flatMap fun i => List.replicate (memRead 0 cnt i) i

/-- Hand the lengths out in `sortlist` order (R237). -/
def assignLens (sortlist : List Nat) (cnt : Memory Nat) (len : Memory Len) : Memory Len :=
  (sortlist.zip (lengthOrder cnt)).foldl (fun m e => memWrite 0 m e.1 (BitVec.ofNat 5 e.2)) len

/-! ### Codes (R238, 30_encoding.md R136) -/

/-- `count[k]`: how many of the `n` symbols have length `k`. -/
def lenCounts (n : Nat) (len : Nat → Nat) : Memory Nat :=
  (List.range n).foldl (fun c i => memWrite 0 c (len i) (memRead 0 c (len i) + 1)) []

/-- `start[1] = 0`, `start[k+1] = (start[k] + count[k]) << 1` (R136, R238). -/
def codeStart (count : Memory Nat) : Nat → Nat
  | 0 => 0
  | 1 => 0
  | k + 2 => (codeStart count (k + 1) + memRead 0 count (k + 1)) * 2

/-- MakeCode (R238): the codes, `none` where the Kraft equality fails. -/
def makeCode (n : Nat) (len : Nat → Nat) : Option (Memory Half) :=
  let count := lenCounts n len
  if codeStart count 17 ≠ 2 ^ 17 then none
  else
    let start : Memory Nat := memInit 0 17 (codeStart count) []
    some ((List.range n).foldl
      (fun (acc : Memory Nat × Memory Half) i =>
        if 0 < len i then
          (memWrite 0 acc.1 (len i) (memRead 0 acc.1 (len i) + 1),
            memWrite 0 acc.2 i (BitVec.ofNat 16 (memRead 0 acc.1 (len i))))
        else acc)
      (start, [])).2

/-! ### MakeTree (R231) -/

/-- What MakeTree gives. -/
structure TreeOut where
  root : Nat
  /-- `freq[root]`. -/
  size : Nat
  len : Memory Len
  code : Memory Half
  scratch : TreeScratch
  /-- Did every invariant check pass? Where not, InternalInconsistency is raised (R236, R238). -/
  ok : Bool
deriving DecidableEq, Repr

/-- MakeTree(n, freq) on the scratch memories (R231, R234). -/
def makeTree (n : Nat) (f : Nat → Nat) (s : TreeScratch) : TreeOut :=
  let filled := fillHeap n f s.heap
  let s1 : TreeScratch := { s with heap := filled.1 }
  if filled.2 < 2 then
    let root := memRead 0 filled.1 1
    { root := root, size := f root, len := [], code := [], scratch := s1, ok := true }
  else
    let h := heapify (nodeFreq n f s1.freq) filled.2 (filled.2 / 2) filled.1
    let merged := mergeNodes n f filled.2 filled.2 n { s1 with heap := h, sortlist := [] }
    let root := merged.1
    let s2 := merged.2
    let size := nodeFreq n f s2.freq root
    let cnt := countLen n s2.left s2.right n root 0 []
    match limitLens (kraftSum cnt) (kraftSum cnt) cnt with
    | .error cnt1 =>
      { root := root, size := size, len := [], code := [], scratch := { s2 with lenCnt := cnt1 }, ok := false }
    | .ok cnt1 =>
      let s3 := { s2 with lenCnt := cnt1 }
      let len := assignLens s2.sortlist cnt1 []
      match makeCode n (lenAt len) with
      | none => { root := root, size := size, len := len, code := [], scratch := s3, ok := false }
      | some code => { root := root, size := size, len := len, code := code, scratch := s3, ok := true }

/-! ### Token buffer (R239, R240) -/

/-- PClass(p) (R245, 30_encoding.md R133): the bit length of `p`. -/
def pClass (p : Nat) : Nat := if p = 0 then 0 else Nat.log2 p + 1

/-- Output after its group is open: the token is stored and counted (R239, R240). -/
def recordToken (c p : Nat) (e : EncBlock) : EncBlock :=
  let cb : Byte := BitVec.ofNat 8 c
  let e1 := { e with
    buf := memWrite 0 e.buf e.bufpos cb, bufpos := e.bufpos + 1
    cFreq := memWrite 0 e.cFreq c (memRead 0 e.cFreq c + 1) }
  if c < 256 then e1
  else
    { e1 with
      buf := memWrite 0 (memWrite 0 (memWrite 0 e1.buf e1.cpos (memRead 0 e1.buf e1.cpos ||| e1.flagmask))
          e1.bufpos (BitVec.ofNat 8 (p / 256))) (e1.bufpos + 1) (BitVec.ofNat 8 p)
      bufpos := e1.bufpos + 2
      pFreq := memWrite 0 e1.pFreq (pClass p) (memRead 0 e1.pFreq (pClass p) + 1) }

/-- Output's new group: `cpos <- bufpos; buf[cpos] <- 0; bufpos <- bufpos + 1` (R240). -/
def openGroup (e : EncBlock) : EncBlock :=
  { e with cpos := e.bufpos, buf := memWrite 0 e.buf e.bufpos 0, bufpos := e.bufpos + 1 }

/-- Output(c, p) (R240): a block that would overflow is sent first. -/
def outputTask (P : Params) (c p : Nat) (s : State) : State :=
  let mask := s.enc.flagmask >>> 1
  if mask ≠ 0 then { s with enc := recordToken c p { s.enc with flagmask := mask } }
  else
    let e := { s.enc with flagmask := 0x80 }
    if P.bufSiz - 24 ≤ e.bufpos then push [.sendBlock, .outputAfterBlock c p] { s with enc := e }
    else { s with enc := recordToken c p (openGroup e) }

/-- Output after its SendBlock (R240): the token is dropped when the block tripped `unpackable`. -/
def outputAfterBlockTask (c p : Nat) (s : State) : State :=
  if s.bw.unpackable then s
  else { s with enc := recordToken c p (openGroup { s.enc with bufpos := 0 }) }

/-! ### Table writers (R241-R245) -/

/-- One more than the index of the last non-zero length among the first `n` (R241-R243). -/
def usedLens (len : Nat → Nat) : Nat → Nat
  | 0 => 0
  | n + 1 => if len n = 0 then usedLens len n else n + 1

/-- The zero run of the lengths from `i` up to `n`: how many zeros stand there (R241, R243). -/
def zeroRun (len : Nat → Nat) (n : Nat) : Nat → Nat → Nat
  | 0, _ => 0
  | fuel + 1, i => if i < n ∧ len i = 0 then zeroRun len n fuel (i + 1) + 1 else 0

/-- The C lengths as items: `(0, r)` a maximal zero run of `r`, `(k, 1)` one length `k` (30_encoding.md R127, R129). -/
def lenItems (len : Nat → Nat) (n : Nat) : Nat → Nat → List (Nat × Nat)
  | 0, _ => []
  | fuel + 1, i =>
    if i < n then
      if len i = 0 then
        let r := zeroRun len n (n - i) i
        (0, r) :: lenItems len n fuel (i + r)
      else (len i, 1) :: lenItems len n fuel (i + 1)
    else []

/-- The items of the whole C table (R241, R243). -/
def cItems (len : Nat → Nat) (nc : Nat) : List (Nat × Nat) :=
  lenItems len (usedLens len nc) (usedLens len nc) 0

/-- The T symbols an item is sent with, each with the counts they carry: symbol, then (width, value) of its count
field if it has one (R243, 30_encoding.md R127, R129). -/
def itemSymbols (P : Params) (it : Nat × Nat) : List (Nat × Option (Nat × Nat)) :=
  if it.1 ≠ 0 then [(it.1 + 2, none)]
  else if it.2 ≤ 2 then List.replicate it.2 (0, none)
  else if it.2 ≤ 18 then [(1, some (4, it.2 - 3))]
  else if it.2 = 19 then [(0, none), (1, some (4, 15))]
  else [(2, some (P.cBit, it.2 - 20))]

/-- CountTFreq(c_len) (R241): every T symbol WriteCLen will send is counted. -/
def countTFreq (P : Params) (len : Nat → Nat) : Memory Half :=
  ((cItems len P.nc).flatMap (itemSymbols P)).foldl (fun m y => memWrite 0 m y.1 (memRead 0 m y.1 + 1)) []

/-- The zeros among lengths 3, 4, 5 from `i` on, skipped by the skip field (R242). -/
def skipZeros (len : Nat → Nat) : Nat → Nat → Nat
  | 0, i => i
  | fuel + 1, i => if i < 6 ∧ len i = 0 then skipZeros len fuel (i + 1) else i

/-- The `ptlen` field of a length: its width and value (30_encoding.md R125). -/
def ptLenField (k : Nat) : Nat × Nat := if k ≤ 6 then (3, k) else (k - 3, 2 ^ (k - 3) - 2)

/-- WritePtLen's loop (R242): the fields of the lengths from `i` on, with the skip field after length `special - 1`. -/
def ptFields (len : Nat → Nat) (n : Nat) (special : Option Nat) : Nat → Nat → List (Nat × Nat)
  | 0, _ => []
  | fuel + 1, i =>
    if i < n then
      if special = some (i + 1) then
        let i' := skipZeros len 6 (i + 1)
        ptLenField (len i) :: (2, (i' - 3) % 4) :: ptFields len n special fuel i'
      else ptLenField (len i) :: ptFields len n special fuel (i + 1)
    else []

/-- WritePtLen(len, nn, nbit, special) (R242), as the (width, value) pairs it puts. -/
def writePtLen (len : Nat → Nat) (nn nbit : Nat) (special : Option Nat) : List (Nat × Nat) :=
  let n := usedLens len nn
  (nbit, n) :: ptFields len n special n 0

/-- WriteCLen(c_len, t_len, t_code) (R243), as the (width, value) pairs it puts. -/
def writeCLen (P : Params) (len tLen tCode : Nat → Nat) : List (Nat × Nat) :=
  (P.cBit, usedLens len P.nc) ::
    ((cItems len P.nc).flatMap (itemSymbols P)).flatMap fun y =>
      (tLen y.1, tCode y.1) :: y.2.toList

/-- The puts of a list of (width, value) pairs, in order. -/
def putAll (l : List (Nat × Nat)) : List Task := l.map fun e => putBits e.1 e.2

/-- EncodeC(c) (R244). -/
def encodeC (e : EncBlock) (c : Nat) : List (Nat × Nat) := [(lenAt e.cLen c, halfAt e.cCode c)]

/-- EncodeP(p) (R245). -/
def encodeP (e : EncBlock) (p : Nat) : List (Nat × Nat) :=
  let j := pClass p
  (lenAt e.pLen j, halfAt e.pCode j) :: if 1 < j then [(j - 1, p % 2 ^ (j - 1))] else []

/-! ### Block operations (R247-R250) -/

/-- HufEncodeStart (R247). -/
def hufEncodeStart (s : State) : State :=
  bwInit s.regs.origSize { s with enc := { s.enc with cFreq := [], pFreq := [], bufpos := 0, flagmask := 0, cpos := 0 } }

/-- HufEncodeEnd (R248). -/
def hufEncodeEndTask (s : State) : State :=
  if s.bw.unpackable then s else push (.sendBlock :: bwFlushTasks) s

/-- SendBlock: the C tree and the size field (R249). -/
def sendBlockTask (P : Params) (s : State) : State :=
  let t := makeTree P.nc (halfAt s.enc.cFreq) s.enc.scratch
  let s1 := { s with enc := { s.enc with cLen := t.len, cCode := t.code, scratch := t.scratch } }
  if t.ok then push [putBits P.sizeBit t.size, .sendTables t.root, .sendPTable, .sendToken t.size 0 0 0] s1
  else raise .internalInconsistency s1

/-- SendBlock: the T and C tables (R249). -/
def sendTablesTask (P : Params) (root : Nat) (s : State) : State :=
  if P.nc ≤ root then
    let tf := countTFreq P (lenAt s.enc.cLen)
    let t := makeTree P.nt (halfAt tf) s.enc.scratch
    let s1 := { s with enc := { s.enc with tFreq := tf, tLen := t.len, tCode := t.code, scratch := t.scratch } }
    if t.ok then
      push (putAll ((if P.nt ≤ t.root then writePtLen (lenAt t.len) P.nt P.tBit (some 3)
          else [(P.tBit, 0), (P.tBit, t.root)]) ++
        writeCLen P (lenAt s.enc.cLen) (lenAt t.len) (halfAt t.code))) s1
    else raise .internalInconsistency s1
  else push (putAll [(P.tBit, 0), (P.tBit, 0), (P.cBit, 0), (P.cBit, root)]) s

/-- SendBlock: the P tree and table (R249). -/
def sendPTableTask (P : Params) (s : State) : State :=
  let t := makeTree P.np (halfAt s.enc.pFreq) s.enc.scratch
  let s1 := { s with enc := { s.enc with pLen := t.len, pCode := t.code, scratch := t.scratch } }
  if t.ok then
    push (putAll (if P.np ≤ t.root then writePtLen (lenAt t.len) P.np P.pBit none
      else [(P.pBit, 0), (P.pBit, t.root)])) s1
  else raise .internalInconsistency s1

/-- SendBlock's token loop (R249): read token `t` back from the buffer and send it, or, past the last one, clear the
counts. -/
def sendTokenTask (size t k : Nat) (flags : Byte) (s : State) : State :=
  if t < size then
    let head := t % 8 = 0
    let fl : Byte := if head then memRead 0 s.enc.buf k else flags <<< 1
    let k1 := if head then k + 1 else k
    if fl.getLsbD 7 then
      let c := (memRead 0 s.enc.buf k1).toNat + 256
      let p := (memRead 0 s.enc.buf (k1 + 1)).toNat * 256 + (memRead 0 s.enc.buf (k1 + 2)).toNat
      push (putAll (encodeC s.enc c ++ encodeP s.enc p) ++ [.sendNext size (t + 1) (k1 + 3) fl]) s
    else
      let c := (memRead 0 s.enc.buf k1).toNat
      push (putAll (encodeC s.enc c) ++ [.sendNext size (t + 1) (k1 + 1) fl]) s
  else { s with enc := { s.enc with cFreq := [], pFreq := [] } }

/-- SendBlock's test after a token (R249). -/
def sendNextTask (size t k : Nat) (flags : Byte) (s : State) : State :=
  if s.bw.unpackable then s else push [.sendToken size t k flags] s

end Sys2Proof.Machine
end

