-- ==== Sys2Proof/Machine/MatchFinder.lean ====
section
/-! DEFINITION. The sliding-window match finder (43_match_finder.md R300-R331). Every operation is a function of the
match finder's own state; a result `.error m` is `raise Fault(InternalInconsistency)` in state `m`. -/

namespace Sys2Proof.Machine

/-! ### Nodes (10_state.md R60-R64) -/

/-- A number for each handle, all different: the child map's key is made of it. -/
def Handle.code : Handle → Nat
  | .root b => 3 * b.toNat
  | .inner i => 3 * i + 1
  | .leaf p => 3 * p + 2

/-- The child map's key for a parent and a byte (R64). -/
def childKey (q : Handle) (c : Byte) : Nat := 256 * q.code + c.toNat

/-- `text[i]`. -/
def textAt (m : MatchFinder) (i : Nat) : Byte := memRead 0 m.text i

/-- The record of `Leaf(p)`. -/
def leafRec (m : MatchFinder) (p : Nat) : LeafRec := memRead LeafRec.out m.leaves p

/-- The record of `Inner(i)`. -/
def innerRec (m : MatchFinder) (i : Nat) : InnerRec := memRead InnerRec.blank m.inners i

/-- Replace the record of `Leaf(p)`. -/
def setLeaf (p : Nat) (r : LeafRec) (m : MatchFinder) : MatchFinder :=
  { m with leaves := memWrite LeafRec.out m.leaves p r }

/-- Replace the record of `Inner(i)`. -/
def setInner (i : Nat) (r : InnerRec) (m : MatchFinder) : MatchFinder :=
  { m with inners := memWrite InnerRec.blank m.inners i r }

/-- A root's constants (R63): level 1; it never carries a representative position. -/
def rootLevel : Nat := 1

/-- A root's `position` is NIL, a constant (R63). -/
def rootPosition : Option RepPos := none

/-- `lvl` of a node: 1 for a root, `level` for an inner node, `M` for a leaf (R301, R309). -/
def lvl (P : Params) (m : MatchFinder) : Handle → Nat
  | .root _ => rootLevel
  | .inner i => (innerRec m i).level
  | .leaf _ => P.maxMatch

/-- `h.parent`; NIL is `none`, and a root has none. -/
def parentOf (m : MatchFinder) : Handle → Option Handle
  | .root _ => none
  | .inner i => (innerRec m i).parent
  | .leaf p => (leafRec m p).parent

/-- `h.edge`; a root has none, the value 0 given for it is never used. -/
def edgeOf (m : MatchFinder) : Handle → Byte
  | .root _ => 0
  | .inner i => (innerRec m i).edge
  | .leaf p => (leafRec m p).edge

/-- `h.parent <- q; h.edge <- c`. -/
def setLink (h : Handle) (q : Option Handle) (c : Byte) (m : MatchFinder) : MatchFinder :=
  match h with
  | .root _ => m
  | .inner i => setInner i { innerRec m i with parent := q, edge := c } m
  | .leaf p => setLeaf p { leafRec m p with parent := q, edge := c } m

/-- `h.parent <- NIL`. -/
def clearParent (h : Handle) (m : MatchFinder) : MatchFinder := setLink h none (edgeOf m h) m

/-- `position` of a node; a root has the constant NIL, a leaf has none (R62, R63). -/
def positionOf (m : MatchFinder) : Handle → Option RepPos
  | .root _ => rootPosition
  | .inner i => some (innerRec m i).position
  | .leaf _ => none

/-- `h.position <- v`, for an inner node; roots are never written (R313). -/
def setPosition (h : Handle) (v : RepPos) (m : MatchFinder) : MatchFinder :=
  match h with
  | .inner i => setInner i { innerRec m i with position := v } m
  | .root _ => m
  | .leaf _ => m

/-- The value of a tagged position, the tag ignored (R310). -/
def RepPos.value : RepPos → Nat
  | .fresh v => v
  | .stale v => v

/-- `Leaf(p).succ <- q`. -/
def setSucc (p : Nat) (q : Option Handle) (m : MatchFinder) : MatchFinder :=
  setLeaf p { leafRec m p with succ := q } m

/-- `r.succ`, which leaves alone have. -/
def succOf (m : MatchFinder) : Handle → Option Handle
  | .leaf p => (leafRec m p).succ
  | .root _ => none
  | .inner _ => none

/-- `Child(q, c)` (R306). -/
def child (m : MatchFinder) (q : Handle) (c : Byte) : Option Handle := cellGet m.children (childKey q c)

/-- `children(q, c) <- h`. -/
def setChild (q : Handle) (c : Byte) (h : Handle) (m : MatchFinder) : MatchFinder :=
  { m with children := cellPut m.children (childKey q c) h }

/-- Remove `children(q, c)`. -/
def dropChild (q : Handle) (c : Byte) (m : MatchFinder) : MatchFinder :=
  { m with children := cellDrop m.children (childKey q c) }

/-- `h.childcount <- f h.childcount`, for an inner node; roots keep none (R307). -/
def mapCount (h : Handle) (f : Nat → Nat) (m : MatchFinder) : MatchFinder :=
  match h with
  | .inner i => setInner i { innerRec m i with childcount := f (innerRec m i).childcount } m
  | .root _ => m
  | .leaf _ => m

/-! ### Initialisation and addressing -/

/-- InitSlide (R302): an empty tree, `Inner(1)` on top of the pool. -/
def initSlide (P : Params) (m : MatchFinder) : MatchFinder :=
  { m with leaves := [], children := [], freepool := List.range' 1 (P.dicSiz - 1) }

/-- Actual(v) (R305): the window offset a stored value denotes now. -/
def actual (P : Params) (m : MatchFinder) (v : Nat) : Nat := if m.pos ≤ v then v - P.dicSiz else v

/-- The stored form of a window offset, `D + (o mod D)` (R303, R304). -/
def stored (P : Params) (o : Nat) : Nat := P.dicSiz + o % P.dicSiz

/-! ### Insertion -/

/-- MakeChild(q, c, r) (R307). -/
def makeChild (q : Handle) (c : Byte) (r : Handle) (m : MatchFinder) : MatchFinder :=
  let m1 := setLink r (some q) c (setChild q c r m)
  let m2 := mapCount q (· + 1) m1
  if r = .leaf m.pos then setSucc m.pos none m2 else m2

/-- Split(old) (R309). An `old` without a parent is no node of the tree: the same fault. -/
def split (old : Handle) (m : MatchFinder) : Checked MatchFinder :=
  match m.freepool, parentOf m old with
  | i :: pool, some q =>
    let c := edgeOf m old
    let m1 := setChild q c (.inner i) { m with freepool := pool }
    let m2 := setInner i { parent := some q, edge := c, level := m.matchlen, position := .fresh m.pos, childcount := 0 } m1
    let m3 := makeChild (.inner i) (textAt m (m.matchpos + m.matchlen)) old m2
    .ok (makeChild (.inner i) (textAt m (m.pos + m.matchlen)) (.leaf m.pos) m3)
  | _, _ => .error m

/-- Replace(q, r) (R318): the new leaf takes the place of one with the same string; its own `succ` is NIL, whatever an
earlier life of its handle left there (R318's text; log entry 18). -/
def replace (q r : Handle) (m : MatchFinder) : MatchFinder :=
  let c := edgeOf m r
  let m1 := setSucc m.pos none (setLink (.leaf m.pos) (some q) c (setChild q c (.leaf m.pos) m))
  match r with
  | .leaf p => setLeaf p { leafRec m1 p with parent := none, succ := some (.leaf m.pos) } m1
  | .inner _ => clearParent r m1
  | .root _ => m1

/-- The comparison loop of Descend (R310): how many bytes match from `ml` on, at most `fuel` more, and whether the
comparison ended at a mismatch. -/
def compareBytes (m : MatchFinder) (matchpos : Nat) : Nat → Nat → Nat × Bool
  | 0, ml => (ml, false)
  | fuel + 1, ml =>
    if textAt m (m.pos + ml) ≠ textAt m (matchpos + ml) then (ml, true)
    else compareBytes m matchpos fuel (ml + 1)

/-- Descend(q, r) (R310). Every turn of the loop makes `matchlen` larger and it ends at `M`, so `M + 1` turns are
enough. -/
def descend (P : Params) : Nat → Handle → Handle → MatchFinder → Checked MatchFinder
  | 0, _, _, m => .error m
  | fuel + 1, q, r, m =>
    let j := lvl P m r
    let v := match r with
      | .leaf p => p
      | .inner i => (innerRec m i).position.value
      | .root _ => m.pos
    let mp := actual P m v
    let cmp := compareBytes m mp (j - m.matchlen) m.matchlen
    let m1 := { m with matchpos := mp, matchlen := cmp.1 }
    if cmp.2 then split r m1
    else if P.maxMatch ≤ cmp.1 then .ok (replace q r m1)
    else
      let m2 := setPosition r (.fresh m.pos) m1
      let c := textAt m2 (m2.pos + m2.matchlen)
      match child m2 r c with
      | none => .ok (makeChild r c (.leaf m2.pos) m2)
      | some r' => descend P fuel r r' { m2 with matchlen := m2.matchlen + 1 }

/-- ResumeStart's successor walk (R312), at most `D` links; `none` is the "resume chain" fault. -/
def followSucc (m : MatchFinder) : Nat → Handle → Option Handle
  | fuel, r =>
    match parentOf m r with
    | some _ => some r
    | none =>
      match fuel, succOf m r with
      | f + 1, some r' => followSucc m f r'
      | _, _ => none

/-- ResumeStart's climb (R312), to the first node above `r` whose level is below `ml`. Levels fall on the way up and a
root has level 1, so it ends within `D` nodes; a node without a parent on the way is a broken tree invariant
(60_exceptions.md R404). -/
def climb (P : Params) (m : MatchFinder) (ml : Nat) : Nat → Handle → Handle → Option (Handle × Handle)
  | 0, _, _ => none
  | fuel + 1, r, q =>
    if ml ≤ lvl P m q then
      match parentOf m q with
      | some q' => climb P m ml fuel q q'
      | none => none
    else some (q, r)

/-- Percolate(q) (R313). Each turn makes a stale node fresh, so `D` turns are enough. -/
def percolate : Nat → Option Handle → MatchFinder → MatchFinder
  | fuel + 1, some (.inner i), m =>
    match (innerRec m i).position with
    | .stale _ => percolate fuel (parentOf m (.inner i)) (setPosition (.inner i) (.fresh m.pos) m)
    | .fresh _ => setPosition (.inner i) (.stale m.pos) m
  | _, _, m => m

/-- ResumeStart (R312): the state after it, with the `q` and the `r` Descend goes on from. -/
def resumeStart (P : Params) (m : MatchFinder) : Except MatchFinder (MatchFinder × Handle × Handle) :=
  let m1 := { m with matchlen := m.matchlen - 1 }
  match followSucc m1 P.dicSiz (.leaf (stored P (m1.matchpos + 1))) with
  | none => .error m1
  | some r =>
    match (parentOf m1 r).bind (climb P m1 m1.matchlen P.dicSiz r) with
    | none => .error m1
    | some (q, r') => .ok (percolate P.dicSiz (some q) m1, q, r')

/-- InsertNode (R308). -/
def insertNode (P : Params) (m : MatchFinder) : Checked MatchFinder :=
  if 4 ≤ m.matchlen then
    match resumeStart P m with
    | .error m1 => .error m1
    | .ok (m1, q, r) => descend P (P.maxMatch + 1) q r m1
  else
    let q := Handle.root (textAt m m.pos)
    let c := textAt m (m.pos + 1)
    match child m q c with
    | none => .ok { makeChild q c (.leaf m.pos) m with matchlen := 1 }
    | some r => descend P (P.maxMatch + 1) q r { m with matchlen := 2 }

/-! ### Deletion -/

/-- PercolateDelete(r, t) from `q`, the parent of `r` (R322): `s` is the most recent offset seen. -/
def percolateDelete (P : Params) : Nat → Option Handle → Nat → MatchFinder → MatchFinder
  | fuel + 1, some (.inner i), s, m =>
    let s' := max s (actual P m (innerRec m i).position.value)
    match (innerRec m i).position with
    | .stale _ =>
      percolateDelete P fuel (parentOf m (.inner i)) s' (setPosition (.inner i) (.fresh (stored P s')) m)
    | .fresh _ => setPosition (.inner i) (.stale (stored P s')) m
  | _, _, _, m => m

/-- Splice(r), `r` being `Inner(i)` (R321, R323). An `r` without a parent is no node of the tree: the same fault.
DESIGN CHOICE (log entry 28): on the pool the node keeps its edge, level, position and childcount, which R321 leaves
unspecified. -/
def splice (P : Params) (i : Nat) (m : MatchFinder) : Checked MatchFinder :=
  let r := Handle.inner i
  let t := actual P m (innerRec m i).position.value
  let m1 := percolateDelete P P.dicSiz (parentOf m r) t m
  match child m1 r (textAt m1 (t + (innerRec m1 i).level)), parentOf m1 r with
  | some ch, some p2 =>
    let c := edgeOf m1 r
    let m2 := dropChild r (edgeOf m1 ch) m1
    let m3 := setLink ch (some p2) c (setChild p2 c ch m2)
    let m4 := clearParent r m3
    .ok { m4 with freepool := i :: m4.freepool }
  | _, _ => .error m1

/-- DeleteNode (R320): the string that leaves the window leaves the tree. -/
def deleteNode (P : Params) (m : MatchFinder) : Checked MatchFinder :=
  let me := Handle.leaf m.pos
  match parentOf m me with
  | none => .ok m
  | some r =>
    let m1 := clearParent me (dropChild r (edgeOf m me) m)
    match r with
    | .inner i =>
      let m2 := mapCount r (· - 1) m1
      if 1 < (innerRec m2 i).childcount then .ok m2 else splice P i m2
    | .root _ => .ok m1
    | .leaf _ => .ok m1

/-! ### The window -/

/-- The slide of GetNextMatch (44_pipeline.md R344): `text[i] <- text[i + D]` for `i` in `0 ..< D+M`, increasing; the
bytes above keep their values. -/
def slideText (P : Params) (text : Memory Byte) : Memory Byte :=
  (text.filter fun c => decide (P.dicSiz ≤ c.1) && decide (c.1 < 2 * P.dicSiz + P.maxMatch)).map
      (fun c => (c.1 - P.dicSiz, c.2))
    ++ text.filter fun c => decide (P.dicSiz + P.maxMatch ≤ c.1)

/-- `matchlen <- min(matchlen, remainder)` (44_pipeline.md R343, R345, R348). -/
def clampLen (m : MatchFinder) : MatchFinder :=
  if m.remainder < (m.matchlen : Int) then { m with matchlen := m.remainder.toNat } else m

end Sys2Proof.Machine
end

