-- ==== Sys2Proof/Machine/Pipeline.lean ====
section
/-! DEFINITION. The operations of ENCODE and DECODE (44_pipeline.md R342-R363) over the units' operations. -/

namespace Sys2Proof.Machine

/-! ### ENCODE -/

/-- An operation of the match finder: its state, or InternalInconsistency at the raise (60_exceptions.md R404). -/
def runMatchFinder (f : MatchFinder → Checked MatchFinder) (s : State) : State :=
  match f s.mf with
  | .ok m => { s with mf := m }
  | .error m => raise .internalInconsistency { s with mf := m }

/-- `k` of ReadSrc(off, n) (R349): at most `n` bytes, at most what is left of ORIG_SIZE. -/
def readCount (n : Nat) (s : State) : Nat := min n (origSize s - s.mf.nread.toNat)

/-- ReadSrc's loop and its end (R349). -/
def readSrcTask (off i k : Nat) (s : State) : Except Port State :=
  if i < k then
    match srcRead s with
    | .error p => .error p
    | .ok (b, s1) =>
      .ok (push [.readSrc off (i + 1) k]
        (crcUpdate b { s1 with mf := { s1.mf with text := memWrite 0 s1.mf.text (off + i) b } }))
  else .ok { s with mf := { s.mf with nread := s.mf.nread + BitVec.ofNat 64 k } }

/-- EncodeInit up to its first read (R343): the whole window is zeroed. -/
def encodeInitTask (P : Params) (s : State) : State :=
  let s1 := crcInit s
  let s2 := { s1 with mf := initSlide P { s1.mf with nread := 0, text := [] } }
  let s3 := hufEncodeStart s2
  let k := readCount (P.dicSiz + P.maxMatch) s3
  push [.readSrc P.dicSiz 0 k, .encodeFirst k] s3

/-- EncodeInit after the read (R343). -/
def encodeFirstTask (P : Params) (k : Nat) (s : State) : State :=
  push [.insertNode, .clampMatch]
    { s with mf := { s.mf with remainder := (k : Int), matchlen := 0, matchpos := 0, pos := P.dicSiz } }

/-- GetNextMatch: advance, and slide the window at its end (R344). -/
def getNextMatchTask (P : Params) (s : State) : State :=
  let m := { s.mf with remainder := s.mf.remainder - 1, pos := s.mf.pos + 1 }
  if m.pos = 2 * P.dicSiz then
    let s1 := { s with mf := { m with text := slideText P m.text } }
    let k := readCount P.dicSiz s1
    push [.readSrc (P.dicSiz + P.maxMatch) 0 k, .slideEnd k, .deleteNode, .insertNode] s1
  else push [.deleteNode, .insertNode] { s with mf := m }

/-- GetNextMatch after the slide's read (R344). -/
def slideEndTask (P : Params) (n : Nat) (s : State) : State :=
  { s with mf := { s.mf with remainder := s.mf.remainder + (n : Int), pos := P.dicSiz } }

/-- The head of EncodeLoop (R345). -/
def encodeLoopTask (s : State) : State :=
  if 0 < s.mf.remainder ∧ s.bw.unpackable = false then
    push [.getNextMatch, .clampMatch, .chooseToken, .encodeLoop]
      { s with mf := { s.mf with lastmatchlen := s.mf.matchlen, lastmatchpos := s.mf.matchpos } }
  else s

/-- The distance code of a match token, `(pos - lastmatchpos - 2) & (D - 1)` (R345, R347). -/
def distanceCode (P : Params) (m : MatchFinder) : Nat :=
  (((m.pos : Int) - (m.lastmatchpos : Int) - 2) % (P.dicSiz : Int)).toNat

/-- EncodeLoop's choice (R345): the previous position's match when the match here is not longer, else the previous byte. -/
def chooseTokenTask (P : Params) (s : State) : State :=
  let m := s.mf
  if m.lastmatchlen < m.matchlen ∨ m.lastmatchlen < P.threshold then
    push [.output (textAt m (m.pos - 1)).toNat 0] s
  else
    push [.output (m.lastmatchlen + 256 - P.threshold) (distanceCode P m), .skipMatch (m.lastmatchlen - 1)] s

/-- EncodeLoop: the positions a match covers, each inserted (R326), then the clamp (R345). -/
def skipMatchTask (n : Nat) (s : State) : State :=
  match n with
  | 0 => push [.clampMatch] s
  | n' + 1 => push [.getNextMatch, .skipMatch n'] s

/-- `if matchlen > remainder: matchlen <- remainder` (R343, R345). -/
def clampMatchTask (s : State) : State := { s with mf := clampLen s.mf }

/-- EncodeFinish (R354). -/
def encodeFinish (s : State) : State :=
  setCrcReg (crcFinal s) { s with regs := { s.regs with compSize := s.bw.compsize } }

/-- ENCODE's last choice (R342): StoreFallback's requests and copy (R352), or EncodeFinish. -/
def encodeEndTask (s : State) : State :=
  if s.bw.unpackable then
    push [.snkDiscard, .srcRewind, .storeInit, .storeCopy (origSize s), .storeEnd] s
  else encodeFinish s

/-- StoreFallback's loop (R352): a byte is read and enters the CRC, then it is written. -/
def storeCopyTask (n : Nat) (s : State) : Except Port State :=
  match n with
  | 0 => .ok s
  | n' + 1 =>
    match srcRead s with
    | .error p => .error p
    | .ok (b, s1) => .ok (push [.storeWrite b, .storeCopy n'] (crcUpdate b s1))

/-- The end of StoreFallback (R352). -/
def storeEndTask (s : State) : State :=
  setStored (setCrcReg (crcFinal s) { s with regs := { s.regs with compSize := s.regs.origSize } })

/-! ### DECODE -/

/-- DECODE up to its choice of method (R355, R360, R270). -/
def decodeInitTask (s : State) : State :=
  let s1 := { s with crc := 0xFFFF#16, dec := { s.dec with outcount := 0 } }
  if s.regs.method then push (brInitTasks ++ [.hufDecodeStart, .decodeLoop]) (brInit s.regs.compSize s1)
  else if s.regs.compSize ≠ s.regs.origSize then raise .malformedInput s1
  else push [.storedCopy (origSize s)] s1

/-- OutByte(b) (R356). -/
def outByteTask (P : Params) (b : Byte) (s : State) : Except Port State :=
  match snkWrite b s with
  | .error p => .error p
  | .ok s1 =>
    let s2 := crcUpdate b s1
    .ok { s2 with dec := { s2.dec with
      dwin := memWrite 0 s2.dec.dwin (s2.dec.outcount.toNat % P.dicSiz) b
      outcount := s2.dec.outcount + 1 } }

/-- DecodeStored's loop (R360). -/
def storedCopyTask (n : Nat) (s : State) : Except Port State :=
  match n with
  | 0 => .ok s
  | n' + 1 =>
    match srcRead s with
    | .error p => .error p
    | .ok (b, s1) => .ok (push [.outByte b, .storedCopy n'] s1)

/-- The head of DECODE's loop (R355). -/
def decodeLoopTask (s : State) : State :=
  if s.dec.outcount.toNat < origSize s then push [.decodeC, .decodeLoop] s else s

/-- DECODE with a C symbol (R355, R357): a literal byte, or a match whose distance comes next. -/
def gotCTask (P : Params) (c : Nat) (s : State) : State :=
  if c < 256 then push [.outByte (BitVec.ofNat 8 c)] s else push [.decodeP (c - 256 + P.threshold)] s

/-- CopyMatch's check (R358, R359). -/
def copyMatchTask (j p : Nat) (s : State) : State :=
  if s.dec.outcount.toNat < p + 1 then raise .malformedInput s
  else push [.copyLoop j (s.dec.outcount.toNat - p - 1)] s

/-- CopyMatch's loop (R358): one byte at a time, cut at ORIG_SIZE. -/
def copyLoopTask (P : Params) (j c : Nat) (s : State) : State :=
  if 0 < j ∧ s.dec.outcount.toNat < origSize s then
    push [.outByte (memRead 0 s.dec.dwin (c % P.dicSiz)), .copyLoop (j - 1) (c + 1)] s
  else s

/-- DecodeFinish (R363). -/
def decodeFinishTask (s : State) : State := checkCrc (crcFinal s) (setCrcReg (crcFinal s) s)

end Sys2Proof.Machine
end

