-- ==== Sys2Proof/Machine/Sequencer.lean ====
section
/-! DEFINITION. The sequencer (44_pipeline.md R340): one atomic operation, a run of them, and the start of a command. -/

namespace Sys2Proof.Machine

/-- One operation of a command, the running command's list of operations already without it. `.error` is a wait at a
port, with nothing done (20_memory.md R98-R100). -/
def runTask (P : Params) (t : Task) (s : State) : Except Port State :=
  match t with
  | .putBits n x => .ok (putBitsTask n x s)
  | .emitByte b => emitByteTask b s
  | .clearAcc => .ok (clearAccTask s)
  | .advance n => .ok (advanceTask P n s)
  | .fill n => .ok (fillTask n s)
  | .fillLoop n => fillLoopTask n s
  | .brInitEnd => .ok (brInitEndTask s)
  | .setResult v => .ok (setResult v s)
  | .encodeInit => .ok (encodeInitTask P s)
  | .readSrc off i k => readSrcTask off i k s
  | .encodeFirst k => .ok (encodeFirstTask P k s)
  | .clampMatch => .ok (clampMatchTask s)
  | .encodeLoop => .ok (encodeLoopTask s)
  | .chooseToken => .ok (chooseTokenTask P s)
  | .skipMatch n => .ok (skipMatchTask n s)
  | .getNextMatch => .ok (getNextMatchTask P s)
  | .slideEnd n => .ok (slideEndTask P n s)
  | .deleteNode => .ok (runMatchFinder (deleteNode P) s)
  | .insertNode => .ok (runMatchFinder (insertNode P) s)
  | .output c p => .ok (outputTask P c p s)
  | .outputAfterBlock c p => .ok (outputAfterBlockTask c p s)
  | .sendBlock => .ok (sendBlockTask P s)
  | .sendTables root => .ok (sendTablesTask P root s)
  | .sendPTable => .ok (sendPTableTask P s)
  | .sendToken size t k flags => .ok (sendTokenTask size t k flags s)
  | .sendNext size t k flags => .ok (sendNextTask size t k flags s)
  | .hufEncodeEnd => .ok (hufEncodeEndTask s)
  | .encodeEnd => .ok (encodeEndTask s)
  | .snkDiscard => snkDiscard s
  | .srcRewind => srcRewind s
  | .storeInit => .ok (crcInit s)
  | .storeCopy n => storeCopyTask n s
  | .storeWrite b => snkWrite b s
  | .storeEnd => .ok (storeEndTask s)
  | .decodeInit => .ok (decodeInitTask s)
  | .storedCopy n => storedCopyTask n s
  | .hufDecodeStart => .ok (hufDecodeStartTask s)
  | .decodeLoop => .ok (decodeLoopTask s)
  | .outByte b => outByteTask P b s
  | .decodeC => .ok (decodeCTask s)
  | .decodeSym => .ok (decodeSymTask P s)
  | .gotC c => .ok (gotCTask P c s)
  | .decodeP len => .ok (decodePTask P len s)
  | .gotP len j => .ok (gotPTask len j s)
  | .copyMatch j p => .ok (copyMatchTask j p s)
  | .copyLoop j c => .ok (copyLoopTask P j c s)
  | .decodeFinish => .ok (decodeFinishTask s)
  | .readHeader => .ok (readHeaderTask P s)
  | .gotSize x => .ok (gotSizeTask x s)
  | .readPt w => .ok (readPtTask P w s)
  | .ptCount w n => .ok (ptCountTask P w n s)
  | .ptConst w c => .ok (ptConstTask P w c s)
  | .ptLoop w n i => .ok (ptLoopTask P w n i s)
  | .ptLen w n i k => .ok (ptLenTask w n i k s)
  | .ptSkip w n i z => .ok (ptSkipTask P w n i z s)
  | .readC => .ok (readCTask P s)
  | .cCount n => .ok (cCountTask P n s)
  | .cConst c => .ok (cConstTask P c s)
  | .cLoop n i => .ok (cLoopTask P n i s)
  | .cSym n i y => .ok (cSymTask P n i y s)
  | .cRun n i r => .ok (cRunTask P n i r s)

/-- What the sequencer does when it may take a step. -/
inductive SeqTurn where
  /-- It is idle. -/
  | idle
  /-- It waits at a port. -/
  | waits (p : Port)
  /-- It has taken one step. -/
  | ran (s : State)
deriving DecidableEq, Repr

/-- A command with nothing left to do ends in the same step as its last operation, so that its results and the end of
BUSY appear together (R340, 70_reset_and_hazards.md R440). -/
def endIfDone (s : State) : State :=
  match s.phase with
  | .run _ [] => endCommand .none s
  | .run _ (_ :: _) => s
  | .idle => s

/-- One step of the sequencer: the next operation of the running command, or the command's end (R340). -/
def seqStep (P : Params) (s : State) : SeqTurn :=
  match s.phase with
  | .idle => .idle
  | .run _ [] => .ran (endCommand .none s)
  | .run cmd (t :: todo) =>
    match runTask P t { s with phase := .run cmd todo } with
    | .ok s1 => .ran (endIfDone s1)
    | .error p => .waits p

/-- At most so many steps of the sequencer, fewer where its command ends or it waits at a port. -/
def runSeq (P : Params) : Nat → State → State
  | 0, s => s
  | fuel + 1, s =>
    match seqStep P s with
    | .ran s1 => runSeq P fuel s1
    | .idle => s
    | .waits _ => s

/-- More steps than any command takes on any operands: every command ends or waits (70_reset_and_hazards.md R451)
long before. -/
def fullRun : Nat := (2 ^ 256) ^ 4

/-- How many steps the sequencer takes before the host's next turn. ENCODE and DECODE are sequences of steps and the
host may come in between (93_implementation_defined.md A31); every other command is one sequencer operation except for
port waits (40_bitstream_crc.md, section 5). -/
def burst (s : State) : Nat :=
  match s.phase with
  | .run .encode _ => s.pace.getD fullRun
  | .run .decode _ => s.pace.getD fullRun
  | _ => fullRun

/-- The sequencer's part of a turn. -/
def settle (P : Params) (s : State) : State := runSeq P (burst s) s

/-- A legal CMD write (R340): dropped while a command runs; else the command starts, `body` is what it does at once,
`todo` the operations after that, and the sequencer runs. DESIGN CHOICE (log entry 2): no sequencer step follows a
dropped write in its own turn, whatever the turn's pace; the spec leaves that open (93_implementation_defined.md A31). -/
def issue (P : Params) (i : Instr) (body : State → State) (todo : List Task) (s : State) : State :=
  if s.busy then loseCommand s else settle P (body (markSink (beginCommand i todo s)))

/-- An illegal CMD write (R340, 30_encoding.md R140, 60_exceptions.md R406): dropped while a command runs; else it
starts a command that raises CommandError before any other effect. A dropped write as in `issue` (log entry 2). -/
def issueIllegal (s : State) : State :=
  if s.busy then loseCommand s else raise .commandError (beginCommand .nop [] s)

end Sys2Proof.Machine
end

