-- ==== Sys2Proof/Machine/Commands.lean ====
section
/-! DEFINITION. The meaning of each command (30_encoding.md R139): what a CMD write of it does, up to the command's end
or its first wait at a port. No meaning faults or is refused: a fault of the block is a next state with
STATUS.ERRCODE set (60_exceptions.md R401). -/

namespace Sys2Proof.Machine

/-- What `exec` and `step` answer. -/
abbrev Result := Host.Outcome State Fault Refusal

/-! ### Sequencer commands -/

/-- NOP (44_pipeline.md R341). -/
def execNop (s : State) : Result := .next (issue Config.build .nop id [] s)

/-- ENCODE (44_pipeline.md R342). -/
def execEncode (s : State) : Result :=
  .next (issue Config.build .encode clearOutcome [.encodeInit, .encodeLoop, .hufEncodeEnd, .encodeEnd] s)

/-- DECODE (44_pipeline.md R355). -/
def execDecode (s : State) : Result :=
  .next (issue Config.build .decode clearOutcome [.decodeInit, .decodeFinish] s)

/-! ### CRC commands -/

/-- CRC_INIT (40_bitstream_crc.md R215). -/
def execCrcInit (s : State) : Result := .next (issue Config.build .crcInit crcInit [] s)

/-- CRC_BYTE (40_bitstream_crc.md R216). -/
def execCrcByte (b : Byte) (s : State) : Result := .next (issue Config.build (.crcByte b) (crcUpdate b) [] s)

/-- CRC_READ (40_bitstream_crc.md R217). -/
def execCrcRead (s : State) : Result := .next (issue Config.build .crcRead crcRead [] s)

/-! ### Writer commands -/

/-- BW_INIT (40_bitstream_crc.md R218): the ceiling is ORIG_SIZE. -/
def execBwInit (s : State) : Result := .next (issue Config.build .bwInit (bwInit s.regs.origSize) [] s)

/-- BW_PUT (40_bitstream_crc.md R219): the N low bits of ARG[15:0]. -/
def execBwPut (n : BitVec 5) (s : State) : Result :=
  .next (issue Config.build (.bwPut n) id [putBits (countOperand n) (argBits s)] s)

/-- BW_FLUSH (40_bitstream_crc.md R220). -/
def execBwFlush (s : State) : Result := .next (issue Config.build .bwFlush id bwFlushTasks s)

/-! ### Reader commands -/

/-- BR_INIT (40_bitstream_crc.md R221): the declared size is COMP_SIZE. -/
def execBrInit (s : State) : Result :=
  .next (issue Config.build .brInit (brInit s.regs.compSize) brInitTasks s)

/-- BR_PEEK (40_bitstream_crc.md R222). -/
def execBrPeek (n : BitVec 5) (s : State) : Result :=
  .next (issue Config.build (.brPeek n) (setResult (BitVec.ofNat 32 (peekBits (countOperand n) s))) [] s)

/-- BR_ADVANCE (40_bitstream_crc.md R223). -/
def execBrAdvance (n : BitVec 5) (s : State) : Result :=
  .next (issue Config.build (.brAdvance n) id [.advance (countOperand n)] s)

/-- BR_GET (40_bitstream_crc.md R224): RESULT is written after the advance, so a fault leaves it. -/
def execBrGet (n : BitVec 5) (s : State) : Result :=
  .next (issue Config.build (.brGet n) id
    [.advance (countOperand n), .setResult (BitVec.ofNat 32 (peekBits (countOperand n) s))] s)

end Sys2Proof.Machine
end

