-- ==== Sys2Proof/Machine/Dispatch.lean ====
section
/-! DEFINITION. exec: one arm per command (30_encoding.md R139). -/

namespace Sys2Proof.Machine

def exec (i : Instr) (s : State) : Host.Outcome State Fault Refusal :=
  match i with
  | .nop => Sys2Proof.Machine.execNop s
  | .encode => Sys2Proof.Machine.execEncode s
  | .decode => Sys2Proof.Machine.execDecode s
  | .crcInit => Sys2Proof.Machine.execCrcInit s
  | .crcByte b => Sys2Proof.Machine.execCrcByte b s
  | .crcRead => Sys2Proof.Machine.execCrcRead s
  | .bwInit => Sys2Proof.Machine.execBwInit s
  | .bwPut n => Sys2Proof.Machine.execBwPut n s
  | .bwFlush => Sys2Proof.Machine.execBwFlush s
  | .brInit => Sys2Proof.Machine.execBrInit s
  | .brPeek n => Sys2Proof.Machine.execBrPeek n s
  | .brAdvance n => Sys2Proof.Machine.execBrAdvance n s
  | .brGet n => Sys2Proof.Machine.execBrGet n s

end Sys2Proof.Machine
end

