-- ==== Sys2Proof/Machine/Bus.lean ====
section
/-! DEFINITION. What the host does to the block (10_state.md R42, 20_memory.md R97-R100, 70_reset_and_hazards.md R430),
and how a command word reaches the block: as a CMD write, the machine's only fetch (10_state.md R55). -/

namespace Sys2Proof.Machine

/-- The offset of CMD (10_state.md R42). -/
def cmdOffset : BitVec 8 := 0x10

/-- A CMD write (44_pipeline.md R340): the word is decoded and its command runs, or it is illegal. -/
def writeCmd (w : Word) (s : State) : Result :=
  match decode w with
  | .ok i => exec i s
  | .error _ => .next (issueIllegal s)

/-- Only aligned 32-bit accesses are defined (20_memory.md R97, R105). -/
def accessOk (bytes : Nat) (offset : BitVec 8) : Bool := decide (bytes = 4) && decide (offset.toNat % 4 = 0)

/-- A host write (20_memory.md R97, R105): refused unless it is 32 bits wide and aligned; ignored while the power-on
reset is asserted (70_reset_and_hazards.md R430); else it acts, and a running command goes on as the turn's pace says, but for a
CMD write, which a running command drops: no sequencer step follows that one (`issue`; log entry 2). -/
def hostWrite (bytes : Nat) (offset : BitVec 8) (v : Word) (s : State) : Result :=
  if accessOk bytes offset = false then .refused (.badAccess bytes offset)
  else if s.por then .next s
  else if offset = cmdOffset then writeCmd v s
  else .next (settle Config.build (writeReg s offset v))

/-- A host read, under the same conditions (20_memory.md R97, R106). -/
def hostRead (bytes : Nat) (offset : BitVec 8) (s : State) : Result :=
  if accessOk bytes offset = false then .refused (.badAccess bytes offset)
  else if s.por then .next s
  else .next (settle Config.build { s with rdata := readReg Config.build s offset })

/-- One turn of the host's WAIT loop (30_encoding.md R143): `RD STATUS`, and with DONE set `WR STATUS, 0x2` and the next
turn of the program; else the loop goes on, the sequencer running meanwhile. -/
def hostWait (pace : Option Nat) (s : State) : Result :=
  let again := { s with agenda := { act := .waitDone, pace := pace } :: s.agenda }
  if s.por then .next again
  else if s.regs.done then .next (writeStatus 0x2 { s with rdata := statusWord s })
  else .next (settle Config.build { again with rdata := statusWord s })

/-- What the host does on its side of the ports; a waiting command then goes on. -/
def hostPort (f : Ports → Ports) (s : State) : Result := .next (settle Config.build { s with port := f s.port })

/-- One act of the host. -/
def hostAct (a : HostAct) (s : State) : Result :=
  match a with
  | .write bytes offset v => hostWrite bytes offset v s
  | .read bytes offset => hostRead bytes offset s
  | .waitDone => hostWait s.pace s
  | .source bs => hostPort (fun p => { p with source := bs, taken := 0 }) s
  | .supply bs => hostPort (fun p => { p with source := p.source ++ bs }) s
  | .accept room => hostPort (fun p => { p with room := room }) s
  | .ackDiscard yes => hostPort (fun p => { p with ackDiscard := yes }) s
  | .ackRewind yes => hostPort (fun p => { p with ackRewind := yes }) s
  | .dropSink => hostPort (fun p => { p with sink := [], mark := 0 }) s
  | .assertReset => .next { resetBlock s with por := true }
  | .releaseReset => if s.por then .next { resetBlock s with por := false } else .next s

/-- The host's next turn (00_scope.md R8). -/
def hostTurn (t : HostTurn) (rest : List HostTurn) (s : State) : Result :=
  hostAct t.act { s with agenda := rest, pace := t.pace }

/-- The sequencer on its own, the host having nothing left to do: an idle block stays as it is; a command that waits at
a port waits for ever (60_exceptions.md R422), a fault of the model. -/
def seqAlone (s : State) : Result :=
  match seqStep Config.build s with
  | .idle => .next s
  | .waits p => .fault (.portStarved p)
  | .ran _ => .next (settle Config.build { s with pace := none })

/-- The turn that writes a command word to CMD, the sequencer then running to the command's end or to a port wait. -/
def commandTurn (w : Word) : HostTurn := { act := .write 4 cmdOffset w, pace := none }

/-- The command word of a table row, its bits above `nbits` 0 (30_encoding.md R138, R141). -/
def fetchWord (nbits w : Nat) : Word := BitVec.ofNat 32 (w % 2 ^ nbits)

/-- The state whose next turn is the write of a command word to CMD. The block is idle and out of reset, as the write
of a command that is to run needs (R340, R430). -/
def placeCommand (w : Word) (s : State) : State :=
  { s with agenda := commandTurn w :: s.agenda, phase := .idle, por := false }

end Sys2Proof.Machine
end

