-- ==== Sys2Proof/Machine/Step.lean ====
section
/-! DEFINITION. One step of the machine: the host's next turn, with the sequencer's steps that follow it; or, the host
having none, the sequencer's own. -/

namespace Sys2Proof.Machine

/-- The step (00_scope.md R8; log entry 2). The block fetches nothing (10_state.md R55): a command word reaches it as
the host's write to CMD. -/
def step (s : State) : Host.Outcome State Fault Refusal :=
  match s.agenda with
  | t :: rest => hostTurn t rest s
  | [] => seqAlone s

/-- `s` with a command word as the host's next write to CMD. -/
def State.withFetchWord (s : State) (nbits w : Nat) : State := placeCommand (fetchWord nbits w) s

end Sys2Proof.Machine
end

