-- ==== Sys2Proof/Machine/Assembler.lean ====
section
/-! DEFINITION. The host assembler syntax (30_encoding.md R142, R143): statements and pseudo-instructions, and the host
turns they stand for. A program is what a host's agenda is loaded with. -/

namespace Sys2Proof.Machine

/-- A register by name (10_state.md R42). -/
inductive Reg where
  | id
  | param0
  | param1
  | ctrl
  | cmd
  | status
  | origSizeLo
  | origSizeHi
  | compSizeLo
  | compSizeHi
  | crc
  | expectedCrc
  | arg
  | result
deriving DecidableEq, Repr

/-- The register's offset in the window (10_state.md R42). -/
def Reg.offset : Reg → BitVec 8
  | .id => 0x00
  | .param0 => 0x04
  | .param1 => 0x08
  | .ctrl => 0x0C
  | .cmd => 0x10
  | .status => 0x14
  | .origSizeLo => 0x18
  | .origSizeHi => 0x1C
  | .compSizeLo => 0x20
  | .compSizeHi => 0x24
  | .crc => 0x28
  | .expectedCrc => 0x2C
  | .arg => 0x30
  | .result => 0x34

/-- A statement or pseudo-instruction (R142, R143). `EXPECT SNK` is a check on the sink, no act of the host. -/
inductive Stmt where
  | wr (r : Reg) (v : Word)
  | rd (r : Reg)
  | cmd (i : Instr)
  | wait
  | setOrig (v : Quad)
  | setComp (v : Quad)
  | src (bytes : List Byte)
  | expectSnk (bytes : List Byte)
deriving DecidableEq, Repr

/-- `WR <reg>, v`: a 32-bit write. -/
def wrAct (r : Reg) (v : Word) : HostAct := .write 4 r.offset v

/-- What a statement stands for (R143). -/
def Stmt.acts : Stmt → List HostAct
  | .wr r v => [wrAct r v]
  | .rd r => [.read 4 r.offset]
  | .cmd i => [wrAct .cmd (encode i)]
  | .wait => [.waitDone]
  | .setOrig v => [wrAct .origSizeLo (v.extractLsb' 0 32), wrAct .origSizeHi (v.extractLsb' 32 32)]
  | .setComp v => [wrAct .compSizeLo (v.extractLsb' 0 32), wrAct .compSizeHi (v.extractLsb' 32 32)]
  | .src bs => [.source bs]
  | .expectSnk _ => []

/-- A host program as an agenda: the sequencer runs as far as it can between two acts of the host. -/
def assembleProgram (prog : List Stmt) : List HostTurn :=
  (prog.flatMap Stmt.acts).map fun a => { act := a, pace := none }

end Sys2Proof.Machine
end

