-- ==== Sys2Proof/Safety.lean ====
section
/-! DEFINITION. What a well-behaved state is: the invariants of the block's state that the spec states of its units, one
definition each, and their conjunction `State.Inv`. Statements about every state take one of these as a premise where
they could fail only in states that no run reaches. -/

namespace Sys2Proof.Machine

/-! ### Memories -/

/-- Every match-finder memory is in canonical form. -/
def MatchFinder.memWf (m : MatchFinder) : Prop :=
  Memory.wf 0 m.text = true ∧ Memory.wf LeafRec.out m.leaves = true ∧ Memory.wf InnerRec.blank m.inners = true
    ∧ Memory.rising m.children = true

/-- Every scratch memory of MakeTree is in canonical form. -/
def TreeScratch.memWf (t : TreeScratch) : Prop :=
  Memory.wf 0 t.heap = true ∧ Memory.wf 0 t.freq = true ∧ Memory.wf 0 t.left = true ∧ Memory.wf 0 t.right = true
    ∧ Memory.wf 0 t.lenCnt = true

/-- Every memory of the encoder block state is in canonical form. -/
def EncBlock.memWf (e : EncBlock) : Prop :=
  (Memory.wf 0 e.cFreq = true ∧ Memory.wf 0 e.pFreq = true ∧ Memory.wf 0 e.buf = true ∧ Memory.wf 0 e.cLen = true
    ∧ Memory.wf 0 e.cCode = true)
    ∧ (Memory.wf 0 e.tFreq = true ∧ Memory.wf 0 e.tLen = true ∧ Memory.wf 0 e.tCode = true ∧ Memory.wf 0 e.pLen = true
      ∧ Memory.wf 0 e.pCode = true)
    ∧ e.scratch.memWf

/-- The partial memories of a table have rising addresses. -/
def Table.memWf : Table → Prop
  | .const _ => True
  | .coded lookup left right =>
    Memory.rising lookup = true ∧ Memory.rising left = true ∧ Memory.rising right = true

/-- Every memory of the decoder state is in canonical form. -/
def DecBlock.memWf (d : DecBlock) : Prop :=
  (Memory.wf 0 d.cLen = true ∧ Memory.wf 0 d.tLen = true ∧ Memory.wf 0 d.pLen = true ∧ Memory.wf 0 d.dwin = true)
    ∧ d.cTab.memWf ∧ d.tTab.memWf ∧ d.pTab.memWf

/-- Every internal memory is in its canonical form, so that equal contents are equal data. -/
def State.memWf (s : State) : Prop := s.mf.memWf ∧ s.enc.memWf ∧ s.dec.memWf

/-! ### Units -/

/-- The operations the running command still has to do. -/
def State.todo (s : State) : List Task :=
  match s.phase with
  | .idle => []
  | .run _ todo => todo

/-- A completed byte is on its way to the sink: the next operation delivers it or clears the pending bits (R203). -/
def byteInFlight : List Task → Bool
  | .clearAcc :: _ => true
  | .emitByte _ :: .clearAcc :: _ => true
  | _ => false

/-- The writer holds fewer than 8 pending bits, as an integer below `2^wn` (10_state.md R56), but for the moment a
completed byte takes to leave. -/
def State.writerOk (s : State) : Prop :=
  (s.bw.wn ≤ 7 ∧ s.bw.wacc.toNat < 2 ^ s.bw.wn) ∨ (s.bw.wn = 8 ∧ byteInFlight s.todo = true)

/-- `compsize` never exceeds `limit`, and stands at it once `unpackable` is set (40_bitstream_crc.md R204). -/
def State.ceilingOk (s : State) : Prop :=
  s.bw.compsize.toNat ≤ s.bw.limit.toNat ∧ (s.bw.unpackable = true → s.bw.compsize = s.bw.limit)

/-- The sub-byte buffer holds 0..8 bits, right-aligned, and no more bytes remain than were declared (10_state.md R57). -/
def State.readerOk (s : State) : Prop :=
  s.br.subn ≤ 8 ∧ s.br.subbuf.toNat < 2 ^ s.br.subn ∧ s.br.remaining.toNat ≤ s.br.csize.toNat

/-- No byte is taken before it is presented, and SnkDiscard keeps a part of the sink (20_memory.md R98, R100). -/
def State.portOk (s : State) : Prop :=
  s.port.taken ≤ s.port.source.length ∧ s.port.mark ≤ s.port.sink.length

/-- While a command runs DONE is 0 and ERRCODE is 0 (10_state.md R48), no command runs while the power-on reset is
asserted (70_reset_and_hazards.md R430), and AllocationFailure is never reported (60_exceptions.md R405). -/
def State.controlOk (s : State) : Prop :=
  (s.busy = true → s.regs.done = false ∧ s.regs.errcode = .none ∧ s.por = false)
    ∧ s.regs.errcode ≠ .allocationFailure

/-- The operations that write a result register: the last ones of their commands (70_reset_and_hazards.md R440). -/
def Task.writesResult : Task → Bool
  | .setResult _ => true
  | .encodeEnd => true
  | .storeEnd => true
  | .decodeFinish => true
  | _ => false

/-- A result register is written by a command's last operation only (70_reset_and_hazards.md R440). -/
def State.resultsLast (s : State) : Prop := s.todo.dropLast.all (fun t => !t.writesResult) = true

/-- The invariant of the machine. -/
def State.Inv (s : State) : Prop :=
  s.memWf ∧ s.writerOk ∧ s.ceilingOk ∧ s.readerOk ∧ s.portOk ∧ s.controlOk ∧ s.resultsLast

end Sys2Proof.Machine
end

