-- ==== Sys2Proof/Certificates/Slice0/Obligations.lean ====
section
/-! DEFINITION. The statements for the provers, and the small definitions they are written with. Each cites the rules of
spec/ it rests on; where it rests on a choice of the model it names the log entry. -/

namespace Sys2Proof.Claims

open Sys2Proof.Machine

/-! ### Command words, as numbers -/

/-- The opcode map (30_encoding.md R139). -/
def opcodes : List Nat := [0x00, 0x01, 0x02, 0x10, 0x11, 0x12, 0x20, 0x21, 0x22, 0x28, 0x29, 0x2A, 0x2B]

/-- The opcodes that take N (R138). -/
def countOpcodes : List Nat := [0x21, 0x29, 0x2A, 0x2B]

/-- R140, on the fields of R138 read as numbers. -/
def illegalWord (w : Word) : Prop :=
  w.toNat % 256 ∉ opcodes
    ∨ 16 < w.toNat / 256 % 32
    ∨ (w.toNat / 256 % 32 ≠ 0 ∧ w.toNat % 256 ∉ countOpcodes)
    ∨ (w.toNat / 65536 % 256 ≠ 0 ∧ w.toNat % 256 ≠ 0x11)
    ∨ w.toNat / 8192 % 8 ≠ 0
    ∨ w.toNat / 16777216 ≠ 0

/-- The one legal word of a command without N and BYTE. -/
def plainWord (op : Nat) (i : Instr) (w : Word) : Option Instr := if w.toNat = op then some i else none

/-- The legal words of a command with N: `op + 256 * n`, n in 0..16. -/
def countWord (mk : BitVec 5 → Instr) (w : Word) : Option Instr :=
  if w.toNat / 256 ≤ 16 then some (mk (BitVec.ofNat 5 (w.toNat / 256))) else none

/-- The legal words of CRC_BYTE: `op + 65536 * b`. -/
def byteWord (mk : Byte → Instr) (w : Word) : Option Instr :=
  if w.toNat / 256 % 256 = 0 ∧ w.toNat / 16777216 = 0 then some (mk (BitVec.ofNat 8 (w.toNat / 65536))) else none

/-- STATUS after an illegal word, and nothing else (60_exceptions.md R406). -/
def rejected (s : State) : State :=
  { s with regs := { s.regs with done := true, errcode := .commandError } }

/-- A CMD write of a word whose OP is `op` runs the command `legal` reads from it, or is rejected. -/
def wordsOf (op : Nat) (legal : Word → Option Instr) (s : State) : Prop :=
  ∀ w : Word, w.toNat % 256 = op →
    writeCmd w s = match legal w with
      | some i => exec i s
      | none => .next (rejected s)

/-! ### Commands -/

/-- The state after a command that ends with error kind `k` and does nothing else (44_pipeline.md R340): DONE and
ERRCODE, and where this command's part of the sink starts. -/
def ended (k : ErrKind) (s : State) : State :=
  { s with
    regs := { s.regs with done := true, errcode := k }
    phase := .idle
    port := { s.port with mark := s.port.sink.length } }

/-- `crctable[i]` as R211 computes it, on numbers. -/
def tableEntry (i : Nat) : Nat :=
  (List.range 8).foldl (fun r _ => if r % 2 = 1 then (r / 2) ^^^ 0x8408 else r / 2) i

/-- CrcUpdate as R213 writes it, on numbers. -/
def nextCrc (crc : Half) (b : Byte) : Half :=
  BitVec.ofNat 16 (tableEntry ((crc.toNat ^^^ b.toNat) % 256) ^^^ (crc.toNat / 256))

/-- The accumulator after a byte string, from R212's start. -/
def accOf (bs : List Byte) : Half := bs.foldl nextCrc 0xFFFF#16

/-- The CRC-16 of a byte string: the complement (R214). -/
def crcOf (bs : List Byte) : Half := ~~~(accOf bs)

/-- The pending bits followed by the `n` low bits of `x`, as one integer of `wn + n` bits. -/
def joined (n x : Nat) (s : State) : Nat := s.bw.wacc.toNat * 2 ^ n + x % 2 ^ n

/-- The bytes those bits complete, the earliest bits first (40_bitstream_crc.md R203). -/
def completed (n x : Nat) (s : State) : List Byte :=
  (List.range ((s.bw.wn + n) / 8)).map fun k => BitVec.ofNat 8 (joined n x s / 2 ^ (s.bw.wn + n - 8 * (k + 1)))

/-- The ones below the ceiling (R204). -/
def delivered (n x : Nat) (s : State) : List Byte :=
  (completed n x s).take (s.bw.limit.toNat - s.bw.compsize.toNat)

/-- The state after a writer command that puts the `n` low bits of `x`, the host accepting every byte. -/
def afterPut (n x : Nat) (s : State) : State :=
  { ended .none s with
    bw :=
      { wacc := BitVec.ofNat 8 (joined n x s % 2 ^ ((s.bw.wn + n) % 8))
        wn := (s.bw.wn + n) % 8
        compsize := s.bw.compsize + BitVec.ofNat 64 (delivered n x s).length
        limit := s.bw.limit
        unpackable := s.bw.unpackable || decide ((delivered n x s).length < (completed n x s).length) }
    port := { s.port with mark := s.port.sink.length, sink := s.port.sink ++ delivered n x s } }

/-- Bit `i` of the compressed stream from the reader's position on (40_bitstream_crc.md R207, R209): `bitbuf`, then
`subbuf`, then the bytes of the source that may still be fetched, then zero bits. -/
def streamBit (s : State) (i : Nat) : Bool :=
  if i < 16 then s.br.bitbuf.getLsbD (15 - i)
  else if i < 16 + s.br.subn then s.br.subbuf.getLsbD (s.br.subn - 1 - (i - 16))
  else
    let j := i - 16 - s.br.subn
    if j / 8 < s.br.remaining.toNat then
      ((s.port.source[s.port.taken + j / 8]?).getD 0).getLsbD (7 - j % 8)
    else false

/-- How many bytes Advance(n) takes from the source (R207, R209). -/
def fetched (n : Nat) (s : State) : Nat := min s.br.remaining.toNat ((n - s.br.subn + 7) / 8)

/-- The state after a reader command that consumes `n` bits, `r` being the state of the bit buffers after it. -/
def afterAdvance (n : Nat) (r : Reader) (s : State) : State :=
  { ended .none s with
    br :=
      { bitbuf := r.bitbuf, subbuf := r.subbuf, subn := s.br.subn + 8 * ((n - s.br.subn + 7) / 8) - n
        csize := s.br.csize
        remaining := s.br.remaining - BitVec.ofNat 64 (fetched n s)
        consumed := s.br.consumed + BitVec.ofNat 64 n }
    port := { s.port with mark := s.port.sink.length, taken := s.port.taken + fetched n s } }

/-- `bitbuf` and `subbuf` of BrInit over the next bytes of the source, zero bytes past COMP_SIZE (R206). -/
def firstByte (s : State) (k : Nat) : Byte :=
  if k < s.regs.compSize.toNat then (s.port.source[s.port.taken + k]?).getD 0 else 0

/-- `n` source bytes from the block's position on. -/
def nextBytes (n : Nat) (s : State) : List Byte := (s.port.source.drop s.port.taken).take n

/-- The last D bytes of the output `h` are in the decode window (10_state.md R68). -/
def windowHolds (h : List Byte) (s : State) : Prop :=
  s.dec.outcount.toNat = h.length ∧
    ∀ k, k < h.length → h.length ≤ k + Config.build.dicSiz →
      memRead 0 s.dec.dwin (k % Config.build.dicSiz) = (h[k]?).getD 0

/-- The host honours its duties without delay (70_reset_and_hazards.md R444): it accepts every byte, acknowledges every
request, and has no further turn until the command ends. -/
def dutiful (s : State) : Prop :=
  s.port.room = none ∧ s.port.ackDiscard = true ∧ s.port.ackRewind = true ∧ s.pace = none

/-- Registers whose value a command may change other than DONE and ERRCODE stand as they were. -/
def sameOperands (r r' : HostRegs) : Prop :=
  r'.method = r.method ∧ r'.crcCheck = r.crcCheck ∧ r'.cmdLost = r.cmdLost ∧ r'.origSize = r.origSize
    ∧ r'.expectedCrc = r.expectedCrc ∧ r'.arg = r.arg ∧ r'.result = r.result

/-- Every specified row of the table of 70_reset_and_hazards.md R431. -/
def atReset (s : State) : Prop :=
  (readReg Config.build s 0x00 = 0x4C5A4831#32 ∧ readReg Config.build s 0x04 = 0x40003FFD#32
    ∧ readReg Config.build s 0x08 = 0x0008C549#32 ∧ readReg Config.build s 0x0C = 1#32
    ∧ readReg Config.build s 0x14 = 0#32)
  ∧ (∀ o : BitVec 8, o.toNat % 4 = 0 → 0x18 ≤ o.toNat → readReg Config.build s o = 0#32)
  ∧ s.phase = .idle
  ∧ s.bw = { wacc := 0, wn := 0, compsize := 0, limit := 0, unpackable := false }
  ∧ s.br = { bitbuf := 0, subbuf := 0, subn := 0, csize := 0, remaining := 0, consumed := 0 }
  ∧ s.crc = 0xFFFF#16
  ∧ doneLine s = false

/-! ### Codes -/

/-- The Kraft sum of the non-zero lengths in units of `2^-16` (42_huffman_decode.md R276). -/
def kraft (n : Nat) (len : Nat → Nat) : Nat :=
  ((List.range n).map fun i => if len i = 0 then 0 else 2 ^ (16 - len i)).sum

/-- The lengths of a table of which `i` were received: the rest are 0 (42_huffman_decode.md R272, R274). -/
def received (i : Nat) (len : Nat → Nat) (j : Nat) : Nat := if j < i then len j else 0

/-- In `t` the leaf of `m.pos` is no child of `q` and has no parent; the child map and the leaf records are else as in
`m`. -/
def leafRemoved (m t : MatchFinder) (q : Handle) : Prop :=
  child t q (leafRec m m.pos).edge = none ∧
    (∀ q' c, ¬ (q' = q ∧ c = (leafRec m m.pos).edge) → child t q' c = child m q' c) ∧
    leafRec t m.pos = { leafRec m m.pos with parent := none } ∧
    ∀ p, p ≠ m.pos → leafRec t p = leafRec m p

/-- The state `t` after a tree was built: the command has ended exactly where a check of the tree failed, and then with
InternalInconsistency. -/
def failsOn (tree : TreeOut) (t : State) : Prop :=
  (t.busy = false ↔ tree.ok = false) ∧ (tree.ok = false → t.regs.errcode = .internalInconsistency)

/-- `start[k]` of 30_encoding.md R136: `start[1] = 0`, `start[k+1] = (start[k] + count[k]) << 1`. -/
def firstCode (n : Nat) (len : Nat → Nat) : Nat → Nat
  | 0 => 0
  | 1 => 0
  | k + 2 => 2 * (firstCode n len (k + 1) + ((List.range n).filter fun j => len j = k + 1).length)

/-- The lengths a T symbol with its count stands for (30_encoding.md R127). -/
def expandItem (y : Nat × Option (Nat × Nat)) : List Nat :=
  match y with
  | (0, _) => [0]
  | (1, c) => List.replicate ((c.getD (0, 0)).2 + 3) 0
  | (2, c) => List.replicate ((c.getD (0, 0)).2 + 20) 0
  | (k + 3, _) => [k + 1]

/-- The count field a T symbol carries has its width, and its value fits (R127, R130). -/
def countFits (P : Params) (y : Nat × Option (Nat × Nat)) : Prop :=
  match y with
  | (0, c) => c = none
  | (1, c) => ∃ v, c = some (4, v) ∧ v < 2 ^ 4
  | (2, c) => ∃ v, c = some (P.cBit, v) ∧ v < 2 ^ P.cBit
  | (_ + 3, c) => c = none

end Sys2Proof.Claims

section Statements

open Sys2Proof Sys2Proof.Machine Sys2Proof.Claims

/-! ## Encoding -/

/-- Writing a well-formed command and reading it back gives the command (30_encoding.md R138, R139). -/
def Obligations.DecodeEncode : Prop := ∀ i : Instr, i.wf = true → decode (encode i) = .ok i

/-- A legal word is the word of one well-formed command, bit for bit (30_encoding.md R138-R141). -/
def Obligations.EncodeDecode : Prop := ∀ (w : Word) (i : Instr), decode w = .ok i → encode i = w ∧ i.wf = true

/-- Words written out from the field table (30_encoding.md R138, R139) decode to what they stand for. -/
def Obligations.SampleWords : Prop :=
  decode 0x00000000#32 = .ok .nop ∧ decode 0x00000001#32 = .ok .encode ∧ decode 0x00000002#32 = .ok .decode
    ∧ decode 0x00310011#32 = .ok (.crcByte 0x31#8) ∧ decode 0x00000012#32 = .ok .crcRead
    ∧ decode 0x00000321#32 = .ok (.bwPut 3#5) ∧ decode 0x00001029#32 = .ok (.brPeek 16#5)
    ∧ decode 0x0000072B#32 = .ok (.brGet 7#5)

/-- An illegal word written to CMD while the block is idle ends at once with CommandError and no other effect; every
other word is decoded (30_encoding.md R140, 60_exceptions.md R406). -/
def Obligations.IllegalWord : Prop :=
  ∀ (w : Word) (s : State), s.phase = .idle →
    (illegalWord w → writeCmd w s = .next (rejected s)) ∧
    (¬ illegalWord w → ∃ i, decode w = .ok i ∧ writeCmd w s = exec i s)

/-- When the host's next turn writes a word that decodes to a command, the step is that command's meaning, in the
state with that turn taken (10_state.md R47; log entry 2). -/
def Obligations.StepRunsDecoded : Prop :=
  ∀ (s : State) (w : Word) (i : Instr) (pace : Option Nat) (rest : List HostTurn),
    s.agenda = { act := .write 4 0x10#8 w, pace := pace } :: rest → s.por = false → decode w = .ok i →
      step s = exec i { s with agenda := rest, pace := pace }

/-! ## Commands -/

/-- NOP changes nothing but STATUS (44_pipeline.md R341). -/
def Obligations.NopResult : Prop :=
  ∀ s : State, s.phase = .idle → exec .nop s = .next (ended .none s) ∧ wordsOf 0x00 (plainWord 0x00 .nop) s

/-- CRC_INIT sets the accumulator to all ones; CRC_BYTE accumulates its byte; CRC_READ writes the complement of the
accumulator to RESULT and CRC, and keeps it (40_bitstream_crc.md R215-R217, R211-R214). -/
def Obligations.CrcCommands : Prop :=
  ∀ (s : State) (b : Byte), s.phase = .idle →
    (exec .crcInit s = .next { ended .none s with crc := 0xFFFF#16 } ∧ wordsOf 0x10 (plainWord 0x10 .crcInit) s) ∧
    (exec (.crcByte b) s = .next { ended .none s with crc := nextCrc s.crc b } ∧
      wordsOf 0x11 (byteWord .crcByte) s) ∧
    (exec .crcRead s = .next { ended .none s with regs := { s.regs with
        done := true, errcode := .none, result := (~~~s.crc).setWidth 32, crc := ~~~s.crc } } ∧
      wordsOf 0x12 (plainWord 0x12 .crcRead) s)

/-- BW_INIT gives an empty writer with ceiling ORIG_SIZE and clears `unpackable` (40_bitstream_crc.md R218, R201). -/
def Obligations.BwInitResult : Prop :=
  ∀ s : State, s.phase = .idle →
    exec .bwInit s = .next { ended .none s with bw :=
      { wacc := 0, wn := 0, compsize := 0, limit := s.regs.origSize, unpackable := false } } ∧
      wordsOf 0x20 (plainWord 0x20 .bwInit) s

/-- BW_PUT appends the N low bits of ARG[15:0], most significant first: completed bytes go to the sink below the
ceiling and are dropped at it, where `unpackable` is set (40_bitstream_crc.md R219, R203, R204). -/
def Obligations.BwPutResult : Prop :=
  ∀ (s : State) (n : BitVec 5), s.phase = .idle → s.writerOk → s.port.room = none →
    exec (.bwPut n) s = .next (afterPut n.toNat (s.regs.arg.toNat % 65536) s) ∧ wordsOf 0x21 (countWord .bwPut) s

/-- BW_FLUSH completes the pending bits with zero bits; the zero bits left over stay pending (40_bitstream_crc.md R220,
R205). -/
def Obligations.BwFlushResult : Prop :=
  ∀ s : State, s.phase = .idle → s.writerOk → s.port.room = none →
    (∃ t, exec .bwFlush s = .next t ∧ t.bw.wacc = 0 ∧ t.bw.limit = s.bw.limit ∧
      (s.bw.wn = 0 → t = { ended .none s with bw := { s.bw with wacc := 0, wn := 7 } }) ∧
      (0 < s.bw.wn → s.bw.compsize.toNat < s.bw.limit.toNat →
        t = { ended .none s with
          bw := { s.bw with wacc := 0, wn := s.bw.wn - 1, compsize := s.bw.compsize + 1 }
          port := { s.port with mark := s.port.sink.length
                                sink := s.port.sink ++ [s.bw.wacc <<< (8 - s.bw.wn)] } }) ∧
      (0 < s.bw.wn → ¬ s.bw.compsize.toNat < s.bw.limit.toNat →
        t = { ended .none s with bw := { s.bw with wacc := 0, wn := s.bw.wn - 1, unpackable := true } })) ∧
      wordsOf 0x22 (plainWord 0x22 .bwFlush) s

/-- BR_INIT takes `min(COMP_SIZE, 2)` bytes and starts the reader on them (40_bitstream_crc.md R221, R206). -/
def Obligations.BrInitResult : Prop :=
  ∀ s : State, s.phase = .idle → s.port.taken + min s.regs.compSize.toNat 2 ≤ s.port.source.length →
    exec .brInit s = .next { ended .none s with
      br :=
        { bitbuf := firstByte s 0 ++ firstByte s 1, subbuf := 0, subn := 0
          csize := s.regs.compSize
          remaining := s.regs.compSize - BitVec.ofNat 64 (min s.regs.compSize.toNat 2)
          consumed := 0 }
      port := { s.port with mark := s.port.sink.length
                            taken := s.port.taken + min s.regs.compSize.toNat 2 } } ∧
      wordsOf 0x28 (plainWord 0x28 .brInit) s

/-- BR_PEEK puts the next N stream bits in RESULT and consumes nothing (40_bitstream_crc.md R222, R208). -/
def Obligations.BrPeekResult : Prop :=
  ∀ (s : State) (n : BitVec 5), s.phase = .idle → n.toNat ≤ 16 →
    exec (.brPeek n) s = .next { ended .none s with regs := { s.regs with
      done := true, errcode := .none
      result := BitVec.ofNat 32 (s.br.bitbuf.toNat / 2 ^ (16 - n.toNat)) } } ∧
      wordsOf 0x29 (countWord .brPeek) s

/-- BR_ADVANCE moves the reader N bits on: the stream from its new position is the old one without its first N bits,
zero bits past the declared size (40_bitstream_crc.md R223, R209, R207). -/
def Obligations.BrAdvanceResult : Prop :=
  ∀ (s : State) (n : BitVec 5), s.phase = .idle → n.toNat ≤ 16 → s.readerOk →
    s.port.taken + fetched n.toNat s ≤ s.port.source.length →
      (∃ r, exec (.brAdvance n) s = .next (afterAdvance n.toNat r s) ∧
        (∀ i, streamBit (afterAdvance n.toNat r s) i = streamBit s (i + n.toNat)) ∧
        (afterAdvance n.toNat r s).readerOk) ∧
      wordsOf 0x2A (countWord .brAdvance) s

/-- BR_GET puts the next N stream bits in RESULT and moves the reader N bits on (40_bitstream_crc.md R224, R210). -/
def Obligations.BrGetResult : Prop :=
  ∀ (s : State) (n : BitVec 5), s.phase = .idle → n.toNat ≤ 16 → s.readerOk →
    s.port.taken + fetched n.toNat s ≤ s.port.source.length →
      (∃ r, exec (.brGet n) s = .next { afterAdvance n.toNat r s with regs := { s.regs with
            done := true, errcode := .none
            result := BitVec.ofNat 32 (s.br.bitbuf.toNat / 2 ^ (16 - n.toNat)) } } ∧
        (∀ i, streamBit (afterAdvance n.toNat r s) i = streamBit s (i + n.toNat)) ∧
        (afterAdvance n.toNat r s).readerOk) ∧
      wordsOf 0x2B (countWord .brGet) s

/-- The reader's look-ahead: after BR_INIT and advances of `k` bits in all it has taken `min(csize, 2 + ceil(k/8))`
bytes (40_bitstream_crc.md R207), told by `remaining` and `consumed`; every reader command keeps it. -/
def Obligations.ReaderLookAhead : Prop :=
  ∀ (s t : State) (n : BitVec 5) (i : Instr), s.phase = .idle → n.toNat ≤ 16 →
    (i = .brInit ∨ ((i = .brAdvance n ∨ i = .brGet n) ∧ s.readerOk ∧ s.br.consumed.toNat + n.toNat < 2 ^ 64 ∧
      s.br.subn = (8 - s.br.consumed.toNat % 8) % 8 ∧
      s.br.csize.toNat - s.br.remaining.toNat = min s.br.csize.toNat (2 + (s.br.consumed.toNat + 7) / 8))) →
    exec i s = .next t → t.phase = .idle →
      t.br.subn = (8 - t.br.consumed.toNat % 8) % 8 ∧
      t.br.csize.toNat - t.br.remaining.toNat = min t.br.csize.toNat (2 + (t.br.consumed.toNat + 7) / 8)

/-- DECODE with METHOD = 0 copies ORIG_SIZE source bytes to the sink; with COMP_SIZE ≠ ORIG_SIZE it ends with
MalformedInput before any byte is taken (44_pipeline.md R360, R355, R356, R363, R362). -/
def Obligations.DecodeStored : Prop :=
  ∀ s : State, s.phase = .idle → s.regs.method = false → dutiful s → s.memWf →
    (s.regs.compSize ≠ s.regs.origSize →
      exec .decode s = .next { ended .malformedInput s with
        regs := { s.regs with done := true, errcode := .malformedInput, stored := false, crcMismatch := false }
        crc := 0xFFFF#16
        dec := { s.dec with outcount := 0 } }) ∧
    (s.regs.compSize = s.regs.origSize → s.port.taken + s.regs.origSize.toNat ≤ s.port.source.length →
      ∃ w : Memory Byte, exec .decode s = .next { ended .none s with
          regs := { s.regs with
            done := true, errcode := .none, stored := false
            crc := crcOf (nextBytes s.regs.origSize.toNat s)
            crcMismatch := s.regs.crcCheck &&
              decide (crcOf (nextBytes s.regs.origSize.toNat s) ≠ s.regs.expectedCrc) }
          crc := accOf (nextBytes s.regs.origSize.toNat s)
          dec := { s.dec with outcount := s.regs.origSize, dwin := w }
          port := { s.port with
            mark := s.port.sink.length
            taken := s.port.taken + s.regs.origSize.toNat
            sink := s.port.sink ++ nextBytes s.regs.origSize.toNat s } } ∧
        windowHolds (nextBytes s.regs.origSize.toNat s) { s with dec := { s.dec with
          outcount := s.regs.origSize, dwin := w } } ∧
        ∀ a, s.regs.origSize.toNat ≤ a ∨ Config.build.dicSiz ≤ a → memRead 0 w a = memRead 0 s.dec.dwin a)

/-- DECODE with METHOD = 1 ends, whatever the compressed bytes are: with ORIG_SIZE bytes delivered, their CRC in CRC and
the CRC check made; or with MalformedInput, fewer bytes delivered and CRC as it was. It takes at most COMP_SIZE bytes,
and writes neither the other operands nor the writer, the match finder or the encoder (44_pipeline.md R355, R361-R365,
70_reset_and_hazards.md R451). -/
def Obligations.DecodeCoded : Prop :=
  ∀ s : State, s.phase = .idle → s.regs.method = true → dutiful s →
    s.port.taken + s.regs.compSize.toNat ≤ s.port.source.length →
    ∃ (t : State) (out : List Byte), exec .decode s = .next t ∧ t.phase = .idle ∧ t.regs.done = true ∧
      ((t.regs.errcode = .none ∧ out.length = s.regs.origSize.toNat ∧ t.regs.crc = crcOf out ∧
          t.regs.crcMismatch = (s.regs.crcCheck && decide (crcOf out ≠ s.regs.expectedCrc))) ∨
       (t.regs.errcode = .malformedInput ∧ out.length < s.regs.origSize.toNat ∧ t.regs.crc = s.regs.crc ∧
          t.regs.crcMismatch = false)) ∧
      t.crc = accOf out ∧ t.dec.outcount.toNat = out.length ∧
      t.regs.stored = false ∧ t.regs.compSize = s.regs.compSize ∧ sameOperands s.regs t.regs ∧
      s.port.taken ≤ t.port.taken ∧ t.port.taken ≤ s.port.taken + s.regs.compSize.toNat ∧
      t.port = { s.port with mark := s.port.sink.length, taken := t.port.taken, sink := s.port.sink ++ out } ∧
      t.bw = s.bw ∧ t.mf = s.mf ∧ t.enc = s.enc ∧
      t.agenda = s.agenda ∧ t.pace = s.pace ∧ t.por = s.por ∧ t.rdata = s.rdata

/-- ENCODE of the empty input: an empty stored output, CRC 0, UNPACKABLE and STORED set (44_pipeline.md R353). -/
def Obligations.EncodeEmpty : Prop :=
  ∀ s : State, s.phase = .idle → dutiful s → s.memWf → s.regs.origSize = 0 →
    ∃ t, exec .encode s = .next t ∧ t.phase = .idle ∧
      t.regs = { s.regs with done := true, errcode := .none, stored := true, crcMismatch := false
                             compSize := 0, crc := 0 } ∧
      t.bw.unpackable = true ∧ t.bw.compsize = 0 ∧
      t.port = { s.port with mark := s.port.sink.length, taken := 0 } ∧
      t.br = s.br ∧ t.dec = s.dec

/-- ENCODE ends on every input. Unless an invariant check of the match finder or of a tree fails (InternalInconsistency,
COMP_SIZE and CRC then as they were), CRC is the input's, COMP_SIZE is the number of bytes in the sink and at most
ORIG_SIZE, and STORED tells whether they are the input itself; STORED is UNPACKABLE. Every other operand, the reader and
the decoder stand as they were (44_pipeline.md R342, R351, R352, R354, 60_exceptions.md R401, R404,
70_reset_and_hazards.md R451). -/
def Obligations.EncodeRuns : Prop :=
  ∀ s : State, s.phase = .idle → dutiful s → s.memWf → s.port.taken = 0 →
    s.regs.origSize.toNat ≤ s.port.source.length →
    ∃ t, exec .encode s = .next t ∧ t.phase = .idle ∧ t.regs.done = true ∧
      ((t.regs.errcode = .none ∧
          t.regs.crc = crcOf (s.port.source.take s.regs.origSize.toNat) ∧
          t.regs.stored = t.bw.unpackable ∧
          t.port.taken = s.regs.origSize.toNat ∧
          t.regs.compSize.toNat ≤ s.regs.origSize.toNat ∧
          (t.regs.stored = true → t.regs.compSize = s.regs.origSize ∧
            t.port.sink = s.port.sink ++ s.port.source.take s.regs.origSize.toNat) ∧
          (t.regs.stored = false → ∃ out, t.port.sink = s.port.sink ++ out ∧
            out.length = t.regs.compSize.toNat)) ∨
       (t.regs.errcode = .internalInconsistency ∧ t.regs.crc = s.regs.crc ∧ t.regs.compSize = s.regs.compSize ∧
          t.regs.stored = false)) ∧
      t.regs.crcMismatch = false ∧ sameOperands s.regs t.regs ∧
      t.port = { s.port with mark := s.port.sink.length, taken := t.port.taken, sink := t.port.sink } ∧
      t.br = s.br ∧ t.dec = s.dec ∧
      t.agenda = s.agenda ∧ t.pace = s.pace ∧ t.por = s.por ∧ t.rdata = s.rdata

/-- The round trip of an input that does not compress: when ENCODE stored, DECODE with METHOD = 0 over the delivered
bytes gives the input back, and both leave its CRC (44_pipeline.md R367, R352, R360). -/
def Obligations.StoredRoundTrip : Prop :=
  ∀ (s t : State) (x : List Byte), s.phase = .idle → dutiful s → s.memWf → s.port.taken = 0 → s.port.source = x →
    s.regs.origSize.toNat = x.length → exec .encode s = .next t → t.regs.stored = true →
      t.regs.crc = crcOf x ∧
      ∃ v, exec .decode { t with
          regs := { t.regs with method := false }
          port := { t.port with source := t.port.sink.drop s.port.sink.length, taken := 0 } } = .next v ∧
        v.phase = .idle ∧ v.regs.errcode = .none ∧ v.port.sink = t.port.sink ++ x ∧ v.regs.crc = crcOf x

/-- ENCODE and DECODE start by clearing DONE, ERRCODE, STORED and CRC_MISMATCH, and the block is busy until they end
(44_pipeline.md R340, 10_state.md R48); shown where the host's next turn is due at once (log entry 2). -/
def Obligations.LongCommandStart : Prop :=
  ∀ (s : State) (i : Instr), s.phase = .idle → s.pace = some 0 → (i = .encode ∨ i = .decode) →
    ∃ t, exec i s = .next t ∧ statusWord t = 0x1#32 ||| (statusWord s &&& 0xA00#32) ∧
      t = { s with
        regs := { s.regs with done := false, errcode := .none, stored := false, crcMismatch := false }
        phase := t.phase
        port := { s.port with mark := s.port.sink.length } }

/-! ## Registers -/

/-- ID, PARAM0 and PARAM1 read as constants, in every state (10_state.md R43-R45), PARAM0 and PARAM1 made of the
parameters of any build. -/
def Obligations.Identification : Prop :=
  (∀ s : State, readReg Config.build s 0x00 = 0x4C5A4831#32 ∧ readReg Config.build s 0x04 = 0x40003FFD#32 ∧
    readReg Config.build s 0x08 = 0x0008C549#32) ∧
  ∀ (P : Params) (s : State), P.dicBit < 16 → P.maxMatch ≤ 256 → 1 ≤ P.maxMatch → P.threshold < 16 →
    P.bufSiz < 65536 → P.cBit < 16 → P.pBit < 16 → P.tBit < 16 → P.cTableBits < 16 → P.ptTableBits < 16 →
      (readReg P s 0x04).toNat =
        P.dicBit + 2 ^ 4 * (P.maxMatch - 1) + 2 ^ 12 * P.threshold + 2 ^ 16 * P.bufSiz ∧
      (readReg P s 0x08).toNat =
        P.cBit + 2 ^ 4 * P.pBit + 2 ^ 8 * P.tBit + 2 ^ 12 * P.cTableBits + 2 ^ 16 * P.ptTableBits
          + 2 ^ 20 * P.strictEof.toNat

/-- An operand register reads as written (EXPECTED_CRC its low 16 bits), and no other register changes; a read-only or
reserved register ignores a write, and CMD and the reserved offsets read 0 (10_state.md R42, R49-R53, 20_memory.md
R97). -/
def Obligations.RegisterFile : Prop :=
  ∀ (s : State) (v : Word) (o : BitVec 8), s.phase = .idle → s.por = false → o.toNat % 4 = 0 →
    (o ∈ [0x18#8, 0x1C#8, 0x20#8, 0x24#8, 0x2C#8, 0x30#8] →
      ∃ t, hostWrite 4 o v s = .next t ∧ readReg Config.build t o = (if o = 0x2C#8 then v &&& 0xFFFF#32 else v) ∧
        (∀ p, p ≠ o → readReg Config.build t p = readReg Config.build s p) ∧ t = { s with regs := t.regs }) ∧
    (o ∈ [0x00#8, 0x04#8, 0x08#8, 0x28#8, 0x34#8] ∨ 0x38 ≤ o.toNat → hostWrite 4 o v s = .next s) ∧
    (o = 0x10#8 ∨ 0x38 ≤ o.toNat → readReg Config.build s o = 0#32)

/-- CTRL: METHOD and CRC_CHECK read as written while the block is idle, every other bit reads 0 (10_state.md R46; for a
write while busy see BusyIgnoresWrites, for SRST SoftReset). -/
def Obligations.ControlRegister : Prop :=
  ∀ (s : State) (v : Word),
    (readReg Config.build s 0x0C).toNat = s.regs.method.toNat + 2 * s.regs.crcCheck.toNat ∧
    (s.phase = .idle → s.por = false → v.getLsbD 31 = false → ∃ t, hostWrite 4 0x0C#8 v s = .next t ∧
      t = { s with regs := { s.regs with method := v.getLsbD 0, crcCheck := v.getLsbD 1 } } ∧
      readReg Config.build t 0x0C = v &&& 3#32)

/-- STATUS reads as its table says, the `done` output is its DONE bit, and a write to it clears DONE and CMD_LOST where
it writes 1 and nothing else (10_state.md R48, 60_exceptions.md R402, R413). -/
def Obligations.StatusRegister : Prop :=
  ∀ (s : State) (v : Word),
    (readReg Config.build s 0x14).toNat =
      s.busy.toNat + 2 * s.regs.done.toNat + 16 * s.regs.errcode.code.toNat + 256 * s.regs.stored.toNat
        + 512 * s.bw.unpackable.toNat + 1024 * s.regs.crcMismatch.toNat + 2048 * s.regs.cmdLost.toNat ∧
    [ErrKind.none, .commandError, .malformedInput, .allocationFailure, .internalInconsistency].map
      (fun k => k.code.toNat) = [0, 1, 2, 3, 4] ∧
    doneLine s = (readReg Config.build s 0x14).getLsbD 1 ∧
    writeReg s 0x14#8 v = { s with regs := { s.regs with
      done := s.regs.done && !v.getLsbD 1, cmdLost := s.regs.cmdLost && !v.getLsbD 11 } }

/-- A host access that is not 32 bits wide or not aligned is refused, whatever the state; an aligned 32-bit one never
is. A read returns the register's value and has no other effect, stated where the sequencer takes no step beside it:
the block idle, or busy with the host's next turn due at once (log entry 2; 20_memory.md R97, R105, R106). -/
def Obligations.HostAccess : Prop :=
  ∀ (bytes : Nat) (o : BitVec 8) (v : Word) (s : State),
    (bytes ≠ 4 ∨ o.toNat % 4 ≠ 0 →
      hostWrite bytes o v s = .refused (.badAccess bytes o) ∧ hostRead bytes o s = .refused (.badAccess bytes o)) ∧
    (bytes = 4 → o.toNat % 4 = 0 →
      (∃ t, hostWrite bytes o v s = .next t) ∧ (∃ t, hostRead bytes o s = .next t) ∧
      (s.por = false →
        (s.phase = .idle ∨ (s.pace = some 0 ∧ ∃ todo, s.phase = .run .encode todo ∨ s.phase = .run .decode todo)) →
          hostRead bytes o s = .next { s with rdata := readReg Config.build s o }))

/-! ## Hazards, reset, faults -/

/-- A CMD write of any word, legal or not, while a command runs is dropped and sets CMD_LOST; the running command is not
affected. That no sequencer step follows the dropped write in its own turn, which the exact next state says, is the
model's choice (log entry 2) (70_reset_and_hazards.md R441). -/
def Obligations.BusyDropsCommand : Prop :=
  ∀ (s : State) (w : Word), s.busy = true →
    writeCmd w s = .next { s with regs := { s.regs with cmdLost := true } } ∧
    ∀ i, exec i s = .next { s with regs := { s.regs with cmdLost := true } }

/-- While a command runs, writes to the operand registers and to CTRL[1:0] are ignored, a write to STATUS clears only
CMD_LOST, and CTRL.SRST is honoured (70_reset_and_hazards.md R442). -/
def Obligations.BusyIgnoresWrites : Prop :=
  ∀ (s : State) (v : Word), s.busy = true → s.controlOk →
    (∀ o ∈ [0x18#8, 0x1C#8, 0x20#8, 0x24#8, 0x2C#8, 0x30#8], writeReg s o v = s) ∧
    (v.getLsbD 31 = false → writeReg s 0x0C#8 v = s) ∧
    writeReg s 0x14#8 v = { s with regs := { s.regs with cmdLost := s.regs.cmdLost && !v.getLsbD 11 } } ∧
    (v.getLsbD 31 = true → (writeReg s 0x0C#8 v).phase = .idle ∧ statusWord (writeReg s 0x0C#8 v) = 0#32)

/-- While a command runs, no step changes a result or an operand register: they change only in the step that ends the
command (log entry 7; 70_reset_and_hazards.md R440, R442, R443). -/
def Obligations.ResultsStableWhileBusy : Prop :=
  ∀ s t : State, s.controlOk → s.resultsLast → s.busy = true → step s = .next t → t.busy = true →
    t.regs = { s.regs with cmdLost := t.regs.cmdLost }

/-- No operand is ever written by a command, and each result register only by its commands: RESULT by BR_PEEK, BR_GET
and CRC_READ; CRC by ENCODE, DECODE and CRC_READ; COMP_SIZE by ENCODE. `unpackable` is sticky: no command but BW_INIT
and ENCODE clears it (10_state.md R46, R49-R54, 40_bitstream_crc.md R204). -/
def Obligations.RegisterWriters : Prop :=
  ∀ (i : Instr) (s t : State), exec i s = .next t →
    (t.regs.method = s.regs.method ∧ t.regs.crcCheck = s.regs.crcCheck ∧ t.regs.origSize = s.regs.origSize ∧
      t.regs.expectedCrc = s.regs.expectedCrc ∧ t.regs.arg = s.regs.arg) ∧
    (i ≠ .crcRead → (∀ n, i ≠ .brPeek n) → (∀ n, i ≠ .brGet n) → t.regs.result = s.regs.result) ∧
    (i ≠ .encode → i ≠ .decode → i ≠ .crcRead → t.regs.crc = s.regs.crc) ∧
    (i ≠ .encode → t.regs.compSize = s.regs.compSize) ∧
    (i ≠ .encode → i ≠ .decode → t.regs.stored = s.regs.stored ∧ t.regs.crcMismatch = s.regs.crcMismatch) ∧
    (i ≠ .bwInit → i ≠ .encode → s.bw.unpackable = true → t.bw.unpackable = true)

/-- Which command reports which error kind, in the default build: DECODE MalformedInput, ENCODE InternalInconsistency,
the others none (60_exceptions.md R402-R405). -/
def Obligations.ErrorKinds : Prop :=
  ∀ (i : Instr) (s t : State), s.phase = .idle → exec i s = .next t →
    t.regs.errcode = .none ∨ (i = .decode ∧ t.regs.errcode = .malformedInput) ∨
      (i = .encode ∧ t.regs.errcode = .internalInconsistency)

/-- A soft reset takes every state, idle or busy, to the reset state; the sink and the position in the source are the
host's and stay (70_reset_and_hazards.md R432). -/
def Obligations.SoftReset : Prop :=
  ∀ (s : State) (v : Word), s.por = false → v.getLsbD 31 = true →
    ∃ t, hostWrite 4 0x0C#8 v s = .next t ∧ atReset t ∧ t.port = s.port ∧ t.agenda = s.agenda ∧ t.pace = s.pace ∧
      t.por = false ∧ t.rdata = s.rdata

/-- The state after power-on has every value of the reset table (70_reset_and_hazards.md R431). -/
def Obligations.ResetValues : Prop := atReset State.reset

/-- While the power-on reset is asserted the block ignores host accesses; when it is released the reset state holds
(70_reset_and_hazards.md R430; what holds in between is log entry 14, that the host's side of the ports stays as it is
log entry 3). -/
def Obligations.PowerOnReset : Prop :=
  ∀ s : State, ∃ t u, hostAct .assertReset s = .next t ∧
    (∀ (o : BitVec 8) (v : Word), o.toNat % 4 = 0 → hostWrite 4 o v t = .next t ∧ hostRead 4 o t = .next t) ∧
    hostAct .releaseReset t = .next u ∧ atReset u ∧ u.por = false ∧ u.port = s.port

/-- A fault ends the command with its kind and leaves every other register, the sink, the source position and the writer
as they are (60_exceptions.md R401, 44_pipeline.md R365). -/
def Obligations.FaultFrame : Prop :=
  ∀ s t : State, seqStep Config.build s = .ran t → t.phase = .idle → t.regs.errcode ≠ .none →
    t.regs = { s.regs with done := true, errcode := t.regs.errcode } ∧ t.port = s.port ∧ t.bw = s.bw

/-- Each invariant check that fails ends ENCODE with InternalInconsistency: an empty node pool at a split, a resume chain
that ends outside the tree, a splice whose representative does not lead to a child, a length limit without a length to
take from, a C, T or P tree whose lengths fail the Kraft equality (60_exceptions.md R404, 43_match_finder.md R309, R312,
R321, R323, 41_huffman_encode.md R236, R238, R249). -/
def Obligations.InvariantChecks : Prop :=
  (∀ (m : MatchFinder) (h : Handle), m.freepool = [] → split h m = .error m) ∧
  (∀ (P : Params) (m : MatchFinder), 4 ≤ m.matchlen →
    followSucc { m with matchlen := m.matchlen - 1 } P.dicSiz (.leaf (P.dicSiz + (m.matchpos + 1) % P.dicSiz)) = none →
      ∃ m', insertNode P m = .error m') ∧
  (∀ (P : Params) (i : Nat) (m : MatchFinder), m.memWf →
    child m (.inner i) (textAt m (actual P m (innerRec m i).position.value + (innerRec m i).level)) = none →
      ∃ m', splice P i m = .error m') ∧
  (∀ (f : MatchFinder → Checked MatchFinder) (s : State) (m : MatchFinder), f s.mf = .error m →
    runMatchFinder f s = { s with
      mf := m, regs := { s.regs with done := true, errcode := .internalInconsistency }, phase := .idle }) ∧
  (∀ (fuel cum : Nat) (cnt : Memory Nat), Memory.wf 0 cnt = true → cum ≠ 2 ^ 16 → longestBelow cnt 15 = none →
    ∃ c, limitLens fuel cum cnt = .error c) ∧
  (∀ (n : Nat) (f : Nat → Nat) (sc : TreeScratch),
    2 ≤ ((List.range n).filter fun i => f i ≠ 0).length →
      ((makeTree n f sc).ok = false ↔ makeCode n (lenAt (makeTree n f sc).len) = none)) ∧
  (∀ (P : Params) (s : State), s.busy = true →
    failsOn (makeTree P.nc (halfAt s.enc.cFreq) s.enc.scratch) (sendBlockTask P s) ∧
    (∀ root, P.nc ≤ root →
      failsOn (makeTree P.nt (halfAt (countTFreq P (lenAt s.enc.cLen))) s.enc.scratch) (sendTablesTask P root s)) ∧
    failsOn (makeTree P.np (halfAt s.enc.pFreq) s.enc.scratch) (sendPTableTask P s))

/-- The checks of the decoder, each ending DECODE with MalformedInput: a block size of 0, a table size or a degenerate
symbol outside the alphabet, a length above 16, a zero run past the alphabet (42_huffman_decode.md R285, R271, R272,
R274). -/
def Obligations.MalformedChecks : Prop :=
  ∀ (P : Params) (s : State) (w : PtKind) (n i k : Nat),
    ((gotSizeTask 0 s).phase = .idle ∧ (gotSizeTask 0 s).regs.errcode = .malformedInput) ∧
    (0 < n → ptAlphabet P w < n → ptCountTask P w n s = raise .malformedInput s) ∧
    (0 < n → P.nc < n → cCountTask P n s = raise .malformedInput s) ∧
    (ptAlphabet P w ≤ k → ptConstTask P w k s = raise .malformedInput s) ∧
    (P.nc ≤ k → cConstTask P k s = raise .malformedInput s) ∧
    (i < n → s.br.bitbuf.toNat / 2 ^ 3 = 2 ^ 13 - 1 → ptLoopTask P w n i s = raise .malformedInput s) ∧
    (ptAlphabet P w ≤ i → ptSkipTask P w n i (k + 1) s = raise .malformedInput s) ∧
    (P.nc ≤ i → cRunTask P n i (k + 1) s = raise .malformedInput s)

/-- A step of the sequencer touches the ports in one of four ways at most: it takes the next source byte, appends one
byte to the sink, or carries out one of the store fallback's requests (20_memory.md R98-R100). -/
def Obligations.PortDiscipline : Prop :=
  ∀ s t : State, seqStep Config.build s = .ran t →
    t.port = s.port ∨
    (s.port.taken < s.port.source.length ∧ t.port = { s.port with taken := s.port.taken + 1 }) ∨
    (∃ b, s.port.room ≠ some 0 ∧
      t.port = { s.port with sink := s.port.sink ++ [b], room := s.port.room.map (· - 1) }) ∨
    (s.port.ackDiscard = true ∧ t.port = { s.port with sink := s.port.sink.take s.port.mark }) ∨
    (s.port.ackRewind = true ∧ t.port = { s.port with taken := 0 })

/-- A command that waits at a port stays as it is until the host acts; a host with nothing left to do leaves it waiting
for ever, which the model shows as its one fault (60_exceptions.md R422; log entry 2). -/
def Obligations.PortWait : Prop :=
  ∀ (s : State) (p : Port), seqStep Config.build s = .waits p →
    (∀ n, runSeq Config.build n s = s) ∧ (s.agenda = [] → step s = .fault (.portStarved p)) ∧
    (p = .source → s.port.source.length ≤ s.port.taken) ∧ (p = .sink → s.port.room = some 0) ∧
    (p = .discard → s.port.ackDiscard = false) ∧ (p = .rewind → s.port.ackRewind = false)

/-- A stall of the host changes no result of a diagnostic command: a writer command whose bytes the host accepts late,
or a reader command whose bytes it presents late, ends in the state it ends in without the stall (20_memory.md R98, R99,
60_exceptions.md R421; the host's turns are log entry 2, late bytes log entry 21). -/
def Obligations.StallIsHarmless : Prop :=
  (∀ (s t u v : State) (n : BitVec 5) (i : Instr) (r : Nat), s.phase = .idle → s.writerOk →
    (i = .bwPut n ∨ i = .bwFlush) →
    exec i { s with port := { s.port with room := some r } } = .next t → hostAct (.accept none) t = .next u →
    exec i { s with port := { s.port with room := none } } = .next v → u = v) ∧
  (∀ (s t u v : State) (n : BitVec 5) (i : Instr) (k : Nat), s.phase = .idle → s.readerOk → n.toNat ≤ 16 →
    (i = .brInit ∨ i = .brAdvance n ∨ i = .brGet n) →
    exec i { s with port := { s.port with source := s.port.source.take k } } = .next t →
    hostAct (.supply (s.port.source.drop k)) t = .next u → exec i s = .next v → u = v)

/-! ## Invariants -/

/-- The reset state meets the invariant of the machine; the parts R431 leaves unspecified as log entry 4 chooses them. -/
def Obligations.ResetInv : Prop := State.reset.Inv

/-- Every step keeps every internal memory in canonical form (20_memory.md R91-R96; the form is the model's, log
entry 4). -/
def Obligations.StepKeepsMemories : Prop := ∀ s t : State, s.memWf → step s = .next t → t.memWf

/-- Every step keeps the invariants of the units: fewer than 8 pending bits (10_state.md R56), or 8 while a completed
byte is on its way to the sink (log entry 5), `compsize` at most the
ceiling and at it once `unpackable` (40_bitstream_crc.md R204), the reader's bounds (R57), the ports' (20_memory.md R98,
R100), DONE and ERRCODE clear while busy (R48), result registers written last (70_reset_and_hazards.md R440). -/
def Obligations.StepKeepsUnits : Prop :=
  ∀ s t : State,
    s.writerOk → s.ceilingOk → s.readerOk → s.portOk → s.controlOk → s.resultsLast → step s = .next t →
      t.writerOk ∧ t.ceilingOk ∧ t.readerOk ∧ t.portOk ∧ t.controlOk ∧ t.resultsLast

/-- No command but ENCODE reads or writes the match finder: with another match-finder state it does the same and leaves
that state alone (43_match_finder.md R325). -/
def Obligations.MatchFinderIsEncodes : Prop :=
  ∀ (i : Instr) (s t : State) (m : MatchFinder), i ≠ .encode → s.phase = .idle → exec i s = .next t →
    t.mf = s.mf ∧ exec i { s with mf := m } = .next { t with mf := m }

/-! ## Match finder -/

/-- Two places of the child map are the same only for the same parent and byte (10_state.md R64; the keys are log entry
16). -/
def Obligations.ChildMapKeys : Prop :=
  (∀ (q q' : Handle) (c c' : Byte), childKey q c = childKey q' c' → q = q' ∧ c = c') ∧
  ∀ (m : MatchFinder) (q q' : Handle) (c c' : Byte) (h : Handle),
    child (setChild q c h m) q' c' = if q' = q ∧ c' = c then some h else child m q' c'

/-- Actual maps a stored value to the one offset in `pos - D .. pos - 1` it can denote, is `pos - D` exactly at
`v = pos`, inverts the stored form, and stays right across a slide (43_match_finder.md R305, R303, R304). -/
def Obligations.ActualOffset : Prop :=
  ∀ (P : Params) (m : MatchFinder) (v : Nat),
    P.dicSiz ≤ v → v < 2 * P.dicSiz → P.dicSiz ≤ m.pos →
      (m.pos < 2 * P.dicSiz → m.pos - P.dicSiz ≤ actual P m v ∧ actual P m v < m.pos ∧
        (actual P m v = m.pos - P.dicSiz ↔ v = m.pos) ∧ stored P (actual P m v) = v) ∧
      (m.pos = 2 * P.dicSiz → actual P { m with pos := P.dicSiz } v = actual P m v - P.dicSiz)

/-- The comparison of Descend stops at the first byte that differs, or after the bytes it was asked for
(43_match_finder.md R310, R315). -/
def Obligations.CompareStopsAtMismatch : Prop :=
  ∀ (m : MatchFinder) (mp fuel ml : Nat),
    ml ≤ (compareBytes m mp fuel ml).1 ∧ (compareBytes m mp fuel ml).1 ≤ ml + fuel ∧
    (∀ k, ml ≤ k → k < (compareBytes m mp fuel ml).1 → textAt m (m.pos + k) = textAt m (mp + k)) ∧
    ((compareBytes m mp fuel ml).2 = true →
      textAt m (m.pos + (compareBytes m mp fuel ml).1) ≠ textAt m (mp + (compareBytes m mp fuel ml).1)) ∧
    ((compareBytes m mp fuel ml).2 = false → (compareBytes m mp fuel ml).1 = ml + fuel)

/-- Split puts a new node between `old` and its parent, at the depth of the mismatch, with `old` and the new leaf below
it (43_match_finder.md R309, R307). -/
def Obligations.SplitLinks : Prop :=
  ∀ (m t : MatchFinder) (old q : Handle) (i : Nat) (pool : List Nat),
    m.memWf → m.freepool = i :: pool → parentOf m old = some q → q ≠ .inner i → old ≠ .inner i → old ≠ .leaf m.pos →
    textAt m (m.pos + m.matchlen) ≠ textAt m (m.matchpos + m.matchlen) → split old m = .ok t →
      t.freepool = pool ∧
      child t q (edgeOf m old) = some (.inner i) ∧
      innerRec t i = { parent := some q, edge := edgeOf m old, level := m.matchlen, position := .fresh m.pos,
                       childcount := 2 } ∧
      child t (.inner i) (textAt m (m.matchpos + m.matchlen)) = some old ∧
      parentOf t old = some (.inner i) ∧ edgeOf t old = textAt m (m.matchpos + m.matchlen) ∧
      child t (.inner i) (textAt m (m.pos + m.matchlen)) = some (.leaf m.pos) ∧
      leafRec t m.pos = { parent := some (.inner i), edge := textAt m (m.pos + m.matchlen), succ := none } ∧
      t.text = m.text ∧ t.matchlen = m.matchlen ∧ t.matchpos = m.matchpos ∧ t.pos = m.pos

/-- DeleteNode removes the leaf of the string that leaves the window: nothing happens where it is not in the tree, a root
only loses the child, an inner node left with two children or more only loses the child and counts down. Every other
place of the child map, every other leaf and inner record, the window, the pool and the match stand as they were
(43_match_finder.md R320). -/
def Obligations.DeleteNodeEffect : Prop :=
  ∀ (P : Params) (m : MatchFinder), m.memWf →
    (parentOf m (.leaf m.pos) = none → deleteNode P m = .ok m) ∧
    (∀ b, parentOf m (.leaf m.pos) = some (.root b) → ∃ t, deleteNode P m = .ok t ∧ leafRemoved m t (.root b) ∧
      t = { m with leaves := t.leaves, children := t.children }) ∧
    (∀ i, parentOf m (.leaf m.pos) = some (.inner i) → 3 ≤ (innerRec m i).childcount →
      ∃ t, deleteNode P m = .ok t ∧ leafRemoved m t (.inner i) ∧
        innerRec t i = { innerRec m i with childcount := (innerRec m i).childcount - 1 } ∧
        (∀ j, j ≠ i → innerRec t j = innerRec m j) ∧
        t = { m with leaves := t.leaves, children := t.children, inners := t.inners })

/-- The slide moves every byte of `text[D .. 2D+M-1]` down by D, and `text[D+M ..]` keeps its contents
(44_pipeline.md R344). -/
def Obligations.WindowSlide : Prop :=
  ∀ (P : Params) (text : Memory Byte) (i : Nat), Memory.wf 0 text = true →
    (i < P.dicSiz + P.maxMatch → memRead 0 (slideText P text) i = memRead 0 text (i + P.dicSiz)) ∧
    (P.dicSiz + P.maxMatch ≤ i → memRead 0 (slideText P text) i = memRead 0 text i)

/-- The distance code of a match at `pos - 1` against `lastmatchpos` is `(pos - 1) - lastmatchpos - 1`, also when the
window has slid in between, and is below D (44_pipeline.md R347). -/
def Obligations.DistanceCode : Prop :=
  ∀ (P : Params) (m : MatchFinder),
    (m.lastmatchpos + 1 < m.pos → m.pos ≤ m.lastmatchpos + 1 + P.dicSiz →
      distanceCode P m = m.pos - 1 - m.lastmatchpos - 1 ∧ distanceCode P m < P.dicSiz) ∧
    (m.pos = P.dicSiz → P.dicSiz ≤ m.lastmatchpos + 1 → m.lastmatchpos + 1 < 2 * P.dicSiz →
      distanceCode P m = 2 * P.dicSiz - 1 - m.lastmatchpos - 1 ∧ distanceCode P m < P.dicSiz)

/-! ## Huffman coder -/

/-- A distance's class is its bit length and its extra bits are the bits below its leading one; DecodeP's rule gives the
distance back from the class and the extra bits (30_encoding.md R132, R133, 41_huffman_encode.md R245,
42_huffman_decode.md R282). -/
def Obligations.DistanceClasses : Prop :=
  (∀ p : Nat, (pClass p = 0 ↔ p = 0) ∧ (p ≠ 0 → 2 ^ (pClass p - 1) ≤ p ∧ p < 2 ^ pClass p)) ∧
  (∀ (P : Params) (p : Nat), p < P.dicSiz → pClass p < P.np) ∧
  ∀ (e : EncBlock) (p : Nat) (s : State) (cmd : Instr) (todo : List Task) (len : Nat),
    s.phase = .run cmd todo → p < 2 ^ 16 →
    (encodeP e p).head? = some (lenAt e.pLen (pClass p), halfAt e.pCode (pClass p)) ∧
    (pClass p ≤ 1 → (encodeP e p).tail = []) ∧
    (2 ≤ pClass p → (encodeP e p).tail = [(pClass p - 1, p % 2 ^ (pClass p - 1))]) ∧
    (pClass p ≤ 1 ∨ peekBits (pClass p - 1) s = p % 2 ^ (pClass p - 1) →
      ∃ ts, (gotPTask len (pClass p) s).todo = ts ++ [.copyMatch len p] ++ todo ∧
        (ts = [] ∧ pClass p = 0 ∨ ts = [.advance (pClass p - 1)] ∧ 0 < pClass p))

/-- A length field is read back to the same length and the same bit count, whatever bits follow it: the reader finds the
length, and goes on with it past exactly the bits of the field (30_encoding.md R125, 42_huffman_decode.md R273, R272). -/
def Obligations.LengthFields : Prop :=
  ∀ (k : Nat) (s : State), k ≤ 16 →
    (ptLenField k).2 = (if k ≤ 6 then k else 2 ^ (k - 3) - 2) ∧
    (s.br.bitbuf.toNat / 2 ^ (16 - (ptLenField k).1) = (ptLenField k).2 →
      peekPtLen s = k ∧
      ∀ (P : Params) (w : PtKind) (n i : Nat), i < n →
        ptLoopTask P w n i s = push [.advance (ptLenField k).1, .ptLen w n i k] s)

/-- The items of a C length table stand for exactly its lengths up to the last non-zero one, each count fits its field,
and a zero run is never split over two items (30_encoding.md R127, R129, R130, 41_huffman_encode.md R243). -/
def Obligations.LengthItems : Prop :=
  ∀ (P : Params) (len : Nat → Nat), P.nc ≤ 2 ^ P.cBit →
    ((cItems len P.nc).flatMap fun it => (itemSymbols P it).flatMap expandItem)
        = (List.range (usedLens len P.nc)).map len ∧
    (∀ it ∈ cItems len P.nc, ∀ y ∈ itemSymbols P it, countFits P y) ∧
    (∀ l r a b, cItems len P.nc = l ++ a :: b :: r → ¬ (a.1 = 0 ∧ b.1 = 0)) ∧
    (∀ i, i < P.nc → usedLens len P.nc ≤ i → len i = 0) ∧
    (0 < usedLens len P.nc → len (usedLens len P.nc - 1) ≠ 0)

/-- Codes are assigned exactly when the Kraft equality holds. A symbol's code is then the first code of its length plus
the number of earlier symbols of that length; it fits its length, the codes are prefix-free, and among codes of one
length they rise with the symbol (30_encoding.md R136, 41_huffman_encode.md R238, R251). -/
def Obligations.CanonicalCode : Prop :=
  ∀ (n : Nat) (len : Nat → Nat), n ≤ 65535 → (∀ i, i < n → len i ≤ 16) →
    ((makeCode n len).isSome = true ↔ kraft n len = 2 ^ 16) ∧
    ∀ code, makeCode n len = some code →
      (∀ i, i < n → 0 < len i →
        halfAt code i = firstCode n len (len i) + ((List.range i).filter fun j => len j = len i).length) ∧
      (∀ i, i < n → 0 < len i → halfAt code i < 2 ^ len i) ∧
      (∀ i j, i < n → j < n → i ≠ j → 0 < len i → len i ≤ len j →
        halfAt code j / 2 ^ (len j - len i) ≠ halfAt code i) ∧
      (∀ i j, i < j → j < n → 0 < len i → len i = len j → halfAt code i < halfAt code j)

/-- MakeTree on two or more non-zero frequencies builds a complete code: no check fails, exactly the symbols that occur
have a length, all are 1..16, the Kraft sum is 1, and the root's frequency is the sum (41_huffman_encode.md R231,
R235-R238, R246, R251). -/
def Obligations.MakeTreeCode : Prop :=
  ∀ (n : Nat) (f : Nat → Nat) (sc : TreeScratch), n ≤ 65535 → sc.memWf →
    2 ≤ ((List.range n).filter fun i => f i ≠ 0).length →
      (makeTree n f sc).ok = true ∧ n ≤ (makeTree n f sc).root ∧
      (makeTree n f sc).size = ((List.range n).map f).sum ∧
      (∀ i, i < n → (f i ≠ 0 ↔ 1 ≤ lenAt (makeTree n f sc).len i) ∧ lenAt (makeTree n f sc).len i ≤ 16) ∧
      kraft n (lenAt (makeTree n f sc).len) = 2 ^ 16 ∧
      makeCode n (lenAt (makeTree n f sc).len) = some (makeTree n f sc).code

/-- MakeTree on fewer than two non-zero frequencies builds no tree: every length is 0 and the root is the one symbol that
occurs, or symbol 0 (41_huffman_encode.md R234). -/
def Obligations.DegenerateTree : Prop :=
  ∀ (n : Nat) (f : Nat → Nat) (sc : TreeScratch), sc.memWf →
    ((List.range n).filter fun i => f i ≠ 0).length < 2 →
      (makeTree n f sc).ok = true ∧ (∀ i, lenAt (makeTree n f sc).len i = 0) ∧
      (∀ i, i < n → f i ≠ 0 → (makeTree n f sc).root = i ∧ (makeTree n f sc).size = f i) ∧
      ((∀ i, i < n → f i = 0) → (makeTree n f sc).root = 0)

/-- A received coded table is accepted exactly when its lengths meet the Kraft equality, the lengths from the table's size
on counted as 0; where they do not, reading the table ends with MalformedInput (42_huffman_decode.md R276, R272, R274,
60_exceptions.md R403). -/
def Obligations.KraftCheck : Prop :=
  (∀ (n tb : Nat) (len : Nat → Nat), (∀ i, i < n → len i ≤ 16) →
    ((makeTable n len tb).isSome = true ↔ kraft n len = 2 ^ 16)) ∧
  (∀ (P : Params) (w : PtKind) (n i : Nat) (s : State), n ≤ i → i ≤ ptAlphabet P w →
    Memory.wf 0 (ptLens w s.dec) = true → (∀ j, j < i → lenAt (ptLens w s.dec) j ≤ 16) →
    (kraft i (lenAt (ptLens w s.dec)) ≠ 2 ^ 16 →
      ptLoopTask P w n i s = raise .malformedInput (zeroPtFrom w i (ptAlphabet P w) s)) ∧
    (kraft i (lenAt (ptLens w s.dec)) = 2 ^ 16 → ∃ tab,
      makeTable (ptAlphabet P w) (received i (lenAt (ptLens w s.dec))) P.ptTableBits = some tab ∧
      ptLoopTask P w n i s = { zeroPtFrom w i (ptAlphabet P w) s with
        dec := setPtTable w tab (zeroPtFrom w i (ptAlphabet P w) s).dec }) ∧
    (∀ j, j < ptAlphabet P w → lenAt (ptLens w (zeroPtFrom w i (ptAlphabet P w) s).dec) j
      = received i (lenAt (ptLens w s.dec)) j)) ∧
  (∀ (P : Params) (n i : Nat) (s : State), n ≤ i → i ≤ P.nc →
    Memory.wf 0 s.dec.cLen = true → (∀ j, j < i → lenAt s.dec.cLen j ≤ 16) →
    (kraft i (lenAt s.dec.cLen) ≠ 2 ^ 16 → cLoopTask P n i s = raise .malformedInput (zeroCFrom i P.nc s)) ∧
    (kraft i (lenAt s.dec.cLen) = 2 ^ 16 → ∃ tab,
      makeTable P.nc (received i (lenAt s.dec.cLen)) P.cTableBits = some tab ∧
      cLoopTask P n i s = { zeroCFrom i P.nc s with dec := { (zeroCFrom i P.nc s).dec with cTab := tab } }) ∧
    (∀ j, j < P.nc → lenAt (zeroCFrom i P.nc s).dec.cLen j = received i (lenAt s.dec.cLen) j))

/-- Lookup with tree fallback finds the symbol whose canonical codeword the next bits begin with, and consumes that
symbol's length, for every valid code and every table width, codes longer than the width included
(42_huffman_decode.md R283, R277, R280). An alphabet above 32768 symbols would number its tree nodes past 16 bits. -/
def Obligations.LookupFindsSymbol : Prop :=
  ∀ (n tb : Nat) (lens : Memory Len) (tab : Table) (code : Memory Half) (s : State) (c : Nat) (next : Nat → Task),
    1 ≤ tb → tb ≤ 16 → n ≤ 32768 → (∀ i, i < n → lenAt lens i ≤ 16) →
    makeTable n (lenAt lens) tb = some tab → makeCode n (lenAt lens) = some code →
    c < n → 0 < lenAt lens c → s.br.bitbuf.toNat / 2 ^ (16 - lenAt lens c) = halfAt code c →
      lookupSymbol tab tb n s = some c ∧
      tableDecode tab lens tb n next s = push [.advance (lenAt lens c), next c] s

/-! ## Decoding -/

/-- CopyMatch repeats the output from `p + 1` bytes back, byte by byte and cut at ORIG_SIZE, so that a copy longer than
its distance repeats its own bytes; a reference before the first byte ends DECODE with MalformedInput (44_pipeline.md
R358, R359, R356). -/
def Obligations.CopyMatch : Prop :=
  ∀ (s : State) (h : List Byte) (cmd : Instr) (todo : List Task) (j p : Nat),
    s.phase = .run cmd todo → todo ≠ [] → s.port.room = none → Memory.wf 0 s.dec.dwin = true → windowHolds h s →
    h.length ≤ s.regs.origSize.toNat → p < Config.build.dicSiz →
    (h.length < p + 1 → copyMatchTask j p s = raise .malformedInput s) ∧
    (p + 1 ≤ h.length → ∃ (k : Nat) (t : State) (a : List Byte),
      runSeq Config.build k { s with phase := .run cmd (.copyMatch j p :: todo) } = t ∧
      a.length = min j (s.regs.origSize.toNat - h.length) ∧
      (∀ i, i < a.length → a[i]? = (h ++ a)[h.length + i - (p + 1)]?) ∧
      windowHolds (h ++ a) t ∧ t.crc = a.foldl nextCrc s.crc ∧
      t = { s with crc := t.crc, dec := { s.dec with outcount := t.dec.outcount, dwin := t.dec.dwin }
                   port := { s.port with sink := s.port.sink ++ a } })

end Statements
end

