-- ==== Sys2Proof/Laws/Memory.lean ====
section
/-! SUPPORT. Indexed memories: reading after writing, and the canonical form kept by every memory operation of the
model. -/

namespace Sys2Proof.Machine

variable {α : Type}

/-! ### The form -/

theorem rising_iff (m : Memory α) : Memory.rising m = true ↔ m.Pairwise (fun x y => x.1 < y.1) := by
  induction m with
  | nil => simp [Memory.rising]
  | cons c rest ih =>
    cases rest with
    | nil => simp [Memory.rising]
    | cons e rest =>
      obtain ⟨a, v⟩ := c
      obtain ⟨b, w⟩ := e
      simp only [Memory.rising, Bool.and_eq_true, decide_eq_true_eq, ih]
      constructor
      · rintro ⟨hab, hp⟩
        refine List.Pairwise.cons ?_ hp
        intro x hx
        rcases List.mem_cons.mp hx with rfl | hx
        · exact hab
        · exact Nat.lt_trans hab (List.rel_of_pairwise_cons hp hx)
      · intro hp
        exact ⟨List.rel_of_pairwise_cons hp (List.mem_cons_self (a := (b, w))), hp.of_cons⟩

theorem wf_iff [DecidableEq α] (d : α) (m : Memory α) :
    Memory.wf d m = true ↔ m.Pairwise (fun x y => x.1 < y.1) ∧ ∀ c ∈ m, c.2 ≠ d := by
  simp [Memory.wf, rising_iff]

theorem rising_of_wf [DecidableEq α] {d : α} {m : Memory α} (h : Memory.wf d m = true) : Memory.rising m = true := by
  rw [wf_iff] at h; exact (rising_iff m).mpr h.1

@[simp] theorem wf_nil [DecidableEq α] (d : α) : Memory.wf d ([] : Memory α) = true := rfl
@[simp] theorem rising_nil : Memory.rising ([] : Memory α) = true := rfl

/-! ### Reading a cell -/

@[simp] theorem cellGet_nil (a : Nat) : cellGet ([] : Memory α) a = none := rfl

theorem cellGet_eq_none_of_lt {m : Memory α} {a : Nat} (h : ∀ c ∈ m, a < c.1) : cellGet m a = none := by
  cases m with
  | nil => rfl
  | cons c rest =>
    have hc := h c (by simp)
    simp [cellGet, Nat.ne_of_lt hc, hc]

theorem cellGet_cellPut_same (m : Memory α) (a : Nat) (v : α) : cellGet (cellPut m a v) a = some v := by
  induction m with
  | nil => simp [cellPut, cellGet]
  | cons c rest ih =>
    obtain ⟨k, w⟩ := c
    simp only [cellPut]
    split
    · simp [cellGet]
    · split
      · simp [cellGet]
      · next h1 h2 => simp [cellGet, h1, h2, ih]

theorem cellGet_cellPut_ne (m : Memory α) {a b : Nat} (v : α) (h : b ≠ a) :
    cellGet (cellPut m a v) b = cellGet m b := by
  induction m with
  | nil => simp [cellPut, cellGet, h]
  | cons c rest ih =>
    obtain ⟨k, w⟩ := c
    simp only [cellPut]
    split
    · next h1 =>
      by_cases hb : b < a
      · have : b < k := Nat.lt_trans hb h1
        simp [cellGet, h, hb, this, Nat.ne_of_lt this]
      · simp [cellGet, h, hb]
    · split
      · next h1 h2 => subst h2; simp [cellGet, h]
      · simp [cellGet, ih]

theorem cellGet_cellDrop_same {m : Memory α} (hm : Memory.rising m = true) (a : Nat) :
    cellGet (cellDrop m a) a = none := by
  induction m with
  | nil => rfl
  | cons c rest ih =>
    obtain ⟨k, w⟩ := c
    rw [rising_iff] at hm
    simp only [cellDrop]
    split
    · next h1 => simp [cellGet, h1, Nat.ne_of_lt h1]
    · split
      · next h1 h2 =>
        subst h2
        exact cellGet_eq_none_of_lt fun c hc => List.rel_of_pairwise_cons hm hc
      · next h1 h2 => simp [cellGet, h1, h2, ih ((rising_iff _).mpr hm.of_cons)]

theorem cellGet_cellDrop_ne {m : Memory α} (hm : Memory.rising m = true) {a b : Nat} (h : b ≠ a) :
    cellGet (cellDrop m a) b = cellGet m b := by
  induction m with
  | nil => rfl
  | cons c rest ih =>
    obtain ⟨k, w⟩ := c
    rw [rising_iff] at hm
    simp only [cellDrop]
    split
    · rfl
    · split
      · next h1 h2 =>
        subst h2
        simp only [cellGet, if_neg h]
        split
        · next hb =>
          exact cellGet_eq_none_of_lt fun c hc => Nat.lt_trans hb (List.rel_of_pairwise_cons hm hc)
        · rfl
      · simp [cellGet, ih ((rising_iff _).mpr hm.of_cons)]

theorem memRead_memWrite_same [DecidableEq α] (d : α) {m : Memory α} (hm : Memory.rising m = true) (a : Nat) (v : α) :
    memRead d (memWrite d m a v) a = v := by
  unfold memRead memWrite
  split
  · next h => simp [cellGet_cellDrop_same hm, h]
  · simp [cellGet_cellPut_same]

theorem memRead_memWrite_ne [DecidableEq α] (d : α) {m : Memory α} (hm : Memory.rising m = true) {a b : Nat} (v : α)
    (h : b ≠ a) : memRead d (memWrite d m a v) b = memRead d m b := by
  unfold memRead memWrite
  split
  · rw [cellGet_cellDrop_ne hm h]
  · rw [cellGet_cellPut_ne m v h]

/-! ### Every operation keeps the form -/

theorem mem_cellPut {m : Memory α} {a : Nat} {v : α} {c : Nat × α} (h : c ∈ cellPut m a v) : c = (a, v) ∨ c ∈ m := by
  induction m with
  | nil => simpa [cellPut] using h
  | cons e rest ih =>
    obtain ⟨k, w⟩ := e
    simp only [cellPut] at h
    split at h
    · simpa using h
    · split at h
      · rcases List.mem_cons.mp h with h | h
        · exact Or.inl h
        · exact Or.inr (List.mem_cons_of_mem _ h)
      · rcases List.mem_cons.mp h with h | h
        · exact Or.inr (by simp [h])
        · rcases ih h with h | h
          · exact Or.inl h
          · exact Or.inr (List.mem_cons_of_mem _ h)

theorem mem_cellDrop {m : Memory α} {a : Nat} {c : Nat × α} (h : c ∈ cellDrop m a) : c ∈ m := by
  induction m with
  | nil => simp [cellDrop] at h
  | cons e rest ih =>
    obtain ⟨k, w⟩ := e
    simp only [cellDrop] at h
    split at h
    · exact h
    · split at h
      · exact List.mem_cons_of_mem _ h
      · rcases List.mem_cons.mp h with h | h
        · simp [h]
        · exact List.mem_cons_of_mem _ (ih h)

theorem rising_cellPut {m : Memory α} (hm : Memory.rising m = true) (a : Nat) (v : α) :
    Memory.rising (cellPut m a v) = true := by
  rw [rising_iff] at hm ⊢
  induction m with
  | nil => simp [cellPut]
  | cons e rest ih =>
    obtain ⟨k, w⟩ := e
    simp only [cellPut]
    split
    · next h1 =>
      refine List.Pairwise.cons (fun x hx => ?_) hm
      rcases List.mem_cons.mp hx with rfl | hx
      · exact h1
      · exact Nat.lt_trans h1 (List.rel_of_pairwise_cons hm hx)
    · split
      · next h1 h2 =>
        subst h2
        exact List.Pairwise.cons (fun x hx => List.rel_of_pairwise_cons (a := (a, w)) hm hx) hm.of_cons
      · next h1 h2 =>
        refine List.Pairwise.cons (fun x hx => ?_) (ih hm.of_cons)
        rcases mem_cellPut hx with rfl | hx
        · show k < a; omega
        · exact List.rel_of_pairwise_cons hm hx

theorem rising_cellDrop {m : Memory α} (hm : Memory.rising m = true) (a : Nat) :
    Memory.rising (cellDrop m a) = true := by
  rw [rising_iff] at hm ⊢
  induction m with
  | nil => simp [cellDrop]
  | cons e rest ih =>
    obtain ⟨k, w⟩ := e
    simp only [cellDrop]
    split
    · exact hm
    · split
      · exact hm.of_cons
      · exact List.Pairwise.cons (fun x hx => List.rel_of_pairwise_cons hm (mem_cellDrop hx)) (ih hm.of_cons)

theorem rising_cellFill {m : Memory α} (hm : Memory.rising m = true) (a b : Nat) (v : α) :
    Memory.rising (cellFill m a b v) = true := by
  rw [rising_iff] at hm ⊢
  unfold cellFill
  rw [List.pairwise_append, List.pairwise_append]
  refine ⟨⟨hm.filter _, ?_, ?_⟩, hm.filter _, ?_⟩
  · rw [List.pairwise_map]
    exact List.pairwise_lt_range' (n := b - a)
  · simp only [List.mem_filter, List.mem_map, List.mem_range'_1, decide_eq_true_eq]
    rintro x ⟨-, hx⟩ y ⟨e, he, rfl⟩
    show x.1 < e
    omega
  · simp only [List.mem_append, List.mem_filter, List.mem_map, List.mem_range'_1, decide_eq_true_eq, Bool.and_eq_true]
    rintro x (⟨-, hx⟩ | ⟨e, he, rfl⟩) y ⟨-, hy⟩
    · omega
    · show e < y.1
      omega

theorem wf_memWrite [DecidableEq α] {d : α} {m : Memory α} (hm : Memory.wf d m = true) (a : Nat) (v : α) :
    Memory.wf d (memWrite d m a v) = true := by
  have hr := rising_of_wf hm
  rw [wf_iff] at hm ⊢
  unfold memWrite
  split
  · exact ⟨(rising_iff _).mp (rising_cellDrop hr a), fun c hc => hm.2 c (mem_cellDrop hc)⟩
  · next h =>
    refine ⟨(rising_iff _).mp (rising_cellPut hr a v), fun c hc => ?_⟩
    rcases mem_cellPut hc with rfl | hc
    · exact h
    · exact hm.2 c hc

theorem wf_foldl {β : Type} [DecidableEq α] {d : α} (f : Memory α → β → Memory α)
    (hf : ∀ m b, Memory.wf d m = true → Memory.wf d (f m b) = true) (l : List β) {m : Memory α}
    (hm : Memory.wf d m = true) : Memory.wf d (l.foldl f m) = true := by
  induction l generalizing m with
  | nil => exact hm
  | cons b l ih => exact ih (hf m b hm)

theorem wf_memInit [DecidableEq α] {d : α} {m : Memory α} (hm : Memory.wf d m = true) (n : Nat) (f : Nat → α) :
    Memory.wf d (memInit d n f m) = true :=
  wf_foldl _ (fun _ _ h => wf_memWrite h _ _) _ hm

theorem wf_zeroLens {m : Memory Len} (hm : Memory.wf 0 m = true) (i nn : Nat) : Memory.wf 0 (zeroLens i nn m) = true :=
  wf_foldl _ (fun _ _ h => wf_memWrite h _ _) _ hm

theorem wf_slideText (P : Params) {m : Memory Byte} (hm : Memory.wf 0 m = true) :
    Memory.wf 0 (slideText P m) = true := by
  rw [wf_iff] at hm ⊢
  unfold slideText
  constructor
  · rw [List.pairwise_append, List.pairwise_map]
    refine ⟨?_, hm.1.filter _, ?_⟩
    · have := hm.1.filter (fun c => decide (P.dicSiz ≤ c.1) && decide (c.1 < 2 * P.dicSiz + P.maxMatch))
      refine List.Pairwise.imp_of_mem ?_ this
      intro x y hx hy hxy
      simp only [List.mem_filter, Bool.and_eq_true, decide_eq_true_eq] at hx hy
      show x.1 - P.dicSiz < y.1 - P.dicSiz
      omega
    · simp only [List.mem_map, List.mem_filter, Bool.and_eq_true, decide_eq_true_eq]
      rintro x ⟨c, ⟨-, hc⟩, rfl⟩ y ⟨-, hy⟩
      show c.1 - P.dicSiz < y.1
      omega
  · simp only [List.mem_append, List.mem_map, List.mem_filter]
    rintro c (⟨e, ⟨he, -⟩, rfl⟩ | ⟨hc, -⟩)
    · exact hm.2 e he
    · exact hm.2 c hc

end Sys2Proof.Machine
end

