-- ==== Sys2Proof/Laws/State.lean ====
section
/-! SUPPORT. What each named update of the state does to each field, so that no proof unfolds a record update. -/

namespace Sys2Proof.Machine

/-! ### endCommand -/

@[simp] theorem endCommand_regs (k : ErrKind) (s : State) :
    (endCommand k s).regs = { s.regs with errcode := k, done := true } := rfl
@[simp] theorem endCommand_phase (k : ErrKind) (s : State) :
    (endCommand k s).phase = .idle := rfl
@[simp] theorem endCommand_bw (k : ErrKind) (s : State) :
    (endCommand k s).bw = s.bw := rfl
@[simp] theorem endCommand_br (k : ErrKind) (s : State) :
    (endCommand k s).br = s.br := rfl
@[simp] theorem endCommand_crc (k : ErrKind) (s : State) :
    (endCommand k s).crc = s.crc := rfl
@[simp] theorem endCommand_mf (k : ErrKind) (s : State) :
    (endCommand k s).mf = s.mf := rfl
@[simp] theorem endCommand_enc (k : ErrKind) (s : State) :
    (endCommand k s).enc = s.enc := rfl
@[simp] theorem endCommand_dec (k : ErrKind) (s : State) :
    (endCommand k s).dec = s.dec := rfl
@[simp] theorem endCommand_port (k : ErrKind) (s : State) :
    (endCommand k s).port = s.port := rfl
@[simp] theorem endCommand_agenda (k : ErrKind) (s : State) :
    (endCommand k s).agenda = s.agenda := rfl
@[simp] theorem endCommand_pace (k : ErrKind) (s : State) :
    (endCommand k s).pace = s.pace := rfl
@[simp] theorem endCommand_por (k : ErrKind) (s : State) :
    (endCommand k s).por = s.por := rfl
@[simp] theorem endCommand_rdata (k : ErrKind) (s : State) :
    (endCommand k s).rdata = s.rdata := rfl

/-! ### raise -/

@[simp] theorem raise_regs (k : ErrKind) (s : State) :
    (raise k s).regs = { s.regs with errcode := k, done := true } := rfl
@[simp] theorem raise_phase (k : ErrKind) (s : State) :
    (raise k s).phase = .idle := rfl
@[simp] theorem raise_bw (k : ErrKind) (s : State) :
    (raise k s).bw = s.bw := rfl
@[simp] theorem raise_br (k : ErrKind) (s : State) :
    (raise k s).br = s.br := rfl
@[simp] theorem raise_crc (k : ErrKind) (s : State) :
    (raise k s).crc = s.crc := rfl
@[simp] theorem raise_mf (k : ErrKind) (s : State) :
    (raise k s).mf = s.mf := rfl
@[simp] theorem raise_enc (k : ErrKind) (s : State) :
    (raise k s).enc = s.enc := rfl
@[simp] theorem raise_dec (k : ErrKind) (s : State) :
    (raise k s).dec = s.dec := rfl
@[simp] theorem raise_port (k : ErrKind) (s : State) :
    (raise k s).port = s.port := rfl
@[simp] theorem raise_agenda (k : ErrKind) (s : State) :
    (raise k s).agenda = s.agenda := rfl
@[simp] theorem raise_pace (k : ErrKind) (s : State) :
    (raise k s).pace = s.pace := rfl
@[simp] theorem raise_por (k : ErrKind) (s : State) :
    (raise k s).por = s.por := rfl
@[simp] theorem raise_rdata (k : ErrKind) (s : State) :
    (raise k s).rdata = s.rdata := rfl

/-! ### beginCommand -/

@[simp] theorem beginCommand_regs (i : Instr) (ts : List Task) (s : State) :
    (beginCommand i ts s).regs = { s.regs with done := false, errcode := .none } := rfl
@[simp] theorem beginCommand_phase (i : Instr) (ts : List Task) (s : State) :
    (beginCommand i ts s).phase = .run i ts := rfl
@[simp] theorem beginCommand_bw (i : Instr) (ts : List Task) (s : State) :
    (beginCommand i ts s).bw = s.bw := rfl
@[simp] theorem beginCommand_br (i : Instr) (ts : List Task) (s : State) :
    (beginCommand i ts s).br = s.br := rfl
@[simp] theorem beginCommand_crc (i : Instr) (ts : List Task) (s : State) :
    (beginCommand i ts s).crc = s.crc := rfl
@[simp] theorem beginCommand_mf (i : Instr) (ts : List Task) (s : State) :
    (beginCommand i ts s).mf = s.mf := rfl
@[simp] theorem beginCommand_enc (i : Instr) (ts : List Task) (s : State) :
    (beginCommand i ts s).enc = s.enc := rfl
@[simp] theorem beginCommand_dec (i : Instr) (ts : List Task) (s : State) :
    (beginCommand i ts s).dec = s.dec := rfl
@[simp] theorem beginCommand_port (i : Instr) (ts : List Task) (s : State) :
    (beginCommand i ts s).port = s.port := rfl
@[simp] theorem beginCommand_agenda (i : Instr) (ts : List Task) (s : State) :
    (beginCommand i ts s).agenda = s.agenda := rfl
@[simp] theorem beginCommand_pace (i : Instr) (ts : List Task) (s : State) :
    (beginCommand i ts s).pace = s.pace := rfl
@[simp] theorem beginCommand_por (i : Instr) (ts : List Task) (s : State) :
    (beginCommand i ts s).por = s.por := rfl
@[simp] theorem beginCommand_rdata (i : Instr) (ts : List Task) (s : State) :
    (beginCommand i ts s).rdata = s.rdata := rfl

/-! ### markSink -/

@[simp] theorem markSink_regs (s : State) :
    (markSink s).regs = s.regs := rfl
@[simp] theorem markSink_phase (s : State) :
    (markSink s).phase = s.phase := rfl
@[simp] theorem markSink_bw (s : State) :
    (markSink s).bw = s.bw := rfl
@[simp] theorem markSink_br (s : State) :
    (markSink s).br = s.br := rfl
@[simp] theorem markSink_crc (s : State) :
    (markSink s).crc = s.crc := rfl
@[simp] theorem markSink_mf (s : State) :
    (markSink s).mf = s.mf := rfl
@[simp] theorem markSink_enc (s : State) :
    (markSink s).enc = s.enc := rfl
@[simp] theorem markSink_dec (s : State) :
    (markSink s).dec = s.dec := rfl
@[simp] theorem markSink_port (s : State) :
    (markSink s).port = { s.port with mark := s.port.sink.length } := rfl
@[simp] theorem markSink_agenda (s : State) :
    (markSink s).agenda = s.agenda := rfl
@[simp] theorem markSink_pace (s : State) :
    (markSink s).pace = s.pace := rfl
@[simp] theorem markSink_por (s : State) :
    (markSink s).por = s.por := rfl
@[simp] theorem markSink_rdata (s : State) :
    (markSink s).rdata = s.rdata := rfl

/-! ### clearOutcome -/

@[simp] theorem clearOutcome_regs (s : State) :
    (clearOutcome s).regs = { s.regs with stored := false, crcMismatch := false } := rfl
@[simp] theorem clearOutcome_phase (s : State) :
    (clearOutcome s).phase = s.phase := rfl
@[simp] theorem clearOutcome_bw (s : State) :
    (clearOutcome s).bw = s.bw := rfl
@[simp] theorem clearOutcome_br (s : State) :
    (clearOutcome s).br = s.br := rfl
@[simp] theorem clearOutcome_crc (s : State) :
    (clearOutcome s).crc = s.crc := rfl
@[simp] theorem clearOutcome_mf (s : State) :
    (clearOutcome s).mf = s.mf := rfl
@[simp] theorem clearOutcome_enc (s : State) :
    (clearOutcome s).enc = s.enc := rfl
@[simp] theorem clearOutcome_dec (s : State) :
    (clearOutcome s).dec = s.dec := rfl
@[simp] theorem clearOutcome_port (s : State) :
    (clearOutcome s).port = s.port := rfl
@[simp] theorem clearOutcome_agenda (s : State) :
    (clearOutcome s).agenda = s.agenda := rfl
@[simp] theorem clearOutcome_pace (s : State) :
    (clearOutcome s).pace = s.pace := rfl
@[simp] theorem clearOutcome_por (s : State) :
    (clearOutcome s).por = s.por := rfl
@[simp] theorem clearOutcome_rdata (s : State) :
    (clearOutcome s).rdata = s.rdata := rfl

/-! ### loseCommand -/

@[simp] theorem loseCommand_regs (s : State) :
    (loseCommand s).regs = { s.regs with cmdLost := true } := rfl
@[simp] theorem loseCommand_phase (s : State) :
    (loseCommand s).phase = s.phase := rfl
@[simp] theorem loseCommand_bw (s : State) :
    (loseCommand s).bw = s.bw := rfl
@[simp] theorem loseCommand_br (s : State) :
    (loseCommand s).br = s.br := rfl
@[simp] theorem loseCommand_crc (s : State) :
    (loseCommand s).crc = s.crc := rfl
@[simp] theorem loseCommand_mf (s : State) :
    (loseCommand s).mf = s.mf := rfl
@[simp] theorem loseCommand_enc (s : State) :
    (loseCommand s).enc = s.enc := rfl
@[simp] theorem loseCommand_dec (s : State) :
    (loseCommand s).dec = s.dec := rfl
@[simp] theorem loseCommand_port (s : State) :
    (loseCommand s).port = s.port := rfl
@[simp] theorem loseCommand_agenda (s : State) :
    (loseCommand s).agenda = s.agenda := rfl
@[simp] theorem loseCommand_pace (s : State) :
    (loseCommand s).pace = s.pace := rfl
@[simp] theorem loseCommand_por (s : State) :
    (loseCommand s).por = s.por := rfl
@[simp] theorem loseCommand_rdata (s : State) :
    (loseCommand s).rdata = s.rdata := rfl

/-! ### resetBlock -/

@[simp] theorem resetBlock_regs (s : State) :
    (resetBlock s).regs = HostRegs.reset := rfl
@[simp] theorem resetBlock_phase (s : State) :
    (resetBlock s).phase = .idle := rfl
@[simp] theorem resetBlock_bw (s : State) :
    (resetBlock s).bw = Writer.reset := rfl
@[simp] theorem resetBlock_br (s : State) :
    (resetBlock s).br = Reader.reset := rfl
@[simp] theorem resetBlock_crc (s : State) :
    (resetBlock s).crc = 0xFFFF := rfl
@[simp] theorem resetBlock_mf (s : State) :
    (resetBlock s).mf = MatchFinder.reset := rfl
@[simp] theorem resetBlock_enc (s : State) :
    (resetBlock s).enc = EncBlock.reset := rfl
@[simp] theorem resetBlock_dec (s : State) :
    (resetBlock s).dec = DecBlock.reset := rfl
@[simp] theorem resetBlock_port (s : State) :
    (resetBlock s).port = s.port := rfl
@[simp] theorem resetBlock_agenda (s : State) :
    (resetBlock s).agenda = s.agenda := rfl
@[simp] theorem resetBlock_pace (s : State) :
    (resetBlock s).pace = s.pace := rfl
@[simp] theorem resetBlock_por (s : State) :
    (resetBlock s).por = s.por := rfl
@[simp] theorem resetBlock_rdata (s : State) :
    (resetBlock s).rdata = s.rdata := rfl

/-! ### setUnpackable -/

@[simp] theorem setUnpackable_regs (s : State) :
    (setUnpackable s).regs = s.regs := rfl
@[simp] theorem setUnpackable_phase (s : State) :
    (setUnpackable s).phase = s.phase := rfl
@[simp] theorem setUnpackable_bw (s : State) :
    (setUnpackable s).bw = { s.bw with unpackable := true } := rfl
@[simp] theorem setUnpackable_br (s : State) :
    (setUnpackable s).br = s.br := rfl
@[simp] theorem setUnpackable_crc (s : State) :
    (setUnpackable s).crc = s.crc := rfl
@[simp] theorem setUnpackable_mf (s : State) :
    (setUnpackable s).mf = s.mf := rfl
@[simp] theorem setUnpackable_enc (s : State) :
    (setUnpackable s).enc = s.enc := rfl
@[simp] theorem setUnpackable_dec (s : State) :
    (setUnpackable s).dec = s.dec := rfl
@[simp] theorem setUnpackable_port (s : State) :
    (setUnpackable s).port = s.port := rfl
@[simp] theorem setUnpackable_agenda (s : State) :
    (setUnpackable s).agenda = s.agenda := rfl
@[simp] theorem setUnpackable_pace (s : State) :
    (setUnpackable s).pace = s.pace := rfl
@[simp] theorem setUnpackable_por (s : State) :
    (setUnpackable s).por = s.por := rfl
@[simp] theorem setUnpackable_rdata (s : State) :
    (setUnpackable s).rdata = s.rdata := rfl

/-! ### setStored -/

@[simp] theorem setStored_regs (s : State) :
    (setStored s).regs = { s.regs with stored := true } := rfl
@[simp] theorem setStored_phase (s : State) :
    (setStored s).phase = s.phase := rfl
@[simp] theorem setStored_bw (s : State) :
    (setStored s).bw = s.bw := rfl
@[simp] theorem setStored_br (s : State) :
    (setStored s).br = s.br := rfl
@[simp] theorem setStored_crc (s : State) :
    (setStored s).crc = s.crc := rfl
@[simp] theorem setStored_mf (s : State) :
    (setStored s).mf = s.mf := rfl
@[simp] theorem setStored_enc (s : State) :
    (setStored s).enc = s.enc := rfl
@[simp] theorem setStored_dec (s : State) :
    (setStored s).dec = s.dec := rfl
@[simp] theorem setStored_port (s : State) :
    (setStored s).port = s.port := rfl
@[simp] theorem setStored_agenda (s : State) :
    (setStored s).agenda = s.agenda := rfl
@[simp] theorem setStored_pace (s : State) :
    (setStored s).pace = s.pace := rfl
@[simp] theorem setStored_por (s : State) :
    (setStored s).por = s.por := rfl
@[simp] theorem setStored_rdata (s : State) :
    (setStored s).rdata = s.rdata := rfl

/-! ### crcInit -/

@[simp] theorem crcInit_regs (s : State) :
    (crcInit s).regs = s.regs := rfl
@[simp] theorem crcInit_phase (s : State) :
    (crcInit s).phase = s.phase := rfl
@[simp] theorem crcInit_bw (s : State) :
    (crcInit s).bw = s.bw := rfl
@[simp] theorem crcInit_br (s : State) :
    (crcInit s).br = s.br := rfl
@[simp] theorem crcInit_crc (s : State) :
    (crcInit s).crc = 0xFFFF#16 := rfl
@[simp] theorem crcInit_mf (s : State) :
    (crcInit s).mf = s.mf := rfl
@[simp] theorem crcInit_enc (s : State) :
    (crcInit s).enc = s.enc := rfl
@[simp] theorem crcInit_dec (s : State) :
    (crcInit s).dec = s.dec := rfl
@[simp] theorem crcInit_port (s : State) :
    (crcInit s).port = s.port := rfl
@[simp] theorem crcInit_agenda (s : State) :
    (crcInit s).agenda = s.agenda := rfl
@[simp] theorem crcInit_pace (s : State) :
    (crcInit s).pace = s.pace := rfl
@[simp] theorem crcInit_por (s : State) :
    (crcInit s).por = s.por := rfl
@[simp] theorem crcInit_rdata (s : State) :
    (crcInit s).rdata = s.rdata := rfl

/-! ### crcUpdate -/

@[simp] theorem crcUpdate_regs (b : Byte) (s : State) :
    (crcUpdate b s).regs = s.regs := rfl
@[simp] theorem crcUpdate_phase (b : Byte) (s : State) :
    (crcUpdate b s).phase = s.phase := rfl
@[simp] theorem crcUpdate_bw (b : Byte) (s : State) :
    (crcUpdate b s).bw = s.bw := rfl
@[simp] theorem crcUpdate_br (b : Byte) (s : State) :
    (crcUpdate b s).br = s.br := rfl
@[simp] theorem crcUpdate_crc (b : Byte) (s : State) :
    (crcUpdate b s).crc = crcStep s.crc b := rfl
@[simp] theorem crcUpdate_mf (b : Byte) (s : State) :
    (crcUpdate b s).mf = s.mf := rfl
@[simp] theorem crcUpdate_enc (b : Byte) (s : State) :
    (crcUpdate b s).enc = s.enc := rfl
@[simp] theorem crcUpdate_dec (b : Byte) (s : State) :
    (crcUpdate b s).dec = s.dec := rfl
@[simp] theorem crcUpdate_port (b : Byte) (s : State) :
    (crcUpdate b s).port = s.port := rfl
@[simp] theorem crcUpdate_agenda (b : Byte) (s : State) :
    (crcUpdate b s).agenda = s.agenda := rfl
@[simp] theorem crcUpdate_pace (b : Byte) (s : State) :
    (crcUpdate b s).pace = s.pace := rfl
@[simp] theorem crcUpdate_por (b : Byte) (s : State) :
    (crcUpdate b s).por = s.por := rfl
@[simp] theorem crcUpdate_rdata (b : Byte) (s : State) :
    (crcUpdate b s).rdata = s.rdata := rfl

/-! ### setCrcReg -/

@[simp] theorem setCrcReg_regs (v : Half) (s : State) :
    (setCrcReg v s).regs = { s.regs with crc := v } := rfl
@[simp] theorem setCrcReg_phase (v : Half) (s : State) :
    (setCrcReg v s).phase = s.phase := rfl
@[simp] theorem setCrcReg_bw (v : Half) (s : State) :
    (setCrcReg v s).bw = s.bw := rfl
@[simp] theorem setCrcReg_br (v : Half) (s : State) :
    (setCrcReg v s).br = s.br := rfl
@[simp] theorem setCrcReg_crc (v : Half) (s : State) :
    (setCrcReg v s).crc = s.crc := rfl
@[simp] theorem setCrcReg_mf (v : Half) (s : State) :
    (setCrcReg v s).mf = s.mf := rfl
@[simp] theorem setCrcReg_enc (v : Half) (s : State) :
    (setCrcReg v s).enc = s.enc := rfl
@[simp] theorem setCrcReg_dec (v : Half) (s : State) :
    (setCrcReg v s).dec = s.dec := rfl
@[simp] theorem setCrcReg_port (v : Half) (s : State) :
    (setCrcReg v s).port = s.port := rfl
@[simp] theorem setCrcReg_agenda (v : Half) (s : State) :
    (setCrcReg v s).agenda = s.agenda := rfl
@[simp] theorem setCrcReg_pace (v : Half) (s : State) :
    (setCrcReg v s).pace = s.pace := rfl
@[simp] theorem setCrcReg_por (v : Half) (s : State) :
    (setCrcReg v s).por = s.por := rfl
@[simp] theorem setCrcReg_rdata (v : Half) (s : State) :
    (setCrcReg v s).rdata = s.rdata := rfl

/-! ### setResult -/

@[simp] theorem setResult_regs (v : Word) (s : State) :
    (setResult v s).regs = { s.regs with result := v } := rfl
@[simp] theorem setResult_phase (v : Word) (s : State) :
    (setResult v s).phase = s.phase := rfl
@[simp] theorem setResult_bw (v : Word) (s : State) :
    (setResult v s).bw = s.bw := rfl
@[simp] theorem setResult_br (v : Word) (s : State) :
    (setResult v s).br = s.br := rfl
@[simp] theorem setResult_crc (v : Word) (s : State) :
    (setResult v s).crc = s.crc := rfl
@[simp] theorem setResult_mf (v : Word) (s : State) :
    (setResult v s).mf = s.mf := rfl
@[simp] theorem setResult_enc (v : Word) (s : State) :
    (setResult v s).enc = s.enc := rfl
@[simp] theorem setResult_dec (v : Word) (s : State) :
    (setResult v s).dec = s.dec := rfl
@[simp] theorem setResult_port (v : Word) (s : State) :
    (setResult v s).port = s.port := rfl
@[simp] theorem setResult_agenda (v : Word) (s : State) :
    (setResult v s).agenda = s.agenda := rfl
@[simp] theorem setResult_pace (v : Word) (s : State) :
    (setResult v s).pace = s.pace := rfl
@[simp] theorem setResult_por (v : Word) (s : State) :
    (setResult v s).por = s.por := rfl
@[simp] theorem setResult_rdata (v : Word) (s : State) :
    (setResult v s).rdata = s.rdata := rfl

/-! ### crcRead -/

@[simp] theorem crcRead_regs (s : State) :
    (crcRead s).regs = { s.regs with result := (crcFinal s).setWidth 32, crc := crcFinal s } := rfl
@[simp] theorem crcRead_phase (s : State) :
    (crcRead s).phase = s.phase := rfl
@[simp] theorem crcRead_bw (s : State) :
    (crcRead s).bw = s.bw := rfl
@[simp] theorem crcRead_br (s : State) :
    (crcRead s).br = s.br := rfl
@[simp] theorem crcRead_crc (s : State) :
    (crcRead s).crc = s.crc := rfl
@[simp] theorem crcRead_mf (s : State) :
    (crcRead s).mf = s.mf := rfl
@[simp] theorem crcRead_enc (s : State) :
    (crcRead s).enc = s.enc := rfl
@[simp] theorem crcRead_dec (s : State) :
    (crcRead s).dec = s.dec := rfl
@[simp] theorem crcRead_port (s : State) :
    (crcRead s).port = s.port := rfl
@[simp] theorem crcRead_agenda (s : State) :
    (crcRead s).agenda = s.agenda := rfl
@[simp] theorem crcRead_pace (s : State) :
    (crcRead s).pace = s.pace := rfl
@[simp] theorem crcRead_por (s : State) :
    (crcRead s).por = s.por := rfl
@[simp] theorem crcRead_rdata (s : State) :
    (crcRead s).rdata = s.rdata := rfl

/-! ### bwInit -/

@[simp] theorem bwInit_regs (lim : Quad) (s : State) :
    (bwInit lim s).regs = s.regs := rfl
@[simp] theorem bwInit_phase (lim : Quad) (s : State) :
    (bwInit lim s).phase = s.phase := rfl
@[simp] theorem bwInit_bw (lim : Quad) (s : State) :
    (bwInit lim s).bw = { wacc := 0, wn := 0, compsize := 0, limit := lim, unpackable := false } := rfl
@[simp] theorem bwInit_br (lim : Quad) (s : State) :
    (bwInit lim s).br = s.br := rfl
@[simp] theorem bwInit_crc (lim : Quad) (s : State) :
    (bwInit lim s).crc = s.crc := rfl
@[simp] theorem bwInit_mf (lim : Quad) (s : State) :
    (bwInit lim s).mf = s.mf := rfl
@[simp] theorem bwInit_enc (lim : Quad) (s : State) :
    (bwInit lim s).enc = s.enc := rfl
@[simp] theorem bwInit_dec (lim : Quad) (s : State) :
    (bwInit lim s).dec = s.dec := rfl
@[simp] theorem bwInit_port (lim : Quad) (s : State) :
    (bwInit lim s).port = s.port := rfl
@[simp] theorem bwInit_agenda (lim : Quad) (s : State) :
    (bwInit lim s).agenda = s.agenda := rfl
@[simp] theorem bwInit_pace (lim : Quad) (s : State) :
    (bwInit lim s).pace = s.pace := rfl
@[simp] theorem bwInit_por (lim : Quad) (s : State) :
    (bwInit lim s).por = s.por := rfl
@[simp] theorem bwInit_rdata (lim : Quad) (s : State) :
    (bwInit lim s).rdata = s.rdata := rfl

/-! ### clearAccTask -/

@[simp] theorem clearAccTask_regs (s : State) :
    (clearAccTask s).regs = s.regs := rfl
@[simp] theorem clearAccTask_phase (s : State) :
    (clearAccTask s).phase = s.phase := rfl
@[simp] theorem clearAccTask_bw (s : State) :
    (clearAccTask s).bw = { s.bw with wacc := 0, wn := 0 } := rfl
@[simp] theorem clearAccTask_br (s : State) :
    (clearAccTask s).br = s.br := rfl
@[simp] theorem clearAccTask_crc (s : State) :
    (clearAccTask s).crc = s.crc := rfl
@[simp] theorem clearAccTask_mf (s : State) :
    (clearAccTask s).mf = s.mf := rfl
@[simp] theorem clearAccTask_enc (s : State) :
    (clearAccTask s).enc = s.enc := rfl
@[simp] theorem clearAccTask_dec (s : State) :
    (clearAccTask s).dec = s.dec := rfl
@[simp] theorem clearAccTask_port (s : State) :
    (clearAccTask s).port = s.port := rfl
@[simp] theorem clearAccTask_agenda (s : State) :
    (clearAccTask s).agenda = s.agenda := rfl
@[simp] theorem clearAccTask_pace (s : State) :
    (clearAccTask s).pace = s.pace := rfl
@[simp] theorem clearAccTask_por (s : State) :
    (clearAccTask s).por = s.por := rfl
@[simp] theorem clearAccTask_rdata (s : State) :
    (clearAccTask s).rdata = s.rdata := rfl

/-! ### brInit -/

@[simp] theorem brInit_regs (c : Quad) (s : State) :
    (brInit c s).regs = s.regs := rfl
@[simp] theorem brInit_phase (c : Quad) (s : State) :
    (brInit c s).phase = s.phase := rfl
@[simp] theorem brInit_bw (c : Quad) (s : State) :
    (brInit c s).bw = s.bw := rfl
@[simp] theorem brInit_br (c : Quad) (s : State) :
    (brInit c s).br = { s.br with bitbuf := 0, subbuf := 0, subn := 0, csize := c, remaining := c } := rfl
@[simp] theorem brInit_crc (c : Quad) (s : State) :
    (brInit c s).crc = s.crc := rfl
@[simp] theorem brInit_mf (c : Quad) (s : State) :
    (brInit c s).mf = s.mf := rfl
@[simp] theorem brInit_enc (c : Quad) (s : State) :
    (brInit c s).enc = s.enc := rfl
@[simp] theorem brInit_dec (c : Quad) (s : State) :
    (brInit c s).dec = s.dec := rfl
@[simp] theorem brInit_port (c : Quad) (s : State) :
    (brInit c s).port = s.port := rfl
@[simp] theorem brInit_agenda (c : Quad) (s : State) :
    (brInit c s).agenda = s.agenda := rfl
@[simp] theorem brInit_pace (c : Quad) (s : State) :
    (brInit c s).pace = s.pace := rfl
@[simp] theorem brInit_por (c : Quad) (s : State) :
    (brInit c s).por = s.por := rfl
@[simp] theorem brInit_rdata (c : Quad) (s : State) :
    (brInit c s).rdata = s.rdata := rfl

/-! ### brInitEndTask -/

@[simp] theorem brInitEndTask_regs (s : State) :
    (brInitEndTask s).regs = s.regs := rfl
@[simp] theorem brInitEndTask_phase (s : State) :
    (brInitEndTask s).phase = s.phase := rfl
@[simp] theorem brInitEndTask_bw (s : State) :
    (brInitEndTask s).bw = s.bw := rfl
@[simp] theorem brInitEndTask_br (s : State) :
    (brInitEndTask s).br = { s.br with consumed := 0 } := rfl
@[simp] theorem brInitEndTask_crc (s : State) :
    (brInitEndTask s).crc = s.crc := rfl
@[simp] theorem brInitEndTask_mf (s : State) :
    (brInitEndTask s).mf = s.mf := rfl
@[simp] theorem brInitEndTask_enc (s : State) :
    (brInitEndTask s).enc = s.enc := rfl
@[simp] theorem brInitEndTask_dec (s : State) :
    (brInitEndTask s).dec = s.dec := rfl
@[simp] theorem brInitEndTask_port (s : State) :
    (brInitEndTask s).port = s.port := rfl
@[simp] theorem brInitEndTask_agenda (s : State) :
    (brInitEndTask s).agenda = s.agenda := rfl
@[simp] theorem brInitEndTask_pace (s : State) :
    (brInitEndTask s).pace = s.pace := rfl
@[simp] theorem brInitEndTask_por (s : State) :
    (brInitEndTask s).por = s.por := rfl
@[simp] theorem brInitEndTask_rdata (s : State) :
    (brInitEndTask s).rdata = s.rdata := rfl

/-! ### push -/

@[simp] theorem push_regs (ts : List Task) (s : State) : (push ts s).regs = s.regs := by
  unfold push; split <;> rfl
@[simp] theorem push_bw (ts : List Task) (s : State) : (push ts s).bw = s.bw := by
  unfold push; split <;> rfl
@[simp] theorem push_br (ts : List Task) (s : State) : (push ts s).br = s.br := by
  unfold push; split <;> rfl
@[simp] theorem push_crc (ts : List Task) (s : State) : (push ts s).crc = s.crc := by
  unfold push; split <;> rfl
@[simp] theorem push_mf (ts : List Task) (s : State) : (push ts s).mf = s.mf := by
  unfold push; split <;> rfl
@[simp] theorem push_enc (ts : List Task) (s : State) : (push ts s).enc = s.enc := by
  unfold push; split <;> rfl
@[simp] theorem push_dec (ts : List Task) (s : State) : (push ts s).dec = s.dec := by
  unfold push; split <;> rfl
@[simp] theorem push_port (ts : List Task) (s : State) : (push ts s).port = s.port := by
  unfold push; split <;> rfl
@[simp] theorem push_agenda (ts : List Task) (s : State) : (push ts s).agenda = s.agenda := by
  unfold push; split <;> rfl
@[simp] theorem push_pace (ts : List Task) (s : State) : (push ts s).pace = s.pace := by
  unfold push; split <;> rfl
@[simp] theorem push_por (ts : List Task) (s : State) : (push ts s).por = s.por := by
  unfold push; split <;> rfl
@[simp] theorem push_rdata (ts : List Task) (s : State) : (push ts s).rdata = s.rdata := by
  unfold push; split <;> rfl

theorem push_idle {ts : List Task} {s : State} (h : s.phase = .idle) : push ts s = s := by
  unfold push; rw [h]

theorem push_run {ts todo : List Task} {cmd : Instr} {s : State} (h : s.phase = .run cmd todo) :
    push ts s = { s with phase := .run cmd (ts ++ todo) } := by
  unfold push; rw [h]

theorem push_phase_run {ts todo : List Task} {cmd : Instr} {s : State} (h : s.phase = .run cmd todo) :
    (push ts s).phase = .run cmd (ts ++ todo) := by
  rw [push_run h]

/-! ### checkCrc -/

@[simp] theorem checkCrc_phase (v : Half) (s : State) : (checkCrc v s).phase = s.phase := by
  unfold checkCrc; split <;> rfl
@[simp] theorem checkCrc_bw (v : Half) (s : State) : (checkCrc v s).bw = s.bw := by
  unfold checkCrc; split <;> rfl
@[simp] theorem checkCrc_br (v : Half) (s : State) : (checkCrc v s).br = s.br := by
  unfold checkCrc; split <;> rfl
@[simp] theorem checkCrc_crc (v : Half) (s : State) : (checkCrc v s).crc = s.crc := by
  unfold checkCrc; split <;> rfl
@[simp] theorem checkCrc_mf (v : Half) (s : State) : (checkCrc v s).mf = s.mf := by
  unfold checkCrc; split <;> rfl
@[simp] theorem checkCrc_enc (v : Half) (s : State) : (checkCrc v s).enc = s.enc := by
  unfold checkCrc; split <;> rfl
@[simp] theorem checkCrc_dec (v : Half) (s : State) : (checkCrc v s).dec = s.dec := by
  unfold checkCrc; split <;> rfl
@[simp] theorem checkCrc_port (v : Half) (s : State) : (checkCrc v s).port = s.port := by
  unfold checkCrc; split <;> rfl
@[simp] theorem checkCrc_agenda (v : Half) (s : State) : (checkCrc v s).agenda = s.agenda := by
  unfold checkCrc; split <;> rfl
@[simp] theorem checkCrc_pace (v : Half) (s : State) : (checkCrc v s).pace = s.pace := by
  unfold checkCrc; split <;> rfl
@[simp] theorem checkCrc_por (v : Half) (s : State) : (checkCrc v s).por = s.por := by
  unfold checkCrc; split <;> rfl
@[simp] theorem checkCrc_rdata (v : Half) (s : State) : (checkCrc v s).rdata = s.rdata := by
  unfold checkCrc; split <;> rfl

theorem checkCrc_regs (v : Half) (s : State) :
    (checkCrc v s).regs = { s.regs with crcMismatch :=
      s.regs.crcMismatch || (s.regs.crcCheck && decide (v ≠ s.regs.expectedCrc)) } := by
  unfold checkCrc
  split
  · next h => simp [h.1, h.2]
  · next h =>
    have : (s.regs.crcCheck && decide (v ≠ s.regs.expectedCrc)) = false := by
      cases hc : s.regs.crcCheck
      · rfl
      · simp only [hc, true_and] at h
        simp [h]
    rw [this, Bool.or_false]

end Sys2Proof.Machine
end

