-- ==== Sys2Proof/Laws/Ops.lean ====
section
/-! SUPPORT. One lemma for each shared operation that says once everything it can do: the ports, the byte steps of the
bitstream unit, the sequencer's step and run, and the start of a command. -/

namespace Sys2Proof.Machine

/-! ### Ports -/

theorem srcRead_eq_ok {s s' : State} {b : Byte} :
    srcRead s = .ok (b, s') ↔
      s.port.source[s.port.taken]? = some b ∧ s' = { s with port := { s.port with taken := s.port.taken + 1 } } := by
  unfold srcRead
  split
  · next c h => simp only [Except.ok.injEq, Prod.mk.injEq, h, Option.some.injEq, eq_comm]
  · next h => simp [h]

theorem srcRead_eq_error {s : State} {p : Port} :
    srcRead s = .error p ↔ p = .source ∧ s.port.source[s.port.taken]? = none := by
  unfold srcRead
  split
  · next c h => simp [h]
  · next h => simp [h, eq_comm]

theorem snkWrite_eq_ok {s s' : State} {b : Byte} :
    snkWrite b s = .ok s' ↔ s.port.room ≠ some 0 ∧
      s' = { s with port := { s.port with sink := s.port.sink ++ [b], room := s.port.room.map (· - 1) } } := by
  obtain ⟨regs, phase, bw, br, crc, mf, enc, dec, ⟨src, tk, snk, mk, room, a1, a2⟩, ag, pc, por, rd⟩ := s
  rcases room with _ | _ | n <;> simp [snkWrite, eq_comm]

theorem snkWrite_eq_error {s : State} {b : Byte} {p : Port} :
    snkWrite b s = .error p ↔ p = .sink ∧ s.port.room = some 0 := by
  obtain ⟨regs, phase, bw, br, crc, mf, enc, dec, ⟨src, tk, snk, mk, room, a1, a2⟩, ag, pc, por, rd⟩ := s
  rcases room with _ | _ | n <;> simp [snkWrite, eq_comm]

theorem snkDiscard_eq_ok {s s' : State} :
    snkDiscard s = .ok s' ↔
      s.port.ackDiscard = true ∧ s' = { s with port := { s.port with sink := s.port.sink.take s.port.mark } } := by
  unfold snkDiscard
  split
  · next h => simp only [Except.ok.injEq, h, true_and, eq_comm]
  · next h => simp [h]

theorem srcRewind_eq_ok {s s' : State} :
    srcRewind s = .ok s' ↔ s.port.ackRewind = true ∧ s' = { s with port := { s.port with taken := 0 } } := by
  unfold srcRewind
  split
  · next h => simp only [Except.ok.injEq, h, true_and, eq_comm]
  · next h => simp [h]

/-! ### Bytes of the bitstream unit -/

theorem emitByteTask_below {s : State} (b : Byte) (h : s.bw.compsize.toNat < s.bw.limit.toNat) :
    emitByteTask b s = (match snkWrite b s with
      | .error p => .error p
      | .ok s1 => .ok { s1 with bw := { s1.bw with compsize := s1.bw.compsize + 1 } }) := by
  unfold emitByteTask
  exact (if_pos h).trans (by cases snkWrite b s <;> rfl)

theorem emitByteTask_at_ceiling {s : State} (b : Byte) (h : ¬ s.bw.compsize.toNat < s.bw.limit.toNat) :
    emitByteTask b s = .ok (setUnpackable s) := by
  simp [emitByteTask, h]

theorem fetchByte_past_end {s : State} (h : s.br.remaining = 0) : fetchByte s = .ok (0, s) := by
  simp [fetchByte, h]

theorem fetchByte_eq_ok {s s' : State} {b : Byte} (h : s.br.remaining ≠ 0) :
    fetchByte s = .ok (b, s') ↔ s.port.source[s.port.taken]? = some b ∧
      s' = { s with port := { s.port with taken := s.port.taken + 1 },
                    br := { s.br with remaining := s.br.remaining - 1 } } := by
  have hn : s.br.remaining.toNat ≠ 0 := fun h0 => h (by apply BitVec.eq_of_toNat_eq; simpa using h0)
  unfold fetchByte
  rw [if_neg hn]
  cases hs : srcRead s with
  | error p => simp [(srcRead_eq_error.mp hs).2]
  | ok r =>
    obtain ⟨c, s1⟩ := r
    obtain ⟨h1, rfl⟩ := srcRead_eq_ok.mp hs
    simp only [h1, Except.ok.injEq, Prod.mk.injEq, Option.some.injEq, eq_comm]

/-! ### The sequencer -/

theorem busy_of_idle {s : State} (h : s.phase = .idle) : s.busy = false := by
  unfold State.busy; rw [h]

theorem busy_of_run {s : State} {cmd : Instr} {todo : List Task} (h : s.phase = .run cmd todo) : s.busy = true := by
  unfold State.busy; rw [h]

theorem idle_of_not_busy {s : State} (h : s.busy = false) : s.phase = .idle := by
  unfold State.busy at h
  split at h
  · next h1 => exact h1
  · cases h

theorem seqStep_idle (P : Params) {s : State} (h : s.phase = .idle) : seqStep P s = .idle := by
  unfold seqStep; rw [h]

theorem seqStep_end (P : Params) {s : State} {cmd : Instr} (h : s.phase = .run cmd []) :
    seqStep P s = .ran (endCommand .none s) := by
  unfold seqStep; rw [h]

theorem seqStep_ok (P : Params) {s s1 : State} {cmd : Instr} {t : Task} {todo : List Task}
    (h : s.phase = .run cmd (t :: todo)) (ht : runTask P t { s with phase := .run cmd todo } = .ok s1) :
    seqStep P s = .ran (endIfDone s1) := by
  unfold seqStep; rw [h]; simp only [ht]

theorem seqStep_error (P : Params) {s : State} {cmd : Instr} {t : Task} {todo : List Task} {p : Port}
    (h : s.phase = .run cmd (t :: todo)) (ht : runTask P t { s with phase := .run cmd todo } = .error p) :
    seqStep P s = .waits p := by
  unfold seqStep; rw [h]; simp only [ht]

/-- Everything a step of the sequencer can be. -/
theorem seqStep_cases {P : Params} {s s' : State} (h : seqStep P s = .ran s') :
    (∃ cmd, s.phase = .run cmd [] ∧ s' = endCommand .none s) ∨
    (∃ cmd t todo s1, s.phase = .run cmd (t :: todo) ∧ runTask P t { s with phase := .run cmd todo } = .ok s1 ∧
      s' = endIfDone s1) := by
  unfold seqStep at h
  split at h
  · cases h
  · next cmd hp => exact .inl ⟨cmd, hp, by simpa using h.symm⟩
  · next cmd t todo hp =>
    split at h
    · next s1 ht => exact .inr ⟨cmd, t, todo, s1, hp, ht, by simpa using h.symm⟩
    · cases h

@[simp] theorem runSeq_zero (P : Params) (s : State) : runSeq P 0 s = s := rfl

theorem runSeq_ran (P : Params) {s s1 : State} (n : Nat) (h : seqStep P s = .ran s1) :
    runSeq P (n + 1) s = runSeq P n s1 := by
  simp [runSeq, h]

theorem runSeq_idle (P : Params) {s : State} (n : Nat) (h : s.phase = .idle) : runSeq P n s = s := by
  cases n with
  | zero => rfl
  | succ n => simp [runSeq, seqStep_idle P h]

theorem runSeq_waits (P : Params) {s : State} {p : Port} (n : Nat) (h : seqStep P s = .waits p) :
    runSeq P n s = s := by
  cases n with
  | zero => rfl
  | succ n => simp [runSeq, h]

theorem runSeq_add (P : Params) (m n : Nat) (s : State) : runSeq P (m + n) s = runSeq P n (runSeq P m s) := by
  induction m generalizing s with
  | zero => simp
  | succ m ih =>
    rw [Nat.succ_add]
    cases h : seqStep P s with
    | idle => simp only [runSeq, h]; cases n <;> simp [runSeq, h]
    | waits p => simp only [runSeq, h]; exact (runSeq_waits P n h).symm
    | ran s1 => rw [runSeq_ran P _ h, runSeq_ran P _ h, ih]

/-- What every step of the sequencer keeps, a run of it keeps. -/
theorem runSeq_induct (P : Params) {I : State → Prop} (hI : ∀ s s', I s → seqStep P s = .ran s' → I s')
    (n : Nat) (s : State) (h : I s) : I (runSeq P n s) := by
  induction n generalizing s with
  | zero => exact h
  | succ n ih =>
    cases hs : seqStep P s with
    | idle => simpa [runSeq, hs] using h
    | waits p => simpa [runSeq, hs] using h
    | ran s1 => rw [runSeq_ran P _ hs]; exact ih s1 (hI s s1 h hs)

theorem endIfDone_idle {s : State} (h : s.phase = .idle) : endIfDone s = s := by
  unfold endIfDone; rw [h]

theorem endIfDone_done {s : State} {cmd : Instr} (h : s.phase = .run cmd []) : endIfDone s = endCommand .none s := by
  unfold endIfDone; rw [h]

theorem endIfDone_more {s : State} {cmd : Instr} {t : Task} {todo : List Task} (h : s.phase = .run cmd (t :: todo)) :
    endIfDone s = s := by
  unfold endIfDone; rw [h]

theorem fullRun_pos : ∃ n, fullRun = n + 1 := ⟨fullRun - 1, by decide⟩

theorem settle_idle (P : Params) {s : State} (h : s.phase = .idle) : settle P s = s := runSeq_idle P _ h

/-! ### The start of a command -/

theorem issue_busy (P : Params) (i : Instr) (body : State → State) (todo : List Task) {s : State}
    (h : s.busy = true) : issue P i body todo s = loseCommand s := by
  simp [issue, h]

theorem issue_idle (P : Params) (i : Instr) (body : State → State) (todo : List Task) {s : State}
    (h : s.phase = .idle) : issue P i body todo s = settle P (body (markSink (beginCommand i todo s))) := by
  simp [issue, busy_of_idle h]

theorem issueIllegal_busy {s : State} (h : s.busy = true) : issueIllegal s = loseCommand s := by
  simp [issueIllegal, h]

theorem issueIllegal_idle {s : State} (h : s.phase = .idle) :
    issueIllegal s = raise .commandError (beginCommand .nop [] s) := by
  simp [issueIllegal, busy_of_idle h]

/-! ### The meanings, arm by arm -/

theorem exec_nop (s : State) : exec .nop s = execNop s := rfl
theorem exec_encode (s : State) : exec .encode s = execEncode s := rfl
theorem exec_decode (s : State) : exec .decode s = execDecode s := rfl
theorem exec_crcInit (s : State) : exec .crcInit s = execCrcInit s := rfl
theorem exec_crcByte (b : Byte) (s : State) : exec (.crcByte b) s = execCrcByte b s := rfl
theorem exec_crcRead (s : State) : exec .crcRead s = execCrcRead s := rfl
theorem exec_bwInit (s : State) : exec .bwInit s = execBwInit s := rfl
theorem exec_bwPut (n : BitVec 5) (s : State) : exec (.bwPut n) s = execBwPut n s := rfl
theorem exec_bwFlush (s : State) : exec .bwFlush s = execBwFlush s := rfl
theorem exec_brInit (s : State) : exec .brInit s = execBrInit s := rfl
theorem exec_brPeek (n : BitVec 5) (s : State) : exec (.brPeek n) s = execBrPeek n s := rfl
theorem exec_brAdvance (n : BitVec 5) (s : State) : exec (.brAdvance n) s = execBrAdvance n s := rfl
theorem exec_brGet (n : BitVec 5) (s : State) : exec (.brGet n) s = execBrGet n s := rfl

/-- Every command's meaning answers a next state (a fault of the block is one, 60_exceptions.md R401). -/
theorem exec_next (i : Instr) (s : State) : ∃ t, exec i s = .next t := by
  cases i <;> exact ⟨_, rfl⟩

end Sys2Proof.Machine
end

