-- ==== Sys2Proof/Laws/PerInstr.lean ====
section
/-! SUPPORT. A fact of each command's word, one lemma per command: the reserved bits are 0 (30_encoding.md R138), and
the OP field is the command's row of the opcode map (R139). -/

namespace Sys2Proof

/-- The OP of each command (30_encoding.md R139). -/
def Instr.op : Instr → BitVec 8
  | .nop => 0x00
  | .encode => 0x01
  | .decode => 0x02
  | .crcInit => 0x10
  | .crcByte _ => 0x11
  | .crcRead => 0x12
  | .bwInit => 0x20
  | .bwPut _ => 0x21
  | .bwFlush => 0x22
  | .brInit => 0x28
  | .brPeek _ => 0x29
  | .brAdvance _ => 0x2A
  | .brGet _ => 0x2B

namespace Laws.CommandWord

/-- The command word of `i` carries `i`'s OP and no reserved bit. -/
def Statement (i : Instr) : Prop :=
  fieldOp (encode i) = i.op ∧ fieldReservedLow (encode i) = 0#3 ∧ fieldReservedHigh (encode i) = 0#8

theorem nop : Statement .nop := by unfold Statement; decide
theorem encode : Statement .encode := by unfold Statement; decide
theorem decode : Statement .decode := by unfold Statement; decide
theorem crcInit : Statement .crcInit := by unfold Statement; decide
theorem crcByte (b : Byte) : Statement (.crcByte b) := by unfold Statement; revert b; decide
theorem crcRead : Statement .crcRead := by unfold Statement; decide
theorem bwInit : Statement .bwInit := by unfold Statement; decide
theorem bwPut (n : BitVec 5) : Statement (.bwPut n) := by unfold Statement; revert n; decide
theorem bwFlush : Statement .bwFlush := by unfold Statement; decide
theorem brInit : Statement .brInit := by unfold Statement; decide
theorem brPeek (n : BitVec 5) : Statement (.brPeek n) := by unfold Statement; revert n; decide
theorem brAdvance (n : BitVec 5) : Statement (.brAdvance n) := by unfold Statement; revert n; decide
theorem brGet (n : BitVec 5) : Statement (.brGet n) := by unfold Statement; revert n; decide

end Laws.CommandWord

end Sys2Proof
end

