-- ==== Sys2Proof/Laws/Tasks.lean ====
section
/-! SUPPORT. What an operation of a command can never change: what the host will do, the reset input and the value of
the host's last read. -/

namespace Sys2Proof.Machine

/-- The part of the state no operation of a command touches. -/
def State.outer (s : State) : List HostTurn × Option Nat × Bool × Word := (s.agenda, s.pace, s.por, s.rdata)

@[simp] theorem outer_push (ts : List Task) (s : State) : (push ts s).outer = s.outer := by simp [State.outer]
@[simp] theorem outer_raise (k : ErrKind) (s : State) : (raise k s).outer = s.outer := rfl
@[simp] theorem outer_checkCrc (v : Half) (s : State) : (checkCrc v s).outer = s.outer := by simp [State.outer]

theorem outer_afterBits (n : Nat) (t : Task) (s : State) : (afterBits n t s).outer = s.outer := outer_push _ _

theorem outer_tableDecode (tab : Table) (len : Memory Len) (tb nchar : Nat) (next : Nat → Task) (s : State) :
    (tableDecode tab len tb nchar next s).outer = s.outer := by
  unfold tableDecode
  split
  · rfl
  · split <;> simp

theorem outer_runMatchFinder (f : MatchFinder → Checked MatchFinder) (s : State) :
    (runMatchFinder f s).outer = s.outer := by
  unfold runMatchFinder; split <;> rfl

theorem outer_srcRead {s s' : State} {b : Byte} (h : srcRead s = .ok (b, s')) : s'.outer = s.outer := by
  rw [(srcRead_eq_ok.mp h).2]; rfl

theorem outer_snkWrite {s s' : State} {b : Byte} (h : snkWrite b s = .ok s') : s'.outer = s.outer := by
  rw [(snkWrite_eq_ok.mp h).2]; rfl

theorem outer_fetchByte {s s' : State} {b : Byte} (h : fetchByte s = .ok (b, s')) : s'.outer = s.outer := by
  unfold fetchByte at h
  split at h
  · cases h; rfl
  · split at h
    · cases h
    · next hs =>
      have e := outer_srcRead hs
      cases h; exact e

theorem outer_emitByteTask {s s' : State} {b : Byte} (h : emitByteTask b s = .ok s') : s'.outer = s.outer := by
  unfold emitByteTask at h
  split at h
  · split at h
    · cases h
    · next hs =>
      have e := outer_snkWrite hs
      cases h; exact e
  · cases h; rfl

theorem outer_fillLoopTask {s s' : State} {n : Nat} (h : fillLoopTask n s = .ok s') : s'.outer = s.outer := by
  simp only [fillLoopTask] at h
  split at h
  · split at h
    · cases h
    · next hs =>
      have e := outer_fetchByte hs
      cases h; rw [outer_push]; exact e
  · cases h; rfl

theorem outer_readSrcTask {s s' : State} {off i k : Nat} (h : readSrcTask off i k s = .ok s') :
    s'.outer = s.outer := by
  unfold readSrcTask at h
  split at h
  · split at h
    · cases h
    · next hs =>
      have e := outer_srcRead hs
      cases h; rw [outer_push]; exact e
  · cases h; rfl

theorem outer_storeCopyTask {s s' : State} {n : Nat} (h : storeCopyTask n s = .ok s') : s'.outer = s.outer := by
  unfold storeCopyTask at h
  split at h
  · cases h; rfl
  · split at h
    · cases h
    · next hs =>
      have e := outer_srcRead hs
      cases h; rw [outer_push]; exact e

theorem outer_storedCopyTask {s s' : State} {n : Nat} (h : storedCopyTask n s = .ok s') : s'.outer = s.outer := by
  unfold storedCopyTask at h
  split at h
  · cases h; rfl
  · split at h
    · cases h
    · next hs =>
      have e := outer_srcRead hs
      cases h; rw [outer_push]; exact e

theorem outer_outByteTask {P : Params} {s s' : State} {b : Byte} (h : outByteTask P b s = .ok s') :
    s'.outer = s.outer := by
  unfold outByteTask at h
  split at h
  · cases h
  · next hs =>
      have e := outer_snkWrite hs
      cases h; exact e

/-- No operation of a command touches what the host will do, the reset input or the host's last read. -/
theorem runTask_outer {P : Params} {t : Task} {s s' : State} (h : runTask P t s = .ok s') : s'.outer = s.outer := by
  cases t <;> simp only [runTask, Except.ok.injEq] at h
  case emitByte => exact outer_emitByteTask h
  case fillLoop => exact outer_fillLoopTask h
  case readSrc => exact outer_readSrcTask h
  case snkDiscard => rw [(snkDiscard_eq_ok.mp h).2]; rfl
  case srcRewind => rw [(srcRewind_eq_ok.mp h).2]; rfl
  case storeCopy => exact outer_storeCopyTask h
  case storeWrite => exact outer_snkWrite h
  case storedCopy => exact outer_storedCopyTask h
  case outByte => exact outer_outByteTask h
  case deleteNode => rw [← h]; exact outer_runMatchFinder _ _
  case insertNode => rw [← h]; exact outer_runMatchFinder _ _
  case decodeSym => rw [← h]; exact outer_tableDecode ..
  case decodeP => rw [← h]; exact outer_tableDecode ..
  case decodeInit =>
    subst h
    dsimp only [decodeInitTask]
    split
    · exact (outer_push _ _).trans rfl
    · split
      · rfl
      · exact (outer_push _ _).trans rfl
  all_goals
    subst h
    simp only [putBitsTask, clearAccTask, advanceTask, fillTask, brInitEndTask, setResult, encodeInitTask,
      encodeFirstTask, clampMatchTask, encodeLoopTask, chooseTokenTask, skipMatchTask, getNextMatchTask, slideEndTask,
      outputTask, outputAfterBlockTask, sendBlockTask, sendTablesTask, sendPTableTask, sendTokenTask, sendNextTask,
      hufEncodeEndTask, encodeEndTask, encodeFinish, crcInit, storeEndTask, setStored, setCrcReg,
      hufDecodeStartTask, decodeLoopTask, decodeCTask, gotCTask, gotPTask, copyMatchTask, copyLoopTask,
      decodeFinishTask, readHeaderTask, gotSizeTask, readPtTask, ptCountTask, ptConstTask, ptLoopTask, ptLenTask,
      ptSkipTask, readCTask, cCountTask, cConstTask, cLoopTask, cSymTask, cRunTask, outer_afterBits,
      hufEncodeStart, bwInit]
    repeat' split
    all_goals first
      | rfl
      | (simp only [outer_push, outer_checkCrc, outer_tableDecode]; done)
      | (simp only [outer_push, outer_checkCrc, outer_afterBits]; done)
      | (simp only [outer_push, outer_checkCrc, outer_afterBits]; rfl)

/-- A run of the sequencer leaves them too. -/
theorem seqStep_outer {P : Params} {s s' : State} (h : seqStep P s = .ran s') : s'.outer = s.outer := by
  have hend : ∀ u : State, (endIfDone u).outer = u.outer := by
    intro u; unfold endIfDone; split <;> rfl
  obtain ⟨cmd, -, rfl⟩ | ⟨cmd, t, todo, s1, -, ht, rfl⟩ := seqStep_cases h
  · rfl
  · rw [hend, runTask_outer ht]; rfl

theorem runSeq_outer (P : Params) (n : Nat) (s : State) : (runSeq P n s).outer = s.outer :=
  runSeq_induct P (I := fun u => u.outer = s.outer) (fun _ _ hu hs => (seqStep_outer hs).trans hu) n s rfl

end Sys2Proof.Machine
end

