-- ==== Sys2Proof/Tests/Slice0.lean ====
section
/-! SUPPORT. The model's own tests. Expected results are the spec's vectors (95_test_vectors.md; the vector is named at
each test) or calculated by hand from the rule named. Then a witness for every statement of Obligations.lean that has
hypotheses: concrete states and operands that meet them, for each clause, at the ends of its range. -/

namespace Sys2Proof.Tests

set_option Elab.async false

open Sys2Proof.Machine Sys2Proof.Claims

/-! ### Helpers -/

/-- The reset state with other registers. -/
def withRegs (f : HostRegs → HostRegs) : State := { State.reset with regs := f HostRegs.reset }

/-- The reset state with sizes set and a source presented. -/
def withSource (src : List Byte) (orig comp : Quad) : State :=
  { withRegs (fun r => { r with origSize := orig, compSize := comp }) with port := { Ports.start with source := src } }

/-- What `f` sees in the next state of a step that runs the command word `w` in `s`. -/
def seen {α : Type} (f : State → α) (w : Nat) (s : State) : Option α :=
  match step (s.withFetchWord 32 w) with
  | .next t => some (f t)
  | .fault _ => none
  | .refused _ => none

/-- Does a result hold a next state that passes a check? -/
def passes (p : State → Bool) : Result → Bool
  | .next t => p t
  | .fault _ => false
  | .refused _ => false

theorem exists_of_passes {p : State → Bool} {r : Result} (h : passes p r = true) : ∃ t, r = .next t ∧ p t = true := by
  cases r with
  | next t => exact ⟨t, rfl, h⟩
  | fault _ => simp [passes] at h
  | refused _ => simp [passes] at h

/-- `n` copies of the byte 0x61. -/
def as (n : Nat) : List Byte := List.replicate n 0x61

/-- The stream of V-PIPE-6. -/
def tenStream : List Byte := [0x00, 0x02, 0x20, 0x04, 0x30, 0x71, 0x36, 0x48, 0x40, 0x10]

/-- The lengths of V-HENC-1, V-HDEC-3. -/
def sampleLens (i : Nat) : Nat := [1, 0, 3, 3, 2].getD i 0

/-- The frequencies of V-HENC-1. -/
def sampleFreq (i : Nat) : Nat := [5, 0, 1, 1, 2].getD i 0

/-! ### Well-formedness: an ill-formed term for each check (30_encoding.md R140, 00_scope.md R9-R16) -/

theorem test_wf_bwPut : Instr.wf (.bwPut 17#5) = false ∧ Instr.wf (.bwPut 16#5) = true := by decide
theorem test_wf_brPeek : Instr.wf (.brPeek 17#5) = false ∧ Instr.wf (.brPeek 16#5) = true := by decide
theorem test_wf_brAdvance : Instr.wf (.brAdvance 31#5) = false ∧ Instr.wf (.brAdvance 0#5) = true := by decide
theorem test_wf_brGet : Instr.wf (.brGet 17#5) = false ∧ Instr.wf (.brGet 16#5) = true := by decide
theorem test_wf_params_default : Config.build.wf = true := by decide
theorem test_wf_params_refused :
    [{ Config.build with dicBit := 8 }, { Config.build with pBit := 3 }, { Config.build with maxMatch := 257 },
      { Config.build with threshold := 256 }, { Config.build with threshold := 0 }, { Config.build with cBit := 8 },
      { Config.build with tBit := 4 }, { Config.build with cTableBits := 0 }, { Config.build with cTableBits := 17 },
      { Config.build with ptTableBits := 0 }, { Config.build with ptTableBits := 17 },
      { Config.build with bufSiz := 63 }, { Config.build with bufSiz := 65536 }, { Config.build with nt := 18 },
      { Config.build with sizeBit := 17 }, { Config.build with sizeBit := 14 }].map Params.wf
        = List.replicate 16 false := by decide

/-! ### Decoding: words written out from the field table of 30_encoding.md R138, R139 -/

theorem test_decode_nop : decode 0x00000000#32 = .ok .nop := rfl
theorem test_decode_encode : decode 0x00000001#32 = .ok .encode := rfl
theorem test_decode_decode : decode 0x00000002#32 = .ok .decode := rfl
theorem test_decode_crcInit : decode 0x00000010#32 = .ok .crcInit := rfl
theorem test_decode_crcByte : decode 0x00310011#32 = .ok (.crcByte 0x31#8) := rfl
theorem test_decode_crcRead : decode 0x00000012#32 = .ok .crcRead := rfl
theorem test_decode_bwInit : decode 0x00000020#32 = .ok .bwInit := rfl
theorem test_decode_bwPut : decode 0b00000000_00000000_000_01001_00100001#32 = .ok (.bwPut 9#5) := rfl
theorem test_decode_bwFlush : decode 0x00000022#32 = .ok .bwFlush := rfl
theorem test_decode_brInit : decode 0x00000028#32 = .ok .brInit := rfl
theorem test_decode_brPeek : decode 0b00000000_00000000_000_10000_00101001#32 = .ok (.brPeek 16#5) := rfl
theorem test_decode_brAdvance : decode 0x0000032A#32 = .ok (.brAdvance 3#5) := rfl
theorem test_decode_brGet : decode 0x0000102B#32 = .ok (.brGet 16#5) := rfl

/-- V-CMD-2 to V-CMD-7: every reason a word is illegal. -/
theorem test_decode_illegal :
    [0x00000003#32, 0x00000101#32, 0x00001121#32, 0x00010010#32, 0x00002000#32, 0x01000000#32].map decode
      = [.error .opcode, .error .countField, .error .countRange, .error .byteField, .error .reservedBit,
          .error .reservedBit] := rfl

/-- A table row's word, `nbits` wide, reaches the decoder (spec/opcode_table.json). -/
theorem test_decodeTableWord :
    decodeTableWord 32 0x0031_0011 = some (.crcByte 0x31#8) ∧ decodeTableWord 32 0x3 = none := by decide

/-! ### Commands, one step each -/

/-- V-CMD-1. -/
theorem test_nop : seen statusWord 0x0 State.reset = some 0x2#32 := by decide +kernel

/-- V-CMD-3. -/
theorem test_illegal_status : seen statusWord 0x101 State.reset = some 0x12#32 := by decide +kernel

/-- V-CRC-2: the start value. -/
theorem test_crcInit : seen (·.crc) 0x10 { State.reset with crc := 0x1234#16 } = some 0xFFFF#16 := by decide +kernel

/-- V-CRC-2. -/
theorem test_crcByte : seen (·.crc) 0x310011 State.reset = some 0x2F8D#16 := by decide +kernel

/-- V-CRC-3: the last byte. -/
theorem test_crcByte_last : seen (·.crc) 0x390011 { State.reset with crc := 0xF795#16 } = some 0x6F91#16 := by
  decide +kernel

/-- V-CRC-3: CrcFinal, in both registers; the accumulator stays. -/
theorem test_crcRead :
    seen (fun t => (t.regs.result, t.regs.crc, t.crc)) 0x12 { State.reset with crc := 0x6F91#16 }
      = some (0x906E#32, 0x906E#16, 0x6F91#16) := by decide +kernel

/-- V-CRC-1. -/
theorem test_crcTable :
    [0x00#8, 0x01#8, 0x80#8, 0xFF#8].map crcTable = [0x0000#16, 0x1189#16, 0x8408#16, 0x0F78#16] := by decide

/-- R218: the ceiling is ORIG_SIZE. -/
theorem test_bwInit :
    seen (·.bw) 0x20 { withRegs (fun r => { r with origSize := 100 }) with
        bw := { wacc := 5, wn := 3, compsize := 7, limit := 7, unpackable := true } }
      = some { wacc := 0, wn := 0, compsize := 0, limit := 100, unpackable := false } := by decide +kernel

/-- V-BSU-1, its second PutBits: the pending bits 101 and nine one bits are `BF` and the pending bits 1111. -/
theorem test_bwPut :
    seen (fun t => (t.bw.wacc, t.bw.wn, t.bw.compsize, t.port.sink)) 0x921
        { withRegs (fun r => { r with arg := 0x1FF }) with
          bw := { wacc := 5, wn := 3, compsize := 0, limit := 100, unpackable := false } }
      = some (0xF#8, 4, 1, [0xBF#8]) := by decide +kernel

/-- V-BSU-4: the ceiling. -/
theorem test_bwPut_ceiling :
    seen (fun t => (t.bw.compsize, t.bw.unpackable, t.port.sink)) 0x1021
        { withRegs (fun r => { r with arg := 0x1234 }) with
          bw := { wacc := 0, wn := 0, compsize := 0, limit := 1, unpackable := false } }
      = some (1, true, [0x12#8]) := by decide +kernel

/-- V-BSU-2: three zero bits stay pending. -/
theorem test_bwFlush :
    seen (fun t => (t.bw.wacc, t.bw.wn, t.bw.compsize, t.port.sink)) 0x22
        { State.reset with bw := { wacc := 0xD, wn := 4, compsize := 3, limit := 100, unpackable := false } }
      = some (0#8, 3, 4, [0xD0#8]) := by decide +kernel

/-- V-BSU-7. -/
theorem test_brInit :
    seen (fun t => (t.br.bitbuf, t.br.subn, t.br.remaining, t.port.taken)) 0x28
        (withSource [0xBF, 0xFA, 0xBC, 0xD0] 0 4) = some (0xBFFA#16, 0, 2, 2) := by decide +kernel

/-- V-BSU-8. -/
theorem test_brPeek :
    seen (fun t => (t.regs.result, t.br.bitbuf)) 0x329
        { State.reset with br := { Reader.reset with bitbuf := 0xBFFA } } = some (5#32, 0xBFFA#16) := by decide +kernel

/-- V-BSU-9. -/
theorem test_brAdvance :
    seen (fun t => (t.br.bitbuf, t.br.consumed)) 0x32A
        { withSource [0xBF, 0xFA, 0xBC, 0xD0] 0 4 with
          br := { bitbuf := 0xBFFA, subbuf := 0, subn := 0, csize := 4, remaining := 2, consumed := 0 }
          port := { Ports.start with source := [0xBF, 0xFA, 0xBC, 0xD0], taken := 2 } }
      = some (0xFFD5#16, 3) := by decide +kernel

/-- V-BSU-10, its second GetBits. -/
theorem test_brGet :
    seen (fun t => (t.regs.result, t.br.consumed)) 0x92B
        { State.reset with
          br := { bitbuf := 0xFFD5, subbuf := 0x1C, subn := 5, csize := 4, remaining := 1, consumed := 3 }
          port := { Ports.start with source := [0xBF, 0xFA, 0xBC, 0xD0], taken := 3 } }
      = some (0x1FF#32, 12) := by decide +kernel

/-- V-BSU-12: STRICT_EOF = true. -/
theorem test_advance_strictEof :
    (advanceTask { Config.build with strictEof := true } 1
      { State.reset with br := { Reader.reset with csize := 4, consumed := 32 } }).regs.errcode = .malformedInput := by
  decide

/-- V-PIPE-6: COMP_SIZE, CRC, the sink and STATUS. -/
theorem test_encode :
    seen (fun t => (t.regs.compSize, t.regs.crc, t.port.sink, statusWord t)) 0x1 (withSource (as 10) 10 0)
      = some (10, 0x7A79#16, tenStream, 0x2#32) := by decide +kernel

/-- V-PIPE-5: the store fallback; STATUS is 0x302 before DONE is cleared. -/
theorem test_encode_stored :
    seen (fun t => (t.regs.compSize, t.regs.crc, t.port.sink, statusWord t)) 0x1 (withSource (as 9) 9 0)
      = some (9, 0x790F#16, as 9, 0x302#32) := by decide +kernel

set_option maxRecDepth 100000 in
/-- V-DEC-1. -/
theorem test_decode_command :
    seen (fun t => (t.port.sink, t.regs.crc, statusWord t)) 0x2 (withSource tenStream 10 10)
      = some (as 10, 0x7A79#16, 0x2#32) := by decide +kernel

/-- V-DEC-5: a reference before the first byte. -/
theorem test_decode_command_malformed :
    seen (fun t => (t.port.sink, statusWord t)) 0x2 (withSource [0x00, 0x01, 0x00, 0x00, 0x10, 0x60, 0x00] 9 7)
      = some ([], 0x22#32) := by decide +kernel

/-! ### Units -/

/-- V-HENC-1: root, lengths, codes. -/
theorem test_makeTree :
    ((makeTree 5 sampleFreq TreeScratch.reset).root, (makeTree 5 sampleFreq TreeScratch.reset).size,
      (List.range 5).map (lenAt (makeTree 5 sampleFreq TreeScratch.reset).len),
      (List.range 5).map (halfAt (makeTree 5 sampleFreq TreeScratch.reset).code))
      = (7, 9, [1, 0, 3, 3, 2], [0, 0, 6, 7, 2]) := by decide +kernel

/-- V-HENC-2: the length limit. -/
theorem test_makeTree_limit :
    (List.range 18).map (lenAt (makeTree 18 (fun i =>
        [1, 1, 2, 3, 5, 8, 13, 21, 34, 55, 89, 144, 233, 377, 610, 987, 1597, 2584].getD i 0) TreeScratch.reset).len)
      = [16, 16, 16, 16, 14, 13, 12, 11, 10, 9, 8, 7, 6, 5, 4, 3, 2, 1] := by decide +kernel

/-- V-HENC-6: the T table's fields, width and value. -/
theorem test_writePtLen :
    writePtLen (fun i => [0, 0, 1, 1].getD i 0) 19 5 (some 3)
      = [(5, 4), (3, 0), (3, 0), (3, 1), (2, 0), (3, 1)] := by decide +kernel

/-- V-HENC-7: the C table's fields, with T code {2: `0`, 3: `1`}. -/
theorem test_writeCLen :
    writeCLen Config.build (fun i => if i = 97 ∨ i = 98 then 1 else 0) (fun _ => 1) (fun i => if i = 3 then 1 else 0)
      = [(9, 99), (1, 0), (9, 77), (1, 1), (1, 1)] := by decide +kernel

/-- V-HENC-8, V-HENC-11. -/
theorem test_classes_and_fields :
    [0, 1, 6, 8191].map pClass = [0, 1, 3, 13] ∧ [7, 8, 16].map ptLenField = [(4, 14), (5, 30), (13, 8190)] := by
  decide +kernel

/-- V-HDEC-3, V-HDEC-6, V-HDEC-7. -/
theorem test_makeTable :
    makeTable 5 sampleLens 2 = some (.coded [(0, 0), (1, 0), (2, 4), (3, 5)] [(5, 2)] [(5, 3)]) ∧
      makeTable 3 (fun _ => 1) 2 = none ∧ makeTable 3 (fun i => if i = 0 then 1 else 0) 2 = none := by decide +kernel

/-- R318: the leaf that takes another's place has no successor, though its handle had one in an earlier life. -/
theorem test_replace_succ :
    let m : MatchFinder := { MatchFinder.reset with
      pos := 8193
      leaves := [(8192, { parent := some (.root 0x61), edge := 0x61, succ := none }),
                 (8193, { parent := none, edge := 0, succ := some (.leaf 8200) })] }
    leafRec (replace (.root 0x61) (.leaf 8192) m) 8193 = { parent := some (.root 0x61), edge := 0x61, succ := none } ∧
      leafRec (replace (.root 0x61) (.leaf 8192) m) 8192
        = { parent := none, edge := 0x61, succ := some (.leaf 8193) } := by decide +kernel

/-- A block size field of another width, in a build that has one (93_implementation_defined.md A2). -/
theorem test_readHeader_width :
    (readHeaderTask { Config.build with sizeBit := 8, bufSiz := 200 }
      { State.reset with phase := .run .decode [], br := { Reader.reset with bitbuf := 0x0234 } }).todo
      = [.advance 8, .gotSize 2] := by decide +kernel

/-- V-MF-2. -/
theorem test_actual :
    [8199, 8300].map (actual Config.build { MatchFinder.reset with pos := 8200 }) = [8199, 108] := by decide

/-- The reset reads (95_test_vectors.md, Reset). -/
theorem test_reset_reads :
    [0x00#8, 0x04#8, 0x08#8, 0x0C#8, 0x10#8, 0x14#8, 0x18#8, 0x1C#8, 0x20#8, 0x24#8, 0x28#8, 0x2C#8, 0x30#8, 0x34#8].map
        (readReg Config.build State.reset)
      = [0x4C5A4831#32, 0x40003FFD#32, 0x0008C549#32, 1, 0, 0, 0, 0, 0, 0, 0, 0, 0, 0] := by decide

/-- Program 5, its first statement, through the assembler syntax: the illegal word, then `RD STATUS`. -/
theorem test_program_illegal :
    (match Sys2Proof.core.run 2 { State.reset with agenda := assembleProgram [.wr .cmd 0x3, .rd .status] } with
      | .next t => some t.rdata
      | .fault _ => none
      | .refused _ => none) = some 0x12#32 := by decide +kernel

/-! ### Witnesses: states and operands -/

/-- A writer with three pending bits, two bytes below its ceiling. -/
def writerState : State :=
  { withRegs (fun r => { r with arg := 0x8001 }) with
    bw := { wacc := 5, wn := 3, compsize := 1, limit := 3, unpackable := false } }

/-- A reader after BR_INIT over four bytes, two of them taken. -/
def readerState : State :=
  { State.reset with
    br := { bitbuf := 0xBFFA, subbuf := 0, subn := 0, csize := 4, remaining := 2, consumed := 0 }
    port := { Ports.start with source := [0xBF, 0xFA, 0xBC, 0xD0], taken := 2 } }

/-- ENCODE, DECODE stopped somewhere in their runs, their next operations given. -/
def running (cmd : Instr) (todo : List Task) : State := { State.reset with phase := .run cmd todo }

/-- A busy block whose host reads STATUS before the sequencer goes on. -/
def busyState : State :=
  { running .encode [.encodeLoop, .hufEncodeEnd, .encodeEnd] with
    agenda := [{ act := .read 4 0x14, pace := some 0 }] }

theorem reset_memWf : State.reset.memWf := by
  unfold State.memWf MatchFinder.memWf EncBlock.memWf TreeScratch.memWf DecBlock.memWf
  exact ⟨by decide, ⟨by decide, by decide, by decide⟩, by decide, trivial, trivial, trivial⟩

theorem test_witness_DecodeEncode :
    Instr.wf (.bwPut 16#5) = true ∧ Instr.wf (.brGet 0#5) = true ∧ Instr.wf (.crcByte 0xFF#8) = true := by decide

theorem test_witness_EncodeDecode : decode 0x00FF0011#32 = .ok (.crcByte 0xFF#8) := rfl

theorem test_witness_IllegalWord :
    State.reset.phase = .idle ∧ illegalWord 0x00001129#32 ∧ illegalWord 0x00000100#32 ∧ illegalWord 0x00010010#32 ∧
      illegalWord 0x0000E000#32 ∧ illegalWord 0xFF000000#32 ∧ illegalWord 0x00000003#32 ∧
      ¬ illegalWord 0x00001029#32 ∧ ¬ illegalWord 0x00FF0011#32 := by
  unfold illegalWord
  refine ⟨rfl, ?_, ?_, ?_, ?_, ?_, ?_, ?_, ?_⟩ <;> decide

theorem test_witness_StepRunsDecoded :
    ((State.reset.withFetchWord 32 0x102B).agenda = [{ act := .write 4 0x10#8 0x102B#32, pace := none }]) ∧
      (State.reset.withFetchWord 32 0x102B).por = false ∧ decode 0x102B#32 = .ok (.brGet 16#5) := ⟨by decide, rfl, rfl⟩

/-- NopResult, CrcCommands, BwInitResult, and `wordsOf` of each: a word with the OP, a legal and an illegal one. -/
theorem test_witness_idle_commands :
    State.reset.phase = .idle ∧
      plainWord 0x20 .bwInit 0x00000020#32 = some .bwInit ∧ plainWord 0x20 .bwInit 0x00000120#32 = none ∧
      byteWord .crcByte 0x00FF0011#32 = some (.crcByte 0xFF#8) ∧ byteWord .crcByte 0x01FF0011#32 = none ∧
      countWord .brPeek 0x00001029#32 = some (.brPeek 16#5) ∧ countWord .brPeek 0x00001129#32 = none := by decide

theorem test_witness_BwPutResult :
    writerState.phase = .idle ∧ writerState.writerOk ∧ writerState.port.room = none := by
  unfold State.writerOk
  decide

/-- BwFlushResult, its three clauses: no pending bit; a pending bit below the ceiling; one at it. -/
theorem test_witness_BwFlushResult :
    (State.reset.bw.wn = 0 ∧ State.reset.writerOk) ∧
    (0 < writerState.bw.wn ∧ writerState.bw.compsize.toNat < writerState.bw.limit.toNat ∧ writerState.writerOk) ∧
    (∃ s : State, s.phase = .idle ∧ s.port.room = none ∧ s.writerOk ∧ 0 < s.bw.wn ∧
      ¬ s.bw.compsize.toNat < s.bw.limit.toNat) := by
  unfold State.writerOk
  exact ⟨by decide, by decide, { writerState with bw := { writerState.bw with wn := 7, compsize := 3 } }, by decide⟩

theorem test_witness_BrInitResult :
    (withSource [0xBF, 0xFA] 0 2).phase = .idle ∧
      (withSource [0xBF, 0xFA] 0 2).port.taken + min (withSource [0xBF, 0xFA] 0 2).regs.compSize.toNat 2
        ≤ (withSource [0xBF, 0xFA] 0 2).port.source.length := by decide

/-- BrPeekResult, BrAdvanceResult, BrGetResult at the largest count, the last source byte taken. -/
theorem test_witness_reader_commands :
    readerState.phase = .idle ∧ (16#5).toNat ≤ 16 ∧ readerState.readerOk ∧
      readerState.port.taken + fetched (16#5).toNat readerState ≤ readerState.port.source.length := by
  unfold State.readerOk
  decide

theorem test_witness_ReaderLookAhead :
    (∃ t, exec .brInit (withSource [0xBF, 0xFA] 0 2) = .next t ∧ decide (t.phase = .idle) = true) ∧
    (readerState.readerOk ∧ readerState.br.consumed.toNat + 16 < 2 ^ 64 ∧
      readerState.br.subn = (8 - readerState.br.consumed.toNat % 8) % 8 ∧
      readerState.br.csize.toNat - readerState.br.remaining.toNat
        = min readerState.br.csize.toNat (2 + (readerState.br.consumed.toNat + 7) / 8)) ∧
    (∃ t, exec (.brAdvance 16#5) readerState = .next t ∧ decide (t.phase = .idle) = true) ∧
    (∃ t, exec (.brGet 3#5) readerState = .next t ∧ decide (t.phase = .idle) = true) := by
  unfold State.readerOk
  exact ⟨exists_of_passes (by decide +kernel), by decide, exists_of_passes (by decide +kernel),
    exists_of_passes (by decide +kernel)⟩

/-- DecodeStored, both clauses, the second with an empty and a non-empty output. -/
theorem test_witness_DecodeStored :
    let m (s : State) : State := { s with regs := { s.regs with method := false } }
    (m (withSource [] 3 4)).regs.compSize ≠ (m (withSource [] 3 4)).regs.origSize ∧
    (dutiful (m (withSource [1, 2, 3] 3 3)) ∧ (m (withSource [1, 2, 3] 3 3)).memWf ∧
      (m (withSource [1, 2, 3] 3 3)).regs.method = false ∧
      (m (withSource [1, 2, 3] 3 3)).regs.compSize = (m (withSource [1, 2, 3] 3 3)).regs.origSize ∧
      (m (withSource [1, 2, 3] 3 3)).port.taken + (m (withSource [1, 2, 3] 3 3)).regs.origSize.toNat
        ≤ (m (withSource [1, 2, 3] 3 3)).port.source.length) := by
  unfold dutiful
  exact ⟨by decide, by decide, reset_memWf, by decide⟩

theorem test_witness_DecodeCoded :
    (withSource tenStream 10 10).phase = .idle ∧ (withSource tenStream 10 10).regs.method = true ∧
      dutiful (withSource tenStream 10 10) ∧
      (withSource tenStream 10 10).port.taken + (withSource tenStream 10 10).regs.compSize.toNat
        ≤ (withSource tenStream 10 10).port.source.length := by
  unfold dutiful
  decide

theorem test_witness_EncodeEmpty :
    (withSource [] 0 7).phase = .idle ∧ dutiful (withSource [] 0 7) ∧ (withSource [] 0 7).memWf ∧
      (withSource [] 0 7).regs.origSize = 0 := ⟨rfl, by unfold dutiful; decide, reset_memWf, rfl⟩

theorem test_witness_EncodeRuns :
    (withSource (as 10) 10 0).phase = .idle ∧ dutiful (withSource (as 10) 10 0) ∧ (withSource (as 10) 10 0).memWf ∧
      (withSource (as 10) 10 0).port.taken = 0 ∧
      (withSource (as 10) 10 0).regs.origSize.toNat ≤ (withSource (as 10) 10 0).port.source.length :=
  ⟨rfl, by unfold dutiful; decide, reset_memWf, rfl, by decide⟩

theorem test_witness_StoredRoundTrip :
    dutiful (withSource [0x61] 1 0) ∧ (withSource [0x61] 1 0).memWf ∧
      (withSource [0x61] 1 0).regs.origSize.toNat = ([0x61] : List Byte).length ∧
      ∃ t, exec .encode (withSource [0x61] 1 0) = .next t ∧ t.regs.stored = true :=
  ⟨by unfold dutiful; decide, reset_memWf, by decide, exists_of_passes (by decide +kernel)⟩

theorem test_witness_LongCommandStart :
    State.phase { State.reset with pace := some 0 } = .idle ∧
      State.pace { State.reset with pace := some 0 } = some 0 := by decide

theorem test_witness_Identification :
    Config.build.dicBit < 16 ∧ Config.build.maxMatch ≤ 256 ∧ 1 ≤ Config.build.maxMatch ∧
      Config.build.threshold < 16 ∧ Config.build.bufSiz < 65536 ∧ Config.build.cBit < 16 ∧ Config.build.pBit < 16 ∧
      Config.build.tBit < 16 ∧ Config.build.cTableBits < 16 ∧ Config.build.ptTableBits < 16 := by decide

/-- RegisterFile, ControlRegister, HostAccess, SoftReset: the accesses they speak of, at the ends of their ranges. -/
theorem test_witness_accesses :
    State.reset.phase = .idle ∧ State.reset.por = false ∧
      (0x30#8 ∈ [0x18#8, 0x1C#8, 0x20#8, 0x24#8, 0x2C#8, 0x30#8] ∧ (0x30#8).toNat % 4 = 0) ∧
      (0x34#8 ∈ [0x00#8, 0x04#8, 0x08#8, 0x28#8, 0x34#8]) ∧ (0x38 ≤ (0x38#8).toNat ∧ 0x38 ≤ (0xFC#8).toNat) ∧
      (2 ≠ 4 ∧ (0x15#8).toNat % 4 ≠ 0 ∧ (0x14#8).toNat % 4 = 0) ∧
      (0x7FFFFFFF#32).getLsbD 31 = false ∧ (0x80000000#32).getLsbD 31 = true := by decide

/-- HostAccess's busy case; BusyDropsCommand and BusyIgnoresWrites. -/
theorem test_witness_busy :
    busyState.busy = true ∧ busyState.controlOk ∧
      (∃ s : State, s.por = false ∧ s.pace = some 0 ∧ ∃ todo, s.phase = .run .encode todo) := by
  unfold State.controlOk
  exact ⟨by decide, by decide, { busyState with pace := some 0 }, rfl, rfl, _, rfl⟩

theorem test_witness_ResultsStableWhileBusy :
    busyState.controlOk ∧ busyState.resultsLast ∧ busyState.busy = true ∧
      ∃ t, step busyState = .next t ∧ t.busy = true := by
  unfold State.controlOk State.resultsLast
  exact ⟨by decide, by decide, by decide, exists_of_passes (by decide +kernel)⟩

/-- RegisterWriters, ErrorKinds, MatchFinderIsEncodes: a command that ends, and the sticky flag. -/
theorem test_witness_exec_next :
    (∃ t, exec .crcRead State.reset = .next t ∧ decide (t.phase = .idle) = true) ∧
      (∃ s : State, s.bw.unpackable = true ∧ ∃ t, exec (.bwPut 1#5) s = .next t ∧ t.bw.unpackable = true) :=
  ⟨exists_of_passes (by decide +kernel),
    { writerState with bw := { writerState.bw with unpackable := true } }, rfl, exists_of_passes (by decide +kernel)⟩

theorem test_witness_PowerOnReset : (0xFC#8).toNat % 4 = 0 ∧ (0x00#8).toNat % 4 = 0 := by decide

/-- FaultFrame: a reference before the first byte. -/
theorem test_witness_FaultFrame :
    ∃ t, seqStep Config.build (running .decode [.copyMatch 3 0, .decodeFinish]) = .ran t ∧
      t.phase = .idle ∧ t.regs.errcode ≠ .none := ⟨_, rfl, by decide⟩

/-- InvariantChecks, the hypotheses of its first clauses: an empty pool; a match to resume from whose leaf is not in the
tree; an operation that answers the fault. -/
theorem test_witness_InvariantChecks :
    MatchFinder.reset.freepool = [] ∧
      (4 ≤ (4 : Nat) ∧ followSucc { MatchFinder.reset with matchlen := 3 } 512
        (.leaf (512 + (MatchFinder.reset.matchpos + 1) % 512)) = none) ∧
      split (.leaf 8192) MatchFinder.reset = .error MatchFinder.reset :=
  ⟨rfl, ⟨by decide, by decide +kernel⟩, rfl⟩

/-- InvariantChecks, its clauses of the tree builder: lengths above the Kraft sum with no leaf above depth 16; two symbols
that occur; a command that runs; a root of a coded C table. -/
theorem test_witness_InvariantChecks_tree :
    ((2 ^ 17 ≠ 2 ^ 16) ∧ Memory.wf 0 [(16, 2 ^ 17)] = true ∧ longestBelow [(16, 2 ^ 17)] 15 = none) ∧
      2 ≤ ((List.range 5).filter fun i => sampleFreq i ≠ 0).length ∧
      (running .encode [.sendBlock, .encodeEnd]).busy = true ∧ Config.build.nc ≤ 510 := by decide +kernel

/-- InvariantChecks, its splice clause: one child remains, under 0x62, and the representative's byte is 0. -/
theorem test_witness_InvariantChecks_splice :
    let m : MatchFinder := { MatchFinder.reset with
      pos := 8300
      inners := [(1, { parent := some (.root 0x61), edge := 0x61, level := 2, position := .fresh 8200, childcount := 1 })]
      children := [(childKey (.inner 1) 0x62, .leaf 8201)] }
    m.memWf ∧ child m (.inner 1) 0x62 = some (.leaf 8201) ∧
      child m (.inner 1) (textAt m (actual Config.build m (innerRec m 1).position.value + (innerRec m 1).level)) = none := by
  unfold MatchFinder.memWf
  decide

/-- MalformedChecks, each clause at the first value it stops on. -/
theorem test_witness_MalformedChecks :
    (0 < 20 ∧ ptAlphabet Config.build .t < 20 ∧ ptAlphabet Config.build .p < 15 ∧ Config.build.nc < 511) ∧
      (ptAlphabet Config.build .p ≤ 14 ∧ Config.build.nc ≤ 510) ∧
      (0 < 1 ∧ (0xFFFF#16).toNat / 2 ^ 3 = 2 ^ 13 - 1) := by decide

/-- PortDiscipline: a byte taken, a byte appended, the two requests, and an operation that touches no port. -/
theorem test_witness_PortDiscipline :
    (∃ t, seqStep Config.build { running .brInit [.fillLoop 16, .brInitEnd] with
        br := { Reader.reset with csize := 1, remaining := 1 }
        port := { Ports.start with source := [7] } } = .ran t ∧ t.port.taken = 1) ∧
    (∃ t, seqStep Config.build { running (.bwPut 8#5) [.emitByte 9, .clearAcc] with
        bw := { Writer.reset with limit := 1 } } = .ran t ∧ t.port.sink = [9]) ∧
    (∃ t, seqStep Config.build { running .encode [.snkDiscard, .srcRewind] with
        port := { Ports.start with sink := [1, 2], mark := 1 } } = .ran t ∧ t.port.sink = [1]) ∧
    (∃ t, seqStep Config.build { running .encode [.srcRewind, .storeInit] with
        port := { Ports.start with source := [1, 2], taken := 2 } } = .ran t ∧ t.port.taken = 0) ∧
    (∃ t, seqStep Config.build (running .encode [.clampMatch, .storeInit]) = .ran t ∧ t.port = Ports.start) :=
  ⟨⟨_, rfl, rfl⟩, ⟨_, rfl, rfl⟩, ⟨_, rfl, rfl⟩, ⟨_, rfl, rfl⟩, ⟨_, rfl, rfl⟩⟩

/-- PortWait, at each of the four ports, with a host that has nothing left to do. -/
theorem test_witness_PortWait :
    seqStep Config.build (running .encode [.readSrc 8192 0 1]) = .waits .source ∧
    seqStep Config.build { running .encode [.storeWrite 1] with port := { Ports.start with room := some 0 } }
      = .waits .sink ∧
    seqStep Config.build { running .encode [.snkDiscard] with port := { Ports.start with ackDiscard := false } }
      = .waits .discard ∧
    seqStep Config.build { running .encode [.srcRewind] with port := { Ports.start with ackRewind := false } }
      = .waits .rewind ∧
    (running .encode [.readSrc 8192 0 1]).agenda = [] := ⟨rfl, rfl, rfl, rfl, rfl⟩

/-- StallIsHarmless: a writer whose first byte the host accepts late; a reader whose last byte comes late. -/
theorem test_witness_StallIsHarmless :
    (writerState.writerOk ∧
      ∃ t, exec (.bwPut 16#5) { writerState with port := { writerState.port with room := some 0 } } = .next t ∧
        (t.busy && passes (fun u => decide (u.phase = .idle)) (hostAct (.accept none) t)) = true) ∧
    (readerState.readerOk ∧
      ∃ t, exec (.brAdvance 16#5) { readerState with port := { readerState.port with
          source := readerState.port.source.take 3 } } = .next t ∧
        (t.busy && passes (fun u => decide (u.phase = .idle)) (hostAct (.supply (readerState.port.source.drop 3)) t))
          = true) := by
  unfold State.writerOk State.readerOk
  exact ⟨⟨by decide, exists_of_passes (by decide +kernel)⟩, by decide, exists_of_passes (by decide +kernel)⟩

/-- StepKeepsMemories and StepKeepsUnits: a state that meets every invariant and takes a step. -/
theorem test_witness_StepKeeps :
    (writerState.withFetchWord 32 0x1021).Inv ∧
      ∃ t, step (writerState.withFetchWord 32 0x1021) = .next t ∧ decide (t.bw.wn = 3) = true := by
  refine ⟨⟨reset_memWf, ?_⟩, exists_of_passes (by decide +kernel)⟩
  unfold State.writerOk State.ceilingOk State.readerOk State.portOk State.controlOk State.resultsLast
  decide

/-! ### Witnesses: the match finder -/

/-- "abac" at the window's start: the leaf of its first string is in the tree, and the string at `D + 2` is next. -/
def splitState : MatchFinder :=
  { MatchFinder.reset with
    text := [(8192, 0x61), (8193, 0x62), (8194, 0x61), (8195, 0x63)]
    pos := 8194, matchpos := 8192, matchlen := 1
    leaves := [(8192, { parent := some (.root 0x61), edge := 0x62, succ := none })]
    children := [(childKey (.root 0x61) 0x62, .leaf 8192)]
    freepool := [1, 2] }

theorem splitState_memWf : splitState.memWf := by
  unfold MatchFinder.memWf
  decide

theorem test_witness_SplitLinks :
    splitState.memWf ∧ splitState.freepool = 1 :: [2] ∧ parentOf splitState (.leaf 8192) = some (.root 0x61) ∧
      (Handle.root 0x61 : Handle) ≠ .inner 1 ∧ (Handle.leaf 8192 : Handle) ≠ .inner 1 ∧
      (Handle.leaf 8192 : Handle) ≠ .leaf splitState.pos ∧
      textAt splitState (splitState.pos + splitState.matchlen)
        ≠ textAt splitState (splitState.matchpos + splitState.matchlen) ∧
      ∃ t, split (.leaf 8192) splitState = .ok t :=
  ⟨splitState_memWf, rfl, by decide, by decide, by decide, by decide, by decide, _, rfl⟩

/-- One string below an inner node of three children. -/
def deleteState : MatchFinder :=
  { MatchFinder.reset with
    pos := 8192
    leaves := [(8192, { parent := some (.inner 1), edge := 0x62, succ := none })]
    inners := [(1, { parent := some (.root 0x61), edge := 0x61, level := 2, position := .fresh 8200, childcount := 3 })] }

/-- DeleteNodeEffect: a string that is not in the tree, one below a root, one below an inner node of three children. -/
theorem test_witness_DeleteNodeEffect :
    (splitState.memWf ∧ parentOf splitState (.leaf splitState.pos) = none) ∧
      (MatchFinder.memWf { splitState with pos := 8192 } ∧
        parentOf { splitState with pos := 8192 } (.leaf 8192) = some (.root 0x61)) ∧
      (deleteState.memWf ∧ parentOf deleteState (.leaf deleteState.pos) = some (.inner 1) ∧
        3 ≤ (innerRec deleteState 1).childcount) :=
  ⟨⟨splitState_memWf, by decide⟩, ⟨splitState_memWf, by decide⟩, by unfold MatchFinder.memWf; decide, by decide⟩

/-- ActualOffset: both ends of the stored values and of `pos`. -/
theorem test_witness_ActualOffset :
    (Config.build.dicSiz ≤ 8192 ∧ 16383 < 2 * Config.build.dicSiz) ∧
      (State.mf { State.reset with mf := { MatchFinder.reset with pos := 8192 } }).pos < 2 * Config.build.dicSiz ∧
      (16384 : Nat) = 2 * Config.build.dicSiz := by decide

/-- CompareStopsAtMismatch: a comparison that stops at a mismatch, and one that does not. -/
theorem test_witness_CompareStopsAtMismatch :
    compareBytes splitState 8192 3 0 = (1, true) ∧ compareBytes splitState 8192 1 0 = (1, false) := by decide

/-- WindowSlide: an empty window is in canonical form, and the last index of the moved part. -/
theorem test_witness_WindowSlide :
    Memory.wf 0 splitState.text = true ∧ 8447 < Config.build.dicSiz + Config.build.maxMatch ∧
      Config.build.dicSiz + Config.build.maxMatch ≤ 8448 := by decide

/-- DistanceCode: the nearest and the farthest match, without and with the slide in between. -/
theorem test_witness_DistanceCode :
    (8192 + 1 < (8194 : Nat) ∧ 8194 ≤ 8192 + 1 + Config.build.dicSiz) ∧
      (1 + 1 < (8194 : Nat) ∧ 8194 ≤ 1 + 1 + Config.build.dicSiz) ∧
      ((8192 : Nat) = Config.build.dicSiz ∧ Config.build.dicSiz ≤ 8191 + 1 ∧ 16382 + 1 < 2 * Config.build.dicSiz) := by
  decide

/-! ### Witnesses: the codes -/

/-- DistanceClasses: the largest distance code; a class whose extra bits come next in the stream (V-HDEC-5). -/
theorem test_witness_DistanceClasses :
    8191 < Config.build.dicSiz ∧ pClass 1 ≤ 1 ∧ pClass 6 = 3 ∧
      peekBits (pClass 6 - 1) { State.reset with br := { Reader.reset with bitbuf := 0x8000 } }
        = 6 % 2 ^ (pClass 6 - 1) := by decide +kernel

/-- LengthFields: the shortest and the longest field (V-HENC-11), and what the reader does at the longest. -/
theorem test_witness_LengthFields :
    ((0x0000#16).toNat / 2 ^ (16 - (ptLenField 0).1) = (ptLenField 0).2 ∧
      (0xFFF7#16).toNat / 2 ^ (16 - (ptLenField 16).1) = (ptLenField 16).2) ∧
    (ptLoopTask Config.build .p 4 3 { running .decode [] with br := { Reader.reset with bitbuf := 0xFFF7 } }).todo
      = [.advance 13, .ptLen .p 4 3 16] := by decide +kernel

theorem test_witness_LengthItems : Config.build.nc ≤ 2 ^ Config.build.cBit := by decide

/-- CanonicalCode, and the code of V-HENC-1 exists. -/
theorem test_witness_CanonicalCode :
    (∀ i, i < 5 → sampleLens i ≤ 16) ∧ (makeCode 5 sampleLens).isSome = true ∧ kraft 5 sampleLens = 2 ^ 16 := by
  decide +kernel

theorem test_witness_MakeTreeCode :
    TreeScratch.reset.memWf ∧ 2 ≤ ((List.range 5).filter fun i => sampleFreq i ≠ 0).length := by
  unfold TreeScratch.memWf
  decide +kernel

/-- DegenerateTree: one symbol that occurs (V-HENC-3), and none (V-HENC-4). -/
theorem test_witness_DegenerateTree :
    ((List.range 3).filter fun i => (if i = 1 then 7 else 0) ≠ 0).length < 2 ∧
      ((List.range 3).filter fun _ => (0 : Nat) ≠ 0).length < 2 := by decide +kernel

/-- KraftCheck, in tables whose size is below the alphabet, with a length of an earlier block left past it: four T lengths
that meet the equality (V-HDEC-2), three P lengths that do not (V-HDEC-6), no C length at all. -/
theorem test_witness_KraftCheck :
    let s : State := { State.reset with dec := { DecBlock.reset with
      tLen := [(2, 1), (3, 1), (9, 5)], pLen := [(0, 1), (1, 1), (2, 1), (13, 2)] } }
    (4 ≤ ptAlphabet Config.build .t ∧ Memory.wf 0 (ptLens .t s.dec) = true ∧
      (∀ j, j < 4 → lenAt (ptLens .t s.dec) j ≤ 16) ∧ kraft 4 (lenAt (ptLens .t s.dec)) = 2 ^ 16) ∧
    (3 ≤ ptAlphabet Config.build .p ∧ Memory.wf 0 (ptLens .p s.dec) = true ∧
      (∀ j, j < 3 → lenAt (ptLens .p s.dec) j ≤ 16) ∧ kraft 3 (lenAt (ptLens .p s.dec)) ≠ 2 ^ 16) ∧
    (Memory.wf 0 s.dec.cLen = true ∧ (∀ j, j < 263 → lenAt s.dec.cLen j ≤ 16) ∧
      kraft 263 (lenAt s.dec.cLen) ≠ 2 ^ 16) := by decide +kernel

/-- V-HDEC-2's T table, read to its end: symbols 2 and 3 get the two table halves, whatever an earlier block left. -/
theorem test_ptLoop_end :
    let s : State := { running .decode [.readC] with dec := { DecBlock.reset with tLen := [(2, 1), (3, 1), (9, 5)] } }
    (ptLoopTask { Config.build with ptTableBits := 1 } .t 4 4 s).dec.tTab = .coded [(0, 2), (1, 3)] [] [] := by
  decide +kernel

/-- LookupFindsSymbol: a code longer than the table width (V-HDEC-4). -/
theorem test_witness_LookupFindsSymbol :
    let lens : Memory Len := [(0, 1), (2, 3), (3, 3), (4, 2)]
    (∀ i, i < 5 → lenAt lens i ≤ 16) ∧
      (makeTable 5 (lenAt lens) 2).isSome = true ∧ (makeCode 5 (lenAt lens)).map (fun c => halfAt c 3) = some 7 ∧
      0 < lenAt lens 3 ∧ (0xE000#16).toNat / 2 ^ (16 - lenAt lens 3) = 7 := by decide +kernel

/-- CopyMatch: one byte of output; a copy of it, and a reference before it. -/
theorem test_witness_CopyMatch :
    let s : State := { running .decode [.decodeLoop, .decodeFinish] with
      regs := { HostRegs.reset with origSize := 9 }
      dec := { DecBlock.reset with outcount := 1, dwin := [(0, 0x61)] } }
    s.port.room = none ∧ Memory.wf 0 s.dec.dwin = true ∧ windowHolds [0x61] s ∧
      ([0x61] : List Byte).length ≤ s.regs.origSize.toNat ∧ 8191 < Config.build.dicSiz ∧
      (([0x61] : List Byte).length < 1 + 1 ∧ 0 + 1 ≤ ([0x61] : List Byte).length) := by
  refine ⟨rfl, by decide, ⟨by decide, ?_⟩, by decide⟩
  intro k hk _
  have : k = 0 := by simp at hk; exact hk
  subst this
  decide

end Sys2Proof.Tests
end

section
/-! PROOFS. The register file as the host reads and writes it (10_state.md R42-R53): the fields of the words it reads,
and the writes of an idle block. -/

namespace Sys2Proof.Machine

/-! ### Words made of fields -/

/-- A field in front of a word: its value moves up by the word's width. -/
theorem toNat_append_of_toNat_eq {m n a : Nat} (x : BitVec m) {y : BitVec n} (hy : y.toNat = a) :
    (x ++ y).toNat = x.toNat * 2 ^ n + a := by
  rw [BitVec.toNat_append, ← Nat.shiftLeft_add_eq_or_of_lt y.isLt, Nat.shiftLeft_eq, hy]

@[simp] theorem toNat_bit (b : Bool) : (bit b).toNat = b.toNat := by cases b <;> rfl

theorem extractLsb'_low_append (hi lo : Word) : (hi ++ lo : Quad).extractLsb' 0 32 = lo :=
  BitVec.extractLsb'_append_eq_right

theorem extractLsb'_high_append (hi lo : Word) : (hi ++ lo : Quad).extractLsb' 32 32 = hi :=
  BitVec.extractLsb'_append_eq_left

theorem setWidth_extractLsb'_half (v : Word) : (v.extractLsb' 0 16).setWidth 32 = v &&& 0xFFFF#32 := by
  apply BitVec.eq_of_toNat_eq
  have h : v.toNat &&& 0xFFFF = v.toNat % 2 ^ 16 := Nat.and_two_pow_sub_one_eq_mod v.toNat 16
  simp [h]; omega

theorem toNat_and_three (v : Word) : (v &&& 3#32).toNat = (v.getLsbD 0).toNat + 2 * (v.getLsbD 1).toNat := by
  have h : v.toNat &&& 3 = v.toNat % 2 ^ 2 := Nat.and_two_pow_sub_one_eq_mod v.toNat 2
  rw [BitVec.getLsbD, BitVec.getLsbD, Nat.toNat_testBit, Nat.toNat_testBit, BitVec.toNat_and]
  simp [h]
  omega

/-! ### ID and the parameters (R43-R45) -/

theorem param0Word_toNat {P : Params} (hdic : P.dicBit < 16) (hmax : P.maxMatch ≤ 256) (hthr : P.threshold < 16)
    (hbuf : P.bufSiz < 65536) :
    (param0Word P).toNat = P.dicBit + 2 ^ 4 * (P.maxMatch - 1) + 2 ^ 12 * P.threshold + 2 ^ 16 * P.bufSiz :=
  (toNat_append_of_toNat_eq _ <| toNat_append_of_toNat_eq _ <| toNat_append_of_toNat_eq _ rfl).trans
    (by simp; omega)

theorem param1Word_toNat {P : Params} (hc : P.cBit < 16) (hp : P.pBit < 16) (ht : P.tBit < 16)
    (hct : P.cTableBits < 16) (hpt : P.ptTableBits < 16) :
    (param1Word P).toNat = P.cBit + 2 ^ 4 * P.pBit + 2 ^ 8 * P.tBit + 2 ^ 12 * P.cTableBits
      + 2 ^ 16 * P.ptTableBits + 2 ^ 20 * P.strictEof.toNat :=
  (toNat_append_of_toNat_eq _ <| toNat_append_of_toNat_eq _ <| toNat_append_of_toNat_eq _ <|
    toNat_append_of_toNat_eq _ <| toNat_append_of_toNat_eq _ <| toNat_append_of_toNat_eq _ rfl).trans (by simp; omega)

/-- Settles O22: the default build's words by computation, any build's field by field. -/
theorem identification : Obligations.Identification := by
  refine ⟨fun s => ⟨rfl, rfl, rfl⟩, ?_⟩
  intro P s hdic hmax _ hthr hbuf hc hp ht hct hpt
  exact ⟨param0Word_toNat hdic hmax hthr hbuf, param1Word_toNat hc hp ht hct hpt⟩

/-! ### Writes to an idle block -/

theorem accessOk_word {o : BitVec 8} (h : o.toNat % 4 = 0) : accessOk 4 o = true := by simp [accessOk, h]

/-- A write to a register other than CMD that leaves the block idle is that register's write alone: the sequencer has
nothing to run. -/
theorem hostWrite_idle {o : BitVec 8} {v : Word} {s t : State} (hpor : s.por = false) (ho : o.toNat % 4 = 0)
    (hcmd : o ≠ cmdOffset) (hw : writeReg s o v = t) (ht : t.phase = .idle) : hostWrite 4 o v s = .next t := by
  simp [hostWrite, accessOk_word ho, hpor, hcmd, hw, settle_idle _ ht]

theorem writeCtrl_idle {v : Word} {s : State} (hidle : s.phase = .idle) (h : v.getLsbD 31 = false) :
    writeCtrl v s = { s with regs := { s.regs with method := v.getLsbD 0, crcCheck := v.getLsbD 1 } } := by
  rw [writeCtrl, h, busy_of_idle hidle]; rfl

theorem writeOperand_idle (f : HostRegs → HostRegs) {s : State} (hidle : s.phase = .idle) :
    writeOperand f s = { s with regs := f s.regs } := by
  rw [writeOperand, busy_of_idle hidle]; rfl

theorem writeOperand_frame (f : HostRegs → HostRegs) (s : State) :
    writeOperand f s = { s with regs := (writeOperand f s).regs } := by
  unfold writeOperand; split <;> rfl

/-! ### CTRL (R46) -/

theorem ctrlWord_toNat (s : State) : (ctrlWord s).toNat = s.regs.method.toNat + 2 * s.regs.crcCheck.toNat :=
  (toNat_append_of_toNat_eq _ <| toNat_append_of_toNat_eq _ (toNat_bit _)).trans (by simp; omega)

/-- Settles O24: CTRL's two fields as a number, and the write that sets them. -/
theorem controlRegister : Obligations.ControlRegister := by
  intro s v
  refine ⟨ctrlWord_toNat s, fun hidle hpor h31 => ⟨_, ?_, rfl, ?_⟩⟩
  · exact hostWrite_idle hpor rfl (by decide) (writeCtrl_idle hidle h31) hidle
  · exact BitVec.eq_of_toNat_eq ((ctrlWord_toNat _).trans (toNat_and_three v).symm)

/-! ### STATUS (R48) -/

theorem statusWord_toNat (s : State) : (statusWord s).toNat =
    s.busy.toNat + 2 * s.regs.done.toNat + 16 * s.regs.errcode.code.toNat + 256 * s.regs.stored.toNat
      + 512 * s.bw.unpackable.toNat + 1024 * s.regs.crcMismatch.toNat + 2048 * s.regs.cmdLost.toNat :=
  (toNat_append_of_toNat_eq _ <| toNat_append_of_toNat_eq _ <| toNat_append_of_toNat_eq _ <|
    toNat_append_of_toNat_eq _ <| toNat_append_of_toNat_eq _ <| toNat_append_of_toNat_eq _ <|
    toNat_append_of_toNat_eq _ <| toNat_append_of_toNat_eq _ <| toNat_append_of_toNat_eq _ <|
    toNat_append_of_toNat_eq _ (toNat_bit _)).trans (by simp; omega)

theorem getLsbD_one_statusWord (s : State) : (statusWord s).getLsbD 1 = s.regs.done := by
  rw [BitVec.getLsbD, Nat.testBit_eq_decide_div_mod_eq, statusWord_toNat]
  have hb := Bool.toNat_lt s.busy
  cases s.regs.done <;> simp <;> omega

/-- Settles O25: STATUS as a number, and its DONE bit, which is the `done` output. -/
theorem statusRegister : Obligations.StatusRegister := by
  intro s v
  exact ⟨statusWord_toNat s, rfl, (getLsbD_one_statusWord s).symm, rfl⟩

/-! ### Operand registers (R49, R50, R52, R53) -/

/-- The offsets of the operand registers. -/
def operandOffsets : List (BitVec 8) := [0x18#8, 0x1C#8, 0x20#8, 0x24#8, 0x2C#8, 0x30#8]

theorem mem_operandOffsets {o : BitVec 8} : o ∈ operandOffsets ↔
    o = 0x18#8 ∨ o = 0x1C#8 ∨ o = 0x20#8 ∨ o = 0x24#8 ∨ o = 0x2C#8 ∨ o = 0x30#8 := by
  simp [operandOffsets]

theorem writeReg_operand {o : BitVec 8} (v : Word) (ho : o ∈ operandOffsets) :
    ∃ f, ∀ s, writeReg s o v = writeOperand f s := by
  rcases mem_operandOffsets.mp ho with rfl | rfl | rfl | rfl | rfl | rfl <;>
    simp only [writeReg, BitVec.reduceToNat] <;> exact ⟨_, fun _ => rfl⟩

theorem writeReg_operand_frame {o : BitVec 8} (v : Word) (s : State) (ho : o ∈ operandOffsets) :
    writeReg s o v = { s with regs := (writeReg s o v).regs } := by
  obtain ⟨f, hf⟩ := writeReg_operand v ho
  rw [hf]; exact writeOperand_frame f s

theorem readReg_writeReg_operand (P : Params) {o : BitVec 8} (v : Word) {s : State} (hidle : s.phase = .idle)
    (ho : o ∈ operandOffsets) : readReg P (writeReg s o v) o = if o = 0x2C#8 then v &&& 0xFFFF#32 else v := by
  have hw := fun f => writeOperand_idle f hidle
  rcases mem_operandOffsets.mp ho with rfl | rfl | rfl | rfl | rfl | rfl <;> simp only [writeReg, hw, readReg]
  · exact extractLsb'_low_append _ _
  · exact extractLsb'_high_append _ _
  · exact extractLsb'_low_append _ _
  · exact extractLsb'_high_append _ _
  · exact setWidth_extractLsb'_half v
  · rfl

/-- Reading another register: where the two halves of one 64-bit register are meant, the other half has stayed. -/
theorem readReg_writeReg_operand_ne (P : Params) {o p : BitVec 8} (v : Word) {s : State} (hidle : s.phase = .idle)
    (ho : o ∈ operandOffsets) (hp : p ≠ o) : readReg P (writeReg s o v) p = readReg P s p := by
  have hpo : p.toNat ≠ o.toNat := mt BitVec.eq_of_toNat_eq hp
  have hw := fun f => writeOperand_idle f hidle
  rcases mem_operandOffsets.mp ho with rfl | rfl | rfl | rfl | rfl | rfl <;> simp only [writeReg, hw] <;>
    unfold readReg <;> split <;> try rfl
  · exact absurd ‹_› hpo
  · exact extractLsb'_high_append _ _
  · exact extractLsb'_low_append _ _
  · exact absurd ‹_› hpo
  · exact absurd ‹_› hpo
  · exact extractLsb'_high_append _ _
  · exact extractLsb'_low_append _ _
  · exact absurd ‹_› hpo
  · exact absurd ‹_› hpo
  · exact absurd ‹_› hpo

/-! ### Read-only and reserved registers (R42) -/

theorem writeReg_readOnly {o : BitVec 8} (v : Word) (s : State)
    (ho : o ∈ [0x00#8, 0x04#8, 0x08#8, 0x28#8, 0x34#8] ∨ 0x38 ≤ o.toNat) : writeReg s o v = s := by
  rcases ho with ho | ho
  · simp only [List.mem_cons, List.not_mem_nil, or_false] at ho
    rcases ho with rfl | rfl | rfl | rfl | rfl <;> rfl
  · unfold writeReg
    split <;> first | omega | rfl

theorem readReg_reserved (P : Params) (s : State) {o : BitVec 8} (ho : 0x38 ≤ o.toNat) : readReg P s o = 0#32 := by
  unfold readReg
  split <;> first | omega | rfl

/-- Settles O23: a write to an operand register read back at its own and at another offset; a write elsewhere. -/
theorem registerFile : Obligations.RegisterFile := by
  intro s v o hidle hpor halign
  refine ⟨fun ho => ?_, fun ho => ?_, fun ho => ?_⟩
  · have hframe := writeReg_operand_frame v s ho
    refine ⟨writeReg s o v, hostWrite_idle hpor halign ?_ rfl ?_, readReg_writeReg_operand _ v hidle ho,
      fun p hp => readReg_writeReg_operand_ne _ v hidle ho hp, hframe⟩
    · rintro rfl; exact absurd ho (by decide)
    · rw [hframe]; exact hidle
  · refine hostWrite_idle hpor halign ?_ (writeReg_readOnly v s ho) hidle
    rintro rfl; exact absurd ho (by decide)
  · rcases ho with rfl | ho
    · rfl
    · exact readReg_reserved _ s ho

/-! ### CMD (R47) -/

/-- Settles O5: the step is the turn's CMD write, and that is the decoded command's meaning. -/
theorem stepRunsDecoded : Obligations.StepRunsDecoded := by
  intro s w i pace rest hagenda hpor hdecode
  simp [step, hagenda, hostTurn, hostAct, hostWrite, accessOk, hpor, cmdOffset, writeCmd, hdecode]

/-! ### The child map's keys (R64) -/

theorem code_injective : Function.Injective Handle.code := by
  intro q q' h
  cases q <;> cases q' <;> simp only [Handle.code] at h
  case root.root b b' => rw [BitVec.eq_of_toNat_eq (show b.toNat = b'.toNat by omega)]
  case inner.inner i i' => rw [show i = i' by omega]
  case leaf.leaf p p' => rw [show p = p' by omega]
  all_goals omega

theorem childKey_inj {q q' : Handle} {c c' : Byte} (h : childKey q c = childKey q' c') : q = q' ∧ c = c' := by
  simp only [childKey] at h
  have hc := c.isLt
  have hc' := c'.isLt
  exact ⟨code_injective (by omega), BitVec.eq_of_toNat_eq (by omega)⟩

theorem child_setChild (m : MatchFinder) (q q' : Handle) (c c' : Byte) (h : Handle) :
    child (setChild q c h m) q' c' = if q' = q ∧ c' = c then some h else child m q' c' := by
  simp only [child, setChild]
  split
  · next e => rw [e.1, e.2, cellGet_cellPut_same]
  · next e => exact cellGet_cellPut_ne _ _ fun hk => e (childKey_inj hk)

/-- Settles O45: keys are injective, so a write to one place is seen at that place only. -/
theorem childMapKeys : Obligations.ChildMapKeys :=
  ⟨fun _ _ _ _ => childKey_inj, child_setChild⟩

end Sys2Proof.Machine
end

section
/-! PROOFS. What one operation of the sequencer can do, said once. -/

namespace Sys2Proof.Machine

/-! ### Which operations an operation leaves to do -/

/-- Whose operation a task is: the bitstream unit's, which every command uses, ENCODE's, DECODE's, or BR_GET's own
write of RESULT. -/
inductive Side where
  | bits
  | encode
  | decode
  | result
deriving DecidableEq

/-- The side of a task. -/
def Task.side : Task → Side
  | .putBits _ _ | .emitByte _ | .clearAcc | .advance _ | .fill _ | .fillLoop _ | .brInitEnd => .bits
  | .encodeInit | .readSrc _ _ _ | .encodeFirst _ | .clampMatch | .encodeLoop | .chooseToken | .skipMatch _
  | .getNextMatch | .slideEnd _ | .deleteNode | .insertNode | .output _ _ | .outputAfterBlock _ _ | .sendBlock
  | .sendTables _ | .sendPTable | .sendToken _ _ _ _ | .sendNext _ _ _ _ | .hufEncodeEnd | .encodeEnd | .snkDiscard
  | .srcRewind | .storeInit | .storeCopy _ | .storeWrite _ | .storeEnd => .encode
  | .decodeInit | .storedCopy _ | .hufDecodeStart | .decodeLoop | .outByte _ | .decodeC | .decodeSym | .gotC _
  | .decodeP _ | .gotP _ _ | .copyMatch _ _ | .copyLoop _ _ | .decodeFinish | .readHeader | .gotSize _ | .readPt _
  | .ptCount _ _ | .ptConst _ _ | .ptLoop _ _ _ | .ptLen _ _ _ _ | .ptSkip _ _ _ _ | .readC | .cCount _ | .cConst _
  | .cLoop _ _ | .cSym _ _ _ | .cRun _ _ _ => .decode
  | .setResult _ => .result

/-- No operation of the list writes a result register. -/
def writesNoResult (ts : List Task) : Bool := ts.all (!·.writesResult)

/-- What `t` may leave to do: operations of its own side and the bitstream unit's; none that writes a result register,
but for the last one that ENCODE's own last operation leaves (44_pipeline.md R352). -/
def Task.spawns (t : Task) (ts : List Task) : Bool :=
  ts.all (fun t' => t'.side == .bits || t'.side == t.side) &&
    (writesNoResult ts || (t == .encodeEnd && writesNoResult ts.dropLast))

theorem writesNoResult_putAll (l : List (Nat × Nat)) : writesNoResult (putAll l) = true := by
  refine List.all_eq_true.mpr fun t' ht' => ?_
  obtain ⟨e, -, rfl⟩ := List.mem_map.mp ht'
  rfl

theorem spawns_putAll_append (t : Task) (l : List (Nat × Nat)) {ts : List Task} (h : t.spawns ts = true)
    (hts : writesNoResult ts = true) : t.spawns (putAll l ++ ts) = true := by
  have hp : writesNoResult (putAll l ++ ts) = true := by
    rw [writesNoResult, List.all_append, Bool.and_eq_true]
    exact ⟨writesNoResult_putAll l, hts⟩
  simp only [Task.spawns, hts, hp, Bool.true_or, Bool.and_true, List.all_append, Bool.and_eq_true] at h ⊢
  refine ⟨List.all_eq_true.mpr fun t' ht' => ?_, h⟩
  obtain ⟨e, -, rfl⟩ := List.mem_map.mp ht'
  rfl

theorem spawns_putAll (t : Task) (l : List (Nat × Nat)) : t.spawns (putAll l) = true := by
  simpa using spawns_putAll_append t l (ts := []) rfl rfl

/-! ### How an operation ends -/

/-- The state without what only the CRC, the match finder and the block states hold. -/
def State.shell (s : State) : HostRegs × Phase × Writer × Reader × Ports := (s.regs, s.phase, s.bw, s.br, s.port)

theorem push_nil (s : State) : push [] s = s := by
  obtain ⟨⟩ := s
  unfold push; split <;> simp_all

theorem push_shell_congr (ts : List Task) {s u : State} (h : u.shell = s.shell) :
    (push ts u).shell = (push ts s).shell := by
  simp only [State.shell, Prod.mk.injEq] at h
  obtain ⟨hregs, hphase, hbw, hbr, hport⟩ := h
  simp only [State.shell, push_regs, push_bw, push_br, push_port, hregs, hbw, hbr, hport, Prod.mk.injEq, true_and,
    and_true]
  unfold push
  rw [hphase]
  split <;> simp [hphase]

theorem raise_shell_congr (k : ErrKind) {s u : State} (h : u.shell = s.shell) :
    (raise k u).shell = (raise k s).shell := by
  simp only [State.shell, Prod.mk.injEq] at h
  simp [State.shell, h]

/-- The end of an operation, the units' part of it done: it leaves operations to do, or it ends its command with an
error kind of the stream or of the trees. -/
inductive TaskEnd (t : Task) (s s' : State) : Prop
  | leaves (ts : List Task) (hts : t.spawns ts = true) (h : s'.shell = (push ts s).shell)
  | faults (k : ErrKind) (hk : k = .malformedInput ∨ k = .internalInconsistency) (h : s'.shell = (raise k s).shell)

namespace TaskEnd

variable {t : Task} {s u : State}

theorem stay (h : u.shell = s.shell) : TaskEnd t s u := .leaves [] rfl (by rw [push_nil, h])

theorem push {ts : List Task} (hts : t.spawns ts = true) (h : u.shell = s.shell) : TaskEnd t s (push ts u) :=
  .leaves ts hts (push_shell_congr ts h)

theorem malformed (h : u.shell = s.shell) : TaskEnd t s (raise .malformedInput u) :=
  .faults _ (.inl rfl) (raise_shell_congr _ h)

theorem inconsistent (h : u.shell = s.shell) : TaskEnd t s (raise .internalInconsistency u) :=
  .faults _ (.inr rfl) (raise_shell_congr _ h)

/-- Both branches of a test. -/
theorem ite {c : Prop} [Decidable c] {a b : State} (ha : TaskEnd t s a) (hb : TaskEnd t s b) :
    TaskEnd t s (if c then a else b) := by
  split
  · exact ha
  · exact hb

theorem runMatchFinder (f : MatchFinder → Checked MatchFinder) : TaskEnd t s (runMatchFinder f s) := by
  unfold Machine.runMatchFinder
  split
  · exact stay rfl
  · exact inconsistent rfl

theorem tableDecode {tab : Table} {len : Memory Len} {tb nchar : Nat} {next : Nat → Task}
    (hts : ∀ n j, t.spawns [.advance n, next j] = true) (hts' : ∀ j, t.spawns [next j] = true)
    (h : u.shell = s.shell) : TaskEnd t s (tableDecode tab len tb nchar next u) := by
  unfold Machine.tableDecode
  split
  · exact malformed h
  · split
    · exact push (hts' _) h
    · exact push (hts _ _) h

end TaskEnd

/-! ### What an operation does to the units -/

/-- The operations that read a source byte outside the bitstream reader. -/
def Task.takesByte : Task → Bool
  | .readSrc _ _ _ | .storeCopy _ | .storedCopy _ => true
  | _ => false

/-- The byte an operation outside the bitstream writer gives to the sink. -/
def Task.givenByte : Task → Option Byte
  | .storeWrite b | .outByte b => some b
  | _ => none

/-- The units' part of an operation: what it does to the registers, the writer, the reader and the ports, before it
leaves further operations to do. `inside` is an operation that does nothing to them. -/
inductive UnitEffect : Task → State → State → Prop
  | inside (t : Task) (s : State) : UnitEffect t s s
  | appendBit (n x : Nat) (s : State) :
      UnitEffect (.putBits (n + 1) x) s { s with bw := appendBit (x.testBit n) s.bw }
  | emit (b : Byte) {s : State} (hlimit : s.bw.compsize.toNat < s.bw.limit.toNat) (hroom : s.port.room ≠ some 0) :
      UnitEffect (.emitByte b) s { s with
        port := { s.port with sink := s.port.sink ++ [b], room := s.port.room.map (· - 1) }
        bw := { s.bw with compsize := s.bw.compsize + 1 } }
  | drop (b : Byte) {s : State} (hlimit : ¬ s.bw.compsize.toNat < s.bw.limit.toNat) :
      UnitEffect (.emitByte b) s (setUnpackable s)
  | clearAcc (s : State) : UnitEffect .clearAcc s (clearAccTask s)
  | bwInit (s : State) : UnitEffect .encodeInit s (bwInit s.regs.origSize s)
  | brInit (s : State) : UnitEffect .decodeInit s (brInit s.regs.compSize s)
  | advance (n : Nat) (s : State) :
      UnitEffect (.advance n) s { s with br := { s.br with consumed := s.br.consumed + BitVec.ofNat 64 n } }
  | fill (n : Nat) (s : State) : UnitEffect (.fill n) s { s with br := { s.br with bitbuf := s.br.bitbuf <<< n } }
  | fetchPastEnd (n : Nat) {s : State} (bitbuf : Half) (hrem : s.br.remaining = 0) :
      UnitEffect (.fillLoop n) s { s with br := { s.br with bitbuf := bitbuf, subbuf := 0, subn := 8 } }
  | fetch (n : Nat) {s : State} (b : Byte) (bitbuf : Half) (hrem : s.br.remaining ≠ 0)
      (hb : s.port.source[s.port.taken]? = some b) :
      UnitEffect (.fillLoop n) s { s with
        port := { s.port with taken := s.port.taken + 1 }
        br := { s.br with bitbuf := bitbuf, subbuf := b, subn := 8, remaining := s.br.remaining - 1 } }
  | drain (n k : Nat) {s : State} (bitbuf : Half) (hk : k ≤ s.br.subn) :
      UnitEffect (.fillLoop n) s { s with br := { s.br with
        bitbuf := bitbuf, subbuf := s.br.subbuf &&& BitVec.ofNat 8 (2 ^ k - 1), subn := k } }
  | brInitEnd (s : State) : UnitEffect .brInitEnd s (brInitEndTask s)
  | take {t : Task} {s : State} (ht : t.takesByte = true) (b : Byte) (hb : s.port.source[s.port.taken]? = some b) :
      UnitEffect t s { s with port := { s.port with taken := s.port.taken + 1 } }
  | give {t : Task} {s : State} (b : Byte) (ht : t.givenByte = some b) (hroom : s.port.room ≠ some 0) :
      UnitEffect t s { s with port := { s.port with
        sink := s.port.sink ++ [b], room := s.port.room.map (· - 1) } }
  | discard {s : State} (hack : s.port.ackDiscard = true) :
      UnitEffect .snkDiscard s { s with port := { s.port with sink := s.port.sink.take s.port.mark } }
  | rewind {s : State} (hack : s.port.ackRewind = true) :
      UnitEffect .srcRewind s { s with port := { s.port with taken := 0 } }
  | setResult (v : Word) (s : State) : UnitEffect (.setResult v) s (setResult v s)
  | encodeFinish (s : State) : UnitEffect .encodeEnd s (encodeFinish s)
  | storeEnd (s : State) : UnitEffect .storeEnd s (storeEndTask s)
  | decodeFinish (s : State) (mismatch : Bool) :
      UnitEffect .decodeFinish s { s with regs := { s.regs with crc := crcFinal s, crcMismatch := mismatch } }

/-- What an operation is: its part in the units, then its end. -/
def TaskStep (t : Task) (s s' : State) : Prop := ∃ u, UnitEffect t s u ∧ TaskEnd t u s'

theorem TaskStep.inside {t : Task} {s s' : State} (h : TaskEnd t s s') : TaskStep t s s' := ⟨s, .inside t s, h⟩

theorem TaskStep.unit {t : Task} {s s' : State} (h : UnitEffect t s s') : TaskStep t s s' := ⟨s', h, .stay rfl⟩

theorem emitByteTask_cases {s s' : State} {b : Byte} (h : emitByteTask b s = .ok s') :
    TaskStep (.emitByte b) s s' := by
  by_cases hlimit : s.bw.compsize.toNat < s.bw.limit.toNat
  · rw [emitByteTask_below b hlimit] at h
    split at h
    · cases h
    · next u hu =>
      obtain ⟨hroom, rfl⟩ := snkWrite_eq_ok.mp hu
      cases h; exact .unit (.emit b hlimit hroom)
  · rw [emitByteTask_at_ceiling b hlimit] at h
    cases h
    exact .unit (.drop b hlimit)

theorem fillLoopTask_cases {s s' : State} {n : Nat} (h : fillLoopTask n s = .ok s') :
    TaskStep (.fillLoop n) s s' := by
  dsimp only [fillLoopTask] at h
  split at h
  · split at h
    · cases h
    · next b u hu =>
      cases h
      by_cases hrem : s.br.remaining = 0
      · rw [fetchByte_past_end hrem] at hu
        cases hu; exact ⟨_, .fetchPastEnd n _ hrem, .push rfl rfl⟩
      · obtain ⟨hb, rfl⟩ := (fetchByte_eq_ok hrem).mp hu
        exact ⟨_, .fetch n b _ hrem hb, .push rfl rfl⟩
  · cases h; exact .unit (.drain n _ _ (Nat.sub_le _ _))

theorem readSrcTask_cases {s s' : State} {off i k : Nat} (h : readSrcTask off i k s = .ok s') :
    TaskStep (.readSrc off i k) s s' := by
  unfold readSrcTask at h
  split at h
  · split at h
    · cases h
    · next b u hu =>
      obtain ⟨hb, rfl⟩ := srcRead_eq_ok.mp hu
      cases h; exact ⟨_, .take rfl b hb, .push rfl rfl⟩
  · cases h; exact .inside (.stay rfl)

theorem storeCopyTask_cases {s s' : State} {n : Nat} (h : storeCopyTask n s = .ok s') :
    TaskStep (.storeCopy n) s s' := by
  unfold storeCopyTask at h
  split at h
  · cases h; exact .inside (.stay rfl)
  · split at h
    · cases h
    · next b u hu =>
      obtain ⟨hb, rfl⟩ := srcRead_eq_ok.mp hu
      cases h; exact ⟨_, .take rfl b hb, .push rfl rfl⟩

theorem storedCopyTask_cases {s s' : State} {n : Nat} (h : storedCopyTask n s = .ok s') :
    TaskStep (.storedCopy n) s s' := by
  unfold storedCopyTask at h
  split at h
  · cases h; exact .inside (.stay rfl)
  · split at h
    · cases h
    · next b u hu =>
      obtain ⟨hb, rfl⟩ := srcRead_eq_ok.mp hu
      cases h; exact ⟨_, .take rfl b hb, .push rfl rfl⟩

theorem outByteTask_cases {P : Params} {s s' : State} {b : Byte} (h : outByteTask P b s = .ok s') :
    TaskStep (.outByte b) s s' := by
  unfold outByteTask at h
  split at h
  · cases h
  · next u hu =>
    obtain ⟨hroom, rfl⟩ := snkWrite_eq_ok.mp hu
    cases h; exact ⟨_, .give b rfl hroom, .stay rfl⟩

/-- Everything an operation of a command can do to the units and to what its command still has to do. -/
theorem runTask_cases {P : Params} {t : Task} {s s' : State} (h : runTask P t s = .ok s') : TaskStep t s s' := by
  cases t <;> simp only [runTask, Except.ok.injEq] at h <;> try subst h
  -- the writer
  case putBits n x =>
    cases n with
    | zero => exact .inside (.stay rfl)
    | succ n => exact ⟨_, .appendBit n x s, .ite (.push rfl rfl) (.push rfl rfl)⟩
  case emitByte b => exact emitByteTask_cases h
  case clearAcc => exact .unit (.clearAcc s)
  -- the reader
  case advance n => exact ⟨_, .advance n s, .ite (.malformed rfl) (.push rfl rfl)⟩
  case fill n => exact ⟨_, .fill n s, .push rfl rfl⟩
  case fillLoop n => exact fillLoopTask_cases h
  case brInitEnd => exact .unit (.brInitEnd s)
  -- registers
  case setResult v => exact .unit (.setResult v s)
  case encodeEnd =>
    dsimp only [encodeEndTask]
    split
    · exact .inside (.push rfl rfl)
    · exact .unit (.encodeFinish s)
  case storeEnd => exact .unit (.storeEnd s)
  case decodeFinish =>
    dsimp only [decodeFinishTask, checkCrc]
    split
    · exact .unit (.decodeFinish s true)
    · exact .unit (.decodeFinish s s.regs.crcMismatch)
  -- the ports
  case readSrc off i k => exact readSrcTask_cases h
  case storeCopy n => exact storeCopyTask_cases h
  case storeWrite b =>
    obtain ⟨hroom, rfl⟩ := snkWrite_eq_ok.mp h
    exact .unit (.give b rfl hroom)
  case storedCopy n => exact storedCopyTask_cases h
  case outByte b => exact outByteTask_cases h
  case snkDiscard =>
    obtain ⟨hack, rfl⟩ := snkDiscard_eq_ok.mp h
    exact .unit (.discard hack)
  case srcRewind =>
    obtain ⟨hack, rfl⟩ := srcRewind_eq_ok.mp h
    exact .unit (.rewind hack)
  -- ENCODE
  case encodeInit => exact ⟨_, .bwInit s, .push rfl rfl⟩
  case encodeFirst k => exact .inside (.push rfl rfl)
  case clampMatch => exact .inside (.stay rfl)
  case encodeLoop => exact .inside (.ite (.push rfl rfl) (.stay rfl))
  case chooseToken => exact .inside (.ite (.push rfl rfl) (.push rfl rfl))
  case skipMatch n =>
    cases n with
    | zero => exact .inside (.push rfl rfl)
    | succ n => exact .inside (.push rfl rfl)
  case getNextMatch => exact .inside (.ite (.push rfl rfl) (.push rfl rfl))
  case slideEnd n => exact .inside (.stay rfl)
  case deleteNode => exact .inside (.runMatchFinder _)
  case insertNode => exact .inside (.runMatchFinder _)
  case output c p => exact .inside (.ite (.stay rfl) (.ite (.push rfl rfl) (.stay rfl)))
  case outputAfterBlock c p => exact .inside (.ite (.stay rfl) (.stay rfl))
  case sendBlock => exact .inside (.ite (.push rfl rfl) (.inconsistent rfl))
  case sendTables root =>
    exact .inside (.ite (.ite (.push (spawns_putAll _ _) rfl) (.inconsistent rfl)) (.push rfl rfl))
  case sendPTable => exact .inside (.ite (.push (spawns_putAll _ _) rfl) (.inconsistent rfl))
  case sendToken size k j fl =>
    have hputs := fun l ts => spawns_putAll_append (.sendToken size k j fl) l (ts := ts)
    exact .inside (.ite (.ite (.push (hputs _ _ rfl rfl) rfl) (.push (hputs _ _ rfl rfl) rfl)) (.stay rfl))
  case sendNext size k j fl => exact .inside (.ite (.stay rfl) (.push rfl rfl))
  case hufEncodeEnd => exact .inside (.ite (.stay rfl) (.push rfl rfl))
  case storeInit => exact .inside (.stay rfl)
  -- DECODE
  case decodeInit =>
    dsimp only [decodeInitTask]
    split
    · exact ⟨_, .brInit s, .push rfl rfl⟩
    · split
      · exact .inside (.malformed rfl)
      · exact .inside (.push rfl rfl)
  case hufDecodeStart => exact .inside (.stay rfl)
  case decodeLoop => exact .inside (.ite (.push rfl rfl) (.stay rfl))
  case decodeC => exact .inside (.ite (.push rfl rfl) (.push rfl rfl))
  case decodeSym => exact .inside (.tableDecode (fun _ _ => rfl) (fun _ => rfl) rfl)
  case gotC c => exact .inside (.ite (.push rfl rfl) (.push rfl rfl))
  case decodeP len => exact .inside (.tableDecode (fun _ _ => rfl) (fun _ => rfl) rfl)
  case gotP len j => exact .inside (.ite (.push rfl rfl) (.push rfl rfl))
  case copyMatch j p => exact .inside (.ite (.malformed rfl) (.push rfl rfl))
  case copyLoop j c => exact .inside (.ite (.push rfl rfl) (.stay rfl))
  case readHeader => exact .inside (.push rfl rfl)
  case gotSize x => exact .inside (.ite (.malformed rfl) (.push rfl rfl))
  case readPt w => exact .inside (.push rfl rfl)
  case ptCount w n => exact .inside (.ite (.push rfl rfl) (.ite (.malformed rfl) (.push rfl rfl)))
  case ptConst w c => exact .inside (.ite (.malformed rfl) (.stay rfl))
  case ptLoop w n i =>
    dsimp only [ptLoopTask]
    split
    · split
      · exact .inside (.malformed rfl)
      · exact .inside (.push rfl rfl)
    · split
      · exact .inside (.malformed rfl)
      · exact .inside (.stay rfl)
  case ptLen w n i k => exact .inside (.ite (.push rfl rfl) (.push rfl rfl))
  case ptSkip w n i z =>
    cases z with
    | zero => exact .inside (.push rfl rfl)
    | succ z => exact .inside (.ite (.malformed rfl) (.push rfl rfl))
  case readC => exact .inside (.push rfl rfl)
  case cCount n => exact .inside (.ite (.push rfl rfl) (.ite (.malformed rfl) (.push rfl rfl)))
  case cConst c => exact .inside (.ite (.malformed rfl) (.stay rfl))
  case cLoop n i =>
    dsimp only [cLoopTask]
    split
    · exact .inside (.tableDecode (fun _ _ => rfl) (fun _ => rfl) rfl)
    · split
      · exact .inside (.malformed rfl)
      · exact .inside (.stay rfl)
  case cSym n i y =>
    exact .inside (.ite (.push rfl rfl) (.ite (.push rfl rfl) (.ite (.push rfl rfl) (.push rfl rfl))))
  case cRun n i r =>
    cases r with
    | zero => exact .inside (.push rfl rfl)
    | succ r => exact .inside (.ite (.malformed rfl) (.push rfl rfl))

end Sys2Proof.Machine
end

section
/-! PROOFS. The invariants of the units (`State.Inv` without the memories), kept by every step of the sequencer. -/

namespace Sys2Proof.Machine

/-! ### The units' part of an operation -/

theorem toNat_and_mask_lt (b : Byte) {k : Nat} (hk : k ≤ 8) : (b &&& BitVec.ofNat 8 (2 ^ k - 1)).toNat < 2 ^ k := by
  have hpow : 2 ^ k ≤ 2 ^ 8 := Nat.pow_le_pow_right (by decide) hk
  have hpos : 0 < 2 ^ k := Nat.two_pow_pos k
  have hmask : (b &&& BitVec.ofNat 8 (2 ^ k - 1)).toNat ≤ (2 ^ k - 1) % 2 ^ 8 := by
    rw [BitVec.toNat_and, BitVec.toNat_ofNat]; exact Nat.and_le_right
  omega

theorem toNat_appendBit_lt (b : Bool) {w : Writer} (hn : w.wn ≤ 7) (h : w.wacc.toNat < 2 ^ w.wn) :
    (appendBit b w).wacc.toNat < 2 ^ (w.wn + 1) := by
  have hpow : 2 ^ w.wn ≤ 2 ^ 7 := Nat.pow_le_pow_right (by decide) hn
  have hshift : (w.wacc <<< 1).toNat < 2 ^ (w.wn + 1) := by
    rw [BitVec.toNat_shiftLeft, Nat.shiftLeft_eq, Nat.pow_succ]; omega
  have hbit : ((bit b).setWidth 8).toNat < 2 ^ (w.wn + 1) := by
    have : 1 < 2 ^ (w.wn + 1) := Nat.one_lt_two_pow (Nat.succ_ne_zero _)
    cases b <;> simp [bit]
  rw [appendBit, BitVec.toNat_or]
  exact Nat.or_lt_two_pow hshift hbit

namespace UnitEffect

variable {t : Task} {s u : State}

/-- The units' part of an operation leaves what the command still has to do, and DONE and ERRCODE. -/
theorem control (h : UnitEffect t s u) :
    u.phase = s.phase ∧ u.regs.done = s.regs.done ∧ u.regs.errcode = s.regs.errcode := by
  cases h <;> exact ⟨rfl, rfl, rfl⟩

theorem ceilingOk (h : UnitEffect t s u) (hs : s.ceilingOk) : u.ceilingOk := by
  cases h with
  | emit b hlimit hroom =>
    have hun : s.bw.unpackable ≠ true := fun hun => by rw [hs.2 hun] at hlimit; omega
    refine ⟨?_, fun h => absurd h hun⟩
    show (s.bw.compsize + 1).toNat ≤ s.bw.limit.toNat
    bv_omega
  | drop b hlimit =>
    exact ⟨hs.1, fun _ => BitVec.eq_of_toNat_eq (Nat.le_antisymm hs.1 (Nat.le_of_not_lt hlimit))⟩
  | bwInit => exact ⟨Nat.zero_le _, nofun⟩
  | _ => exact hs

theorem readerOk (h : UnitEffect t s u) (hs : s.readerOk) : u.readerOk := by
  obtain ⟨hsubn, hsubbuf, hrem⟩ := hs
  cases h with
  | brInit => exact ⟨Nat.zero_le _, Nat.one_pos, Nat.le_refl _⟩
  | fetchPastEnd n bitbuf h0 => exact ⟨Nat.le_refl 8, (0 : Byte).isLt, hrem⟩
  | fetch n b bitbuf h0 hb =>
    refine ⟨Nat.le_refl 8, b.isLt, ?_⟩
    show (s.br.remaining - 1).toNat ≤ s.br.csize.toNat
    bv_omega
  | drain n k bitbuf hk => exact ⟨hk.trans hsubn, toNat_and_mask_lt _ (hk.trans hsubn), hrem⟩
  | _ => exact ⟨hsubn, hsubbuf, hrem⟩

theorem portOk (h : UnitEffect t s u) (hs : s.portOk) : u.portOk := by
  obtain ⟨htaken, hmark⟩ := hs
  have hsink : ∀ b, s.port.mark ≤ (s.port.sink ++ [b]).length := fun b => by simp; omega
  have hsource : ∀ b, s.port.source[s.port.taken]? = some b → s.port.taken + 1 ≤ s.port.source.length :=
    fun b hb => (List.getElem?_eq_some_iff.mp hb).1
  cases h with
  | emit b => exact ⟨htaken, hsink b⟩
  | fetch n b bitbuf h0 hb => exact ⟨hsource b hb, hmark⟩
  | take ht b hb => exact ⟨hsource b hb, hmark⟩
  | give b => exact ⟨htaken, hsink b⟩
  | discard => exact ⟨htaken, by simp [hmark]⟩
  | rewind => exact ⟨Nat.zero_le _, hmark⟩
  | _ => exact ⟨htaken, hmark⟩

/-- Only PutBits brings a bit in; every other operation leaves the pending bits or clears them. -/
theorem pendingBits (h : UnitEffect t s u) (ht : ∀ n x, t ≠ .putBits n x) :
    (u.bw.wacc = s.bw.wacc ∧ u.bw.wn = s.bw.wn) ∨ (u.bw.wacc = 0 ∧ u.bw.wn = 0) := by
  cases h with
  | appendBit n x => exact absurd rfl (ht _ _)
  | clearAcc => exact .inr ⟨rfl, rfl⟩
  | bwInit => exact .inr ⟨rfl, rfl⟩
  | _ => exact .inl ⟨rfl, rfl⟩

end UnitEffect

/-! ### A step of the sequencer -/

/-- What the end of a command leaves: everything in the shell but DONE, ERRCODE and what is still to do. -/
def State.lasting (s : State) : HostRegs × Writer × Reader × Ports :=
  ({ s.regs with done := false, errcode := .none }, s.bw, s.br, s.port)

theorem lasting_eq_of_shell_eq {s u : State} (h : u.shell = s.shell) : u.lasting = s.lasting := by
  simp only [State.shell, Prod.mk.injEq] at h
  simp [State.lasting, h]

theorem lasting_push (ts : List Task) (s : State) : (push ts s).lasting = s.lasting := by simp [State.lasting]

theorem lasting_endIfDone (s : State) : (endIfDone s).lasting = s.lasting := by
  unfold endIfDone; split <;> rfl

theorem TaskEnd.lasting {t : Task} {s s' : State} (h : TaskEnd t s s') : s'.lasting = s.lasting := by
  cases h with
  | leaves ts hts h => exact (lasting_eq_of_shell_eq h).trans (lasting_push ts s)
  | faults k hk h => exact (lasting_eq_of_shell_eq h).trans rfl

theorem todo_run {s : State} {cmd : Instr} {todo : List Task} (h : s.phase = .run cmd todo) : s.todo = todo := by
  unfold State.todo; rw [h]

theorem todo_idle {s : State} (h : s.phase = .idle) : s.todo = [] := by
  unfold State.todo; rw [h]

theorem todo_push {ts todo : List Task} {s : State} {cmd : Instr} (h : s.phase = .run cmd todo) :
    (push ts s).todo = ts ++ todo :=
  todo_run (push_phase_run h)

/-- A property of what lasts, kept by the units' part of the next operation, is kept by the step. -/
theorem seqStep_keeps {P : Params} {I : State → Prop} {s s' : State}
    (hlast : ∀ u v : State, v.lasting = u.lasting → I u → I v)
    (hunit : ∀ t ∈ s.todo, ∀ u v, UnitEffect t u v → I u → I v) (h : seqStep P s = .ran s') (hs : I s) :
    I s' := by
  obtain ⟨cmd, -, rfl⟩ | ⟨cmd, t, todo, s1, hphase, ht, rfl⟩ := seqStep_cases h
  · exact hlast s _ rfl hs
  · obtain ⟨u, hu, hend⟩ := runTask_cases ht
    have hmem : t ∈ s.todo := by rw [todo_run hphase]; exact List.mem_cons_self
    exact hlast u _ ((lasting_endIfDone s1).trans hend.lasting) (hunit t hmem _ u hu (hlast s _ rfl hs))

/-- How a step leaves the command: ended, with an error kind that is raised somewhere (60_exceptions.md R405); or with
the next operation replaced by those it leaves to do. -/
theorem seqStep_command {P : Params} {s s' : State} (h : seqStep P s = .ran s') :
    (s'.phase = .idle ∧ s'.regs.errcode ≠ .allocationFailure) ∨
    (∃ cmd t todo ts, s.phase = .run cmd (t :: todo) ∧ t.spawns ts = true ∧ s'.phase = .run cmd (ts ++ todo) ∧
      s'.regs.done = s.regs.done ∧ s'.regs.errcode = s.regs.errcode) := by
  obtain ⟨cmd, -, rfl⟩ | ⟨cmd, t, todo, s1, hphase, ht, rfl⟩ := seqStep_cases h
  · exact .inl ⟨rfl, nofun⟩
  · obtain ⟨u, hu, hend⟩ := runTask_cases ht
    obtain ⟨hup, hudone, huerr⟩ := hu.control
    cases hend with
    | leaves ts hts h =>
      simp only [State.shell, push_regs, push_phase_run hup, Prod.mk.injEq] at h
      obtain ⟨hregs, hp, -⟩ := h
      cases hl : ts ++ todo with
      | nil =>
        rw [endIfDone_done (hp.trans (by rw [hl]))]
        exact .inl ⟨rfl, nofun⟩
      | cons t' todo' =>
        rw [endIfDone_more (hp.trans (by rw [hl]))]
        exact .inr ⟨cmd, t, todo, ts, hphase, hts, hp.trans (by rw [hl]), by rw [hregs, hudone],
          by rw [hregs, huerr]⟩
    | faults k hk h =>
      simp only [State.shell, raise_regs, raise_phase, Prod.mk.injEq] at h
      obtain ⟨hregs, hp, -⟩ := h
      rw [endIfDone_idle hp]
      exact .inl ⟨hp, by rw [hregs]; rcases hk with rfl | rfl <;> nofun⟩

/-! ### The invariants under a step of the sequencer -/

theorem ceilingOk_congr {s u : State} (h : u.lasting = s.lasting) (hs : s.ceilingOk) : u.ceilingOk := by
  simp only [State.lasting, Prod.mk.injEq] at h
  simpa only [State.ceilingOk, h] using hs

theorem readerOk_congr {s u : State} (h : u.lasting = s.lasting) (hs : s.readerOk) : u.readerOk := by
  simp only [State.lasting, Prod.mk.injEq] at h
  simpa only [State.readerOk, h] using hs

theorem portOk_congr {s u : State} (h : u.lasting = s.lasting) (hs : s.portOk) : u.portOk := by
  simp only [State.lasting, Prod.mk.injEq] at h
  simpa only [State.portOk, h] using hs

theorem seqStep_controlOk {P : Params} {s s' : State} (h : seqStep P s = .ran s') (hs : s.controlOk) :
    s'.controlOk := by
  obtain ⟨hidle, herr⟩ | ⟨cmd, t, todo, ts, hphase, -, -, hdone, herr⟩ := seqStep_command h
  · exact ⟨fun hb => (nomatch (busy_of_idle hidle).symm.trans hb), herr⟩
  · have hpor : s'.por = s.por := by
      have := seqStep_outer h
      simp only [State.outer, Prod.mk.injEq] at this
      exact this.2.2.1
    rw [State.controlOk, hdone, herr, hpor]
    exact ⟨fun _ => hs.1 (busy_of_run hphase), hs.2⟩

theorem writesNoResult_dropLast_append {ts todo : List Task} (hts : writesNoResult ts = true)
    (htodo : writesNoResult todo.dropLast = true) : writesNoResult (ts ++ todo).dropLast = true := by
  cases todo with
  | nil =>
    rw [List.append_nil]
    exact List.all_eq_true.mpr fun t ht => List.all_eq_true.mp hts t (List.mem_of_mem_dropLast ht)
  | cons t todo =>
    rw [List.dropLast_append_of_ne_nil (List.cons_ne_nil t todo), writesNoResult, List.all_append, Bool.and_eq_true]
    exact ⟨hts, htodo⟩

theorem seqStep_resultsLast {P : Params} {s s' : State} (h : seqStep P s = .ran s') (hs : s.resultsLast) :
    s'.resultsLast := by
  obtain ⟨hidle, -⟩ | ⟨cmd, t, todo, ts, hphase, hts, hphase', -⟩ := seqStep_command h
  · rw [State.resultsLast, todo_idle hidle]; rfl
  · rw [State.resultsLast, todo_run hphase] at hs
    rw [State.resultsLast, todo_run hphase']
    simp only [Task.spawns, Bool.and_eq_true, Bool.or_eq_true, beq_iff_eq] at hts
    obtain ⟨-, hplain | ⟨rfl, hlast⟩⟩ := hts
    · refine writesNoResult_dropLast_append hplain ?_
      cases todo with
      | nil => rfl
      | cons t' todo =>
        rw [List.dropLast_cons_cons, List.all_cons, Bool.and_eq_true] at hs
        exact hs.2
    · cases todo with
      | nil => rwa [List.append_nil]
      | cons t' todo => rw [List.dropLast_cons_cons, List.all_cons] at hs; cases hs

theorem byteInFlight_cons {t : Task} {todo : List Task} (h : byteInFlight (t :: todo) = true) :
    t = .clearAcc ∨ ∃ b rest, t = .emitByte b ∧ todo = .clearAcc :: rest := by
  unfold byteInFlight at h
  split at h
  · next heq => exact .inl (List.cons.inj heq).1
  · next heq => exact .inr ⟨_, _, List.cons.inj heq⟩
  · cases h

theorem emitByteTask_phase {s s' : State} {b : Byte} (h : emitByteTask b s = .ok s') : s'.phase = s.phase := by
  by_cases hlimit : s.bw.compsize.toNat < s.bw.limit.toNat
  · rw [emitByteTask_below b hlimit] at h
    split at h
    · cases h
    · next u hu => cases h; rw [(snkWrite_eq_ok.mp hu).2]
  · rw [emitByteTask_at_ceiling b hlimit] at h; cases h; rfl

/-- PutBits takes one more bit, and the byte it completes is in flight. -/
theorem putBitsTask_writerOk {s : State} {cmd : Instr} {todo : List Task} (hphase : s.phase = .run cmd todo)
    (hn : s.bw.wn ≤ 7) (hacc : s.bw.wacc.toNat < 2 ^ s.bw.wn) (n x : Nat) : (putBitsTask n x s).writerOk := by
  cases n with
  | zero => exact .inl ⟨hn, hacc⟩
  | succ n =>
    have hlt := toNat_appendBit_lt (x.testBit n) hn hacc
    dsimp only [putBitsTask]
    split
    · next h8 =>
      refine .inr ⟨by rw [push_bw]; exact h8, ?_⟩
      rw [todo_push]
      · rfl
      · exact hphase
    · next h8 =>
      refine .inl ?_
      rw [push_bw]
      refine ⟨?_, hlt⟩
      show s.bw.wn + 1 ≤ 7
      have : s.bw.wn + 1 ≠ 8 := h8
      omega

theorem endIfDone_writerOk {s : State} (hs : s.writerOk) : (endIfDone s).writerOk := by
  unfold endIfDone
  split
  · next hphase =>
    rw [State.writerOk, todo_run hphase] at hs
    exact .inl (hs.resolve_right fun h => nomatch h.2)
  · exact hs
  · exact hs

theorem seqStep_writerOk {P : Params} {s s' : State} (h : seqStep P s = .ran s') (hs : s.writerOk) :
    s'.writerOk := by
  obtain ⟨cmd, hphase, rfl⟩ | ⟨cmd, t, todo, s1, hphase, ht, rfl⟩ := seqStep_cases h
  · rw [← endIfDone_done hphase]; exact endIfDone_writerOk hs
  refine endIfDone_writerOk ?_
  have hbits : (∀ n x, t ≠ .putBits n x) →
      (s1.bw.wacc = s.bw.wacc ∧ s1.bw.wn = s.bw.wn) ∨ (s1.bw.wacc = 0 ∧ s1.bw.wn = 0) := by
    intro hne
    obtain ⟨u, hu, hend⟩ := runTask_cases ht
    have hlast := hend.lasting
    simp only [State.lasting, Prod.mk.injEq] at hlast
    rw [hlast.2.1]
    exact hu.pendingBits hne
  rw [State.writerOk, todo_run hphase] at hs
  rcases hs with ⟨hn, hacc⟩ | ⟨h8, hflight⟩
  · by_cases hput : ∃ n x, t = .putBits n x
    · obtain ⟨n, x, rfl⟩ := hput
      cases ht
      exact putBitsTask_writerOk (s := { s with phase := .run cmd todo }) rfl hn hacc n x
    · refine .inl ?_
      obtain ⟨ha, hw⟩ | ⟨ha, hw⟩ := hbits fun n x hx => hput ⟨n, x, hx⟩
      · rw [ha, hw]; exact ⟨hn, hacc⟩
      · rw [ha, hw]; exact ⟨Nat.zero_le _, Nat.one_pos⟩
  · obtain rfl | ⟨b, rest, rfl, rfl⟩ := byteInFlight_cons hflight
    · cases ht; exact .inl ⟨Nat.zero_le _, Nat.one_pos⟩
    · obtain ⟨-, hw⟩ | ⟨ha, hw⟩ := hbits nofun
      · refine .inr ⟨hw.trans h8, ?_⟩
        rw [todo_run (emitByteTask_phase ht)]; rfl
      · refine .inl ?_
        rw [ha, hw]; exact ⟨Nat.zero_le _, Nat.one_pos⟩

/-! ### The invariants together -/

/-- The six invariants of the units. -/
structure State.UnitsOk (s : State) : Prop where
  writer : s.writerOk
  ceiling : s.ceilingOk
  reader : s.readerOk
  port : s.portOk
  control : s.controlOk
  results : s.resultsLast

theorem seqStep_unitsOk {P : Params} {s s' : State} (h : seqStep P s = .ran s') (hs : s.UnitsOk) : s'.UnitsOk where
  writer := seqStep_writerOk h hs.writer
  ceiling := seqStep_keeps (fun _ _ => ceilingOk_congr) (fun _ _ _ _ => UnitEffect.ceilingOk) h hs.ceiling
  reader := seqStep_keeps (fun _ _ => readerOk_congr) (fun _ _ _ _ => UnitEffect.readerOk) h hs.reader
  port := seqStep_keeps (fun _ _ => portOk_congr) (fun _ _ _ _ => UnitEffect.portOk) h hs.port
  control := seqStep_controlOk h hs.control
  results := seqStep_resultsLast h hs.results

theorem settle_unitsOk {P : Params} {s : State} (hs : s.UnitsOk) : (settle P s).UnitsOk :=
  runSeq_induct P (fun _ _ hu h => seqStep_unitsOk h hu) _ s hs

end Sys2Proof.Machine
end

section
/-! PROOFS. The start of a command and the host's turns keep the invariants of the units too, so every step does. -/

namespace Sys2Proof.Machine

/-! ### The start of a command -/

/-- What a command does at once, `s` being the state of its CMD write. -/
def startBody (i : Instr) (s : State) : State → State :=
  match i with
  | .encode | .decode => clearOutcome
  | .crcInit => crcInit
  | .crcByte b => crcUpdate b
  | .crcRead => crcRead
  | .bwInit => bwInit s.regs.origSize
  | .brInit => brInit s.regs.compSize
  | .brPeek n => setResult (BitVec.ofNat 32 (peekBits (countOperand n) s))
  | .nop | .bwPut _ | .bwFlush | .brAdvance _ | .brGet _ => id

/-- The operations of a command after that. -/
def startTasks (i : Instr) (s : State) : List Task :=
  match i with
  | .encode => [.encodeInit, .encodeLoop, .hufEncodeEnd, .encodeEnd]
  | .decode => [.decodeInit, .decodeFinish]
  | .bwPut n => [putBits (countOperand n) (argBits s)]
  | .bwFlush => bwFlushTasks
  | .brInit => brInitTasks
  | .brAdvance n => [.advance (countOperand n)]
  | .brGet n => [.advance (countOperand n), .setResult (BitVec.ofNat 32 (peekBits (countOperand n) s))]
  | .nop | .crcInit | .crcByte _ | .crcRead | .bwInit | .brPeek _ => []

/-- Every command is started in one way (44_pipeline.md R340). -/
theorem exec_eq_issue (i : Instr) (s : State) :
    exec i s = .next (issue Config.build i (startBody i s) (startTasks i s) s) := by
  cases i <;> rfl

/-- The state in which a command's operations begin. -/
def started (i : Instr) (s : State) : State := startBody i s (markSink (beginCommand i (startTasks i s) s))

theorem exec_idle (i : Instr) {s : State} (h : s.phase = .idle) :
    exec i s = .next (settle Config.build (started i s)) := by
  rw [exec_eq_issue, issue_idle _ _ _ _ h]; rfl

theorem exec_busy (i : Instr) {s : State} (h : s.busy = true) : exec i s = .next (loseCommand s) := by
  rw [exec_eq_issue, issue_busy _ _ _ _ h]

namespace State.UnitsOk

variable {s u : State}

/-- The invariants do not look at other fields, and DONE may be cleared. -/
theorem congr (hs : s.UnitsOk) (hbw : u.bw = s.bw) (hbr : u.br = s.br) (hport : u.portOk) (hphase : u.phase = s.phase)
    (hpor : u.por = s.por) (hdone : u.regs.done = true → s.regs.done = true)
    (herr : u.regs.errcode = s.regs.errcode) : u.UnitsOk where
  writer := by simpa only [State.writerOk, State.todo, hbw, hphase] using hs.writer
  ceiling := by simpa only [State.ceilingOk, hbw] using hs.ceiling
  reader := by simpa only [State.readerOk, hbr] using hs.reader
  port := hport
  control := by
    obtain ⟨hbusy, hne⟩ := hs.control
    rw [State.controlOk, State.busy, hphase, herr, hpor]
    refine ⟨fun hb => ?_, hne⟩
    obtain ⟨hd, he, hp⟩ := hbusy hb
    exact ⟨Bool.eq_false_iff.mpr fun h => (nomatch hd.symm.trans (hdone h)), he, hp⟩
  results := by simpa only [State.resultsLast, State.todo, hphase] using hs.results

/-- After a reset they hold whatever the block did (70_reset_and_hazards.md R431). -/
theorem of_reset (hregs : u.regs = HostRegs.reset) (hphase : u.phase = .idle) (hbw : u.bw = Writer.reset)
    (hbr : u.br = Reader.reset) (hport : u.portOk) : u.UnitsOk where
  writer := by rw [State.writerOk, hbw]; exact .inl ⟨Nat.zero_le _, Nat.one_pos⟩
  ceiling := by rw [State.ceilingOk, hbw]; exact ⟨Nat.le_refl _, nofun⟩
  reader := by rw [State.readerOk, hbr]; exact ⟨Nat.zero_le _, Nat.one_pos, Nat.le_refl _⟩
  port := hport
  control := ⟨fun hb => (nomatch (busy_of_idle hphase).symm.trans hb), by rw [hregs]; nofun⟩
  results := by rw [State.resultsLast, todo_idle hphase]; rfl

/-- An idle block holds no completed byte. -/
theorem pending_of_idle (hs : s.UnitsOk) (h : s.phase = .idle) : s.bw.wn ≤ 7 ∧ s.bw.wacc.toNat < 2 ^ s.bw.wn := by
  have hw := hs.writer
  rw [State.writerOk, todo_idle h] at hw
  exact hw.resolve_right fun h => nomatch h.2

theorem bwInit (hs : s.UnitsOk) (lim : Quad) : (bwInit lim s).UnitsOk :=
  { hs with
    writer := .inl ⟨Nat.zero_le _, Nat.one_pos⟩
    ceiling := ⟨Nat.zero_le _, nofun⟩ }

theorem brInit (hs : s.UnitsOk) (c : Quad) : (brInit c s).UnitsOk :=
  { hs with reader := ⟨Nat.zero_le _, Nat.one_pos, Nat.le_refl _⟩ }

theorem started (hs : s.UnitsOk) (hidle : s.phase = .idle) (hpor : s.por = false) (i : Instr) :
    (started i s).UnitsOk := by
  have hbegin : (markSink (beginCommand i (startTasks i s) s)).UnitsOk :=
    { hs with
      writer := .inl (hs.pending_of_idle hidle)
      port := ⟨hs.port.1, Nat.le_refl _⟩
      control := ⟨fun _ => ⟨rfl, rfl, hpor⟩, nofun⟩
      results := by cases i <;> rfl }
  cases i with
  | bwInit => exact hbegin.bwInit _
  | brInit => exact hbegin.brInit _
  | _ => exact hbegin.congr rfl rfl hbegin.port rfl rfl id rfl

theorem loseCommand (hs : s.UnitsOk) : (loseCommand s).UnitsOk := hs.congr rfl rfl hs.port rfl rfl id rfl

theorem exec {i : Instr} (hs : s.UnitsOk) (hpor : s.por = false) (h : exec i s = .next u) : u.UnitsOk := by
  cases hb : s.busy
  · rw [exec_idle i (idle_of_not_busy hb)] at h
    cases h
    exact settle_unitsOk (hs.started (idle_of_not_busy hb) hpor i)
  · rw [exec_busy i hb] at h
    cases h
    exact hs.loseCommand

/-! ### The host's turn -/

theorem writeCmd {w : Word} (hs : s.UnitsOk) (hpor : s.por = false) (h : writeCmd w s = .next u) : u.UnitsOk := by
  unfold Machine.writeCmd at h
  split at h
  · exact hs.exec hpor h
  · cases h
    cases hb : s.busy
    · have hidle := idle_of_not_busy hb
      rw [issueIllegal_idle hidle]
      exact { hs with
        writer := .inl (hs.pending_of_idle hidle), control := ⟨nofun, nofun⟩, results := rfl }
    · rw [issueIllegal_busy hb]
      exact hs.loseCommand

theorem resetBlock (hs : s.UnitsOk) : (resetBlock s).UnitsOk := .of_reset rfl rfl rfl rfl hs.port

theorem writeReg (hs : s.UnitsOk) (o : BitVec 8) (v : Word) : (writeReg s o v).UnitsOk := by
  have hoperand : ∀ f : HostRegs → HostRegs, (∀ r, (f r).done = r.done ∧ (f r).errcode = r.errcode) →
      (writeOperand f s).UnitsOk := by
    intro f hf
    unfold writeOperand
    split
    · exact hs
    · exact hs.congr rfl rfl hs.port rfl rfl (fun h => (hf s.regs).1 ▸ h) (hf s.regs).2
  unfold Machine.writeReg
  split
  · unfold writeCtrl
    split
    · exact hs.resetBlock
    · split
      · exact hs
      · exact hs.congr rfl rfl hs.port rfl rfl id rfl
  · exact hs.congr rfl rfl hs.port rfl rfl (fun h => (Bool.and_eq_true _ _ ▸ h).1) rfl
  all_goals first | exact hs | exact hoperand _ fun r => ⟨rfl, rfl⟩

theorem hostPort {f : Ports → Ports} (hs : s.UnitsOk)
    (hf : (f s.port).taken ≤ (f s.port).source.length ∧ (f s.port).mark ≤ (f s.port).sink.length)
    (h : hostPort f s = .next u) : u.UnitsOk := by
  cases h
  exact settle_unitsOk (hs.congr rfl rfl hf rfl rfl id rfl)

theorem hostAct {a : HostAct} (hs : s.UnitsOk) (h : hostAct a s = .next u) : u.UnitsOk := by
  obtain ⟨htaken, hmark⟩ := hs.port
  cases a <;> dsimp only [Machine.hostAct] at h
  case write bytes o v =>
    unfold hostWrite at h
    split at h
    · cases h
    · split at h
      · cases h; exact hs
      · next hpor =>
        split at h
        · exact hs.writeCmd (Bool.eq_false_iff.mpr hpor) h
        · cases h; exact settle_unitsOk (hs.writeReg o v)
  case read bytes o =>
    unfold hostRead at h
    split at h
    · cases h
    · split at h
      · cases h; exact hs
      · cases h; exact settle_unitsOk (hs.congr rfl rfl hs.port rfl rfl id rfl)
  case waitDone =>
    dsimp only [hostWait] at h
    split at h
    · cases h; exact hs.congr rfl rfl hs.port rfl rfl id rfl
    · split at h
      · cases h; exact hs.congr rfl rfl hs.port rfl rfl (fun h => (Bool.and_eq_true _ _ ▸ h).1) rfl
      · cases h; exact settle_unitsOk (hs.congr rfl rfl hs.port rfl rfl id rfl)
  case source bs => exact hs.hostPort ⟨Nat.zero_le _, hmark⟩ h
  case supply bs => exact hs.hostPort ⟨by simp only [List.length_append]; omega, hmark⟩ h
  case accept room => exact hs.hostPort ⟨htaken, hmark⟩ h
  case ackDiscard yes => exact hs.hostPort ⟨htaken, hmark⟩ h
  case ackRewind yes => exact hs.hostPort ⟨htaken, hmark⟩ h
  case dropSink => exact hs.hostPort ⟨htaken, Nat.zero_le _⟩ h
  case assertReset => cases h; exact .of_reset rfl rfl rfl rfl hs.port
  case releaseReset =>
    split at h
    · cases h; exact .of_reset rfl rfl rfl rfl hs.port
    · cases h; exact hs

theorem step (hs : s.UnitsOk) (h : step s = .next u) : u.UnitsOk := by
  unfold Machine.step at h
  split at h
  · next turn rest _ =>
    have hturn : State.UnitsOk { s with agenda := rest, pace := turn.pace } :=
      hs.congr rfl rfl hs.port rfl rfl id rfl
    exact hturn.hostAct h
  · unfold seqAlone at h
    split at h
    · cases h; exact hs
    · cases h
    · cases h; exact settle_unitsOk (hs.congr rfl rfl hs.port rfl rfl id rfl)

end State.UnitsOk

/-- Settles O43: a step is a host turn and steps of the sequencer, and each of them keeps the six invariants. -/
theorem stepKeepsUnits : Obligations.StepKeepsUnits := by
  intro s t hwriter hceiling hreader hport hcontrol hresults h
  obtain ⟨hwriter, hceiling, hreader, hport, hcontrol, hresults⟩ :=
    State.UnitsOk.step ⟨hwriter, hceiling, hreader, hport, hcontrol, hresults⟩ h
  exact ⟨hwriter, hceiling, hreader, hport, hcontrol, hresults⟩

end Sys2Proof.Machine
end

section
/-! PROOFS. Which command writes which register (10_state.md R46, R49-R54): a command's operations stay on the sides it
starts on, and an operation writes the registers of its own side only. -/

namespace Sys2Proof.Machine

/-! ### The side a command's operations stay on -/

/-- Every operation still to do is on a side that `p` allows. -/
def State.onSides (p : Side → Prop) (s : State) : Prop := ∀ t ∈ s.todo, p t.side

theorem onSides_of_idle {p : Side → Prop} {s : State} (h : s.phase = .idle) : s.onSides p := by
  intro t ht; rw [todo_idle h] at ht; cases ht

/-- A step of the sequencer stays on the sides allowed, the bitstream unit's being one. -/
theorem seqStep_onSides {P : Params} {p : Side → Prop} (hbits : p .bits) {s s' : State} (h : seqStep P s = .ran s')
    (hs : s.onSides p) : s'.onSides p := by
  obtain ⟨hidle, -⟩ | ⟨cmd, t, todo, ts, hphase, hts, hphase', -⟩ := seqStep_command h
  · exact onSides_of_idle hidle
  · rw [State.onSides, todo_run hphase] at hs
    rw [State.onSides, todo_run hphase']
    intro t' ht'
    rcases List.mem_append.mp ht' with hmem | hmem
    · simp only [Task.spawns, Bool.and_eq_true, List.all_eq_true, Bool.or_eq_true, beq_iff_eq] at hts
      rcases hts.1 t' hmem with hside | hside
      · rw [hside]; exact hbits
      · rw [hside]; exact hs t List.mem_cons_self
    · exact hs t' (List.mem_cons_of_mem _ hmem)

/-- What no operation on the sides allowed changes, and the end of a command neither, the sequencer's run keeps. -/
theorem settle_keeps {P : Params} {p : Side → Prop} (hbits : p .bits) {I : State → Prop} {s : State}
    (hlast : ∀ u v : State, v.lasting = u.lasting → I u → I v)
    (hunit : ∀ t, p t.side → ∀ u v, UnitEffect t u v → I u → I v) (hside : s.onSides p) (hs : I s) :
    I (settle P s) := by
  refine (runSeq_induct P (I := fun u => u.onSides p ∧ I u) ?_ _ s ⟨hside, hs⟩).2
  rintro u v ⟨hu, hI⟩ h
  exact ⟨seqStep_onSides hbits h hu, seqStep_keeps hlast (fun t ht => hunit t (hu t ht)) h hI⟩

/-! ### What an operation can write -/

/-- The fields a command reads and never writes. -/
def HostRegs.operands (r : HostRegs) : Bool × Bool × Quad × Half × Word :=
  (r.method, r.crcCheck, r.origSize, r.expectedCrc, r.arg)

namespace UnitEffect

variable {t : Task} {s u : State}

theorem operands (h : UnitEffect t s u) : u.regs.operands = s.regs.operands := by
  cases h <;> rfl

theorem result (h : UnitEffect t s u) (ht : t.side ≠ .result) : u.regs.result = s.regs.result := by
  cases h with
  | setResult v => exact absurd rfl ht
  | _ => rfl

theorem outcome (h : UnitEffect t s u) (ht : t.side ≠ .encode) (ht' : t.side ≠ .decode) :
    u.regs.crc = s.regs.crc ∧ u.regs.stored = s.regs.stored ∧ u.regs.crcMismatch = s.regs.crcMismatch := by
  cases h with
  | encodeFinish => exact absurd rfl ht
  | storeEnd => exact absurd rfl ht
  | decodeFinish => exact absurd rfl ht'
  | _ => exact ⟨rfl, rfl, rfl⟩

theorem compSize (h : UnitEffect t s u) (ht : t.side ≠ .encode) : u.regs.compSize = s.regs.compSize := by
  cases h with
  | encodeFinish => exact absurd rfl ht
  | storeEnd => exact absurd rfl ht
  | _ => rfl

theorem unpackable (h : UnitEffect t s u) (ht : t.side ≠ .encode) (hs : s.bw.unpackable = true) :
    u.bw.unpackable = true := by
  cases h with
  | drop b => rfl
  | bwInit => exact absurd rfl ht
  | _ => exact hs

end UnitEffect

/-! ### What a command can write -/

theorem started_todo (i : Instr) (s : State) : (started i s).todo = startTasks i s := by
  cases i <;> rfl

/-- The operations a command starts with are the bitstream unit's, but for ENCODE, DECODE and BR_GET. -/
theorem startTasks_side {i : Instr} {s : State} {t : Task} (h : t ∈ startTasks i s) :
    t.side = .bits ∨ (t.side = .encode ∧ i = .encode) ∨ (t.side = .decode ∧ i = .decode) ∨
      (t.side = .result ∧ ∃ n, i = .brGet n) := by
  cases i <;> simp only [startTasks, bwFlushTasks, brInitTasks, List.mem_cons, List.not_mem_nil, or_false] at h
  case encode => rcases h with rfl | rfl | rfl | rfl <;> exact .inr (.inl ⟨rfl, rfl⟩)
  case decode => rcases h with rfl | rfl <;> exact .inr (.inr (.inl ⟨rfl, rfl⟩))
  case bwPut n => subst h; exact .inl rfl
  case bwFlush => subst h; exact .inl rfl
  case brInit => rcases h with rfl | rfl <;> exact .inl rfl
  case brAdvance n => subst h; exact .inl rfl
  case brGet n =>
    rcases h with rfl | rfl
    · exact .inl rfl
    · exact .inr (.inr (.inr ⟨rfl, n, rfl⟩))

theorem started_onSides {p : Side → Prop} {i : Instr} (s : State) (hbits : p .bits)
    (hencode : i = .encode → p .encode) (hdecode : i = .decode → p .decode)
    (hresult : ∀ n, i = .brGet n → p .result) : (started i s).onSides p := by
  intro t ht
  rw [started_todo] at ht
  obtain hside | ⟨hside, hi⟩ | ⟨hside, hi⟩ | ⟨hside, n, hi⟩ := startTasks_side ht <;> rw [hside]
  · exact hbits
  · exact hencode hi
  · exact hdecode hi
  · exact hresult n hi

/-- A part `f` of the registers that DONE, ERRCODE and CMD_LOST are no part of: what neither the command's start nor an
operation on its sides changes, the command leaves. -/
theorem exec_keeps_part {β : Type} {f : HostRegs → β} {p : Side → Prop} {i : Instr} {s t : State}
    (hf : ∀ r d e l, f { r with done := d, errcode := e, cmdLost := l } = f r) (hbits : p .bits)
    (hunit : ∀ t, p t.side → ∀ u v, UnitEffect t u v → f v.regs = f u.regs) (hside : (started i s).onSides p)
    (hstart : f (started i s).regs = f s.regs) (h : exec i s = .next t) : f t.regs = f s.regs := by
  have hlast : ∀ u v : State, v.lasting = u.lasting → f v.regs = f u.regs := fun u v huv => by
    simp only [State.lasting, Prod.mk.injEq] at huv
    rw [← hf v.regs false .none v.regs.cmdLost, ← hf u.regs false .none u.regs.cmdLost, huv.1]
  cases hb : s.busy
  · rw [exec_idle i (idle_of_not_busy hb)] at h
    cases h
    exact settle_keeps hbits (I := fun u => f u.regs = f s.regs) (fun u v huv hu => (hlast u v huv).trans hu)
      (fun t ht u v huv hu => (hunit t ht u v huv).trans hu) hside hstart
  · rw [exec_busy i hb] at h
    cases h
    exact hf s.regs s.regs.done s.regs.errcode true

section Command

variable {i : Instr} {s t : State} (h : exec i s = .next t)
include h

theorem exec_operands : t.regs.operands = s.regs.operands :=
  exec_keeps_part (f := HostRegs.operands) (p := fun _ => True) (fun _ _ _ _ => rfl) trivial
    (fun _ _ _ _ => UnitEffect.operands) (fun _ _ => trivial) (by cases i <;> rfl) h

theorem exec_result (hread : i ≠ .crcRead) (hpeek : ∀ n, i ≠ .brPeek n) (hget : ∀ n, i ≠ .brGet n) :
    t.regs.result = s.regs.result := by
  refine exec_keeps_part (f := HostRegs.result) (p := (· ≠ .result)) (fun _ _ _ _ => rfl) nofun
    (fun _ ht _ _ hu => hu.result ht)
    (started_onSides s nofun (fun _ => nofun) (fun _ => nofun) fun n hi => absurd hi (hget n)) ?_ h
  cases i with
  | crcRead => exact absurd rfl hread
  | brPeek n => exact absurd rfl (hpeek n)
  | _ => rfl

theorem exec_crc (hencode : i ≠ .encode) (hdecode : i ≠ .decode) (hread : i ≠ .crcRead) :
    t.regs.crc = s.regs.crc := by
  refine exec_keeps_part (f := HostRegs.crc) (p := fun d => d ≠ .encode ∧ d ≠ .decode) (fun _ _ _ _ => rfl)
    ⟨nofun, nofun⟩ (fun _ ht _ _ hu => (hu.outcome ht.1 ht.2).1)
    (started_onSides s ⟨nofun, nofun⟩ (absurd · hencode) (absurd · hdecode) fun _ _ => ⟨nofun, nofun⟩) ?_ h
  cases i with
  | crcRead => exact absurd rfl hread
  | _ => rfl

theorem exec_compSize (hencode : i ≠ .encode) : t.regs.compSize = s.regs.compSize :=
  exec_keeps_part (f := HostRegs.compSize) (p := (· ≠ .encode)) (fun _ _ _ _ => rfl) nofun
    (fun _ ht _ _ hu => hu.compSize ht) (started_onSides s nofun (absurd · hencode) nofun nofun)
    (by cases i <;> rfl) h

theorem exec_outcome (hencode : i ≠ .encode) (hdecode : i ≠ .decode) :
    (t.regs.stored, t.regs.crcMismatch) = (s.regs.stored, s.regs.crcMismatch) := by
  refine exec_keeps_part (f := fun r => (r.stored, r.crcMismatch)) (p := fun d => d ≠ .encode ∧ d ≠ .decode)
    (fun _ _ _ _ => rfl) ⟨nofun, nofun⟩
    (fun _ ht _ _ hu => Prod.ext (hu.outcome ht.1 ht.2).2.1 (hu.outcome ht.1 ht.2).2.2)
    (started_onSides s ⟨nofun, nofun⟩ (absurd · hencode) (absurd · hdecode) fun _ _ => ⟨nofun, nofun⟩) ?_ h
  cases i with
  | encode => exact absurd rfl hencode
  | decode => exact absurd rfl hdecode
  | _ => rfl

theorem exec_unpackable (hinit : i ≠ .bwInit) (hencode : i ≠ .encode) (hs : s.bw.unpackable = true) :
    t.bw.unpackable = true := by
  cases hb : s.busy
  · rw [exec_idle i (idle_of_not_busy hb)] at h
    cases h
    refine settle_keeps (I := fun u => u.bw.unpackable = true) (p := (· ≠ .encode)) nofun ?_
      (fun _ ht _ _ hu => hu.unpackable ht) (started_onSides s nofun (absurd · hencode) nofun nofun) ?_
    · intro u v huv hu
      simp only [State.lasting, Prod.mk.injEq] at huv
      rw [huv.2.1, hu]
    · cases i with
      | bwInit => exact absurd rfl hinit
      | _ => exact hs
  · rw [exec_busy i hb] at h
    cases h
    exact hs

end Command

/-- Settles O30: by the sides a command's operations stay on, and what an operation on each side can write. -/
theorem registerWriters : Obligations.RegisterWriters := by
  intro i s t h
  have hoperands := exec_operands h
  simp only [HostRegs.operands, Prod.mk.injEq] at hoperands
  exact ⟨hoperands, exec_result h, exec_crc h, exec_compSize h,
    fun hencode hdecode => Prod.mk.inj (exec_outcome h hencode hdecode), exec_unpackable h⟩

end Sys2Proof.Machine
end

section
/-! PROOFS. What a host access does, and what one step of the sequencer can do to the ports (20_memory.md R97-R106). -/

namespace Sys2Proof.Machine

/-! ### What a byte of the bitstream unit leaves unchanged -/

theorem emitByteTask_frame {s u : State} {b : Byte} (h : emitByteTask b s = .ok u) :
    u = { s with bw := u.bw, port := u.port } := by
  by_cases hlimit : s.bw.compsize.toNat < s.bw.limit.toNat
  · rw [emitByteTask_below b hlimit] at h
    split at h
    · cases h
    · next v hv => cases h; rw [(snkWrite_eq_ok.mp hv).2]
  · rw [emitByteTask_at_ceiling b hlimit] at h
    cases h; rfl

theorem fetchByte_frame {s u : State} {b : Byte} (h : fetchByte s = .ok (b, u)) :
    u = { s with br := u.br, port := u.port } := by
  by_cases hrem : s.br.remaining = 0
  · rw [fetchByte_past_end hrem] at h
    cases h; rfl
  · rw [((fetchByte_eq_ok hrem).mp h).2]

/-! ### Host accesses (R97, R105, R106) -/

theorem accessOk_eq_false_iff {bytes : Nat} {o : BitVec 8} :
    accessOk bytes o = false ↔ bytes ≠ 4 ∨ o.toNat % 4 ≠ 0 := by
  simp only [accessOk, Bool.and_eq_false_iff, decide_eq_false_iff_not, ne_eq]

theorem writeCmd_next (w : Word) (s : State) : ∃ t, writeCmd w s = .next t := by
  unfold writeCmd
  split
  · exact exec_next _ s
  · exact ⟨_, rfl⟩

theorem hostWrite_refused {bytes : Nat} {o : BitVec 8} (v : Word) (s : State) (h : accessOk bytes o = false) :
    hostWrite bytes o v s = .refused (.badAccess bytes o) := if_pos h

theorem hostRead_refused {bytes : Nat} {o : BitVec 8} (s : State) (h : accessOk bytes o = false) :
    hostRead bytes o s = .refused (.badAccess bytes o) := if_pos h

theorem hostWrite_next {o : BitVec 8} (v : Word) (s : State) (h : o.toNat % 4 = 0) :
    ∃ t, hostWrite 4 o v s = .next t := by
  rw [hostWrite, accessOk_word h, if_neg (by decide)]
  split
  · exact ⟨_, rfl⟩
  · split
    · exact writeCmd_next v s
    · exact ⟨_, rfl⟩

theorem hostRead_next {o : BitVec 8} (s : State) (h : o.toNat % 4 = 0) : ∃ t, hostRead 4 o s = .next t := by
  rw [hostRead, accessOk_word h, if_neg (by decide)]
  split <;> exact ⟨_, rfl⟩

theorem hostRead_eq_settle {o : BitVec 8} {s : State} (h : o.toNat % 4 = 0) (hpor : s.por = false) :
    hostRead 4 o s = .next (settle Config.build { s with rdata := readReg Config.build s o }) := by
  simp [hostRead, accessOk_word h, hpor]

/-- With the host's next turn due at once, the sequencer takes no step of ENCODE or DECODE (log entry 2). -/
theorem settle_paced_zero (P : Params) {s : State} {todo : List Task} (hpace : s.pace = some 0)
    (hphase : s.phase = .run .encode todo ∨ s.phase = .run .decode todo) : settle P s = s := by
  have hburst : burst s = 0 := by
    rcases hphase with hphase | hphase <;> rw [burst, hphase, hpace] <;> rfl
  rw [settle, hburst, runSeq_zero]

/-- Settles O26: by the access check, and a read after which the sequencer takes no step. -/
theorem hostAccess : Obligations.HostAccess := by
  intro bytes o v s
  refine ⟨fun h => ?_, ?_⟩
  · have hbad := accessOk_eq_false_iff.mpr h
    exact ⟨hostWrite_refused v s hbad, hostRead_refused s hbad⟩
  · rintro rfl ho
    refine ⟨hostWrite_next v s ho, hostRead_next s ho, fun hpor hquiet => ?_⟩
    rw [hostRead_eq_settle ho hpor]
    rcases hquiet with hidle | ⟨hpace, todo, hphase⟩
    · exact congrArg _ (settle_idle Config.build hidle)
    · exact congrArg _ (settle_paced_zero Config.build hpace hphase)

/-! ### What one step of the sequencer does to the ports (R98-R100) -/

/-- The uses of the ports in one operation: none, a source byte, a sink byte, and the store fallback's two requests. -/
inductive PortUse (p p' : Ports) : Prop
  | none (h : p' = p)
  | take (hbyte : p.taken < p.source.length) (h : p' = { p with taken := p.taken + 1 })
  | give (b : Byte) (hroom : p.room ≠ some 0) (h : p' = { p with sink := p.sink ++ [b], room := p.room.map (· - 1) })
  | discard (hack : p.ackDiscard = true) (h : p' = { p with sink := p.sink.take p.mark })
  | rewind (hack : p.ackRewind = true) (h : p' = { p with taken := 0 })

theorem UnitEffect.portUse {t : Task} {s u : State} (h : UnitEffect t s u) : PortUse s.port u.port := by
  cases h with
  | emit b hlimit hroom => exact .give b hroom rfl
  | fetch n b bitbuf hrem hb => exact .take (List.getElem?_eq_some_iff.mp hb).1 rfl
  | take ht b hb => exact .take (List.getElem?_eq_some_iff.mp hb).1 rfl
  | give b ht hroom => exact .give b hroom rfl
  | discard hack => exact .discard hack rfl
  | rewind hack => exact .rewind hack rfl
  | _ => exact .none rfl

theorem port_eq_of_lasting_eq {s u : State} (h : u.lasting = s.lasting) : u.port = s.port := by
  simp only [State.lasting, Prod.mk.injEq] at h
  exact h.2.2.2

/-- A step's port use is its operation's: neither the operation's end nor the command's touches a port. -/
theorem seqStep_portUse {P : Params} {s t : State} (h : seqStep P s = .ran t) : PortUse s.port t.port := by
  obtain ⟨cmd, -, rfl⟩ | ⟨cmd, task, todo, s1, -, htask, rfl⟩ := seqStep_cases h
  · exact .none rfl
  · obtain ⟨u, hu, hend⟩ := runTask_cases htask
    rw [port_eq_of_lasting_eq ((lasting_endIfDone s1).trans hend.lasting)]
    exact hu.portUse

/-- Settles O38: the port use of a step. -/
theorem portDiscipline : Obligations.PortDiscipline := by
  intro s t h
  cases seqStep_portUse h with
  | none h => exact .inl h
  | take hbyte h => exact .inr (.inl ⟨hbyte, h⟩)
  | give b hroom h => exact .inr (.inr (.inl ⟨b, hroom, h⟩))
  | discard hack h => exact .inr (.inr (.inr (.inl ⟨hack, h⟩)))
  | rewind hack h => exact .inr (.inr (.inr (.inr ⟨hack, h⟩)))

end Sys2Proof.Machine
end

section
/-! PROOFS. The canonical form of the internal memories, operation by operation: the match finder's, MakeTree's and
MakeCode's, the token buffer's, the decode tables' (20_memory.md R91-R96, log entry 4). -/

namespace Sys2Proof.Machine

/-! ### The match finder's memories (R91, R92) -/

/-- Both answers of an operation with an invariant check have a property. -/
def Checked.both {σ : Type} (I : σ → Prop) : Checked σ → Prop
  | .ok m => I m
  | .error m => I m

namespace Checked.both

variable {σ : Type} {I : σ → Prop} {a b : Checked σ} {m : σ}

theorem ok (h : I m) : Checked.both I (.ok m) := h
theorem error (h : I m) : Checked.both I (.error m) := h
theorem of_ok (h : a.both I) (ha : a = .ok m) : I m := by rwa [ha] at h
theorem of_error (h : a.both I) (ha : a = .error m) : I m := by rwa [ha] at h

/-- Both branches of a test. -/
theorem ite {c : Prop} [Decidable c] (ha : a.both I) (hb : b.both I) :
    (if c then a else b : Checked σ).both I := by
  split
  · exact ha
  · exact hb

end Checked.both

/-- Descend below `r`, all of whose string is matched (43_match_finder.md R310). -/
def descendBelow (P : Params) (fuel : Nat) (r : Handle) (m : MatchFinder) : Checked MatchFinder :=
  let m2 := setPosition r (.fresh m.pos) m
  let c := textAt m2 (m2.pos + m2.matchlen)
  match child m2 r c with
  | none => .ok (makeChild r c (.leaf m2.pos) m2)
  | some r' => descend P fuel r r' { m2 with matchlen := m2.matchlen + 1 }

/-- A turn of Descend, some comparison having set `matchpos` and `matchlen` (R310). -/
theorem descend_succ (P : Params) (fuel : Nat) (q r : Handle) (m : MatchFinder) : ∃ mp ml mismatch,
    descend P (fuel + 1) q r m =
      if mismatch = true then split r { m with matchpos := mp, matchlen := ml }
      else if P.maxMatch ≤ ml then .ok (replace q r { m with matchpos := mp, matchlen := ml })
      else descendBelow P fuel r { m with matchpos := mp, matchlen := ml } :=
  ⟨_, _, _, rfl⟩

namespace MatchFinder.memWf

variable {m : MatchFinder}

theorem text (hm : m.memWf) : Memory.wf 0 m.text = true := hm.1

theorem setLeaf (hm : m.memWf) (p : Nat) (r : LeafRec) : (setLeaf p r m).memWf := by
  obtain ⟨htext, hleaves, hinners, hchildren⟩ := hm
  exact ⟨htext, wf_memWrite hleaves p r, hinners, hchildren⟩

theorem setInner (hm : m.memWf) (i : Nat) (r : InnerRec) : (setInner i r m).memWf := by
  obtain ⟨htext, hleaves, hinners, hchildren⟩ := hm
  exact ⟨htext, hleaves, wf_memWrite hinners i r, hchildren⟩

theorem setChild (hm : m.memWf) (q : Handle) (c : Byte) (h : Handle) : (setChild q c h m).memWf := by
  obtain ⟨htext, hleaves, hinners, hchildren⟩ := hm
  exact ⟨htext, hleaves, hinners, rising_cellPut hchildren _ h⟩

theorem dropChild (hm : m.memWf) (q : Handle) (c : Byte) : (dropChild q c m).memWf := by
  obtain ⟨htext, hleaves, hinners, hchildren⟩ := hm
  exact ⟨htext, hleaves, hinners, rising_cellDrop hchildren _⟩

theorem setLink (hm : m.memWf) (h : Handle) (q : Option Handle) (c : Byte) : (setLink h q c m).memWf := by
  cases h with
  | root b => exact hm
  | inner i => exact hm.setInner i _
  | leaf p => exact hm.setLeaf p _

theorem clearParent (hm : m.memWf) (h : Handle) : (clearParent h m).memWf := hm.setLink h none _

theorem setPosition (hm : m.memWf) (h : Handle) (v : RepPos) : (setPosition h v m).memWf := by
  cases h with
  | inner i => exact hm.setInner i _
  | root b => exact hm
  | leaf p => exact hm

theorem setSucc (hm : m.memWf) (p : Nat) (q : Option Handle) : (setSucc p q m).memWf := hm.setLeaf p _

theorem mapCount (hm : m.memWf) (h : Handle) (f : Nat → Nat) : (mapCount h f m).memWf := by
  cases h with
  | inner i => exact hm.setInner i _
  | root b => exact hm
  | leaf p => exact hm

theorem initSlide (P : Params) (hm : m.memWf) : (initSlide P m).memWf := by
  obtain ⟨htext, -, hinners, -⟩ := hm
  exact ⟨htext, wf_nil _, hinners, rising_nil⟩

theorem clampLen (hm : m.memWf) : (clampLen m).memWf := by
  unfold Machine.clampLen
  split <;> exact hm

/-! Insertion (43_match_finder.md R307-R318) -/

theorem makeChild (hm : m.memWf) (q : Handle) (c : Byte) (r : Handle) : (makeChild q c r m).memWf := by
  have hcount := ((hm.setChild q c r).setLink r (some q) c).mapCount q (· + 1)
  dsimp only [Machine.makeChild]
  split
  · exact hcount.setSucc _ _
  · exact hcount

theorem split (hm : m.memWf) (old : Handle) : (split old m).both memWf := by
  unfold Machine.split
  split
  · next i pool q hpool hq =>
    have htaken : MatchFinder.memWf { m with freepool := pool } := hm
    exact (((htaken.setChild q _ _).setInner i _).makeChild _ _ _).makeChild _ _ _
  · exact hm

theorem replace (hm : m.memWf) (q r : Handle) : (replace q r m).memWf := by
  have hleaf : (Machine.setSucc m.pos none (Machine.setLink (.leaf m.pos) (some q) (edgeOf m r)
      (Machine.setChild q (edgeOf m r) (.leaf m.pos) m))).memWf :=
    ((hm.setChild q _ _).setLink _ _ _).setSucc _ _
  cases r with
  | leaf p => exact hleaf.setLeaf p _
  | inner i => exact hleaf.clearParent _
  | root b => exact hleaf

theorem descend (P : Params) (fuel : Nat) (q r : Handle) (hm : m.memWf) : (descend P fuel q r m).both memWf := by
  induction fuel generalizing q r m with
  | zero => exact hm
  | succ fuel ih =>
    obtain ⟨mp, ml, mismatch, hturn⟩ := descend_succ P fuel q r m
    have hmatch : MatchFinder.memWf { m with matchpos := mp, matchlen := ml } := hm
    rw [hturn]
    refine .ite (hmatch.split r) (.ite (hmatch.replace q r) ?_)
    have hpos := hmatch.setPosition r (.fresh m.pos)
    dsimp only [descendBelow]
    split
    · exact hpos.makeChild _ _ _
    · exact ih _ _ hpos

theorem percolate (fuel : Nat) (q : Option Handle) (hm : m.memWf) : (percolate fuel q m).memWf := by
  induction fuel generalizing q m with
  | zero => exact hm
  | succ fuel ih =>
    rcases q with _ | ⟨b | i | p⟩
    · exact hm
    · exact hm
    · rw [Machine.percolate]
      split
      · exact ih _ (hm.setPosition _ _)
      · exact hm.setPosition _ _
    · exact hm

theorem resumeStart (P : Params) (hm : m.memWf) :
    (∀ m', resumeStart P m = .error m' → m'.memWf) ∧ ∀ m' q r, resumeStart P m = .ok (m', q, r) → m'.memWf := by
  have hlen : MatchFinder.memWf { m with matchlen := m.matchlen - 1 } := hm
  dsimp only [Machine.resumeStart]
  split
  · exact ⟨fun m' h => by cases h; exact hlen, nofun⟩
  · split
    · exact ⟨fun m' h => by cases h; exact hlen, nofun⟩
    · exact ⟨nofun, fun m' q r h => by cases h; exact hlen.percolate _ _⟩

theorem insertNode (P : Params) (hm : m.memWf) : (insertNode P m).both memWf := by
  refine .ite ?_ ?_
  · obtain ⟨herror, hok⟩ := hm.resumeStart P
    split
    · exact herror _ ‹_›
    · exact (hok _ _ _ ‹_›).descend P _ _ _
  · dsimp only
    split
    · exact hm.makeChild _ _ _
    · exact descend P _ _ _ hm

/-! Deletion (R320-R323) -/

theorem percolateDelete (P : Params) (fuel : Nat) (q : Option Handle) (s : Nat) (hm : m.memWf) :
    (percolateDelete P fuel q s m).memWf := by
  induction fuel generalizing q s m with
  | zero => exact hm
  | succ fuel ih =>
    rcases q with _ | ⟨b | i | p⟩
    · exact hm
    · exact hm
    · dsimp only [Machine.percolateDelete]
      split
      · exact ih _ _ (hm.setPosition _ _)
      · exact hm.setPosition _ _
    · exact hm

theorem splice (P : Params) (i : Nat) (hm : m.memWf) : (splice P i m).both memWf := by
  have hperc := hm.percolateDelete P P.dicSiz (parentOf m (.inner i)) (actual P m (innerRec m i).position.value)
  dsimp only [Machine.splice]
  split
  · exact (((hperc.dropChild _ _).setChild _ _ _).setLink _ _ _).clearParent _
  · exact hperc

theorem deleteNode (P : Params) (hm : m.memWf) : (deleteNode P m).both memWf := by
  dsimp only [Machine.deleteNode]
  split
  · exact hm
  · next r hr =>
    have hgone := (hm.dropChild r (edgeOf m (.leaf m.pos))).clearParent (.leaf m.pos)
    cases r with
    | inner i => exact .ite (hgone.mapCount _ _) ((hgone.mapCount _ _).splice P i)
    | root b => exact hgone
    | leaf p => exact hgone

end MatchFinder.memWf

/-! ### MakeTree's and MakeCode's memories (R93, R94) -/

theorem wf_ite {α : Type} [DecidableEq α] {d : α} {c : Prop} [Decidable c] {a b : Memory α}
    (ha : Memory.wf d a = true) (hb : Memory.wf d b = true) : Memory.wf d (if c then a else b) = true := by
  split
  · exact ha
  · exact hb

theorem wf_downHeapLoop (fr : Nat → Nat) (size k fuel i : Nat) {h : Memory Nat} (hh : Memory.wf 0 h = true) :
    Memory.wf 0 (downHeapLoop fr size k fuel i h) = true := by
  induction fuel generalizing i h with
  | zero => exact wf_memWrite hh i k
  | succ fuel ih =>
    exact wf_ite (wf_ite (wf_memWrite hh _ _) (ih _ (wf_memWrite hh _ _))) (wf_memWrite hh _ _)

theorem wf_downHeap (fr : Nat → Nat) (size i : Nat) {h : Memory Nat} (hh : Memory.wf 0 h = true) :
    Memory.wf 0 (downHeap fr size i h) = true :=
  wf_downHeapLoop fr size _ size i hh

theorem wf_heapify (fr : Nat → Nat) (size i : Nat) {h : Memory Nat} (hh : Memory.wf 0 h = true) :
    Memory.wf 0 (heapify fr size i h) = true := by
  induction i generalizing h with
  | zero => exact hh
  | succ i ih => exact ih (wf_downHeap fr size (i + 1) hh)

theorem wf_fillHeap (n : Nat) (f : Nat → Nat) {h : Memory Nat} (hh : Memory.wf 0 h = true) :
    Memory.wf 0 (fillHeap n f h).1 = true := by
  refine List.foldlRecOn (motive := fun acc : Memory Nat × Nat => Memory.wf 0 acc.1 = true) (List.range n) _
    (wf_memWrite hh 1 0) ?_
  intro acc hacc i _
  split
  · exact wf_memWrite hacc _ _
  · exact hacc

theorem mergeNodes_memWf (n : Nat) (f : Nat → Nat) (fuel size avail : Nat) {s : TreeScratch} (hs : s.memWf) :
    (mergeNodes n f fuel size avail s).2.memWf := by
  induction fuel generalizing size avail s with
  | zero => exact hs
  | succ fuel ih =>
    obtain ⟨hheap, hfreq, hleft, hright, hcnt⟩ := hs
    have hheap' := fun fr fr' x y => wf_downHeap fr (size - 1) 1
      (wf_memWrite (wf_downHeap fr' (size - 1) 1 (wf_memWrite hheap 1 x)) 1 y)
    dsimp only [mergeNodes]
    split
    · exact ⟨hheap' _ _ _ _, wf_memWrite hfreq _ _, wf_memWrite hleft _ _, wf_memWrite hright _ _, hcnt⟩
    · exact ih _ _ ⟨hheap' _ _ _ _, wf_memWrite hfreq _ _, wf_memWrite hleft _ _, wf_memWrite hright _ _, hcnt⟩

theorem wf_countLen (n : Nat) (left right : Memory Nat) (fuel x d : Nat) {cnt : Memory Nat}
    (hcnt : Memory.wf 0 cnt = true) : Memory.wf 0 (countLen n left right fuel x d cnt) = true := by
  induction fuel generalizing x d cnt with
  | zero => exact hcnt
  | succ fuel ih =>
    exact wf_ite (wf_memWrite hcnt _ _) (ih _ _ (ih _ _ hcnt))

theorem wf_limitLens (fuel cum : Nat) {cnt : Memory Nat} (hcnt : Memory.wf 0 cnt = true) :
    (limitLens fuel cum cnt).both fun c => Memory.wf 0 c = true := by
  induction fuel generalizing cum cnt with
  | zero =>
    unfold limitLens
    exact .ite hcnt (wf_memWrite hcnt _ _)
  | succ fuel ih =>
    unfold limitLens
    refine .ite hcnt ?_
    have hcnt1 := wf_memWrite hcnt 16 (memRead 0 cnt 16 - 1)
    cases hlongest : longestBelow (memWrite 0 cnt 16 (memRead 0 cnt 16 - 1)) 15 with
    | none => simpa only [hlongest] using .error hcnt1
    | some i => simpa only [hlongest] using ih _ (wf_memWrite (wf_memWrite hcnt1 _ _) _ _)

theorem wf_assignLens (sortlist : List Nat) (cnt : Memory Nat) {len : Memory Len} (hlen : Memory.wf 0 len = true) :
    Memory.wf 0 (assignLens sortlist cnt len) = true :=
  wf_foldl _ (fun _ _ h => wf_memWrite h _ _) _ hlen

theorem wf_makeCode {n : Nat} {len : Nat → Nat} {code : Memory Half} (h : makeCode n len = some code) :
    Memory.wf 0 code = true := by
  dsimp only [makeCode] at h
  split at h
  · cases h
  · cases h
    refine List.foldlRecOn (motive := fun acc : Memory Nat × Memory Half => Memory.wf 0 acc.2 = true) (List.range n) _
      (wf_nil 0) ?_
    intro acc hacc i _
    split
    · exact wf_memWrite hacc _ _
    · exact hacc

/-- Every memory MakeTree gives is in canonical form. -/
structure TreeOut.MemWf (t : TreeOut) : Prop where
  len : Memory.wf 0 t.len = true
  code : Memory.wf 0 t.code = true
  scratch : t.scratch.memWf

theorem makeTree_memWf (n : Nat) (f : Nat → Nat) {s : TreeScratch} (hs : s.memWf) : (makeTree n f s).MemWf := by
  obtain ⟨hheap, hfreq, hleft, hright, hcnt⟩ := hs
  have hfill := wf_fillHeap n f hheap
  refine iteInduction (motive := TreeOut.MemWf)
    (fun _ => ⟨wf_nil 0, wf_nil 0, hfill, hfreq, hleft, hright, hcnt⟩) fun _ => ?_
  have hmerged := mergeNodes_memWf n f (fillHeap n f s.heap).2 (fillHeap n f s.heap).2 n
    (s := { s with
      heap := heapify (nodeFreq n f s.freq) (fillHeap n f s.heap).2 ((fillHeap n f s.heap).2 / 2)
        (fillHeap n f s.heap).1
      sortlist := [] })
    ⟨wf_heapify _ _ _ hfill, hfreq, hleft, hright, hcnt⟩
  obtain ⟨hheap', hfreq', hleft', hright', -⟩ := hmerged
  split
  · next cnt1 hcnt1 =>
    exact ⟨wf_nil 0, wf_nil 0, hheap', hfreq', hleft', hright',
      (wf_limitLens _ _ (wf_countLen _ _ _ _ _ _ (wf_nil 0))).of_error hcnt1⟩
  · next cnt1 hcnt1 =>
    have hcnt1' := (wf_limitLens _ _ (wf_countLen _ _ _ _ _ _ (wf_nil 0))).of_ok hcnt1
    dsimp only
    split
    · exact ⟨wf_assignLens _ _ (wf_nil 0), wf_nil 0, hheap', hfreq', hleft', hright', hcnt1'⟩
    · next code hcode =>
      exact ⟨wf_assignLens _ _ (wf_nil 0), wf_makeCode hcode, hheap', hfreq', hleft', hright', hcnt1'⟩

/-! ### The token buffer and the counts (R93, R94) -/

namespace EncBlock.memWf

variable {e : EncBlock}

theorem cFreq (he : e.memWf) : Memory.wf 0 e.cFreq = true := by obtain ⟨⟨hc, -⟩, -⟩ := he; exact hc
theorem pFreq (he : e.memWf) : Memory.wf 0 e.pFreq = true := by obtain ⟨⟨-, hp, -⟩, -⟩ := he; exact hp
theorem buf (he : e.memWf) : Memory.wf 0 e.buf = true := by obtain ⟨⟨-, -, hbuf, -⟩, -⟩ := he; exact hbuf
theorem scratch (he : e.memWf) : e.scratch.memWf := by obtain ⟨-, -, hscratch⟩ := he; exact hscratch

/-- The token buffer and the counts replaced. -/
theorem counted (he : e.memWf) {cFreq pFreq : Memory Half} {buf : Memory Byte} (hc : Memory.wf 0 cFreq = true)
    (hp : Memory.wf 0 pFreq = true) (hbuf : Memory.wf 0 buf = true) (bufpos cpos : Nat) (flagmask : Byte) :
    EncBlock.memWf { e with
      cFreq := cFreq, pFreq := pFreq, buf := buf, bufpos := bufpos, cpos := cpos, flagmask := flagmask } := by
  obtain ⟨⟨-, -, -, hclen, hccode⟩, hcodes, hscratch⟩ := he
  exact ⟨⟨hc, hp, hbuf, hclen, hccode⟩, hcodes, hscratch⟩

theorem recordToken (he : e.memWf) (c p : Nat) : (recordToken c p e).memWf := by
  have hcount := wf_memWrite he.cFreq c (memRead 0 e.cFreq c + 1)
  have hbyte := wf_memWrite he.buf e.bufpos (BitVec.ofNat 8 c)
  dsimp only [Machine.recordToken]
  split
  · exact he.counted hcount he.pFreq hbyte _ _ _
  · exact he.counted hcount (wf_memWrite he.pFreq _ _)
      (wf_memWrite (wf_memWrite (wf_memWrite hbyte _ _) _ _) _ _) _ _ _

theorem openGroup (he : e.memWf) : (openGroup e).memWf :=
  he.counted he.cFreq he.pFreq (wf_memWrite he.buf _ _) _ _ _

theorem cTree (he : e.memWf) {t : TreeOut} (ht : t.MemWf) :
    EncBlock.memWf { e with cLen := t.len, cCode := t.code, scratch := t.scratch } := by
  obtain ⟨⟨hc, hp, hbuf, -⟩, hcodes, -⟩ := he
  exact ⟨⟨hc, hp, hbuf, ht.len, ht.code⟩, hcodes, ht.scratch⟩

theorem tTree (he : e.memWf) {t : TreeOut} {tf : Memory Half} (htf : Memory.wf 0 tf = true) (ht : t.MemWf) :
    EncBlock.memWf { e with tFreq := tf, tLen := t.len, tCode := t.code, scratch := t.scratch } := by
  obtain ⟨hmain, ⟨-, -, -, hp⟩, -⟩ := he
  exact ⟨hmain, ⟨htf, ht.len, ht.code, hp⟩, ht.scratch⟩

theorem pTree (he : e.memWf) {t : TreeOut} (ht : t.MemWf) :
    EncBlock.memWf { e with pLen := t.len, pCode := t.code, scratch := t.scratch } := by
  obtain ⟨hmain, ⟨htf, htl, htc, -⟩, -⟩ := he
  exact ⟨hmain, ⟨htf, htl, htc, ht.len, ht.code⟩, ht.scratch⟩

/-- MakeTree on the block's scratch. -/
theorem makeTree (he : e.memWf) (n : Nat) (f : Nat → Nat) : (makeTree n f e.scratch).MemWf :=
  makeTree_memWf n f he.scratch

end EncBlock.memWf

theorem wf_countTFreq (P : Params) (len : Nat → Nat) : Memory.wf 0 (countTFreq P len) = true :=
  wf_foldl _ (fun _ _ h => wf_memWrite h _ _) _ (wf_nil 0)

/-! ### The decode tables (R95) -/

/-- Every memory of a table under construction has rising addresses. -/
structure TableBuild.MemWf (b : TableBuild) : Prop where
  lookup : Memory.rising b.lookup = true
  left : Memory.rising b.left = true
  right : Memory.rising b.right = true

namespace TableBuild.MemWf

variable {b : TableBuild}

theorem slotPut (hb : b.MemWf) (v : Half) (slot : Slot) : (slotPut b v slot).MemWf := by
  cases slot with
  | entry i => exact { hb with lookup := rising_cellPut hb.lookup i v }
  | left i => exact { hb with left := rising_cellPut hb.left i v }
  | right i => exact { hb with right := rising_cellPut hb.right i v }

theorem slotNode (hb : b.MemWf) (slot : Slot) : (slotNode b slot).1.MemWf := by
  unfold Machine.slotNode
  split
  · exact hb
  · have hfresh : TableBuild.MemWf { b with
        left := cellDrop b.left b.avail, right := cellDrop b.right b.avail, avail := b.avail + 1 } :=
      ⟨hb.lookup, rising_cellDrop hb.left _, rising_cellDrop hb.right _⟩
    exact hfresh.slotPut _ slot

theorem walkSlot (hb : b.MemWf) (mask steps : Nat) (slot : Slot) (code : Nat) :
    (walkSlot mask steps b slot code).1.MemWf := by
  induction steps generalizing b slot code with
  | zero => exact hb
  | succ steps ih => exact ih (hb.slotNode slot) _ _

theorem addSymbol (hb : b.MemWf) (tb ch k : Nat) : (addSymbol tb ch k b).MemWf := by
  dsimp only [Machine.addSymbol]
  split
  · exact hb
  · split
    · exact ⟨rising_cellFill hb.lookup _ _ _, hb.left, hb.right⟩
    · obtain ⟨hlookup, hleft, hright⟩ := (hb.walkSlot (15 - tb) (k - tb) _ _).slotPut _ _
      exact ⟨hlookup, hleft, hright⟩

theorem foldl_addSymbol (hb : b.MemWf) (tb : Nat) (len : Nat → Nat) (symbols : List Nat) :
    (symbols.foldl (fun b ch => Machine.addSymbol tb ch (len ch) b) b).MemWf :=
  List.foldlRecOn (motive := TableBuild.MemWf) symbols _ hb fun _ hb ch _ => hb.addSymbol tb ch (len ch)

end TableBuild.MemWf

theorem Table.memWf.coded {b : TableBuild} (hb : b.MemWf) : (Table.coded b.lookup b.left b.right).memWf :=
  ⟨hb.lookup, hb.left, hb.right⟩

theorem makeTable_memWf {nchar tb : Nat} {len : Nat → Nat} {tab : Table} (h : makeTable nchar len tb = some tab) :
    tab.memWf := by
  dsimp only [makeTable] at h
  split at h
  · cases h
  · cases h
    exact .coded (.foldl_addSymbol ⟨rising_nil, rising_nil, rising_nil⟩ tb len _)

/-! ### The decoder's lengths and window (R95, R96) -/

namespace DecBlock.memWf

variable {d : DecBlock}

theorem cLens (hd : d.memWf) : Memory.wf 0 d.cLen = true := by obtain ⟨⟨hc, -⟩, -⟩ := hd; exact hc

theorem ptLens (hd : d.memWf) (w : PtKind) : Memory.wf 0 (ptLens w d) = true := by
  obtain ⟨⟨-, ht, hp, -⟩, -⟩ := hd
  cases w with
  | t => exact ht
  | p => exact hp

theorem setPtLens (hd : d.memWf) (w : PtKind) {m : Memory Len} (hm : Memory.wf 0 m = true) :
    (setPtLens w m d).memWf := by
  obtain ⟨⟨hc, ht, hp, hwin⟩, htabs⟩ := hd
  cases w with
  | t => exact ⟨⟨hc, hm, hp, hwin⟩, htabs⟩
  | p => exact ⟨⟨hc, ht, hm, hwin⟩, htabs⟩

theorem setPtTable (hd : d.memWf) (w : PtKind) {tab : Table} (htab : tab.memWf) : (setPtTable w tab d).memWf := by
  obtain ⟨hlens, hc, ht, hp⟩ := hd
  cases w with
  | t => exact ⟨hlens, hc, htab, hp⟩
  | p => exact ⟨hlens, hc, ht, htab⟩

theorem cLen (hd : d.memWf) {m : Memory Len} (hm : Memory.wf 0 m = true) : DecBlock.memWf { d with cLen := m } := by
  obtain ⟨⟨-, hlens⟩, htabs⟩ := hd
  exact ⟨⟨hm, hlens⟩, htabs⟩

theorem cTab (hd : d.memWf) {tab : Table} (htab : tab.memWf) : DecBlock.memWf { d with cTab := tab } := by
  obtain ⟨hlens, -, htabs⟩ := hd
  exact ⟨hlens, htab, htabs⟩

theorem dwin (hd : d.memWf) (a : Nat) (v : Byte) (outcount : Quad) :
    DecBlock.memWf { d with dwin := memWrite 0 d.dwin a v, outcount := outcount } := by
  obtain ⟨⟨hc, ht, hp, hwin⟩, htabs⟩ := hd
  exact ⟨⟨hc, ht, hp, wf_memWrite hwin a v⟩, htabs⟩

end DecBlock.memWf

end Sys2Proof.Machine
end

section
/-! PROOFS. Every operation of the sequencer, every command and every host turn keeps the internal memories in canonical
form, so every step does. -/

namespace Sys2Proof.Machine

/-! ### Operations (R91-R96) -/

theorem reset_memories :
    MatchFinder.reset.memWf ∧ EncBlock.reset.memWf ∧ DecBlock.reset.memWf := by
  unfold MatchFinder.memWf EncBlock.memWf TreeScratch.memWf DecBlock.memWf
  exact ⟨by decide, by decide, by decide, trivial, trivial, trivial⟩

namespace State.memWf

variable {s u : State}

/-- The memories are the match finder's, the encoder's and the decoder's. -/
theorem congr (hs : s.memWf) (hmf : u.mf = s.mf) (henc : u.enc = s.enc) (hdec : u.dec = s.dec) : u.memWf := by
  rw [State.memWf, hmf, henc, hdec]; exact hs

theorem push {ts : List Task} (hs : s.memWf) : (push ts s).memWf :=
  hs.congr (push_mf ts s) (push_enc ts s) (push_dec ts s)

theorem raise (hs : s.memWf) (k : ErrKind) : (raise k s).memWf := hs

theorem ite {c : Prop} [Decidable c] {a b : State} (ha : a.memWf) (hb : b.memWf) :
    (if c then a else b : State).memWf := by
  split
  · exact ha
  · exact hb

theorem mf (hs : s.memWf) : s.mf.memWf := hs.1
theorem enc (hs : s.memWf) : s.enc.memWf := hs.2.1
theorem dec (hs : s.memWf) : s.dec.memWf := hs.2.2

theorem withMf (hs : s.memWf) {m : MatchFinder} (hm : m.memWf) : State.memWf { s with mf := m } := ⟨hm, hs.2⟩

theorem withEnc (hs : s.memWf) {e : EncBlock} (he : e.memWf) : State.memWf { s with enc := e } := by
  obtain ⟨hmf, -, hdec⟩ := hs
  exact ⟨hmf, he, hdec⟩

theorem withDec (hs : s.memWf) {d : DecBlock} (hd : d.memWf) : State.memWf { s with dec := d } := by
  obtain ⟨hmf, henc, -⟩ := hs
  exact ⟨hmf, henc, hd⟩

theorem withText (hs : s.memWf) {text : Memory Byte} (ht : Memory.wf 0 text = true) :
    State.memWf { s with mf := { s.mf with text := text } } :=
  hs.withMf ⟨ht, hs.mf.2⟩

theorem srcRead {b : Byte} (hs : s.memWf) (h : srcRead s = .ok (b, u)) : u.memWf := by
  rw [(srcRead_eq_ok.mp h).2]; exact hs

theorem snkWrite {b : Byte} (hs : s.memWf) (h : snkWrite b s = .ok u) : u.memWf := by
  rw [(snkWrite_eq_ok.mp h).2]; exact hs

/-! The bitstream unit -/

theorem emitByte {b : Byte} (hs : s.memWf) (h : emitByteTask b s = .ok u) : u.memWf := by
  rw [emitByteTask_frame h]; exact hs

theorem fillLoop {n : Nat} (hs : s.memWf) (h : fillLoopTask n s = .ok u) : u.memWf := by
  dsimp only [fillLoopTask] at h
  split at h
  · split at h
    · cases h
    · next b v hv =>
      cases h
      refine State.memWf.push ?_
      rw [fetchByte_frame hv]; exact hs
  · cases h; exact hs

/-! ENCODE -/

theorem readSrc {off i k : Nat} (hs : s.memWf) (h : readSrcTask off i k s = .ok u) : u.memWf := by
  unfold readSrcTask at h
  split at h
  · split at h
    · cases h
    · next b v hv =>
      cases h
      have hv := hs.srcRead hv
      exact State.memWf.push (hv.withText (wf_memWrite hv.mf.text _ _))
  · cases h; exact hs

theorem storeCopy {n : Nat} (hs : s.memWf) (h : storeCopyTask n s = .ok u) : u.memWf := by
  unfold storeCopyTask at h
  split at h
  · cases h; exact hs
  · split at h
    · cases h
    · next hv =>
      have hv := hs.srcRead hv
      cases h
      refine State.memWf.push ?_
      exact hv

theorem runMatchFinder {f : MatchFinder → Checked MatchFinder} (hs : s.memWf)
    (hf : (f s.mf).both MatchFinder.memWf) : (runMatchFinder f s).memWf := by
  unfold Machine.runMatchFinder
  split
  · exact hs.withMf (hf.of_ok ‹_›)
  · exact hs.withMf (hf.of_error ‹_›)

theorem encodeInit (P : Params) (hs : s.memWf) : (encodeInitTask P s).memWf := by
  have htext : MatchFinder.memWf { s.mf with nread := 0, text := [] } := ⟨wf_nil 0, hs.mf.2⟩
  have hcounts := hs.enc.counted (wf_nil 0) (wf_nil 0) hs.enc.buf 0 0 0
  exact State.memWf.push ⟨htext.initSlide P, hcounts, hs.dec⟩

theorem getNextMatch (P : Params) (hs : s.memWf) : (getNextMatchTask P s).memWf := by
  refine .ite (.push ?_) (.push ?_)
  · exact hs.withText (wf_slideText P hs.mf.text)
  · exact hs

theorem output (P : Params) (c p : Nat) (hs : s.memWf) : (outputTask P c p s).memWf := by
  have hmask : ∀ mask, EncBlock.memWf { s.enc with flagmask := mask } := fun _ => hs.enc
  exact .ite (hs.withEnc ((hmask _).recordToken c p))
    (.ite (hs.withEnc (hmask _)).push (hs.withEnc ((hmask _).openGroup.recordToken c p)))

theorem outputAfterBlock (c p : Nat) (hs : s.memWf) : (outputAfterBlockTask c p s).memWf := by
  have hempty : EncBlock.memWf { s.enc with bufpos := 0 } := hs.enc
  exact .ite hs (hs.withEnc (hempty.openGroup.recordToken c p))

theorem sendBlock (P : Params) (hs : s.memWf) : (sendBlockTask P s).memWf := by
  have htree := hs.withEnc (hs.enc.cTree (hs.enc.makeTree P.nc (halfAt s.enc.cFreq)))
  exact .ite htree.push htree

theorem sendTables (P : Params) (root : Nat) (hs : s.memWf) : (sendTablesTask P root s).memWf := by
  have htree := hs.withEnc (hs.enc.tTree (wf_countTFreq P (lenAt s.enc.cLen))
    (hs.enc.makeTree P.nt (halfAt (countTFreq P (lenAt s.enc.cLen)))))
  exact .ite (.ite htree.push htree) hs.push

theorem sendPTable (P : Params) (hs : s.memWf) : (sendPTableTask P s).memWf := by
  have htree := hs.withEnc (hs.enc.pTree (hs.enc.makeTree P.np (halfAt s.enc.pFreq)))
  exact .ite htree.push htree

theorem sendToken (size t k : Nat) (flags : Byte) (hs : s.memWf) : (sendTokenTask size t k flags s).memWf := by
  have hclear :=
    hs.withEnc (hs.enc.counted (wf_nil 0) (wf_nil 0) hs.enc.buf s.enc.bufpos s.enc.cpos s.enc.flagmask)
  exact .ite (.ite hs.push hs.push) hclear

/-! DECODE -/

theorem outByte {P : Params} {b : Byte} (hs : s.memWf) (h : outByteTask P b s = .ok u) : u.memWf := by
  unfold outByteTask at h
  split at h
  · cases h
  · next v hv =>
    cases h
    have hv := hs.snkWrite hv
    exact State.memWf.withDec (s := crcUpdate b v) hv (hv.dec.dwin _ _ _)

theorem storedCopy {n : Nat} (hs : s.memWf) (h : storedCopyTask n s = .ok u) : u.memWf := by
  unfold storedCopyTask at h
  split at h
  · cases h; exact hs
  · split at h
    · cases h
    · next hv =>
      have hv := hs.srcRead hv
      cases h
      refine State.memWf.push ?_
      exact hv

theorem decodeInit (hs : s.memWf) : (decodeInitTask s).memWf := by
  refine .ite (.push ?_) (.ite hs (.push ?_)) <;> exact hs

theorem tableDecode (hs : s.memWf) (tab : Table) (len : Memory Len) (tb nchar : Nat) (next : Nat → Task) :
    (tableDecode tab len tb nchar next s).memWf := by
  unfold Machine.tableDecode
  split
  · exact hs
  · split
    · exact hs.push
    · exact hs.push

theorem writePtLenAt (hs : s.memWf) (w : PtKind) (i k : Nat) : (writePtLenAt w i k s).memWf :=
  hs.withDec (hs.dec.setPtLens w (wf_memWrite (hs.dec.ptLens w) _ _))

theorem zeroPtFrom (hs : s.memWf) (w : PtKind) (i nn : Nat) : (zeroPtFrom w i nn s).memWf :=
  hs.withDec (hs.dec.setPtLens w (wf_zeroLens (hs.dec.ptLens w) i nn))

theorem writeCLenAt (hs : s.memWf) (i k : Nat) : (writeCLenAt i k s).memWf :=
  hs.withDec (hs.dec.cLen (wf_memWrite hs.dec.cLens _ _))

theorem zeroCFrom (hs : s.memWf) (i nc : Nat) : (zeroCFrom i nc s).memWf :=
  hs.withDec (hs.dec.cLen (wf_zeroLens hs.dec.cLens i nc))

theorem ptConst (P : Params) (w : PtKind) (c : Nat) (hs : s.memWf) : (ptConstTask P w c s).memWf := by
  have hzero := hs.zeroPtFrom w 0 (ptAlphabet P w)
  exact .ite hs (hzero.withDec (hzero.dec.setPtTable w trivial))

theorem ptLoop (P : Params) (w : PtKind) (n i : Nat) (hs : s.memWf) : (ptLoopTask P w n i s).memWf := by
  have hzero := hs.zeroPtFrom w i (ptAlphabet P w)
  refine .ite (.ite hs hs.push) ?_
  dsimp only
  split
  · exact hzero
  · exact hzero.withDec (hzero.dec.setPtTable w (makeTable_memWf ‹_›))

theorem ptLen (w : PtKind) (n i k : Nat) (hs : s.memWf) : (ptLenTask w n i k s).memWf := by
  have hwrite := hs.writePtLenAt w i k
  exact .ite hwrite.push hwrite.push

theorem ptSkip (P : Params) (w : PtKind) (n i z : Nat) (hs : s.memWf) : (ptSkipTask P w n i z s).memWf := by
  cases z with
  | zero => exact hs.push
  | succ z => exact .ite hs (hs.writePtLenAt w i 0).push

theorem cConst (P : Params) (c : Nat) (hs : s.memWf) : (cConstTask P c s).memWf := by
  have hzero := hs.zeroCFrom 0 P.nc
  exact .ite hs (hzero.withDec (hzero.dec.cTab trivial))

theorem cLoop (P : Params) (n i : Nat) (hs : s.memWf) : (cLoopTask P n i s).memWf := by
  have hzero := hs.zeroCFrom i P.nc
  refine .ite (hs.tableDecode _ _ _ _ _) ?_
  dsimp only
  split
  · exact hzero
  · exact hzero.withDec (hzero.dec.cTab (makeTable_memWf ‹_›))

theorem cSym (P : Params) (n i y : Nat) (hs : s.memWf) : (cSymTask P n i y s).memWf :=
  .ite hs.push (.ite hs.push (.ite hs.push (hs.writeCLenAt i (y - 2)).push))

theorem cRun (P : Params) (n i r : Nat) (hs : s.memWf) : (cRunTask P n i r s).memWf := by
  cases r with
  | zero => exact hs.push
  | succ r => exact .ite hs (hs.writeCLenAt i 0).push

/-! Every operation -/

theorem runTask {P : Params} {t : Task} (hs : s.memWf) (h : runTask P t s = .ok u) : u.memWf := by
  cases t <;> simp only [Machine.runTask, Except.ok.injEq] at h <;> try subst h
  -- the bitstream unit
  case putBits n x =>
    cases n with
    | zero => exact hs
    | succ n => refine .ite (.push ?_) (.push ?_) <;> exact hs
  case emitByte b => exact hs.emitByte h
  case advance n => refine .ite hs (.push ?_); exact hs
  case fill n => refine State.memWf.push ?_; exact hs
  case fillLoop n => exact hs.fillLoop h
  -- ENCODE
  case encodeInit => exact hs.encodeInit P
  case readSrc off i k => exact hs.readSrc h
  case encodeFirst k => refine State.memWf.push ?_; exact hs
  case clampMatch => exact hs.withMf hs.mf.clampLen
  case encodeLoop => refine .ite (.push ?_) hs; exact hs
  case chooseToken => exact .ite hs.push hs.push
  case skipMatch n =>
    cases n with
    | zero => exact hs.push
    | succ n => exact hs.push
  case getNextMatch => exact hs.getNextMatch P
  case deleteNode => exact hs.runMatchFinder (hs.mf.deleteNode P)
  case insertNode => exact hs.runMatchFinder (hs.mf.insertNode P)
  case output c p => exact hs.output P c p
  case outputAfterBlock c p => exact hs.outputAfterBlock c p
  case sendBlock => exact hs.sendBlock P
  case sendTables root => exact hs.sendTables P root
  case sendPTable => exact hs.sendPTable P
  case sendToken size k j fl => exact hs.sendToken size k j fl
  case sendNext size k j fl => exact .ite hs hs.push
  case hufEncodeEnd => exact .ite hs hs.push
  case encodeEnd => exact .ite hs.push hs
  case snkDiscard => rw [(snkDiscard_eq_ok.mp h).2]; exact hs
  case srcRewind => rw [(srcRewind_eq_ok.mp h).2]; exact hs
  case storeCopy n => exact hs.storeCopy h
  case storeWrite b => exact hs.snkWrite h
  -- DECODE
  case decodeInit => exact hs.decodeInit
  case storedCopy n => exact hs.storedCopy h
  case decodeLoop => exact .ite hs.push hs
  case outByte b => exact hs.outByte h
  case decodeC => exact .ite hs.push hs.push
  case decodeSym => refine State.memWf.tableDecode ?_ _ _ _ _ _; exact hs
  case gotC c => exact .ite hs.push hs.push
  case decodeP len => exact hs.tableDecode _ _ _ _ _
  case gotP len j => exact .ite hs.push hs.push
  case copyMatch j p => exact .ite hs hs.push
  case copyLoop j c => exact .ite hs.push hs
  case decodeFinish =>
    exact hs.congr (checkCrc_mf _ _) (checkCrc_enc _ _) (checkCrc_dec _ _)
  case readHeader => exact hs.push
  case gotSize x => refine .ite hs (.push ?_); exact hs
  case readPt w => exact hs.push
  case ptCount w n => exact .ite hs.push (.ite hs hs.push)
  case ptConst w c => exact hs.ptConst P w c
  case ptLoop w n i => exact hs.ptLoop P w n i
  case ptLen w n i k => exact hs.ptLen w n i k
  case ptSkip w n i z => exact hs.ptSkip P w n i z
  case readC => exact hs.push
  case cCount n => exact .ite hs.push (.ite hs hs.push)
  case cConst c => exact hs.cConst P c
  case cLoop n i => exact hs.cLoop P n i
  case cSym n i y => exact hs.cSym P n i y
  case cRun n i r => exact hs.cRun P n i r
  -- those that touch no memory and leave nothing to do
  all_goals exact hs

/-! ### Runs, commands, host turns -/

theorem endIfDone (hs : s.memWf) : (endIfDone s).memWf := by
  unfold Machine.endIfDone
  split <;> exact hs

theorem seqStep {P : Params} (hs : s.memWf) (h : seqStep P s = .ran u) : u.memWf := by
  obtain ⟨cmd, -, rfl⟩ | ⟨cmd, t, todo, s1, -, ht, rfl⟩ := seqStep_cases h
  · exact hs
  · exact (State.memWf.runTask (s := { s with phase := .run cmd todo }) hs ht).endIfDone

theorem settle (P : Params) (hs : s.memWf) : (settle P s).memWf :=
  runSeq_induct P (fun _ _ hu h => hu.seqStep h) _ s hs

theorem exec {i : Instr} (hs : s.memWf) (h : exec i s = .next u) : u.memWf := by
  cases hb : s.busy
  · rw [exec_idle i (idle_of_not_busy hb)] at h
    cases h
    refine State.memWf.settle _ ?_
    cases i <;> exact hs
  · rw [exec_busy i hb] at h
    cases h
    exact hs

theorem writeCmd {w : Word} (hs : s.memWf) (h : writeCmd w s = .next u) : u.memWf := by
  unfold Machine.writeCmd at h
  split at h
  · exact hs.exec h
  · cases h
    exact .ite hs hs

theorem resetBlock (s : State) : (resetBlock s).memWf := reset_memories

theorem writeReg (hs : s.memWf) (o : BitVec 8) (v : Word) : (writeReg s o v).memWf := by
  have hoperand : ∀ f, (writeOperand f s).memWf := fun f => .ite hs hs
  unfold Machine.writeReg
  split
  · exact .ite (resetBlock s) (.ite hs hs)
  · exact hs
  iterate 6 exact hoperand _
  exact hs

theorem hostAct {a : HostAct} (hs : s.memWf) (h : hostAct a s = .next u) : u.memWf := by
  cases a <;> dsimp only [Machine.hostAct] at h
  case write bytes o v =>
    unfold hostWrite at h
    split at h
    · cases h
    · split at h
      · cases h; exact hs
      · split at h
        · exact hs.writeCmd h
        · cases h; exact (hs.writeReg o v).settle _
  case read bytes o =>
    unfold hostRead at h
    split at h
    · cases h
    · split at h
      · cases h; exact hs
      · cases h; exact State.memWf.settle _ hs
  case waitDone =>
    dsimp only [hostWait] at h
    split at h
    · cases h; exact hs
    · split at h
      · cases h; exact hs
      · cases h; exact State.memWf.settle _ hs
  case assertReset => cases h; exact resetBlock s
  case releaseReset =>
    split at h
    · cases h; exact resetBlock s
    · cases h; exact hs
  -- the host's side of the ports
  all_goals
    cases h
    exact State.memWf.settle _ hs

theorem step (hs : s.memWf) (h : step s = .next u) : u.memWf := by
  unfold Machine.step at h
  split at h
  · next turn rest _ => exact State.memWf.hostAct (s := { s with agenda := rest, pace := turn.pace }) hs h
  · unfold seqAlone at h
    split at h
    · cases h; exact hs
    · cases h
    · cases h; exact State.memWf.settle _ hs

end State.memWf

/-- Settles O42: a step is a host turn and operations of the sequencer, and each of them keeps every memory's form. -/
theorem stepKeepsMemories : Obligations.StepKeepsMemories := fun _ _ hs h => hs.step h

end Sys2Proof.Machine
end

section
/-! PROOFS. A stall of the host changes no result of a diagnostic command (60_exceptions.md R421): a host that offers
more lets the sequencer take the same steps, and a diagnostic command takes few of them. -/

namespace Sys2Proof.Machine

/-! ### A host that offers more -/

/-- The same block with another host's side of the ports. -/
def State.mapPort (g : Ports → Ports) (s : State) : State := { s with port := g s.port }

/-- With `g`'s ports every transfer that goes through still does, with the same byte (20_memory.md R98, R99), and the
sink is the same. -/
structure OffersMore (g : Ports → Ports) : Prop where
  mark (s : State) : markSink (s.mapPort g) = (markSink s).mapPort g
  read {s s' : State} {b : Byte} : srcRead s = .ok (b, s') → srcRead (s.mapPort g) = .ok (b, s'.mapPort g)
  write {s s' : State} {b : Byte} : snkWrite b s = .ok s' → snkWrite b (s.mapPort g) = .ok (s'.mapPort g)

/-- The host accepts every byte. -/
def acceptAll (p : Ports) : Ports := { p with room := none }

/-- The host presents further source bytes. -/
def supplyMore (bs : List Byte) (p : Ports) : Ports := { p with source := p.source ++ bs }

theorem offersMore_acceptAll : OffersMore acceptAll where
  mark _ := rfl
  read h := by
    obtain ⟨hb, rfl⟩ := srcRead_eq_ok.mp h
    exact srcRead_eq_ok.mpr ⟨hb, rfl⟩
  write h := by
    obtain ⟨-, rfl⟩ := snkWrite_eq_ok.mp h
    exact snkWrite_eq_ok.mpr ⟨nofun, rfl⟩

theorem offersMore_supplyMore (bs : List Byte) : OffersMore (supplyMore bs) where
  mark _ := rfl
  read {s s' b} h := by
    obtain ⟨hb, rfl⟩ := srcRead_eq_ok.mp h
    refine srcRead_eq_ok.mpr ⟨?_, rfl⟩
    show (s.port.source ++ bs)[s.port.taken]? = some b
    rw [List.getElem?_append_left (List.getElem?_eq_some_iff.mp hb).1, hb]
  write h := by
    obtain ⟨hroom, rfl⟩ := snkWrite_eq_ok.mp h
    exact snkWrite_eq_ok.mpr ⟨hroom, rfl⟩

/-! ### The same steps -/

/-- The sides of the diagnostic commands' operations (40_bitstream_crc.md section 5). -/
def diagnosticSide (d : Side) : Prop := d ≠ .encode ∧ d ≠ .decode

/-- The operations on those sides: the bitstream unit's, and BR_GET's write of RESULT. -/
theorem eq_of_diagnosticSide {t : Task} (ht : diagnosticSide t.side) :
    (∃ n x, t = .putBits n x) ∨ (∃ b, t = .emitByte b) ∨ (∃ n, t = .advance n) ∨ (∃ n, t = .fill n) ∨
      (∃ n, t = .fillLoop n) ∨ t = .clearAcc ∨ t = .brInitEnd ∨ ∃ v, t = .setResult v := by
  cases t <;> simp_all [diagnosticSide, Task.side]

@[simp] theorem mapPort_phase (g : Ports → Ports) (s : State) : (s.mapPort g).phase = s.phase := rfl

theorem push_mapPort (g : Ports → Ports) (ts : List Task) (s : State) :
    push ts (s.mapPort g) = (push ts s).mapPort g := by
  unfold push
  rw [mapPort_phase]
  split <;> rfl

theorem endIfDone_mapPort (g : Ports → Ports) (s : State) : endIfDone (s.mapPort g) = (endIfDone s).mapPort g := by
  unfold endIfDone
  rw [mapPort_phase]
  split <;> rfl

theorem putBitsTask_mapPort (g : Ports → Ports) (n x : Nat) (s : State) :
    putBitsTask n x (s.mapPort g) = (putBitsTask n x s).mapPort g := by
  cases n with
  | zero => rfl
  | succ n =>
    dsimp only [putBitsTask]
    rw [apply_ite (State.mapPort g), ← push_mapPort, ← push_mapPort]
    rfl

theorem fillTask_mapPort (g : Ports → Ports) (n : Nat) (s : State) :
    fillTask n (s.mapPort g) = (fillTask n s).mapPort g := by
  rw [fillTask, fillTask, ← push_mapPort]
  rfl

theorem advanceTask_mapPort (g : Ports → Ports) (P : Params) (n : Nat) (s : State) :
    advanceTask P n (s.mapPort g) = (advanceTask P n s).mapPort g := by
  dsimp only [advanceTask]
  rw [apply_ite (State.mapPort g), ← push_mapPort]
  rfl

section Offer

variable {g : Ports → Ports} (hg : OffersMore g)
include hg

theorem fetchByte_mapPort {s s' : State} {b : Byte} (h : fetchByte s = .ok (b, s')) :
    fetchByte (s.mapPort g) = .ok (b, s'.mapPort g) := by
  unfold fetchByte at h ⊢
  by_cases h0 : s.br.remaining.toNat = 0
  · rw [if_pos h0] at h
    cases h
    exact if_pos h0
  · rw [if_neg h0] at h
    split at h
    · cases h
    · next c s1 hs1 =>
      cases h
      refine (if_neg h0).trans ?_
      rw [hg.read hs1]; rfl

theorem emitByteTask_mapPort {s s' : State} {b : Byte} (h : emitByteTask b s = .ok s') :
    emitByteTask b (s.mapPort g) = .ok (s'.mapPort g) := by
  unfold emitByteTask at h ⊢
  by_cases hlimit : s.bw.compsize.toNat < s.bw.limit.toNat
  · rw [if_pos hlimit] at h
    split at h
    · cases h
    · next s1 hs1 =>
      cases h
      refine (if_pos hlimit).trans ?_
      rw [hg.write hs1]; rfl
  · rw [if_neg hlimit] at h
    cases h
    exact if_neg hlimit

theorem fillLoopTask_mapPort {s s' : State} {n : Nat} (h : fillLoopTask n s = .ok s') :
    fillLoopTask n (s.mapPort g) = .ok (s'.mapPort g) := by
  dsimp only [fillLoopTask] at h ⊢
  by_cases hn : s.br.subn < n
  · rw [if_pos hn] at h
    split at h
    · cases h
    · next b s1 hs1 =>
      cases h
      refine (if_pos hn).trans ?_
      rw [fetchByte_mapPort hg hs1, ← push_mapPort]; rfl
  · rw [if_neg hn] at h
    cases h
    exact if_neg hn

theorem runTask_mapPort {P : Params} {t : Task} {s s' : State} (ht : diagnosticSide t.side)
    (h : runTask P t s = .ok s') : runTask P t (s.mapPort g) = .ok (s'.mapPort g) := by
  obtain ⟨n, x, rfl⟩ | ⟨b, rfl⟩ | ⟨n, rfl⟩ | ⟨n, rfl⟩ | ⟨n, rfl⟩ | rfl | rfl | ⟨v, rfl⟩ := eq_of_diagnosticSide ht
  · cases h; exact congrArg _ (putBitsTask_mapPort g n x s)
  · exact emitByteTask_mapPort hg h
  · cases h; exact congrArg _ (advanceTask_mapPort g P n s)
  · cases h; exact congrArg _ (fillTask_mapPort g n s)
  · exact fillLoopTask_mapPort hg h
  · cases h; rfl
  · cases h; rfl
  · cases h; rfl

theorem seqStep_mapPort {P : Params} {s s' : State} (hs : s.onSides diagnosticSide) (h : seqStep P s = .ran s') :
    seqStep P (s.mapPort g) = .ran (s'.mapPort g) := by
  obtain ⟨cmd, hphase, rfl⟩ | ⟨cmd, t, todo, s1, hphase, ht, rfl⟩ := seqStep_cases h
  · exact seqStep_end P hphase
  · have hside : diagnosticSide t.side := hs t (by rw [todo_run hphase]; exact List.mem_cons_self)
    rw [← endIfDone_mapPort]
    exact seqStep_ok P (s := s.mapPort g) hphase (runTask_mapPort hg hside ht)

/-- Where a run stops at a port, the run with more on offer has passed through the same state. -/
theorem runSeq_mapPort (P : Params) (n : Nat) {s : State} (hs : s.onSides diagnosticSide) :
    ∃ k, runSeq P k (s.mapPort g) = (runSeq P n s).mapPort g := by
  induction n generalizing s with
  | zero => exact ⟨0, rfl⟩
  | succ n ih =>
    cases h : seqStep P s with
    | idle => exact ⟨0, by simp only [runSeq, h]⟩
    | waits p => exact ⟨0, by simp only [runSeq, h]⟩
    | ran s1 =>
      obtain ⟨k, hk⟩ := ih (seqStep_onSides ⟨nofun, nofun⟩ h hs)
      exact ⟨k + 1, by rw [runSeq_ran P k (seqStep_mapPort hg hs h), runSeq_ran P n h, hk]⟩

end Offer

/-! ### How long a diagnostic command runs -/

/-- Half of a bound on the steps an operation of the bitstream unit takes with those it leaves to do. -/
def Task.weight : Task → Nat
  | .putBits n _ => 3 * n + 1
  | .advance n => n + 3
  | .fill n => n + 2
  | .fillLoop n => n + 1
  | _ => 1

/-- A bound on the steps a diagnostic command still takes: an empty sub-byte buffer costs Fill one more turn. -/
def State.stepBound (s : State) : Nat := 2 * (s.todo.map Task.weight).sum + (1 - s.br.subn)

theorem stepBound_run {s : State} {cmd : Instr} {todo : List Task} (h : s.phase = .run cmd todo) :
    s.stepBound = 2 * (todo.map Task.weight).sum + (1 - s.br.subn) := by
  rw [State.stepBound, todo_run h]

theorem stepBound_idle_le {s : State} (h : s.phase = .idle) : s.stepBound ≤ 1 := by
  rw [State.stepBound, todo_idle h, List.map_nil, List.sum_nil]
  omega

theorem stepBound_push {s : State} {cmd : Instr} {ts todo : List Task} (h : s.phase = .run cmd todo) :
    (push ts s).stepBound = 2 * (ts.map Task.weight).sum + s.stepBound := by
  rw [stepBound_run (push_phase_run h), stepBound_run h, List.map_append, List.sum_append, push_br]
  omega

theorem stepBound_push_lt {s u : State} {cmd : Instr} {ts todo : List Task} {t : Task} (h : u.phase = .run cmd todo)
    (hu : u.stepBound = s.stepBound) (hts : (ts.map Task.weight).sum < t.weight) :
    (push ts u).stepBound < 2 * t.weight + s.stepBound := by
  rw [stepBound_push h, hu]
  omega

theorem stepBound_endIfDone_le (s : State) : (endIfDone s).stepBound ≤ s.stepBound := by
  unfold endIfDone
  split
  · next h => rw [stepBound_run h]; exact Nat.le_refl _
  · exact Nat.le_refl _
  · exact Nat.le_refl _

/-- A turn of Fill takes the bits of the sub-byte buffer, so fewer are left. -/
theorem fillLoopTask_stepBound {s u : State} {cmd : Instr} {todo : List Task} {n : Nat}
    (hphase : s.phase = .run cmd todo) (h : fillLoopTask n s = .ok u) : u.stepBound < 2 * (n + 1) + s.stepBound := by
  rw [stepBound_run hphase]
  dsimp only [fillLoopTask] at h
  split at h
  · next hn =>
    split at h
    · cases h
    · next b v hv =>
      cases h
      have hv : v.phase = .run cmd todo := by rw [fetchByte_frame hv]; exact hphase
      rw [stepBound_push (by exact hv), stepBound_run (by exact hv)]
      simp only [List.map_cons, List.map_nil, List.sum_cons, List.sum_nil, Task.weight]
      omega
  · cases h
    rw [stepBound_run (by exact hphase)]
    dsimp only
    omega

theorem putBitsTask_stepBound {s : State} {cmd : Instr} {todo : List Task} (hphase : s.phase = .run cmd todo)
    (n x : Nat) : (putBitsTask n x s).stepBound < 2 * (3 * n + 1) + s.stepBound := by
  cases n with
  | zero => exact Nat.lt_add_of_pos_left Nat.two_pos
  | succ n =>
    dsimp only [putBitsTask]
    split
    · exact stepBound_push_lt (t := .putBits (n + 1) x) hphase rfl
        (show 1 + (1 + (3 * n + 1 + 0)) < 3 * (n + 1) + 1 by omega)
    · exact stepBound_push_lt (t := .putBits (n + 1) x) hphase rfl (show 3 * n + 1 + 0 < 3 * (n + 1) + 1 by omega)

theorem advanceTask_stepBound {s : State} {cmd : Instr} {todo : List Task} (P : Params)
    (hphase : s.phase = .run cmd todo) (n : Nat) : (advanceTask P n s).stepBound < 2 * (n + 3) + s.stepBound := by
  dsimp only [advanceTask]
  split
  · refine (stepBound_idle_le (raise_phase _ _)).trans_lt ?_
    omega
  · exact stepBound_push_lt (t := .advance n) hphase rfl (Nat.lt_succ_self (n + 2))

theorem runTask_stepBound {P : Params} {t : Task} {s u : State} {cmd : Instr} {todo : List Task}
    (ht : diagnosticSide t.side) (hphase : s.phase = .run cmd todo) (h : runTask P t s = .ok u) :
    u.stepBound < 2 * t.weight + s.stepBound := by
  have hlast : s.stepBound < 2 * 1 + s.stepBound := Nat.lt_add_of_pos_left Nat.two_pos
  obtain ⟨n, x, rfl⟩ | ⟨b, rfl⟩ | ⟨n, rfl⟩ | ⟨n, rfl⟩ | ⟨n, rfl⟩ | rfl | rfl | ⟨v, rfl⟩ := eq_of_diagnosticSide ht
  · cases h; exact putBitsTask_stepBound hphase n x
  · rw [emitByteTask_frame h]; exact hlast
  · cases h; exact advanceTask_stepBound P hphase n
  · cases h; exact stepBound_push_lt hphase rfl (Nat.lt_succ_self (n + 1))
  · exact fillLoopTask_stepBound hphase h
  · cases h; exact hlast
  · cases h; exact hlast
  · cases h; exact hlast

/-- Every step of a diagnostic command but its end takes the bound down. -/
theorem seqStep_stepBound {P : Params} {s u : State} (hs : s.onSides diagnosticSide) (h : seqStep P s = .ran u) :
    u.phase = .idle ∨ u.stepBound < s.stepBound := by
  obtain ⟨cmd, -, rfl⟩ | ⟨cmd, t, todo, s1, hphase, ht, rfl⟩ := seqStep_cases h
  · exact .inl rfl
  · have hside : diagnosticSide t.side := hs t (by rw [todo_run hphase]; exact List.mem_cons_self)
    have hlt := runTask_stepBound hside rfl ht
    have hle := stepBound_endIfDone_le s1
    have hcons : s.stepBound = 2 * t.weight + State.stepBound { s with phase := .run cmd todo } := by
      rw [stepBound_run hphase, stepBound_run (s := { s with phase := .run cmd todo }) rfl, List.map_cons,
        List.sum_cons]
      dsimp only
      omega
    exact .inr (by omega)

/-- After that many steps a diagnostic command has ended or waits at a port, and further steps do nothing. -/
theorem runSeq_stopped (P : Params) {n : Nat} {s : State} (hs : s.onSides diagnosticSide) (hn : s.stepBound < n)
    (k : Nat) : runSeq P k (runSeq P n s) = runSeq P n s := by
  induction n generalizing s with
  | zero => omega
  | succ n ih =>
    cases h : seqStep P s with
    | idle =>
      have hstay : ∀ j, runSeq P j s = s := fun j => by cases j <;> simp only [runSeq, h]
      rw [hstay, hstay]
    | waits p => rw [runSeq_waits P _ h, runSeq_waits P _ h]
    | ran u =>
      rw [runSeq_ran P n h]
      rcases seqStep_stepBound hs h with hidle | hlt
      · rw [runSeq_idle P n hidle, runSeq_idle P k hidle]
      · exact ih (seqStep_onSides ⟨nofun, nofun⟩ h hs) (by omega)

/-! ### Diagnostic commands -/

/-- Every command but ENCODE and DECODE (40_bitstream_crc.md section 5). -/
def diagnostic (i : Instr) : Prop := i ≠ .encode ∧ i ≠ .decode

theorem settle_diagnostic (P : Params) {i : Instr} {s : State} (hi : diagnostic i)
    (h : s.phase = .idle ∨ ∃ todo, s.phase = .run i todo) : settle P s = runSeq P fullRun s := by
  rcases h with h | ⟨todo, h⟩
  · rw [settle_idle P h, runSeq_idle P _ h]
  · have hburst : burst s = fullRun := by
      rw [burst, h]
      split
      · next heq => cases heq; exact absurd rfl hi.1
      · next heq => cases heq; exact absurd rfl hi.2
      · rfl
    rw [settle, hburst]

theorem runSeq_phase (P : Params) (n : Nat) {i : Instr} {s : State}
    (h : s.phase = .idle ∨ ∃ todo, s.phase = .run i todo) :
    (runSeq P n s).phase = .idle ∨ ∃ todo, (runSeq P n s).phase = .run i todo := by
  refine runSeq_induct P (I := fun u => u.phase = .idle ∨ ∃ todo, u.phase = .run i todo) ?_ n s h
  rintro u v (hu | ⟨todo, hu⟩) hstep
  · rw [seqStep_idle P hu] at hstep; cases hstep
  · obtain ⟨hidle, -⟩ | ⟨cmd, t, todo', ts, hphase, -, hphase', -⟩ := seqStep_command hstep
    · exact .inl hidle
    · cases hu.symm.trans hphase
      exact .inr ⟨_, hphase'⟩

theorem started_phase (i : Instr) (s : State) : (started i s).phase = .run i (startTasks i s) := by
  cases i <;> rfl

theorem startTasks_mapPort (g : Ports → Ports) (i : Instr) (s : State) :
    startTasks i (s.mapPort g) = startTasks i s := by
  cases i <;> rfl

theorem startBody_mapPort (g : Ports → Ports) (i : Instr) (s u : State) :
    startBody i (s.mapPort g) (u.mapPort g) = (startBody i s u).mapPort g := by
  cases i <;> rfl

theorem started_mapPort {g : Ports → Ports} (hg : OffersMore g) (i : Instr) (s : State) :
    started i (s.mapPort g) = (started i s).mapPort g := by
  have hmark := hg.mark (beginCommand i (startTasks i s) s)
  rw [started, startTasks_mapPort]
  exact (congrArg _ hmark).trans (startBody_mapPort g i s _)

/-- BW_PUT with the largest bit count has the most to do. -/
theorem startTasks_weight_le {i : Instr} (hi : diagnostic i) (s : State) :
    ((startTasks i s).map Task.weight).sum ≤ 94 := by
  cases i
  case encode => exact absurd rfl hi.1
  case decode => exact absurd rfl hi.2
  case bwPut n => show 3 * n.toNat + 1 + 0 ≤ 94; omega
  case bwFlush => show 3 * 7 + 1 + 0 ≤ 94; omega
  case brInit => show 16 + 2 + (1 + 0) ≤ 94; omega
  case brAdvance n => show n.toNat + 3 + 0 ≤ 94; omega
  case brGet n => show n.toNat + 3 + (1 + 0) ≤ 94; omega
  all_goals exact Nat.zero_le 94

theorem started_stepBound_lt {i : Instr} (hi : diagnostic i) (s : State) : (started i s).stepBound < fullRun := by
  have hweight := startTasks_weight_le hi s
  have hfull : 200 < fullRun := by decide
  rw [State.stepBound, started_todo]
  omega

/-- A diagnostic command that stalls and then goes on ends in the state in which it ends without the stall. -/
theorem exec_stalled_eq {g : Ports → Ports} (hg : OffersMore g) {i : Instr} (hi : diagnostic i) {s t u v : State}
    (hidle : s.phase = .idle) (ht : exec i s = .next t) (hu : hostPort g t = .next u)
    (hv : exec i (s.mapPort g) = .next v) : u = v := by
  have hside : (started i s).onSides diagnosticSide :=
    started_onSides s ⟨nofun, nofun⟩ (absurd · hi.1) (absurd · hi.2) fun _ _ => ⟨nofun, nofun⟩
  rw [exec_idle i hidle, settle_diagnostic _ hi (.inr ⟨_, started_phase i s⟩)] at ht
  cases ht
  rw [exec_idle (s := s.mapPort g) i hidle, settle_diagnostic _ hi (.inr ⟨_, started_phase i _⟩),
    started_mapPort hg] at hv
  cases hv
  obtain ⟨k, hk⟩ := runSeq_mapPort hg Config.build fullRun hside
  have hphase := runSeq_phase Config.build fullRun (.inr ⟨_, started_phase i s⟩)
  cases hu
  calc settle Config.build ((runSeq Config.build fullRun (started i s)).mapPort g)
      = runSeq Config.build fullRun (runSeq Config.build k ((started i s).mapPort g)) := by
        rw [hk]; exact settle_diagnostic _ hi hphase
    _ = runSeq Config.build k (runSeq Config.build fullRun ((started i s).mapPort g)) := by
      rw [← runSeq_add, ← runSeq_add, Nat.add_comm]
    _ = runSeq Config.build fullRun ((started i s).mapPort g) :=
      runSeq_stopped (s := (started i s).mapPort g) _ hside (started_stepBound_lt hi s) k

/-- Settles O40: late acceptance and late supply are both a host that offers more after a stall. -/
theorem stallIsHarmless : Obligations.StallIsHarmless := by
  constructor
  · intro s t u v n i r hidle _ hi ht hu hv
    have hdiag : diagnostic i := by rcases hi with rfl | rfl <;> exact ⟨nofun, nofun⟩
    exact exec_stalled_eq offersMore_acceptAll hdiag (s := { s with port := { s.port with room := some r } }) hidle
      ht hu hv
  · intro s t u v n i k hidle _ _ hi ht hu hv
    have hdiag : diagnostic i := by rcases hi with rfl | rfl | rfl <;> exact ⟨nofun, nofun⟩
    refine exec_stalled_eq (offersMore_supplyMore (s.port.source.drop k)) hdiag
      (s := { s with port := { s.port with source := s.port.source.take k } }) hidle ht hu ?_
    rw [← hv]
    simp [State.mapPort, supplyMore]

end Sys2Proof.Machine
end

section
/-! PROOFS. The command word CMD32 (30_encoding.md R138-R141): its fields as numbers, the round trip between words and
commands, and the write of an illegal word (60_exceptions.md R406). -/

namespace Sys2Proof

/-! ### Fields (R138) -/

theorem toNat_fieldOp (w : Word) : (fieldOp w).toNat = w.toNat % 256 := by
  simp [fieldOp, BitVec.extractLsb'_toNat]

theorem toNat_fieldN (w : Word) : (fieldN w).toNat = w.toNat / 256 % 32 := by
  simp [fieldN, BitVec.extractLsb'_toNat, Nat.shiftRight_eq_div_pow]

theorem toNat_fieldReservedLow (w : Word) : (fieldReservedLow w).toNat = w.toNat / 8192 % 8 := by
  simp [fieldReservedLow, BitVec.extractLsb'_toNat, Nat.shiftRight_eq_div_pow]

theorem toNat_fieldByte (w : Word) : (fieldByte w).toNat = w.toNat / 65536 % 256 := by
  simp [fieldByte, BitVec.extractLsb'_toNat, Nat.shiftRight_eq_div_pow]

theorem toNat_fieldReservedHigh (w : Word) : (fieldReservedHigh w).toNat = w.toNat / 16777216 := by
  have hw := w.isLt
  simp [fieldReservedHigh, BitVec.extractLsb'_toNat, Nat.shiftRight_eq_div_pow]
  omega

theorem toNat_assemble (op : BitVec 8) (n : BitVec 5) (b : Byte) :
    (assemble op n b).toNat = 65536 * b.toNat + 256 * n.toNat + op.toNat := by
  have hlow := Machine.toNat_append_of_toNat_eq (0#3) (Machine.toNat_append_of_toNat_eq n (y := op) rfl)
  have hall := Machine.toNat_append_of_toNat_eq (0#8) (Machine.toNat_append_of_toNat_eq b hlow)
  refine hall.trans ?_
  simp only [BitVec.toNat_ofNat, Nat.reduceMod, Nat.reducePow, Nat.reduceAdd]
  omega

section Assembled
variable (op : BitVec 8) (n : BitVec 5) (b : Byte)

@[simp] theorem fieldOp_assemble : fieldOp (assemble op n b) = op :=
  BitVec.eq_of_toNat_eq (by rw [toNat_fieldOp, toNat_assemble]; omega)

@[simp] theorem fieldN_assemble : fieldN (assemble op n b) = n :=
  BitVec.eq_of_toNat_eq (by rw [toNat_fieldN, toNat_assemble]; omega)

@[simp] theorem fieldReservedLow_assemble : fieldReservedLow (assemble op n b) = 0#3 :=
  BitVec.eq_of_toNat_eq (by rw [toNat_fieldReservedLow, toNat_assemble, BitVec.toNat_ofNat]; omega)

@[simp] theorem fieldByte_assemble : fieldByte (assemble op n b) = b :=
  BitVec.eq_of_toNat_eq (by rw [toNat_fieldByte, toNat_assemble]; omega)

@[simp] theorem fieldReservedHigh_assemble : fieldReservedHigh (assemble op n b) = 0#8 :=
  BitVec.eq_of_toNat_eq (by rw [toNat_fieldReservedHigh, toNat_assemble, BitVec.toNat_ofNat]; omega)

end Assembled

/-- A word without reserved bits is made of its fields. -/
theorem assemble_fields {w : Word} (hlow : fieldReservedLow w = 0#3) (hhigh : fieldReservedHigh w = 0#8) :
    assemble (fieldOp w) (fieldN w) (fieldByte w) = w := by
  have hlow' := congrArg BitVec.toNat hlow
  have hhigh' := congrArg BitVec.toNat hhigh
  rw [toNat_fieldReservedLow, BitVec.toNat_ofNat] at hlow'
  rw [toNat_fieldReservedHigh, BitVec.toNat_ofNat] at hhigh'
  apply BitVec.eq_of_toNat_eq
  rw [toNat_assemble, toNat_fieldOp, toNat_fieldN, toNat_fieldByte]
  omega

/-! ### The three forms of a command (R140) -/

section Forms
variable {n : BitVec 5} {b : Byte} {i : Instr}

theorem plainForm_eq_ok {j : Instr} : plainForm n b j = .ok i ↔ n = 0#5 ∧ b = 0#8 ∧ j = i := by
  by_cases hn : n = 0#5 <;> by_cases hb : b = 0#8 <;> simp [plainForm, hn, hb]

theorem countForm_eq_ok {mk : BitVec 5 → Instr} : countForm n b mk = .ok i ↔ b = 0#8 ∧ n.toNat ≤ 16 ∧ mk n = i := by
  by_cases hb : b = 0#8 <;> by_cases hn : 16 < n.toNat <;> simp [countForm, hn, hb]
  omega

theorem byteForm_eq_ok {mk : Byte → Instr} : byteForm n b mk = .ok i ↔ n = 0#5 ∧ mk b = i := by
  by_cases hn : n = 0#5 <;> simp [byteForm, hn]

end Forms

/-! ### Round trip (R138, R139) -/

/-- Settles O1: the fields of the written word are the command's, and they pass the command's form. -/
theorem decodeEncode : Obligations.DecodeEncode := by
  intro i hwf
  cases i
  case crcByte b => simp [encode, decode, byteForm_eq_ok]
  case bwPut n | brPeek n | brAdvance n | brGet n =>
    simpa [encode, decode, countForm_eq_ok, Instr.wf] using hwf
  all_goals simp [encode, decode, plainForm_eq_ok]

/-- Settles O2: the word is its fields put together, and the form that accepted them says what they hold. -/
theorem encodeDecode : Obligations.EncodeDecode := by
  intro w i h
  simp only [decode] at h
  split at h
  · cases h
  · next hreserved =>
    simp only [ne_eq, not_or, not_not] at hreserved
    rw [eq_comm, ← assemble_fields hreserved.1 hreserved.2]
    have hop : ∀ {k : Nat}, (fieldOp w).toNat = k → fieldOp w = BitVec.ofNat 8 k := fun hk => by simp [← hk]
    split at h
    case h_5 hk =>
      obtain ⟨hn, rfl⟩ := byteForm_eq_ok.mp h
      exact ⟨by rw [hop hk, hn]; rfl, rfl⟩
    case h_8 hk | h_11 hk | h_12 hk | h_13 hk =>
      obtain ⟨hb, hn, rfl⟩ := countForm_eq_ok.mp h
      exact ⟨by rw [hop hk, hb]; rfl, decide_eq_true hn⟩
    case h_14 => cases h
    all_goals
      next hk =>
      obtain ⟨hn, hb, rfl⟩ := plainForm_eq_ok.mp h
      exact ⟨by rw [hop hk, hn, hb]; rfl, rfl⟩

/-- Settles O3: each word is the word of its command. -/
theorem sampleWords : Obligations.SampleWords :=
  ⟨decodeEncode .nop rfl, decodeEncode .encode rfl, decodeEncode .decode rfl, decodeEncode (.crcByte 0x31#8) rfl,
    decodeEncode .crcRead rfl, decodeEncode (.bwPut 3#5) rfl, decodeEncode (.brPeek 16#5) rfl,
    decodeEncode (.brGet 7#5) rfl⟩

/-! ### Illegal words (R140) -/

open Claims Machine

/-- The five causes of R140, on the fields. -/
theorem illegalWord_iff_fields (w : Word) : illegalWord w ↔
    (fieldOp w).toNat ∉ opcodes ∨ 16 < (fieldN w).toNat ∨ (fieldN w ≠ 0#5 ∧ (fieldOp w).toNat ∉ countOpcodes)
      ∨ (fieldByte w ≠ 0#8 ∧ (fieldOp w).toNat ≠ 0x11) ∨ fieldReservedLow w ≠ 0#3 ∨ fieldReservedHigh w ≠ 0#8 := by
  simp only [illegalWord, ← toNat_fieldOp, ← toNat_fieldN, ← toNat_fieldByte, ← toNat_fieldReservedLow,
    ← toNat_fieldReservedHigh, ne_eq, BitVec.toNat_eq, BitVec.toNat_ofNat, Nat.zero_mod]

theorem not_illegalWord_encode {i : Instr} (hwf : i.wf = true) : ¬ illegalWord (encode i) := by
  rw [illegalWord_iff_fields]
  cases i
  case bwPut n | brPeek n | brAdvance n | brGet n =>
    simpa [encode, opcodes, countOpcodes, Instr.wf] using hwf
  all_goals simp [encode, opcodes]

/-- Row by row of the opcode map: the form of the row accepts the fields. -/
theorem exists_decode_of_legal {w : Word} (hlegal : ¬ illegalWord w) : ∃ i, decode w = .ok i := by
  simp only [illegalWord_iff_fields, not_or, not_and, not_not, ne_eq, Nat.not_lt] at hlegal
  obtain ⟨hop, hrange, hn, hb, hlow, hhigh⟩ := hlegal
  simp only [opcodes, countOpcodes, List.mem_cons, List.not_mem_nil, or_false] at hop hn
  rcases hop with h | h | h | h | h | h | h | h | h | h | h | h | h <;>
    simp_all [decode, plainForm_eq_ok, countForm_eq_ok, byteForm_eq_ok]

theorem decode_of_illegal {w : Word} (hillegal : illegalWord w) : ∃ r, decode w = .error r := by
  match hd : decode w with
  | .error r => exact ⟨r, rfl⟩
  | .ok i =>
    obtain ⟨hw, hwf⟩ := encodeDecode w i hd
    exact absurd (hw ▸ hillegal) (not_illegalWord_encode hwf)

theorem issueIllegal_eq_rejected {s : State} (hidle : s.phase = .idle) : issueIllegal s = rejected s := by
  rw [issueIllegal_idle hidle]
  cases s; cases hidle; rfl

/-- Settles O4: a CMD write goes by what decoding says, and decoding refuses exactly the illegal words. -/
theorem CommandWord.illegalWord : Obligations.IllegalWord := by
  intro w s hidle
  refine ⟨fun h => ?_, fun h => ?_⟩
  · obtain ⟨r, hr⟩ := decode_of_illegal h
    simp only [writeCmd, hr, issueIllegal_eq_rejected hidle]
  · obtain ⟨i, hi⟩ := exists_decode_of_legal h
    exact ⟨i, hi, by simp only [writeCmd, hi]⟩

end Sys2Proof
end

section
/-! PROOFS. Distances and the C table as the bit stream carries them: a distance's class and extra bits (30_encoding.md
R132, R133), and the runs of a C length table (R127, R129, R130, 41_huffman_encode.md R243). -/

namespace Sys2Proof.Machine

open Claims

/-! ### Distance classes (R132, R133) -/

@[simp] theorem pClass_zero : pClass 0 = 0 := rfl

theorem pClass_of_pos {p : Nat} (hp : p ≠ 0) : pClass p = p.log2 + 1 := if_neg hp

theorem pClass_eq_zero {p : Nat} : pClass p = 0 ↔ p = 0 := by
  by_cases hp : p = 0
  · simp [hp]
  · simp [pClass_of_pos hp, hp]

/-- The leading one of `p` is bit `pClass p - 1`. -/
theorem pClass_bounds {p : Nat} (hp : p ≠ 0) : 2 ^ (pClass p - 1) ≤ p ∧ p < 2 ^ pClass p := by
  rw [pClass_of_pos hp]
  exact ⟨Nat.log2_self_le hp, Nat.lt_log2_self⟩

theorem pClass_lt_np (P : Params) {p : Nat} (hp : p < P.dicSiz) : pClass p < P.np := by
  by_cases h0 : p = 0
  · simp [h0, Params.np]
  · have hlog := (Nat.log2_lt h0).mpr hp
    rw [pClass_of_pos h0, Params.np]
    omega

/-- The leading one and the bits below it make the distance (R133). -/
theorem leading_add_extra {p : Nat} (hp : p ≠ 0) : 2 ^ (pClass p - 1) + p % 2 ^ (pClass p - 1) = p := by
  obtain ⟨hlo, hhi⟩ := pClass_bounds hp
  have hclass : pClass p = pClass p - 1 + 1 := by rw [pClass_of_pos hp]; rfl
  rw [hclass, Nat.pow_succ] at hhi
  rw [Nat.mod_eq_sub_mod hlo, Nat.mod_eq_of_lt (by omega)]
  omega

@[simp] theorem peekBits_zero (s : State) : peekBits 0 s = 0 := by
  have h := s.br.bitbuf.isLt
  simp [peekBits, Nat.shiftRight_eq_div_pow]
  omega

/-- DecodeP's rule (42_huffman_decode.md R282) on a class and its extra bits. -/
theorem gotPTask_of_extra {p : Nat} {s : State} (len : Nat)
    (hextra : pClass p ≤ 1 ∨ peekBits (pClass p - 1) s = p % 2 ^ (pClass p - 1)) :
    gotPTask len (pClass p) s =
      if p = 0 then push [.copyMatch len p] s else push [.advance (pClass p - 1), .copyMatch len p] s := by
  by_cases hp : p = 0
  · simp [hp, gotPTask]
  · have hpeek : peekBits (pClass p - 1) s = p % 2 ^ (pClass p - 1) := by
      rcases hextra with hle | h
      · have hone : pClass p - 1 = 0 := by omega
        simp [hone, Nat.mod_one]
      · exact h
    rw [gotPTask, if_neg (mt pClass_eq_zero.mp hp), if_neg hp, hpeek, leading_add_extra hp, afterBits]

/-- Settles O52: the class is the bit length, and DecodeP puts the leading one back in front of the extra bits. -/
theorem distanceClasses : Obligations.DistanceClasses := by
  refine ⟨fun p => ⟨pClass_eq_zero, pClass_bounds⟩, fun P p => pClass_lt_np P, ?_⟩
  intro e p s cmd todo len hrun _
  refine ⟨rfl, fun hle => ?_, fun hge => ?_, fun hextra => ?_⟩
  · rw [encodeP, if_neg (by omega), List.tail_cons]
  · rw [encodeP, if_pos (by omega), List.tail_cons]
  · rw [gotPTask_of_extra len hextra]
    by_cases hp : p = 0
    · exact ⟨[], by rw [if_pos hp, todo_push hrun]; rfl, .inl ⟨rfl, pClass_eq_zero.mpr hp⟩⟩
    · refine ⟨[.advance (pClass p - 1)], by rw [if_neg hp, todo_push hrun]; rfl, .inr ⟨rfl, ?_⟩⟩
      exact Nat.pos_of_ne_zero (mt pClass_eq_zero.mp hp)

/-! ### The size field (R129) -/

theorem usedLens_le (len : Nat → Nat) (n : Nat) : usedLens len n ≤ n := by
  induction n with
  | zero => exact Nat.le_refl 0
  | succ n ih => rw [usedLens]; split <;> omega

theorem len_eq_zero_of_usedLens_le {len : Nat → Nat} {n i : Nat} (hi : i < n) (hused : usedLens len n ≤ i) :
    len i = 0 := by
  induction n with
  | zero => omega
  | succ n ih =>
    rw [usedLens] at hused
    split at hused
    · next hn =>
      by_cases hin : i = n
      · exact hin ▸ hn
      · exact ih (by omega) hused
    · omega

theorem len_last_used_ne_zero {len : Nat → Nat} {n : Nat} (hused : 0 < usedLens len n) :
    len (usedLens len n - 1) ≠ 0 := by
  induction n with
  | zero => exact absurd hused (Nat.lt_irrefl 0)
  | succ n ih =>
    rw [usedLens] at hused ⊢
    split at hused
    · next hn => rw [if_pos hn]; exact ih hused
    · next hn => rw [if_neg hn]; exact hn

/-! ### Zero runs (R127) -/

section Runs
variable (len : Nat → Nat) (n : Nat)

theorem zeroRun_le (fuel i : Nat) (hi : i ≤ n) : i + zeroRun len n fuel i ≤ n := by
  induction fuel generalizing i with
  | zero => exact hi
  | succ fuel ih =>
    rw [zeroRun]
    split
    · next h => have := ih (i + 1) h.1; omega
    · omega

theorem map_len_zeroRun (fuel i : Nat) :
    (List.range' i (zeroRun len n fuel i)).map len = List.replicate (zeroRun len n fuel i) 0 := by
  induction fuel generalizing i with
  | zero => rfl
  | succ fuel ih =>
    rw [zeroRun]
    split
    · next h => rw [List.range'_succ, List.map_cons, ih, h.2, List.replicate_succ]
    · rfl

/-- A zero run is maximal: with enough fuel it stops at the end or before a non-zero length. -/
theorem zeroRun_stops (fuel i : Nat) (hfuel : n ≤ i + fuel) :
    n ≤ i + zeroRun len n fuel i ∨ len (i + zeroRun len n fuel i) ≠ 0 := by
  induction fuel generalizing i with
  | zero => exact .inl hfuel
  | succ fuel ih =>
    rw [zeroRun]
    split
    · next h =>
      have := ih (i + 1) (by omega)
      rwa [show i + 1 + zeroRun len n fuel (i + 1) = i + (zeroRun len n fuel (i + 1) + 1) by omega] at this
    · next h => simp only [Nat.add_zero]; omega

theorem zeroRun_pos {i : Nat} (hi : i < n) (hz : len i = 0) : 0 < zeroRun len n (n - i) i := by
  obtain ⟨fuel, hfuel⟩ : ∃ fuel, n - i = fuel + 1 := ⟨n - i - 1, by omega⟩
  rw [hfuel, zeroRun, if_pos ⟨hi, hz⟩]
  exact Nat.succ_pos _

/-! ### Items (R127, R129, 41_huffman_encode.md R243) -/

/-- An item is one non-zero length, or a zero run within the table. -/
def itemOk (it : Nat × Nat) : Prop := it.1 ≠ 0 ∧ it.2 = 1 ∨ it.1 = 0 ∧ 0 < it.2 ∧ it.2 ≤ n

theorem itemOk_of_mem_lenItems (fuel i : Nat) {it : Nat × Nat} (hit : it ∈ lenItems len n fuel i) : itemOk n it := by
  induction fuel generalizing i with
  | zero => cases hit
  | succ fuel ih =>
    rw [lenItems] at hit
    split at hit
    · next hi =>
      split at hit
      · next hz =>
        rcases List.mem_cons.mp hit with rfl | hit
        · have := zeroRun_le len n (n - i) i (by omega)
          exact .inr ⟨rfl, zeroRun_pos len n hi hz, by dsimp only; omega⟩
        · exact ih _ hit
      · next hz =>
        rcases List.mem_cons.mp hit with rfl | hit
        · exact .inl ⟨hz, rfl⟩
        · exact ih _ hit
    · cases hit

/-- The items give the lengths back, each as often as its item says. -/
theorem flatMap_lenItems (fuel i : Nat) (hfuel : n ≤ i + fuel) :
    (lenItems len n fuel i).flatMap (fun it => List.replicate it.2 it.1) = (List.range' i (n - i)).map len := by
  induction fuel generalizing i with
  | zero => rw [show n - i = 0 by omega]; rfl
  | succ fuel ih =>
    rw [lenItems]
    split
    · next hi =>
      split
      · next hz =>
        have hpos := zeroRun_pos len n hi hz
        have hle := zeroRun_le len n (n - i) i (by omega)
        have hsplit : n - i = zeroRun len n (n - i) i + (n - (i + zeroRun len n (n - i) i)) := by omega
        rw [List.flatMap_cons, ih _ (by omega)]
        conv_rhs => rw [hsplit, ← List.range'_append_1, List.map_append]
        rw [map_len_zeroRun]
      · next hz =>
        rw [List.flatMap_cons, ih _ (by omega), show n - i = (n - (i + 1)) + 1 by omega, List.range'_succ]
        rfl
    · rw [show n - i = 0 by omega]; rfl

/-- After a non-zero length the first item is that length's. -/
theorem head_lenItems_ne_zero (fuel i : Nat) (hi : n ≤ i ∨ len i ≠ 0) :
    ∀ b ∈ (lenItems len n fuel i).head?, b.1 ≠ 0 := by
  cases fuel with
  | zero => nofun
  | succ fuel =>
    rw [lenItems]
    split
    · next hlt =>
      have hne : len i ≠ 0 := hi.resolve_left (Nat.not_le.mpr hlt)
      rw [if_neg hne]
      rintro _ ⟨⟩
      exact hne
    · nofun

/-- No zero run stands beside another. -/
theorem isChain_lenItems (fuel i : Nat) :
    (lenItems len n fuel i).IsChain (fun a b => ¬ (a.1 = 0 ∧ b.1 = 0)) := by
  induction fuel generalizing i with
  | zero => exact .nil
  | succ fuel ih =>
    rw [lenItems]
    split
    · split
      · refine List.isChain_cons.mpr ⟨fun b hb hzero => ?_, ih _⟩
        exact head_lenItems_ne_zero len n fuel _ (zeroRun_stops len n (n - i) i (by omega)) b hb hzero.2
      · next hz => exact List.isChain_cons.mpr ⟨fun _ _ hzero => hz hzero.1, ih _⟩
    · exact .nil

end Runs

/-! ### T symbols (R127, R130) -/

theorem flatMap_expand_itemSymbols (P : Params) {n : Nat} {it : Nat × Nat} (hit : itemOk n it) :
    (itemSymbols P it).flatMap expandItem = List.replicate it.2 it.1 := by
  obtain ⟨k, r⟩ := it
  rcases hit with ⟨hk, rfl⟩ | ⟨rfl, hpos, -⟩
  · obtain ⟨k, rfl⟩ := Nat.exists_eq_succ_of_ne_zero hk
    rfl
  · dsimp only at hpos
    simp only [itemSymbols, ne_eq, not_true_eq_false, if_false]
    split
    · interval_cases r <;> rfl
    · split
      · next h2 h18 => simp [expandItem, show r - 3 + 3 = r by omega]
      · split
        · next h19 => rw [h19]; rfl
        · next h2 h18 h19 => simp [expandItem, show r - 20 + 20 = r by omega]

theorem countFits_of_mem_itemSymbols {P : Params} {n : Nat} (hn : n ≤ 2 ^ P.cBit) {it : Nat × Nat} (hit : itemOk n it)
    {y : Nat × Option (Nat × Nat)} (hy : y ∈ itemSymbols P it) : countFits P y := by
  obtain ⟨k, r⟩ := it
  rcases hit with ⟨hk, rfl⟩ | ⟨rfl, hpos, hle⟩
  · obtain ⟨k, rfl⟩ := Nat.exists_eq_succ_of_ne_zero hk
    cases List.mem_singleton.mp hy
    rfl
  · dsimp only at hpos hle
    simp only [itemSymbols, ne_eq, not_true_eq_false, if_false] at hy
    split at hy
    · cases List.eq_of_mem_replicate hy
      rfl
    · split at hy
      · cases List.mem_singleton.mp hy
        exact ⟨_, rfl, by omega⟩
      · split at hy
        · rcases List.mem_pair.mp hy with rfl | rfl
          · rfl
          · exact ⟨_, rfl, by decide⟩
        · cases List.mem_singleton.mp hy
          exact ⟨_, rfl, by omega⟩

/-- Settles O54: each item's symbols give its run, and the items are the maximal runs up to the last non-zero length. -/
theorem lengthItems : Obligations.LengthItems := by
  intro P len hnc
  have hused := usedLens_le len P.nc
  have hok : ∀ it ∈ cItems len P.nc, itemOk (usedLens len P.nc) it := fun it => itemOk_of_mem_lenItems len _ _ _
  refine ⟨?_, fun it hit y hy => ?_, fun l r a b h => ?_, fun i => len_eq_zero_of_usedLens_le, len_last_used_ne_zero⟩
  · rw [List.flatMap_congr fun it hit => flatMap_expand_itemSymbols P (hok it hit), cItems,
      flatMap_lenItems len _ _ _ (by omega), Nat.sub_zero, List.range_eq_range']
  · exact countFits_of_mem_itemSymbols (by omega) (hok it hit) hy
  · have hchain : (cItems len P.nc).IsChain _ := isChain_lenItems len _ _ _
    rw [h, List.isChain_append_cons_cons] at hchain
    exact hchain.2.1

end Sys2Proof.Machine
end

section
/-! PROOFS. Canonical codes (30_encoding.md R136, 41_huffman_encode.md R238): the counts and first codes that MakeCode
works with, the Kraft equality, and the codes it hands out. -/

namespace Sys2Proof.Machine

open Claims

/-! ### Symbols of one length -/

/-- How many of the `n` symbols have length `k`: `count[k]`, and R136's `r` for the symbol `n`. -/
def symbolCount (n : Nat) (len : Nat → Nat) (k : Nat) : Nat := ((List.range n).filter fun j => len j = k).length

section Counts
variable (n : Nat) (len : Nat → Nat) (k : Nat)

theorem symbolCount_succ : symbolCount (n + 1) len k = symbolCount n len k + if len n = k then 1 else 0 := by
  rw [symbolCount, List.range_succ, List.filter_append, List.length_append]
  congr 1
  by_cases h : len n = k <;> simp [h]

theorem symbolCount_mono {m n : Nat} (h : m ≤ n) : symbolCount m len k ≤ symbolCount n len k := by
  induction n, h using Nat.le_induction with
  | base => exact Nat.le_refl _
  | succ n _ ih => rw [symbolCount_succ]; omega

/-- A symbol counts itself, so it has a smaller rank than any later symbol of its length. -/
theorem symbolCount_lt {i n : Nat} (h : i < n) : symbolCount i len (len i) < symbolCount n len (len i) := by
  have hself := symbolCount_succ i len (len i)
  have hmono := symbolCount_mono len (len i) (m := i + 1) h
  rw [if_pos rfl] at hself
  omega

end Counts

/-! ### First codes and the Kraft sum (R136, 42_huffman_decode.md R276) -/

theorem firstCode_add_two (n : Nat) (len : Nat → Nat) (k : Nat) :
    firstCode n len (k + 2) = 2 * (firstCode n len (k + 1) + symbolCount n len (k + 1)) := rfl

/-- One more symbol moves up the first codes of the lengths above its own. -/
theorem firstCode_succ (n : Nat) (len : Nat → Nat) (k : Nat) :
    firstCode (n + 1) len k = firstCode n len k + if 0 < len n ∧ len n < k then 2 ^ (k - len n) else 0 := by
  match k with
  | 0 => simp [firstCode]
  | 1 => rw [if_neg (by omega)]; rfl
  | k + 2 =>
    rw [firstCode_add_two, firstCode_add_two, firstCode_succ n len (k + 1), symbolCount_succ]
    by_cases heq : len n = k + 1
    · rw [if_neg (by omega), if_pos heq, if_pos (by omega), heq, show k + 2 - (k + 1) = 1 by omega]
      omega
    · rw [if_neg heq]
      by_cases hlt : 0 < len n ∧ len n < k + 1
      · rw [if_pos hlt, if_pos (by omega), show k + 2 - len n = k + 1 - len n + 1 by omega, Nat.pow_succ]
        omega
      · rw [if_neg hlt, if_neg (by omega)]
        omega

theorem firstCode_no_symbols (len : Nat → Nat) : ∀ k, firstCode 0 len k = 0
  | 0 => rfl
  | 1 => rfl
  | k + 2 => by rw [firstCode_add_two, firstCode_no_symbols len (k + 1)]; rfl

theorem kraft_succ (n : Nat) (len : Nat → Nat) :
    kraft (n + 1) len = kraft n len + if len n = 0 then 0 else 2 ^ (16 - len n) := by
  simp [kraft, List.range_succ]

/-- The first code past the longest length is the Kraft sum, in units of `2^-17`. -/
theorem firstCode_seventeen {n : Nat} {len : Nat → Nat} (hlen : ∀ i, i < n → len i ≤ 16) :
    firstCode n len 17 = 2 * kraft n len := by
  induction n with
  | zero => exact firstCode_no_symbols len 17
  | succ n ih =>
    have hn := hlen n (Nat.lt_succ_self n)
    rw [firstCode_succ, kraft_succ, ih fun i hi => hlen i (by omega)]
    by_cases h0 : len n = 0
    · simp [h0]
    · rw [if_pos (by omega), if_neg h0, show 17 - len n = 16 - len n + 1 by omega, Nat.pow_succ]
      omega

/-- The codes of length `k`, extended to a longer length `k'`, lie below the first code of that length. -/
theorem firstCode_extends (n : Nat) (len : Nat → Nat) {k k' : Nat} (hk : 0 < k) (h : k < k') :
    (firstCode n len k + symbolCount n len k) * 2 ^ (k' - k) ≤ firstCode n len k' := by
  obtain ⟨j, rfl⟩ : ∃ j, k = j + 1 := ⟨k - 1, by omega⟩
  induction k', h using Nat.le_induction with
  | base =>
    rw [firstCode_add_two, show j + 2 - (j + 1) = 1 by omega]
    omega
  | succ k' h ih =>
    obtain ⟨i, rfl⟩ : ∃ i, k' = i + 1 := ⟨k' - 1, by omega⟩
    rw [show i + 1 + 1 - (j + 1) = i + 1 - (j + 1) + 1 by omega, Nat.pow_succ, ← Nat.mul_assoc, firstCode_add_two]
    omega

/-- Under the Kraft equality the codes of length `k` fit `k` bits. -/
theorem firstCode_add_symbolCount_le {n : Nat} {len : Nat → Nat} (hkraft : firstCode n len 17 = 2 ^ 17) {k : Nat}
    (hk : 0 < k) (h16 : k ≤ 16) : firstCode n len k + symbolCount n len k ≤ 2 ^ k := by
  have hext := firstCode_extends n len hk (show k < 17 by omega)
  rw [hkraft, show 2 ^ 17 = 2 ^ k * 2 ^ (17 - k) by rw [← Nat.pow_add]; congr 1; omega] at hext
  exact Nat.le_of_mul_le_mul_right hext (Nat.two_pow_pos _)

/-! ### MakeCode's memories (41_huffman_encode.md R238) -/

theorem memRead_memWrite {α : Type} [DecidableEq α] (d : α) {m : Memory α} (hm : Memory.rising m = true) (a b : Nat)
    (v : α) : memRead d (memWrite d m a v) b = if b = a then v else memRead d m b := by
  split
  · next h => rw [h, memRead_memWrite_same d hm]
  · next h => exact memRead_memWrite_ne d hm v h

theorem memInit_succ {α : Type} [DecidableEq α] (d : α) (n : Nat) (f : Nat → α) (m : Memory α) :
    memInit d (n + 1) f m = memWrite d (memInit d n f m) n (f n) := by
  simp [memInit, List.range_succ]

theorem memRead_memInit {α : Type} [DecidableEq α] (d : α) {m : Memory α} (hm : Memory.wf d m = true) (n : Nat)
    (f : Nat → α) (i : Nat) : memRead d (memInit d n f m) i = if i < n then f i else memRead d m i := by
  induction n with
  | zero => rfl
  | succ n ih =>
    rw [memInit_succ, memRead_memWrite d (rising_of_wf (wf_memInit hm n f)), ih]
    by_cases hin : i = n
    · rw [if_pos hin, if_pos (by omega), hin]
    · rw [if_neg hin]
      exact if_congr (by omega) rfl rfl

theorem lenCounts_succ (n : Nat) (len : Nat → Nat) : lenCounts (n + 1) len =
    memWrite 0 (lenCounts n len) (len n) (memRead 0 (lenCounts n len) (len n) + 1) := by
  simp [lenCounts, List.range_succ]

theorem wf_lenCounts (n : Nat) (len : Nat → Nat) : Memory.wf 0 (lenCounts n len) = true :=
  wf_foldl _ (fun _ _ h => wf_memWrite h _ _) _ (wf_nil 0)

theorem memRead_lenCounts (n : Nat) (len : Nat → Nat) (k : Nat) :
    memRead 0 (lenCounts n len) k = symbolCount n len k := by
  induction n with
  | zero => rfl
  | succ n ih =>
    rw [lenCounts_succ, memRead_memWrite 0 (rising_of_wf (wf_lenCounts n len)), symbolCount_succ]
    by_cases hk : len n = k
    · rw [if_pos hk.symm, if_pos hk, hk, ih]
    · rw [if_neg (Ne.symm hk), if_neg hk, ih, Nat.add_zero]

theorem codeStart_lenCounts (n : Nat) (len : Nat → Nat) : ∀ k, codeStart (lenCounts n len) k = firstCode n len k
  | 0 => rfl
  | 1 => rfl
  | k + 2 => by
    rw [codeStart, codeStart_lenCounts n len (k + 1), memRead_lenCounts, firstCode_add_two, Nat.mul_comm]

/-! ### The codes handed out (R136, R238) -/

/-- MakeCode's turn for the symbol `i`: its code is the next one of its length. -/
def assignCode (len : Nat → Nat) (acc : Memory Nat × Memory Half) (i : Nat) : Memory Nat × Memory Half :=
  if 0 < len i then
    (memWrite 0 acc.1 (len i) (memRead 0 acc.1 (len i) + 1),
      memWrite 0 acc.2 i (BitVec.ofNat 16 (memRead 0 acc.1 (len i))))
  else acc

/-- MakeCode's loop over the first `m` symbols, the first codes being those of the first `n`. -/
def assignCodes (n m : Nat) (len : Nat → Nat) : Memory Nat × Memory Half :=
  (List.range m).foldl (assignCode len) (memInit 0 17 (codeStart (lenCounts n len)) [], [])

theorem makeCode_eq (n : Nat) (len : Nat → Nat) :
    makeCode n len = if firstCode n len 17 ≠ 2 ^ 17 then none else some (assignCodes n n len).2 := by
  rw [← codeStart_lenCounts]; rfl

theorem assignCodes_succ (n m : Nat) (len : Nat → Nat) :
    assignCodes n (m + 1) len = assignCode len (assignCodes n m len) m := by
  simp [assignCodes, List.range_succ]

/-- After `m` symbols: the next code of each length, and the codes handed out so far. -/
structure Assigned (n m : Nat) (len : Nat → Nat) (acc : Memory Nat × Memory Half) : Prop where
  wfStart : Memory.wf 0 acc.1 = true
  wfCode : Memory.wf 0 acc.2 = true
  start : ∀ k, 0 < k → k ≤ 16 → memRead 0 acc.1 k = firstCode n len k + symbolCount m len k
  code : ∀ i, i < m → 0 < len i →
    memRead 0 acc.2 i = BitVec.ofNat 16 (firstCode n len (len i) + symbolCount i len (len i))

theorem Assigned.initial (n : Nat) (len : Nat → Nat) : Assigned n 0 len (assignCodes n 0 len) where
  wfStart := wf_memInit (wf_nil 0) _ _
  wfCode := wf_nil 0
  start k _ h16 := by
    refine (memRead_memInit 0 (wf_nil 0) 17 _ k).trans ?_
    rw [if_pos (by omega), codeStart_lenCounts]
    rfl
  code i hi := absurd hi (Nat.not_lt_zero i)

theorem Assigned.next {n m : Nat} {len : Nat → Nat} {acc : Memory Nat × Memory Half} (hm : len m ≤ 16)
    (h : Assigned n m len acc) : Assigned n (m + 1) len (assignCode len acc m) := by
  by_cases hpos : 0 < len m
  · rw [assignCode, if_pos hpos]
    have hstart := wf_memWrite h.wfStart (len m) (memRead 0 acc.1 (len m) + 1)
    have hcode := wf_memWrite h.wfCode m (BitVec.ofNat 16 (memRead 0 acc.1 (len m)))
    refine ⟨hstart, hcode, fun k hk h16 => ?_, fun i hi hposi => ?_⟩
    · rw [memRead_memWrite 0 (rising_of_wf h.wfStart), symbolCount_succ, h.start _ hpos hm]
      by_cases hkm : k = len m
      · rw [if_pos hkm, if_pos hkm.symm, hkm]; omega
      · rw [if_neg hkm, if_neg (Ne.symm hkm), h.start k hk h16]; rfl
    · rw [memRead_memWrite 0 (rising_of_wf h.wfCode)]
      by_cases him : i = m
      · rw [if_pos him, him, h.start _ hpos hm]
      · rw [if_neg him, h.code i (by omega) hposi]
  · rw [assignCode, if_neg hpos]
    refine ⟨h.wfStart, h.wfCode, fun k hk h16 => ?_, fun i hi hposi => ?_⟩
    · rw [h.start k hk h16, symbolCount_succ, if_neg (by omega), Nat.add_zero]
    · have him : i ≠ m := fun him => hpos (him ▸ hposi)
      exact h.code i (by omega) hposi

theorem assigned_assignCodes {n m : Nat} {len : Nat → Nat} (hlen : ∀ i, i < m → len i ≤ 16) :
    Assigned n m len (assignCodes n m len) := by
  induction m with
  | zero => exact .initial n len
  | succ m ih =>
    rw [assignCodes_succ]
    exact (ih fun i hi => hlen i (by omega)).next (hlen m (Nat.lt_succ_self m))

theorem makeCode_isSome_iff {n : Nat} {len : Nat → Nat} (hlen : ∀ i, i < n → len i ≤ 16) :
    (makeCode n len).isSome = true ↔ kraft n len = 2 ^ 16 := by
  rw [makeCode_eq, firstCode_seventeen hlen]
  split
  · next h => simp only [Option.isSome_none, Bool.false_eq_true, false_iff]; omega
  · next h => simp only [Option.isSome_some, true_iff]; omega

section Codes
variable {n : Nat} {len : Nat → Nat} {code : Memory Half}

theorem firstCode_of_makeCode (hcode : makeCode n len = some code) : firstCode n len 17 = 2 ^ 17 := by
  rw [makeCode_eq] at hcode
  split at hcode
  · cases hcode
  · next h => exact not_not.mp h

/-- Under the Kraft equality a symbol's canonical code fits its length. -/
theorem canonicalCode_lt (hkraft : firstCode n len 17 = 2 ^ 17) (hlen : ∀ i, i < n → len i ≤ 16) {i : Nat}
    (hi : i < n) (hpos : 0 < len i) : firstCode n len (len i) + symbolCount i len (len i) < 2 ^ len i :=
  Nat.lt_of_lt_of_le (Nat.add_lt_add_left (symbolCount_lt len hi) _)
    (firstCode_add_symbolCount_le hkraft hpos (hlen i hi))

/-- R136's value. -/
theorem halfAt_makeCode (hlen : ∀ i, i < n → len i ≤ 16) (hcode : makeCode n len = some code) {i : Nat} (hi : i < n)
    (hpos : 0 < len i) : halfAt code i = firstCode n len (len i) + symbolCount i len (len i) := by
  have hkraft := firstCode_of_makeCode hcode
  rw [makeCode_eq, if_neg (not_not.mpr hkraft), Option.some_inj] at hcode
  have hread := (assigned_assignCodes (n := n) hlen).code i hi hpos
  have hlt := Nat.lt_of_lt_of_le (canonicalCode_lt hkraft hlen hi hpos)
    (Nat.pow_le_pow_right Nat.two_pos (hlen i hi))
  rw [halfAt, ← hcode, hread, BitVec.toNat_ofNat, Nat.mod_eq_of_lt hlt]

theorem halfAt_makeCode_lt (hlen : ∀ i, i < n → len i ≤ 16) (hcode : makeCode n len = some code) {i : Nat} (hi : i < n)
    (hpos : 0 < len i) : halfAt code i < 2 ^ len i := by
  rw [halfAt_makeCode hlen hcode hi hpos]
  exact canonicalCode_lt (firstCode_of_makeCode hcode) hlen hi hpos

/-- Among codes of one length the later symbol has the greater one. -/
theorem halfAt_makeCode_strictMono (hlen : ∀ i, i < n → len i ≤ 16) (hcode : makeCode n len = some code) {i j : Nat}
    (hij : i < j) (hj : j < n) (hpos : 0 < len i) (heq : len i = len j) : halfAt code i < halfAt code j := by
  rw [halfAt_makeCode hlen hcode (by omega) hpos, halfAt_makeCode hlen hcode hj (by omega), ← heq]
  exact Nat.add_lt_add_left (symbolCount_lt len hij) _

/-- A shorter code is below the beginning of any longer one. -/
theorem halfAt_makeCode_lt_beginning (hlen : ∀ i, i < n → len i ≤ 16) (hcode : makeCode n len = some code) {i j : Nat}
    (hi : i < n) (hj : j < n) (hpos : 0 < len i) (hlt : len i < len j) :
    halfAt code i < halfAt code j / 2 ^ (len j - len i) := by
  rw [halfAt_makeCode hlen hcode hi hpos, halfAt_makeCode hlen hcode hj (by omega)]
  calc firstCode n len (len i) + symbolCount i len (len i)
      < firstCode n len (len i) + symbolCount n len (len i) := Nat.add_lt_add_left (symbolCount_lt len hi) _
    _ ≤ firstCode n len (len j) / 2 ^ (len j - len i) :=
      (Nat.le_div_iff_mul_le (Nat.two_pow_pos _)).mpr (firstCode_extends n len hpos hlt)
    _ ≤ _ := Nat.div_le_div_right (Nat.le_add_right _ _)

/-- No code is the beginning of another (R136). -/
theorem halfAt_makeCode_prefixFree (hlen : ∀ i, i < n → len i ≤ 16) (hcode : makeCode n len = some code) {i j : Nat}
    (hi : i < n) (hj : j < n) (hij : i ≠ j) (hpos : 0 < len i) (hle : len i ≤ len j) :
    halfAt code j / 2 ^ (len j - len i) ≠ halfAt code i := by
  rcases Nat.lt_or_eq_of_le hle with hlt | heq
  · exact Nat.ne_of_gt (halfAt_makeCode_lt_beginning hlen hcode hi hj hpos hlt)
  · rw [heq, Nat.sub_self, Nat.pow_zero, Nat.div_one]
    rcases Nat.lt_or_gt_of_ne hij with h | h
    · exact Nat.ne_of_gt (halfAt_makeCode_strictMono hlen hcode h hj hpos heq)
    · exact Nat.ne_of_lt (halfAt_makeCode_strictMono hlen hcode h hi (heq ▸ hpos) heq.symm)

end Codes

/-- Settles O55: the first codes are sums of the counts, the last of them the Kraft sum, and each length's codes begin
where the shorter ones, extended, end. -/
theorem canonicalCode : Obligations.CanonicalCode := by
  intro n len _ hlen
  exact ⟨makeCode_isSome_iff hlen, fun code hcode => ⟨fun _ => halfAt_makeCode hlen hcode,
    fun _ => halfAt_makeCode_lt hlen hcode, fun _ _ => halfAt_makeCode_prefixFree hlen hcode,
    fun _ _ => halfAt_makeCode_strictMono hlen hcode⟩⟩

end Sys2Proof.Machine
end

section
/-! PROOFS. Which words of an opcode run its command (30_encoding.md R138-R140): the words a row of the opcode map
accepts, as numbers, for each of the three forms of a command. -/

namespace Sys2Proof

open Claims Machine

/-- The row of the opcode map for an OP: the form its N and BYTE must have (R139, R140). -/
def opcodeForm (op : Nat) (n : BitVec 5) (b : Byte) : Except Reject Instr :=
  match op with
  | 0x00 => plainForm n b .nop
  | 0x01 => plainForm n b .encode
  | 0x02 => plainForm n b .decode
  | 0x10 => plainForm n b .crcInit
  | 0x11 => byteForm n b .crcByte
  | 0x12 => plainForm n b .crcRead
  | 0x20 => plainForm n b .bwInit
  | 0x21 => countForm n b .bwPut
  | 0x22 => plainForm n b .bwFlush
  | 0x28 => plainForm n b .brInit
  | 0x29 => countForm n b .brPeek
  | 0x2A => countForm n b .brAdvance
  | 0x2B => countForm n b .brGet
  | _ => .error .opcode

theorem decode_eq_opcodeForm (w : Word) : decode w =
    if fieldReservedLow w ≠ 0#3 ∨ fieldReservedHigh w ≠ 0#8 then .error .reservedBit
    else opcodeForm (fieldOp w).toNat (fieldN w) (fieldByte w) := rfl

theorem decode_eq_ok_iff_opcodeForm {w : Word} {i : Instr} : decode w = .ok i ↔
    w.toNat / 8192 % 8 = 0 ∧ w.toNat / 16777216 = 0 ∧
      opcodeForm (w.toNat % 256) (fieldN w) (fieldByte w) = .ok i := by
  have hlow : fieldReservedLow w = 0#3 ↔ w.toNat / 8192 % 8 = 0 := by
    rw [← toNat_fieldReservedLow]; exact BitVec.toNat_eq
  have hhigh : fieldReservedHigh w = 0#8 ↔ w.toNat / 16777216 = 0 := by
    rw [← toNat_fieldReservedHigh]; exact BitVec.toNat_eq
  rw [← hlow, ← hhigh, ← toNat_fieldOp, decode_eq_opcodeForm]
  split
  · next h => simp only [reduceCtorEq, false_iff]; exact fun ⟨hl, hh, _⟩ => h.elim (· hl) (· hh)
  · next h => simp only [ne_eq, not_or, not_not] at h; simp only [h, true_and]

/-- A CMD write goes by what decoding says, so the words that run a command are the ones decoding accepts. -/
theorem wordsOf_of_decode {op : Nat} {legal : Word → Option Instr} {s : State} (hidle : s.phase = .idle)
    (hlegal : ∀ w i, w.toNat % 256 = op → (decode w = .ok i ↔ legal w = some i)) : wordsOf op legal s := by
  intro w hop
  cases hd : decode w with
  | ok i => simp only [writeCmd, hd, (hlegal w i hop).mp hd]
  | error r =>
    cases hl : legal w with
    | none => simp only [writeCmd, hd, issueIllegal_eq_rejected hidle]
    | some i => rw [(hlegal w i hop).mpr hl] at hd; cases hd

theorem fieldN_eq_zero_iff {w : Word} : fieldN w = 0#5 ↔ w.toNat / 256 % 32 = 0 := by
  rw [← toNat_fieldN]; exact BitVec.toNat_eq

theorem fieldByte_eq_zero_iff {w : Word} : fieldByte w = 0#8 ↔ w.toNat / 65536 % 256 = 0 := by
  rw [← toNat_fieldByte]; exact BitVec.toNat_eq

theorem wordsOf_plainWord {op : Nat} {i : Instr} {s : State} (hidle : s.phase = .idle)
    (hform : opcodeForm op = fun n b => plainForm n b i) : wordsOf op (plainWord op i) s := by
  refine wordsOf_of_decode hidle fun w j hop => ?_
  rw [decode_eq_ok_iff_opcodeForm, hop, hform, plainForm_eq_ok, fieldN_eq_zero_iff, fieldByte_eq_zero_iff, plainWord,
    Option.ite_none_right_eq_some, Option.some_inj]
  have hw := w.isLt
  constructor
  · rintro ⟨hlow, hhigh, hn, hb, hj⟩
    exact ⟨by omega, hj⟩
  · rintro ⟨hval, hj⟩
    exact ⟨by omega, by omega, by omega, by omega, hj⟩

theorem wordsOf_countWord {op : Nat} {mk : BitVec 5 → Instr} {s : State} (hidle : s.phase = .idle)
    (hform : opcodeForm op = fun n b => countForm n b mk) : wordsOf op (countWord mk) s := by
  refine wordsOf_of_decode hidle fun w j hop => ?_
  rw [decode_eq_ok_iff_opcodeForm, hop, hform, countForm_eq_ok, fieldByte_eq_zero_iff, toNat_fieldN, countWord,
    Option.ite_none_right_eq_some, Option.some_inj]
  have hfield : w.toNat / 256 ≤ 16 → fieldN w = BitVec.ofNat 5 (w.toNat / 256) := fun h =>
    BitVec.eq_of_toNat_eq (by rw [toNat_fieldN, BitVec.toNat_ofNat])
  constructor
  · rintro ⟨hlow, hhigh, hb, hn, hj⟩
    have hle : w.toNat / 256 ≤ 16 := by omega
    exact ⟨hle, hfield hle ▸ hj⟩
  · rintro ⟨hle, hj⟩
    exact ⟨by omega, by omega, by omega, by omega, (hfield hle).symm ▸ hj⟩

theorem wordsOf_byteWord {op : Nat} {mk : Byte → Instr} {s : State} (hidle : s.phase = .idle)
    (hform : opcodeForm op = fun n b => byteForm n b mk) : wordsOf op (byteWord mk) s := by
  refine wordsOf_of_decode hidle fun w j hop => ?_
  rw [decode_eq_ok_iff_opcodeForm, hop, hform, byteForm_eq_ok, fieldN_eq_zero_iff, byteWord,
    Option.ite_none_right_eq_some, Option.some_inj]
  have hfield : fieldByte w = BitVec.ofNat 8 (w.toNat / 65536) :=
    BitVec.eq_of_toNat_eq (by rw [toNat_fieldByte, BitVec.toNat_ofNat])
  rw [hfield]
  constructor
  · rintro ⟨hlow, hhigh, hn, hj⟩
    exact ⟨⟨by omega, hhigh⟩, hj⟩
  · rintro ⟨⟨hmid, hhigh⟩, hj⟩
    exact ⟨by omega, hhigh, by omega, hj⟩

end Sys2Proof
end

section
/-! PROOFS. Running a diagnostic command to its end (44_pipeline.md R340, 40_bitstream_crc.md section 5): the command's
meaning is the state its operations, run one after the other, get to. -/

namespace Sys2Proof.Machine

open Claims

/-- The same state with these operations of a command still to do. -/
def State.doing (cmd : Instr) (todo : List Task) (s : State) : State := { s with phase := .run cmd todo }

theorem doing_phase (cmd : Instr) (todo : List Task) (s : State) : (s.doing cmd todo).phase = .run cmd todo := rfl

/-- The sequencer gets from `s` to `t`, a command with nothing left to do ending in either (R340). -/
def Runs (P : Params) (s t : State) : Prop := ∃ k, runSeq P k (endIfDone s) = endIfDone t

theorem Runs.refl (P : Params) (s : State) : Runs P s s := ⟨0, rfl⟩

theorem Runs.trans {P : Params} {s t u : State} (hst : Runs P s t) (htu : Runs P t u) : Runs P s u := by
  obtain ⟨k, hk⟩ := hst
  obtain ⟨j, hj⟩ := htu
  exact ⟨k + j, by rw [runSeq_add, hk, hj]⟩

/-- One operation. -/
theorem Runs.task {P : Params} {cmd : Instr} {t : Task} {todo : List Task} {s u : State}
    (h : runTask P t (s.doing cmd todo) = .ok u) : Runs P (s.doing cmd (t :: todo)) u := by
  refine ⟨1, ?_⟩
  rw [endIfDone_more (doing_phase cmd (t :: todo) s), runSeq_ran P 0 (seqStep_ok P (doing_phase cmd (t :: todo) s) h),
    runSeq_zero]

theorem exists_runSeq_eq_endIfDone (P : Params) (s : State) : ∃ k, runSeq P k s = endIfDone s := by
  unfold endIfDone
  split
  · next h => exact ⟨1, runSeq_ran P 0 (seqStep_end P h)⟩
  · exact ⟨0, rfl⟩
  · exact ⟨0, rfl⟩

theorem started_diagnosticSide {i : Instr} (hi : diagnostic i) (s : State) : (started i s).onSides diagnosticSide :=
  started_onSides s ⟨nofun, nofun⟩ (absurd · hi.1) (absurd · hi.2) fun _ _ => ⟨nofun, nofun⟩

/-- A diagnostic command that gets to an idle state ends there: it takes far fewer steps than it may. -/
theorem exec_eq_of_runSeq {i : Instr} (hi : diagnostic i) {s t : State} (hidle : s.phase = .idle) {k : Nat}
    (h : runSeq Config.build k (started i s) = t) (ht : t.phase = .idle) : exec i s = .next t := by
  have hrun : runSeq Config.build fullRun (started i s) = t :=
    calc runSeq Config.build fullRun (started i s)
        = runSeq Config.build k (runSeq Config.build fullRun (started i s)) :=
          (runSeq_stopped Config.build (started_diagnosticSide hi s) (started_stepBound_lt hi s) k).symm
      _ = runSeq Config.build fullRun (runSeq Config.build k (started i s)) := by
        rw [← runSeq_add, ← runSeq_add, Nat.add_comm]
      _ = t := by rw [h, runSeq_idle _ _ ht]
  rw [exec_idle i hidle, settle_diagnostic _ hi (.inr ⟨_, started_phase i s⟩), hrun]

theorem exec_eq_of_runs {i : Instr} (hi : diagnostic i) {s t : State} (hidle : s.phase = .idle)
    (h : Runs Config.build (started i s) (t.doing i [])) : exec i s = .next (endCommand .none t) := by
  obtain ⟨j, hj⟩ := exists_runSeq_eq_endIfDone Config.build (started i s)
  obtain ⟨k, hk⟩ := h
  exact exec_eq_of_runSeq hi hidle (k := j + k) (by rw [runSeq_add, hj, hk]; rfl) rfl

/-- A command that does everything at once. -/
theorem exec_of_no_tasks {i : Instr} (hi : diagnostic i) {s : State} (hidle : s.phase = .idle)
    (htasks : startTasks i s = []) : exec i s = .next (endCommand .none (started i s)) := by
  refine exec_eq_of_runs hi hidle ?_
  have h : (started i s).doing i [] = started i s := by
    rw [State.doing, ← htasks, ← started_phase]
  rw [h]
  exact .refl _ _

end Sys2Proof.Machine
end

section
/-! PROOFS. The CRC commands (40_bitstream_crc.md R211-R217). -/

namespace Sys2Proof.Machine

open Claims

/-- One turn of the table's construction, on numbers (R211). -/
theorem toNat_crcShift (r : Half) :
    (crcShift r).toNat = if r.toNat % 2 = 1 then (r.toNat / 2) ^^^ 0x8408 else r.toNat / 2 := by
  have hbit : r.getLsbD 0 = decide (r.toNat % 2 = 1) := Nat.testBit_zero r.toNat
  rw [crcShift, hbit]
  simp only [decide_eq_true_eq]
  split <;> simp [Nat.shiftRight_eq_div_pow]

theorem toNat_crcTable (i : Byte) : (crcTable i).toNat = tableEntry i.toNat := by
  have hi : (i.setWidth 16).toNat = i.toNat := by simp; omega
  simp only [crcTable, toNat_crcShift, hi]
  rfl

theorem crcStep_eq_nextCrc (crc : Half) (b : Byte) : crcStep crc b = nextCrc crc b := by
  have hindex : ((crc ^^^ b.setWidth 16).setWidth 8).toNat = (crc.toNat ^^^ b.toNat) % 256 := by
    rw [BitVec.toNat_setWidth, BitVec.toNat_xor, BitVec.toNat_setWidth_of_le (by decide)]
  apply BitVec.eq_of_toNat_eq
  rw [crcStep, nextCrc, ← hindex, ← toNat_crcTable, BitVec.toNat_ofNat, BitVec.toNat_xor, BitVec.toNat_ushiftRight,
    Nat.shiftRight_eq_div_pow]
  exact (Nat.mod_eq_of_lt (Nat.xor_lt_two_pow (BitVec.isLt _) (by omega))).symm

/-- R214's complement. -/
theorem crcFinal_eq_not (s : State) : crcFinal s = ~~~s.crc := by
  rw [crcFinal, BitVec.xor_comm]
  exact BitVec.allOnes_xor

/-- Settles O7: each command does everything at once, and the table is R211's. -/
theorem crcCommands : Obligations.CrcCommands := by
  intro s b hidle
  refine ⟨⟨?_, wordsOf_plainWord hidle rfl⟩, ⟨?_, wordsOf_byteWord hidle rfl⟩,
    ⟨?_, wordsOf_plainWord hidle rfl⟩⟩
  · exact exec_of_no_tasks (i := .crcInit) ⟨nofun, nofun⟩ hidle rfl
  · rw [← crcStep_eq_nextCrc]
    exact exec_of_no_tasks (i := .crcByte b) ⟨nofun, nofun⟩ hidle rfl
  · rw [← crcFinal_eq_not]
    exact exec_of_no_tasks (i := .crcRead) ⟨nofun, nofun⟩ hidle rfl

end Sys2Proof.Machine
end

section
/-! PROOFS. The writer commands (40_bitstream_crc.md R201-R205, R218-R220): PutBits as one operation on the pending bits
and the sink, reached bit by bit. -/

namespace Sys2Proof.Machine

open Claims

/-- Settles O8: BW_INIT does everything at once. -/
theorem bwInitResult : Obligations.BwInitResult := fun _ hidle =>
  ⟨exec_of_no_tasks (i := .bwInit) ⟨nofun, nofun⟩ hidle rfl, wordsOf_plainWord hidle rfl⟩

/-! ### One bit and one byte (R203, R204) -/

theorem toNat_appendBit {b : Bool} {w : Writer} (hn : w.wn ≤ 7) (hacc : w.wacc.toNat < 2 ^ w.wn) :
    (appendBit b w).wacc.toNat = w.wacc.toNat * 2 + b.toNat := by
  have h7 : 2 ^ w.wn ≤ 2 ^ 7 := Nat.pow_le_pow_right Nat.two_pos hn
  have hshift : (w.wacc <<< 1).toNat = w.wacc.toNat <<< 1 := by
    rw [BitVec.toNat_shiftLeft, Nat.shiftLeft_eq]; omega
  have hbit : ((bit b).setWidth 8).toNat = b.toNat := by cases b <;> rfl
  rw [appendBit, BitVec.toNat_or, hshift, hbit, ← Nat.shiftLeft_add_eq_or_of_lt (Bool.toNat_lt b), Nat.shiftLeft_eq]

/-- The state after EmitByte(b), the host accepting every byte. -/
def emitDone (b : Byte) (s : State) : State :=
  { s with
    bw := { s.bw with
      compsize := if s.bw.compsize.toNat < s.bw.limit.toNat then s.bw.compsize + 1 else s.bw.compsize
      unpackable := if s.bw.compsize.toNat < s.bw.limit.toNat then s.bw.unpackable else true }
    port := { s.port with
      sink := if s.bw.compsize.toNat < s.bw.limit.toNat then s.port.sink ++ [b] else s.port.sink } }

theorem emitByteTask_eq_emitDone (b : Byte) {s : State} (hroom : s.port.room = none) :
    emitByteTask b s = .ok (emitDone b s) := by
  unfold emitByteTask emitDone snkWrite
  rw [hroom]
  split <;> rfl

/-! ### PutBits as a whole (R203) -/

/-- The state after PutBits(n, x), the host accepting every byte: the writer and the sink of `afterPut`. -/
def putDone (n x : Nat) (s : State) : State :=
  { s with bw := (afterPut n x s).bw, port := { s.port with sink := s.port.sink ++ delivered n x s } }

theorem completed_eq_nil {n x : Nat} {s : State} (h : s.bw.wn + n < 8) : completed n x s = [] := by
  rw [completed, Nat.div_eq_of_lt h]; rfl

theorem delivered_eq_nil {n x : Nat} {s : State} (h : s.bw.wn + n < 8) : delivered n x s = [] := by
  rw [delivered, completed_eq_nil h, List.take_nil]

theorem delivered_at_ceiling (n x : Nat) {s : State} (h : ¬ s.bw.compsize.toNat < s.bw.limit.toNat) :
    delivered n x s = [] := by
  rw [delivered, Nat.sub_eq_zero_of_le (Nat.le_of_not_lt h), List.take_zero]

theorem joined_zero (x : Nat) (s : State) : joined 0 x s = s.bw.wacc.toNat := by simp [joined, Nat.mod_one]

theorem putDone_zero (x : Nat) {s : State} (hn : s.bw.wn ≤ 7) (hacc : s.bw.wacc.toNat < 2 ^ s.bw.wn) :
    putDone 0 x s = s := by
  have h8 : s.bw.wn + 0 < 8 := by omega
  have hwacc : BitVec.ofNat 8 (joined 0 x s % 2 ^ ((s.bw.wn + 0) % 8)) = s.bw.wacc := by
    rw [joined_zero, Nat.mod_eq_of_lt h8, Nat.mod_eq_of_lt (by exact hacc), BitVec.ofNat_toNat, BitVec.setWidth_eq]
  rw [putDone, afterPut, hwacc, Nat.mod_eq_of_lt h8, completed_eq_nil h8, delivered_eq_nil h8, List.append_nil]
  simp

/-- Two PutBits with the same outcome, from states that differ in the writer and the sink. -/
theorem putDone_congr {n m x : Nat} {s t : State}
    (hframe : t = { s with bw := t.bw, port := { s.port with sink := t.port.sink } })
    (hwn : (s.bw.wn + n) % 8 = (t.bw.wn + m) % 8)
    (hpending : joined n x s % 2 ^ ((s.bw.wn + n) % 8) = joined m x t % 2 ^ ((t.bw.wn + m) % 8))
    (hsize : s.bw.compsize + BitVec.ofNat 64 (delivered n x s).length
      = t.bw.compsize + BitVec.ofNat 64 (delivered m x t).length)
    (hlimit : s.bw.limit = t.bw.limit)
    (hdrop : (s.bw.unpackable || decide ((delivered n x s).length < (completed n x s).length))
      = (t.bw.unpackable || decide ((delivered m x t).length < (completed m x t).length)))
    (hsink : s.port.sink ++ delivered n x s = t.port.sink ++ delivered m x t) : putDone n x s = putDone m x t := by
  rw [putDone, afterPut, hpending, hwn, hsize, hlimit, hdrop, hsink, putDone, afterPut]
  generalize t.bw = w, t.port.sink = sink at *
  subst hframe
  rfl

/-- The first bit of the new ones joins the pending bits. -/
theorem joined_succ {i x : Nat} {s : State} (hn : s.bw.wn ≤ 7) (hacc : s.bw.wacc.toNat < 2 ^ s.bw.wn) :
    joined (i + 1) x s = (appendBit (x.testBit i) s.bw).wacc.toNat * 2 ^ i + x % 2 ^ i := by
  rw [joined, toNat_appendBit hn hacc, Nat.mod_pow_succ, Nat.toNat_testBit, Nat.pow_succ]
  ring

/-- A bit that completes no byte. -/
theorem putDone_appendBit {i x : Nat} {s : State} (hn : s.bw.wn < 7) (hacc : s.bw.wacc.toNat < 2 ^ s.bw.wn) :
    putDone (i + 1) x s = putDone i x { s with bw := appendBit (x.testBit i) s.bw } := by
  have hjoined : joined (i + 1) x s = joined i x { s with bw := appendBit (x.testBit i) s.bw } :=
    joined_succ (by omega) hacc
  have hcount : s.bw.wn + (i + 1) = (appendBit (x.testBit i) s.bw).wn + i := by
    simp only [appendBit]; omega
  have hcompleted : completed (i + 1) x s = completed i x { s with bw := appendBit (x.testBit i) s.bw } := by
    rw [completed, completed, hjoined, hcount]
  have hdelivered : delivered (i + 1) x s = delivered i x { s with bw := appendBit (x.testBit i) s.bw } := by
    rw [delivered, delivered, hcompleted]; rfl
  exact putDone_congr rfl (by rw [hcount])
    (by rw [hjoined, hcount]) (by rw [hdelivered]; rfl) rfl (by rw [hdelivered, hcompleted]; rfl) (by rw [hdelivered])

/-- A bit that completes a byte: the byte comes first, the later bits complete the others. -/
theorem completed_succ {i x : Nat} {s t : State} (hn : s.bw.wn = 7) (hacc : s.bw.wacc.toNat < 2 ^ s.bw.wn)
    (htn : t.bw.wn = 0) (htacc : t.bw.wacc = 0) :
    completed (i + 1) x s = (appendBit (x.testBit i) s.bw).wacc :: completed i x t := by
  have hcount : (s.bw.wn + (i + 1)) / 8 = (t.bw.wn + i) / 8 + 1 := by omega
  have hjoined : joined i x t = x % 2 ^ i := by simp [joined, htacc]
  rw [completed, hcount, List.range_succ_eq_map, List.map_cons, List.map_map, completed]
  congr 1
  · rw [joined_succ (by omega) hacc, show s.bw.wn + (i + 1) - 8 * (0 + 1) = i by omega, Nat.mul_comm,
      Nat.mul_add_div (Nat.two_pow_pos i), Nat.div_eq_of_lt (Nat.mod_lt _ (Nat.two_pow_pos i)), Nat.add_zero,
      BitVec.ofNat_toNat, BitVec.setWidth_eq]
  · refine List.map_congr_left fun k hk => ?_
    have hk : 8 * (k + 1) ≤ i := by have := List.mem_range.mp hk; omega
    obtain ⟨j, rfl⟩ : ∃ j, i = j + 8 * (k + 1) := ⟨i - 8 * (k + 1), by omega⟩
    rw [Function.comp_apply, joined_succ (by omega) hacc, hjoined, htn,
      show s.bw.wn + (j + 8 * (k + 1) + 1) - 8 * (k.succ + 1) = j by omega,
      show 0 + (j + 8 * (k + 1)) - 8 * (k + 1) = j by omega, Nat.pow_add 2 j, Nat.mul_left_comm,
      Nat.mul_add_div (Nat.two_pow_pos j)]
    apply BitVec.eq_of_toNat_eq
    rw [BitVec.toNat_ofNat, BitVec.toNat_ofNat, Nat.mul_succ, Nat.pow_add 2 (8 * k), ← Nat.mul_assoc,
      Nat.mul_add_mod_self_right]

/-- The bits left pending are the last ones. -/
theorem joined_succ_mod {i x : Nat} {s t : State} (hn : s.bw.wn = 7) (hacc : s.bw.wacc.toNat < 2 ^ s.bw.wn)
    (htn : t.bw.wn = 0) (htacc : t.bw.wacc = 0) :
    joined (i + 1) x s % 2 ^ ((s.bw.wn + (i + 1)) % 8) = joined i x t % 2 ^ ((t.bw.wn + i) % 8) := by
  have hdvd : 2 ^ (i % 8) ∣ 2 ^ i := Nat.pow_dvd_pow 2 (Nat.mod_le i 8)
  rw [joined_succ (by omega) hacc, joined, htacc, htn, show (s.bw.wn + (i + 1)) % 8 = i % 8 by omega, Nat.zero_add,
    Nat.add_mod, Nat.mod_eq_zero_of_dvd (hdvd.mul_left _)]
  simp

section Byte
variable {i x : Nat} {s t : State} (hn : s.bw.wn = 7) (hacc : s.bw.wacc.toNat < 2 ^ s.bw.wn)
include hn hacc

/-- A byte below the ceiling. -/
theorem putDone_deliver {b : Byte} (hb : b = (appendBit (x.testBit i) s.bw).wacc)
    (hlimit : s.bw.compsize.toNat < s.bw.limit.toNat)
    (hbw : t.bw = { s.bw with wacc := 0, wn := 0, compsize := s.bw.compsize + 1 })
    (hsink : t.port.sink = s.port.sink ++ [b])
    (hframe : t = { s with bw := t.bw, port := { s.port with sink := t.port.sink } }) :
    putDone (i + 1) x s = putDone i x t := by
  have htn : t.bw.wn = 0 := by rw [hbw]
  have hcompleted : completed (i + 1) x s = b :: completed i x t := by
    rw [hb]; exact completed_succ hn hacc htn (by rw [hbw])
  have hroom : s.bw.limit.toNat - s.bw.compsize.toNat = t.bw.limit.toNat - t.bw.compsize.toNat + 1 := by
    rw [hbw]; bv_omega
  have hdelivered : delivered (i + 1) x s = b :: delivered i x t := by
    rw [delivered, hcompleted, hroom, List.take_succ_cons, delivered]
  refine putDone_congr hframe (by omega) (joined_succ_mod hn hacc htn (by rw [hbw])) ?_ (by rw [hbw]) ?_ ?_
  · rw [hdelivered, hbw, List.length_cons, BitVec.ofNat_add, BitVec.add_comm (BitVec.ofNat 64 _), ← BitVec.add_assoc]
    rfl
  · rw [hdelivered, hcompleted, hbw, List.length_cons, List.length_cons]
    simp only [Nat.add_lt_add_iff_right]
  · rw [hdelivered, hsink, List.append_assoc, List.singleton_append]

/-- A byte at the ceiling. -/
theorem putDone_drop (hlimit : ¬ s.bw.compsize.toNat < s.bw.limit.toNat)
    (hbw : t.bw = { s.bw with wacc := 0, wn := 0, unpackable := true })
    (hframe : t = { s with bw := t.bw }) : putDone (i + 1) x s = putDone i x t := by
  have htn : t.bw.wn = 0 := by rw [hbw]
  have hport : t.port = s.port := by rw [hframe]
  have hnone := delivered_at_ceiling (i + 1) x hlimit
  have hnone' := delivered_at_ceiling i x (s := t) (by rw [hbw]; exact hlimit)
  refine putDone_congr (by rw [hport]; exact hframe) (by omega) (joined_succ_mod hn hacc htn (by rw [hbw])) ?_
    (by rw [hbw]) ?_ ?_
  · rw [hnone, hnone', hbw]
  · rw [hnone, completed_succ hn hacc htn (by rw [hbw]), hbw]
    simp
  · rw [hnone, hnone', hport]

/-- A bit that completes a byte: it is delivered or dropped, and the later bits start from no pending ones. -/
theorem putDone_emitDone :
    putDone (i + 1) x s = putDone i x (clearAccTask (emitDone (appendBit (x.testBit i) s.bw).wacc s)) := by
  by_cases hlimit : s.bw.compsize.toNat < s.bw.limit.toNat
  · exact putDone_deliver hn hacc rfl hlimit (by simp only [clearAccTask, emitDone, if_pos hlimit])
      (if_pos hlimit) rfl
  · exact putDone_drop hn hacc hlimit (by simp only [clearAccTask, emitDone, if_neg hlimit])
      (by simp only [clearAccTask, emitDone, if_neg hlimit])

end Byte

/-! ### The steps of PutBits -/

/-- A bit that completes a byte: the byte, then the reset of the pending bits. -/
theorem runs_putBits_byte (P : Params) (cmd : Instr) (todo : List Task) {i x : Nat} {s : State}
    (hroom : s.port.room = none) (hn : s.bw.wn = 7) :
    Runs P (s.doing cmd (.putBits (i + 1) x :: todo))
      ((clearAccTask (emitDone (appendBit (x.testBit i) s.bw).wacc s)).doing cmd (.putBits i x :: todo)) := by
  set w := appendBit (x.testBit i) s.bw
  have hbit : runTask P (.putBits (i + 1) x) (s.doing cmd todo)
      = .ok (State.doing cmd (.emitByte w.wacc :: .clearAcc :: .putBits i x :: todo) { s with bw := w }) :=
    congrArg Except.ok (if_pos (show s.bw.wn + 1 = 8 by omega))
  have hemit : runTask P (.emitByte w.wacc) (State.doing cmd (.clearAcc :: .putBits i x :: todo) { s with bw := w })
      = .ok ((emitDone w.wacc { s with bw := w }).doing cmd (.clearAcc :: .putBits i x :: todo)) :=
    emitByteTask_eq_emitDone _ (by exact hroom)
  have hclear : runTask P .clearAcc ((emitDone w.wacc { s with bw := w }).doing cmd (.putBits i x :: todo))
      = .ok ((clearAccTask (emitDone w.wacc s)).doing cmd (.putBits i x :: todo)) := rfl
  exact (Runs.task hbit).trans ((Runs.task hemit).trans (Runs.task hclear))

/-- PutBits is reached bit by bit; the operations after it find its state. -/
theorem runs_putBits (P : Params) (cmd : Instr) (todo : List Task) (n x : Nat) {s : State} (hroom : s.port.room = none)
    (hn : s.bw.wn ≤ 7) (hacc : s.bw.wacc.toNat < 2 ^ s.bw.wn) :
    Runs P (s.doing cmd (.putBits n x :: todo)) ((putDone n x s).doing cmd todo) := by
  induction n generalizing s with
  | zero => rw [putDone_zero x hn hacc]; exact .task rfl
  | succ i ih =>
    rcases Nat.lt_or_eq_of_le hn with h7 | h7
    · have hbit : runTask P (.putBits (i + 1) x) (s.doing cmd todo)
          = .ok (State.doing cmd (.putBits i x :: todo) { s with bw := appendBit (x.testBit i) s.bw }) :=
        congrArg Except.ok (if_neg (show ¬ s.bw.wn + 1 = 8 by omega))
      rw [putDone_appendBit h7 hacc]
      exact (Runs.task hbit).trans (ih hroom h7 (toNat_appendBit_lt _ hn hacc))
    · rw [putDone_emitDone h7 hacc]
      exact (runs_putBits_byte P cmd todo hroom h7).trans (ih hroom (Nat.zero_le 7) Nat.one_pos)

/-! ### The commands -/

theorem pending_of_writerOk {s : State} (hidle : s.phase = .idle) (hs : s.writerOk) :
    s.bw.wn ≤ 7 ∧ s.bw.wacc.toNat < 2 ^ s.bw.wn := by
  rcases hs with h | ⟨-, h⟩
  · exact h
  · rw [todo_idle hidle] at h; cases h

/-- A command that is one PutBits. -/
theorem exec_putBits {i : Instr} {n x : Nat} (hi : diagnostic i) {s : State} (hidle : s.phase = .idle)
    (hs : s.writerOk) (hroom : s.port.room = none)
    (hstart : started i s = (started i s).doing i [.putBits n x])
    (hbw : (started i s).bw = s.bw) (hport : (started i s).port.room = s.port.room) :
    exec i s = .next (endCommand .none (putDone n x (started i s))) := by
  obtain ⟨hn, hacc⟩ := pending_of_writerOk hidle hs
  rw [← hbw] at hn hacc
  exact exec_eq_of_runs hi hidle (hstart ▸ runs_putBits _ i [] n x (hport.trans hroom) hn hacc)

theorem argBits_eq (s : State) : argBits s = s.regs.arg.toNat % 65536 := by
  rw [argBits, BitVec.extractLsb'_toNat]; rfl

/-- Settles O9: BW_PUT is one PutBits. -/
theorem bwPutResult : Obligations.BwPutResult := by
  intro s n hidle hs hroom
  refine ⟨?_, wordsOf_countWord hidle rfl⟩
  rw [← argBits_eq]
  exact exec_putBits (i := .bwPut n) ⟨nofun, nofun⟩ hidle hs hroom rfl rfl rfl

/-! ### BW_FLUSH (R205) -/

/-- The bits left pending are zero bits. -/
theorem pending_flush (s : State) : BitVec.ofNat 8 (joined 7 0 s % 2 ^ ((s.bw.wn + 7) % 8)) = 0 := by
  have hdvd : 2 ^ ((s.bw.wn + 7) % 8) ∣ 2 ^ 7 := Nat.pow_dvd_pow 2 (by omega)
  have hjoined : joined 7 0 s = s.bw.wacc.toNat * 2 ^ 7 := rfl
  rw [hjoined, Nat.mod_eq_zero_of_dvd (hdvd.mul_left _)]
  rfl

/-- The one byte that seven zero bits complete. -/
theorem completed_flush {s : State} (hpos : 0 < s.bw.wn) (hn : s.bw.wn ≤ 7) :
    completed 7 0 s = [s.bw.wacc <<< (8 - s.bw.wn)] := by
  have hcount : (s.bw.wn + 7) / 8 = 1 := by omega
  have hjoined : joined 7 0 s = s.bw.wacc.toNat * 2 ^ 7 := rfl
  have hpow : (2 : Nat) ^ 7 = 2 ^ (8 - s.bw.wn) * 2 ^ (s.bw.wn + 7 - 8) := by
    rw [← Nat.pow_add]; congr 1; omega
  rw [completed, hcount, hjoined, hpow, ← Nat.mul_assoc]
  simp only [List.range_one, List.map_cons, List.map_nil, Nat.zero_add, Nat.mul_one,
    Nat.mul_div_cancel _ (Nat.two_pow_pos _)]
  congr 1
  apply BitVec.eq_of_toNat_eq
  rw [BitVec.toNat_ofNat, BitVec.toNat_shiftLeft, Nat.shiftLeft_eq]

/-- Settles O10: BW_FLUSH is PutBits(7, 0), which completes a byte where a bit is pending. -/
theorem bwFlushResult : Obligations.BwFlushResult := by
  intro s hidle hs hroom
  obtain ⟨hn, -⟩ := pending_of_writerOk hidle hs
  have hwacc := pending_flush s
  refine ⟨⟨afterPut 7 0 s, ?_, hwacc, rfl, fun h0 => ?_, fun hpos hlimit => ?_, fun hpos hlimit => ?_⟩,
    wordsOf_plainWord hidle rfl⟩
  · exact exec_putBits (i := .bwFlush) ⟨nofun, nofun⟩ hidle hs hroom rfl rfl rfl
  · have h8 : s.bw.wn + 7 < 8 := by omega
    rw [afterPut, hwacc, completed_eq_nil h8, delivered_eq_nil h8, h0]
    simp [ended]
  · have hdelivered : delivered 7 0 s = [s.bw.wacc <<< (8 - s.bw.wn)] := by
      rw [delivered, completed_flush hpos hn, List.take_of_length_le]
      exact Nat.sub_pos_of_lt hlimit
    rw [afterPut, hwacc, hdelivered, completed_flush hpos hn, show (s.bw.wn + 7) % 8 = s.bw.wn - 1 by omega]
    simp [ended]
  · rw [afterPut, hwacc, delivered_at_ceiling 7 0 hlimit, completed_flush hpos hn,
      show (s.bw.wn + 7) % 8 = s.bw.wn - 1 by omega]
    simp [ended]

end Sys2Proof.Machine
end

section
/-! PROOFS. The reader commands (40_bitstream_crc.md R206-R210, R221-R224): Fill's loop keeps the stream from its
position on, one byte of it at a time entering the sub-byte buffer. -/

namespace Sys2Proof.Machine

open Claims

/-- Settles O12: BR_PEEK does everything at once. -/
theorem brPeekResult : Obligations.BrPeekResult := by
  intro s n hidle _
  refine ⟨?_, wordsOf_countWord hidle rfl⟩
  rw [← Nat.shiftRight_eq_div_pow, ← BitVec.toNat_ushiftRight]
  exact exec_of_no_tasks (i := .brPeek n) ⟨nofun, nofun⟩ hidle rfl

/-! ### Bytes of the source (R207) -/

/-- The state after so many FetchBytes, the host presenting every byte: past the declared size nothing is taken. -/
def takeBytes (k : Nat) (s : State) : State :=
  { s with
    br := { s.br with remaining := s.br.remaining - BitVec.ofNat 64 (min s.br.remaining.toNat k) }
    port := { s.port with taken := s.port.taken + min s.br.remaining.toNat k } }

/-- Bit `j` of the bytes that may still be fetched, then zero bits. -/
def sourceBit (s : State) (j : Nat) : Bool :=
  if j / 8 < s.br.remaining.toNat then ((s.port.source[s.port.taken + j / 8]?).getD 0).getLsbD (7 - j % 8) else false

/-- The byte FetchByte returns. -/
def nextByte (s : State) : Byte := if s.br.remaining = 0 then 0 else (s.port.source[s.port.taken]?).getD 0

/-- The counter does not wrap. -/
theorem toNat_sub_ofNat_min (q : Quad) (k : Nat) :
    (q - BitVec.ofNat 64 (min q.toNat k)).toNat = q.toNat - min q.toNat k := by
  have hq := q.isLt
  rw [BitVec.toNat_sub, BitVec.toNat_ofNat]
  omega

theorem takeBytes_zero (s : State) : takeBytes 0 s = s := by simp [takeBytes]

theorem takeBytes_of_remaining_eq_zero (k : Nat) {s : State} (h : s.br.remaining = 0) : takeBytes k s = s := by
  have hmin : min s.br.remaining.toNat k = 0 := by rw [h]; exact Nat.zero_min k
  rw [takeBytes, hmin]
  simp

theorem takeBytes_remaining (k : Nat) (s : State) :
    (takeBytes k s).br.remaining.toNat = s.br.remaining.toNat - min s.br.remaining.toNat k :=
  toNat_sub_ofNat_min _ k

theorem takeBytes_takeBytes (j k : Nat) (s : State) : takeBytes j (takeBytes k s) = takeBytes (k + j) s := by
  have hremaining := takeBytes_remaining k s
  have hsum : min s.br.remaining.toNat (k + j)
      = min s.br.remaining.toNat k + min (takeBytes k s).br.remaining.toNat j := by omega
  have hremaining' : (takeBytes j (takeBytes k s)).br.remaining = (takeBytes (k + j) s).br.remaining := by
    simp only [takeBytes] at hsum ⊢
    rw [hsum, BitVec.ofNat_add, sub_add_eq_sub_sub]
  have htaken : (takeBytes j (takeBytes k s)).port.taken = (takeBytes (k + j) s).port.taken := by
    simp only [takeBytes] at hsum ⊢
    rw [hsum, Nat.add_assoc]
  exact congrArg₂ (fun r n => ({ s with
    br := { s.br with remaining := r }, port := { s.port with taken := n } } : State)) hremaining' htaken

theorem sourceBit_takeBytes (k : Nat) (s : State) (j : Nat) :
    sourceBit (takeBytes k s) j = sourceBit s (8 * k + j) := by
  have hremaining := takeBytes_remaining k s
  rw [sourceBit, sourceBit, show (8 * k + j) / 8 = k + j / 8 by omega, show (8 * k + j) % 8 = j % 8 by omega]
  by_cases h : k + j / 8 < s.br.remaining.toNat
  · have htaken : (takeBytes k s).port.taken = s.port.taken + k :=
      congrArg (s.port.taken + ·) (Nat.min_eq_right (by omega))
    rw [if_pos h, if_pos (by omega), htaken, Nat.add_assoc]
    rfl
  · rw [if_neg h, if_neg (by omega)]

theorem getLsbD_nextByte (s : State) {j : Nat} (hj : j < 8) : (nextByte s).getLsbD (7 - j) = sourceBit s j := by
  rw [nextByte, sourceBit, Nat.div_eq_of_lt hj, Nat.mod_eq_of_lt hj, Nat.add_zero]
  by_cases h : s.br.remaining = 0
  · simp [h]
  · have hpos : 0 < s.br.remaining.toNat := by bv_omega
    rw [if_neg h, if_pos hpos]

theorem fetchByte_eq_nextByte {s : State}
    (hsource : s.port.taken + min s.br.remaining.toNat 1 ≤ s.port.source.length) :
    fetchByte s = .ok (nextByte s, takeBytes 1 s) := by
  by_cases h : s.br.remaining = 0
  · rw [fetchByte_past_end h, nextByte, if_pos h, takeBytes_of_remaining_eq_zero 1 h]
  · have hmin : min s.br.remaining.toNat 1 = 1 := Nat.min_eq_right (by bv_omega)
    rw [hmin] at hsource
    have hbyte : s.port.source[s.port.taken]? = some s.port.source[s.port.taken] := List.getElem?_eq_getElem hsource
    refine (fetchByte_eq_ok h).mpr ⟨?_, ?_⟩
    · rw [nextByte, if_neg h, hbyte]; rfl
    · rw [takeBytes, hmin]; rfl

/-! ### The stream (R209) -/

theorem streamBit_bitbuf {s : State} {i : Nat} (hi : i < 16) : streamBit s i = s.br.bitbuf.getLsbD (15 - i) := if_pos hi

theorem streamBit_subbuf {s : State} {i : Nat} (hi : 16 ≤ i) (hsub : i < 16 + s.br.subn) :
    streamBit s i = s.br.subbuf.getLsbD (s.br.subn - 1 - (i - 16)) := by
  rw [streamBit, if_neg (by omega), if_pos hsub]

theorem streamBit_source {s : State} {i : Nat} (hi : 16 + s.br.subn ≤ i) :
    streamBit s i = sourceBit s (i - 16 - s.br.subn) := by
  rw [streamBit, if_neg (by omega), if_neg (by omega)]; rfl

/-- Bit `i` of the stream while the `n` low bits of `bitbuf` are still to be filled: Fill's loop keeps it. -/
def pendingBit (n : Nat) (s : State) (i : Nat) : Bool :=
  if i < 16 - n then s.br.bitbuf.getLsbD (15 - i) else streamBit s (i + n)

/-- The `n` low bits of `bitbuf` are still to be filled. -/
def lowClear (n : Nat) (s : State) : Prop := ∀ j, j < n → s.br.bitbuf.getLsbD j = false

theorem subbuf_getLsbD_eq_false {s : State} (hs : s.readerOk) {j : Nat} (hj : s.br.subn ≤ j) :
    s.br.subbuf.getLsbD j = false := by
  obtain ⟨-, hsubbuf, -⟩ := hs
  exact Nat.testBit_lt_two_pow (Nat.lt_of_lt_of_le hsubbuf (Nat.pow_le_pow_right Nat.two_pos hj))

theorem pendingBit_zero (s : State) (i : Nat) : pendingBit 0 s i = streamBit s i := by
  by_cases hi : i < 16
  · rw [pendingBit, if_pos (by omega), streamBit_bitbuf hi]
  · rw [pendingBit, if_neg (by omega)]; rfl

/-- Fill's shift. -/
def fillShift (n : Nat) (s : State) : State := { s with br := { s.br with bitbuf := s.br.bitbuf <<< n } }

theorem lowClear_fillShift (n : Nat) (s : State) : lowClear n (fillShift n s) := by
  intro j hj
  simp [fillShift, hj]

/-- After the shift the bits that are still to be filled are the later ones of the stream. -/
theorem pendingBit_fillShift {n : Nat} (hn : n ≤ 16) (s : State) (i : Nat) :
    pendingBit n (fillShift n s) i = streamBit s (i + n) := by
  by_cases hi : i < 16 - n
  · have hlow : ¬ 15 - i < n := by omega
    rw [pendingBit, if_pos hi, streamBit_bitbuf (by omega), fillShift, BitVec.getLsbD_shiftLeft,
      show 15 - i - n = 15 - (i + n) by omega]
    simp [hlow]
    omega
  · have h16 : ¬ i + n < 16 := by omega
    rw [pendingBit, if_neg hi]
    exact (if_neg h16).trans (if_neg h16).symm

/-! ### Fill's loop (R209) -/

/-- A turn of Fill's loop: the sub-byte buffer goes to `bitbuf`, and a byte comes in. -/
def fillTurn (n : Nat) (s : State) : State :=
  { takeBytes 1 s with br := { (takeBytes 1 s).br with
      bitbuf := s.br.bitbuf ||| (s.br.subbuf.setWidth 16 <<< (n - s.br.subn)), subbuf := nextByte s, subn := 8 } }

/-- The end of Fill's loop: the sub-byte buffer has the bits that are missing. -/
def fillEnd (n : Nat) (s : State) : State :=
  { s with br := { s.br with
      bitbuf := s.br.bitbuf ||| (s.br.subbuf >>> (s.br.subn - n)).setWidth 16
      subbuf := s.br.subbuf &&& BitVec.ofNat 8 (2 ^ (s.br.subn - n) - 1)
      subn := s.br.subn - n } }

section Loop
variable {n : Nat} {s : State}

theorem readerOk_fillTurn (hs : s.readerOk) : (fillTurn n s).readerOk := by
  obtain ⟨-, -, hremaining⟩ := hs
  exact ⟨Nat.le_refl 8, (nextByte s).isLt, ((takeBytes_remaining 1 s).trans_le (Nat.sub_le _ _)).trans hremaining⟩

theorem readerOk_fillEnd (hs : s.readerOk) : (fillEnd n s).readerOk := by
  obtain ⟨hsubn, -, hremaining⟩ := hs
  have hle : s.br.subn - n ≤ 8 := by omega
  exact ⟨hle, toNat_and_mask_lt _ hle, hremaining⟩

theorem fillTurn_bitbuf_getLsbD {j : Nat} (hj : j < 16) : (fillTurn n s).br.bitbuf.getLsbD j =
    (s.br.bitbuf.getLsbD j || (decide (n - s.br.subn ≤ j) && s.br.subbuf.getLsbD (j - (n - s.br.subn)))) := by
  have hlow : decide (n - s.br.subn ≤ j) = !decide (j < n - s.br.subn) := by
    rw [← decide_not]; exact decide_eq_decide.mpr Nat.not_lt.symm
  have hwidth : j - (n - s.br.subn) < 16 := by omega
  show (s.br.bitbuf ||| s.br.subbuf.setWidth 16 <<< (n - s.br.subn)).getLsbD j = _
  rw [BitVec.getLsbD_or, BitVec.getLsbD_shiftLeft, BitVec.getLsbD_setWidth, decide_eq_true hj, decide_eq_true hwidth,
    Bool.true_and, Bool.true_and, hlow]

theorem fillEnd_bitbuf_getLsbD {j : Nat} (hj : j < 16) : (fillEnd n s).br.bitbuf.getLsbD j =
    (s.br.bitbuf.getLsbD j || s.br.subbuf.getLsbD (s.br.subn - n + j)) := by
  show (s.br.bitbuf ||| (s.br.subbuf >>> (s.br.subn - n)).setWidth 16).getLsbD j = _
  rw [BitVec.getLsbD_or, BitVec.getLsbD_setWidth, decide_eq_true hj, Bool.true_and, BitVec.getLsbD_ushiftRight]

theorem fillEnd_subbuf_getLsbD (hsubn : s.br.subn ≤ 8) {j : Nat} (hj : j < s.br.subn - n) :
    (fillEnd n s).br.subbuf.getLsbD j = s.br.subbuf.getLsbD j := by
  show (s.br.subbuf &&& BitVec.ofNat 8 (2 ^ (s.br.subn - n) - 1)).getLsbD j = _
  rw [BitVec.getLsbD_and, BitVec.getLsbD_ofNat, Nat.testBit_two_pow_sub_one, decide_eq_true hj,
    decide_eq_true (by omega), Bool.and_true, Bool.and_true]

theorem streamBit_fillTurn {i : Nat} (hi : 16 ≤ i) : streamBit (fillTurn n s) i = sourceBit s (i - 16) := by
  by_cases hsub : i < 24
  · rw [streamBit_subbuf hi (by exact hsub), ← getLsbD_nextByte s (by omega)]
    rfl
  · refine (streamBit_source (s := fillTurn n s) (show 16 + 8 ≤ i by omega)).trans ?_
    refine (sourceBit_takeBytes 1 s (i - 16 - 8)).trans ?_
    rw [show 8 * 1 + (i - 16 - 8) = i - 16 by omega]

theorem lowClear_fillTurn (hn : n ≤ 16) (hlow : lowClear n s) : lowClear (n - s.br.subn) (fillTurn n s) := by
  intro j hj
  rw [fillTurn_bitbuf_getLsbD (by omega), hlow j (by omega), decide_eq_false (by omega)]
  rfl

variable (hn : n ≤ 16) (hs : s.readerOk) (hlow : lowClear n s)
include hn hs hlow

theorem pendingBit_fillTurn (hlt : s.br.subn < n) (i : Nat) :
    pendingBit (n - s.br.subn) (fillTurn n s) i = pendingBit n s i := by
  by_cases hi : i < 16 - (n - s.br.subn)
  · rw [pendingBit, if_pos hi, fillTurn_bitbuf_getLsbD (by omega), decide_eq_true (by omega), Bool.true_and, pendingBit]
    by_cases hold : i < 16 - n
    · rw [if_pos hold, subbuf_getLsbD_eq_false hs (by omega), Bool.or_false]
    · rw [if_neg hold, hlow _ (by omega), Bool.false_or, streamBit_subbuf (by omega) (by omega)]
      congr 1
      omega
  · rw [pendingBit, if_neg hi, pendingBit, if_neg (by omega), streamBit_fillTurn (by omega),
      streamBit_source (by omega)]
    congr 1
    omega

theorem streamBit_fillEnd (hle : n ≤ s.br.subn) (i : Nat) : streamBit (fillEnd n s) i = pendingBit n s i := by
  rw [pendingBit]
  by_cases hi : i < 16
  · rw [streamBit_bitbuf hi, fillEnd_bitbuf_getLsbD (by omega)]
    by_cases hold : i < 16 - n
    · rw [if_pos hold, subbuf_getLsbD_eq_false hs (by omega), Bool.or_false]
    · rw [if_neg hold, hlow _ (by omega), Bool.false_or, streamBit_subbuf (by omega) (by omega)]
      congr 1
      omega
  · rw [if_neg (by omega)]
    by_cases hsub : i < 16 + (s.br.subn - n)
    · have hsubn : s.br.subn ≤ 8 := hs.1
      have hidx : s.br.subn - n - 1 - (i - 16) < s.br.subn - n := by omega
      rw [streamBit_subbuf (s := s) (by omega) (by omega),
        show s.br.subn - 1 - (i + n - 16) = s.br.subn - n - 1 - (i - 16) by omega, ← fillEnd_subbuf_getLsbD hsubn hidx]
      exact streamBit_subbuf (by omega) hsub
    · rw [streamBit_source (s := s) (by omega)]
      refine (streamBit_source (s := fillEnd n s) (by exact Nat.le_of_not_lt hsub)).trans ?_
      show sourceBit s (i - 16 - (s.br.subn - n)) = _
      congr 1
      omega

end Loop

/-- How many turns Fill's loop takes: one for each byte that comes in. -/
def fillTurns (n : Nat) (s : State) : Nat := (n - s.br.subn + 7) / 8

/-- The same state with these bits in `bitbuf` and, `c` of them, in the sub-byte buffer. -/
def State.withBits (r : Reader) (c : Nat) (s : State) : State :=
  { s with br := { s.br with bitbuf := r.bitbuf, subbuf := r.subbuf, subn := c } }

/-- The state after Fill(n), `r` being the state of the bit buffers after it. -/
def filled (n : Nat) (r : Reader) (s : State) : State :=
  (takeBytes (fillTurns n s) s).withBits r (s.br.subn + 8 * fillTurns n s - n)

theorem filled_fillTurn {n : Nat} {s : State} (r : Reader) (hlt : s.br.subn < n) :
    filled (n - s.br.subn) r (fillTurn n s) = filled n r s := by
  have hturns : fillTurns n s = 1 + fillTurns (n - s.br.subn) (fillTurn n s) := by
    show (n - s.br.subn + 7) / 8 = 1 + (n - s.br.subn - 8 + 7) / 8
    omega
  rw [filled, filled, hturns, ← takeBytes_takeBytes,
    show s.br.subn + 8 * (1 + fillTurns (n - s.br.subn) (fillTurn n s)) - n
      = 8 + 8 * fillTurns (n - s.br.subn) (fillTurn n s) - (n - s.br.subn) by omega]
  rfl

theorem runTask_fillLoop_turn (P : Params) (cmd : Instr) (todo : List Task) {n : Nat} {s : State}
    (hlt : s.br.subn < n) (hsource : s.port.taken + min s.br.remaining.toNat 1 ≤ s.port.source.length) :
    runTask P (.fillLoop n) (s.doing cmd todo)
      = .ok ((fillTurn n s).doing cmd (.fillLoop (n - s.br.subn) :: todo)) := by
  have hfetch := fetchByte_eq_nextByte (s := s.doing cmd todo) hsource
  refine (if_pos hlt).trans ?_
  rw [hfetch]
  rfl

/-- Fill's loop keeps the stream: a turn for each byte, then its end. -/
theorem exists_runs_fillLoop (P : Params) (cmd : Instr) (todo : List Task) (k : Nat) {n : Nat} {s : State}
    (hk : fillTurns n s = k) (hn : n ≤ 16) (hs : s.readerOk) (hlow : lowClear n s)
    (hsource : s.port.taken + min s.br.remaining.toNat k ≤ s.port.source.length) :
    ∃ r, Runs P (s.doing cmd (.fillLoop n :: todo)) ((filled n r s).doing cmd todo) ∧
      (∀ i, streamBit (filled n r s) i = pendingBit n s i) ∧ (filled n r s).readerOk := by
  induction k generalizing n s with
  | zero =>
    have hle : n ≤ s.br.subn := by unfold fillTurns at hk; omega
    have hend : filled n (fillEnd n s).br s = fillEnd n s := by
      rw [filled, hk, takeBytes_zero]; rfl
    refine ⟨(fillEnd n s).br, ?_⟩
    rw [hend]
    exact ⟨.task (if_neg (Nat.not_lt.mpr hle)), streamBit_fillEnd hn hs hlow hle, readerOk_fillEnd hs⟩
  | succ k ih =>
    have hlt : s.br.subn < n := by unfold fillTurns at hk; omega
    have hremaining := takeBytes_remaining 1 s
    have hturns : fillTurns (n - s.br.subn) (fillTurn n s) = k := by
      show (n - s.br.subn - 8 + 7) / 8 = k
      unfold fillTurns at hk
      omega
    have hsource' : s.port.taken + min s.br.remaining.toNat 1 + min (takeBytes 1 s).br.remaining.toNat k
        ≤ s.port.source.length := by omega
    obtain ⟨r, hruns, hstream, hok⟩ :=
      ih hturns (by omega) (readerOk_fillTurn hs) (lowClear_fillTurn hn hlow) hsource'
    rw [filled_fillTurn r hlt] at hruns hstream hok
    refine ⟨r, ?_, fun i => (hstream i).trans (pendingBit_fillTurn hn hs hlow hlt i), hok⟩
    exact (Runs.task (runTask_fillLoop_turn P cmd todo hlt (by omega))).trans hruns

/-- Fill(n) moves the stream `n` bits on. -/
theorem exists_runs_fill (P : Params) (cmd : Instr) (todo : List Task) {n : Nat} {s : State} (hn : n ≤ 16)
    (hs : s.readerOk) (hsource : s.port.taken + fetched n s ≤ s.port.source.length) :
    ∃ r, Runs P (s.doing cmd (.fill n :: todo)) ((filled n r s).doing cmd todo) ∧
      (∀ i, streamBit (filled n r s) i = streamBit s (i + n)) ∧ (filled n r s).readerOk := by
  obtain ⟨r, hruns, hstream, hok⟩ := exists_runs_fillLoop P cmd todo (fillTurns n s) (n := n) (s := fillShift n s)
    rfl hn hs (lowClear_fillShift n s) hsource
  have hshift : runTask P (.fill n) (s.doing cmd todo) = .ok ((fillShift n s).doing cmd (.fillLoop n :: todo)) := rfl
  exact ⟨r, (Runs.task hshift).trans hruns, fun i => (hstream i).trans (pendingBit_fillShift hn s i), hok⟩

/-! ### BR_ADVANCE and BR_GET (R209, R210) -/

/-- `consumed` is counted before anything else changes. -/
def counted (n : Nat) (s : State) : State :=
  { s with br := { s.br with consumed := s.br.consumed + BitVec.ofNat 64 n } }

/-- In the default build, which is not STRICT_EOF, Advance never faults. -/
theorem runTask_advance (cmd : Instr) (todo : List Task) (n : Nat) (s : State) :
    runTask Config.build (.advance n) (s.doing cmd todo) = .ok ((counted n s).doing cmd (.fill n :: todo)) := by
  refine congrArg Except.ok ?_
  rw [advanceTask]
  exact if_neg fun h => Bool.false_ne_true h.1

theorem exists_runs_advance (cmd : Instr) (todo : List Task) {n : Nat} {s : State} (hn : n ≤ 16)
    (hs : s.readerOk) (hsource : s.port.taken + fetched n s ≤ s.port.source.length) :
    ∃ r, Runs Config.build (s.doing cmd (.advance n :: todo)) ((filled n r (counted n s)).doing cmd todo) ∧
      (∀ i, streamBit (filled n r (counted n s)) i = streamBit s (i + n)) ∧ (filled n r (counted n s)).readerOk := by
  obtain ⟨r, hruns, hstream, hok⟩ := exists_runs_fill Config.build cmd todo (s := counted n s) hn hs hsource
  exact ⟨r, (Runs.task (runTask_advance cmd todo n s)).trans hruns, hstream, hok⟩

/-- Settles O13: BR_ADVANCE is one Advance. -/
theorem brAdvanceResult : Obligations.BrAdvanceResult := by
  intro s n hidle hn hs hsource
  obtain ⟨r, hruns, hstream, hok⟩ :=
    exists_runs_advance (.brAdvance n) [] (s := started (.brAdvance n) s) hn hs hsource
  exact ⟨⟨r, exec_eq_of_runs (i := .brAdvance n) ⟨nofun, nofun⟩ hidle hruns, hstream, hok⟩,
    wordsOf_countWord hidle rfl⟩

/-- Settles O14: BR_GET is one Advance, then the write of the bits seen before it. -/
theorem brGetResult : Obligations.BrGetResult := by
  intro s n hidle hn hs hsource
  set v : Word := BitVec.ofNat 32 (peekBits (countOperand n) s)
  obtain ⟨r, hruns, hstream, hok⟩ :=
    exists_runs_advance (.brGet n) [.setResult v] (s := started (.brGet n) s) hn hs hsource
  have hresult := hruns.trans (Runs.task rfl)
  refine ⟨⟨r, ?_, hstream, hok⟩, wordsOf_countWord hidle rfl⟩
  rw [← Nat.shiftRight_eq_div_pow, ← BitVec.toNat_ushiftRight]
  exact exec_eq_of_runs (i := .brGet n) (t := setResult v _) ⟨nofun, nofun⟩ hidle hresult

/-! ### BR_INIT (R206) -/

theorem firstByte_getLsbD (s : State) (k : Nat) {j : Nat} (hj : j < 8) :
    (firstByte s k).getLsbD (7 - j) = sourceBit (started .brInit s) (8 * k + j) := by
  have hremaining : (started .brInit s).br.remaining = s.regs.compSize := rfl
  rw [firstByte, sourceBit, hremaining, show (8 * k + j) / 8 = k by omega, show (8 * k + j) % 8 = j by omega]
  by_cases hk : k < s.regs.compSize.toNat
  · rw [if_pos hk, if_pos hk]; rfl
  · rw [if_neg hk, if_neg hk]; exact BitVec.getLsbD_zero

/-- The first 16 bits of the stream are the first two bytes. -/
theorem firstBytes_getLsbD (s : State) {i : Nat} (hi : i < 16) :
    (firstByte s 0 ++ firstByte s 1).getLsbD (15 - i) = streamBit (started .brInit s) (i + 16) := by
  rw [BitVec.getLsbD_append]
  refine .trans ?_ (streamBit_source (s := started .brInit s) (show 16 + 0 ≤ i + 16 by omega)).symm
  show _ = sourceBit (started .brInit s) (i + 16 - 16 - 0)
  by_cases h8 : i < 8
  · rw [if_neg (by omega), show 15 - i - 8 = 7 - i by omega, firstByte_getLsbD s 0 h8]
    congr 1
    omega
  · rw [if_pos (by omega), show 15 - i = 7 - (i - 8) by omega, firstByte_getLsbD s 1 (by omega)]
    congr 1
    omega

/-- Settles O11: BR_INIT is a Fill of an empty reader; the stream it moves on begins with the first two bytes. -/
theorem brInitResult : Obligations.BrInitResult := by
  intro s hidle hsource
  have hturns : fillTurns 16 (started .brInit s) = 2 := by
    show (16 - 0 + 7) / 8 = 2
    rfl
  have hfetched : fetched 16 (started .brInit s) = min s.regs.compSize.toNat 2 := congrArg (min _) hturns
  obtain ⟨r, hruns, hstream, hok⟩ := exists_runs_fill Config.build .brInit [.brInitEnd] (n := 16)
    (s := started .brInit s) (Nat.le_refl 16) ⟨Nat.zero_le 8, Nat.one_pos, Nat.le_refl _⟩
    (by rw [hfetched]; exact hsource)
  have hfilled : filled 16 r (started .brInit s) = (takeBytes 2 (started .brInit s)).withBits r 0 := by
    rw [filled, hturns]; rfl
  rw [hfilled] at hruns hstream hok
  have hsubbuf : r.subbuf = 0 := by
    obtain ⟨-, hlt, -⟩ := hok
    exact BitVec.eq_of_toNat_eq (Nat.lt_one_iff.mp hlt)
  have hbitbuf : r.bitbuf = firstByte s 0 ++ firstByte s 1 := by
    refine BitVec.eq_of_getLsbD_eq fun j hj => ?_
    obtain ⟨i, hi, rfl⟩ : ∃ i, i < 16 ∧ j = 15 - i := ⟨15 - j, by omega, by omega⟩
    rw [firstBytes_getLsbD s hi, ← hstream i, streamBit_bitbuf hi]
    rfl
  refine ⟨?_, wordsOf_plainWord hidle rfl⟩
  rw [← hbitbuf, ← hsubbuf]
  exact exec_eq_of_runs (i := .brInit) (t := brInitEndTask _) ⟨nofun, nofun⟩ hidle (hruns.trans (Runs.task rfl))

/-! ### The look-ahead (R207) -/

/-- A diagnostic command that ends would end in the same way with more source bytes presented. -/
theorem exec_supplyMore {i : Instr} (hi : diagnostic i) {s t : State} (hidle : s.phase = .idle)
    (h : exec i s = .next t) (ht : t.phase = .idle) (bs : List Byte) :
    exec i (s.mapPort (supplyMore bs)) = .next (t.mapPort (supplyMore bs)) := by
  rw [exec_idle i hidle, settle_diagnostic _ hi (.inr ⟨_, started_phase i s⟩)] at h
  cases h
  obtain ⟨k, hk⟩ := runSeq_mapPort (offersMore_supplyMore bs) Config.build fullRun
    (started_diagnosticSide hi s)
  rw [← started_mapPort (offersMore_supplyMore bs)] at hk
  exact exec_eq_of_runSeq hi hidle hk ht

/-- So much source that no command waits for it. -/
theorem taken_add_le_supplyMore (s : State) (k : Nat) : s.port.taken + k ≤
    (s.mapPort (supplyMore (List.replicate (s.port.taken + k) 0))).port.source.length := by
  show _ ≤ (s.port.source ++ List.replicate (s.port.taken + k) 0).length
  rw [List.length_append, List.length_replicate]
  omega

/-- The reader has `min(csize, 2 + ceil(k/8))` bytes taken after `k` bits, and the rest of the last byte is in the
sub-byte buffer. -/
def lookAhead (r : Reader) : Prop :=
  r.subn = (8 - r.consumed.toNat % 8) % 8 ∧
    r.csize.toNat - r.remaining.toNat = min r.csize.toNat (2 + (r.consumed.toNat + 7) / 8)

theorem lookAhead_of_start {r : Reader} (hsubn : r.subn = 0) (hconsumed : r.consumed = 0)
    (hremaining : r.remaining = r.csize - BitVec.ofNat 64 (min r.csize.toNat 2)) : lookAhead r := by
  have hbytes := toNat_sub_ofNat_min r.csize 2
  rw [← hremaining] at hbytes
  rw [lookAhead, hsubn, hconsumed]
  refine ⟨rfl, ?_⟩
  show _ = min r.csize.toNat 2
  omega

theorem lookAhead_brInit {s t : State} (hidle : s.phase = .idle) (h : exec .brInit s = .next t)
    (ht : t.phase = .idle) : lookAhead t.br := by
  set bs : List Byte := List.replicate (s.port.taken + min s.regs.compSize.toNat 2) 0
  have hsupplied := exec_supplyMore (i := .brInit) ⟨nofun, nofun⟩ hidle h ht bs
  rw [(brInitResult (s.mapPort (supplyMore bs)) hidle (taken_add_le_supplyMore s _)).1] at hsupplied
  have hbr := congrArg State.br (Host.Outcome.next.inj hsupplied)
  change _ = t.br at hbr
  rw [← hbr]
  exact lookAhead_of_start rfl rfl rfl

theorem lookAhead_afterAdvance {n : Nat} {s : State} (r : Reader) (hs : s.readerOk)
    (hwrap : s.br.consumed.toNat + n < 2 ^ 64) (hahead : lookAhead s.br) : lookAhead (afterAdvance n r s).br := by
  obtain ⟨-, -, hcsize⟩ := hs
  obtain ⟨hsubn, hbytes⟩ := hahead
  have hconsumed : (afterAdvance n r s).br.consumed.toNat = s.br.consumed.toNat + n := by
    show (s.br.consumed + BitVec.ofNat 64 n).toNat = _
    rw [BitVec.toNat_add, BitVec.toNat_ofNat]
    omega
  have hremaining : (afterAdvance n r s).br.remaining.toNat = s.br.remaining.toNat - fetched n s :=
    toNat_sub_ofNat_min _ _
  rw [fetched] at hremaining
  rw [lookAhead, hconsumed, hremaining]
  refine ⟨?_, ?_⟩
  · show s.br.subn + 8 * ((n - s.br.subn + 7) / 8) - n = _
    omega
  · show s.br.csize.toNat - _ = min s.br.csize.toNat _
    omega

theorem lookAhead_advance {i : Instr} {n : BitVec 5} {s t : State} (hi : i = .brAdvance n ∨ i = .brGet n)
    (hidle : s.phase = .idle) (hn : n.toNat ≤ 16) (hs : s.readerOk) (hwrap : s.br.consumed.toNat + n.toNat < 2 ^ 64)
    (hahead : lookAhead s.br) (h : exec i s = .next t) (ht : t.phase = .idle) : lookAhead t.br := by
  have hdiag : diagnostic i := by rcases hi with rfl | rfl <;> exact ⟨nofun, nofun⟩
  set bs : List Byte := List.replicate (s.port.taken + fetched n.toNat s) 0
  have hsupplied := exec_supplyMore hdiag hidle h ht bs
  have hsource : _ ≤ (s.mapPort (supplyMore bs)).port.source.length := taken_add_le_supplyMore s (fetched n.toNat s)
  obtain ⟨r, hr⟩ : ∃ r, t.br = (afterAdvance n.toNat r s).br := by
    rcases hi with rfl | rfl
    · obtain ⟨⟨r, hresult, -⟩, -⟩ := brAdvanceResult (s.mapPort (supplyMore bs)) n hidle hn hs hsource
      rw [hresult] at hsupplied
      exact ⟨r, (congrArg State.br (Host.Outcome.next.inj hsupplied) :).symm⟩
    · obtain ⟨⟨r, hresult, -⟩, -⟩ := brGetResult (s.mapPort (supplyMore bs)) n hidle hn hs hsource
      rw [hresult] at hsupplied
      exact ⟨r, (congrArg State.br (Host.Outcome.next.inj hsupplied) :).symm⟩
  rw [hr]
  exact lookAhead_afterAdvance r hs hwrap hahead

/-- Settles O15: a reader command that ends has taken every byte it fetches, as with more source presented, and its
result gives the counts. -/
theorem readerLookAhead : Obligations.ReaderLookAhead := by
  rintro s t n i hidle hn (rfl | ⟨hi, hs, hwrap, hahead⟩) h ht
  · exact lookAhead_brInit hidle h ht
  · exact lookAhead_advance hi hidle hn hs hwrap hahead h ht

end Sys2Proof.Machine
end

section
/-! PROOFS. MakeTree's heap (41_huffman_encode.md R231, R232, R234) as the multiset of nodes it holds: the initial fill
holds the symbols that occur, DownHeap and the heapify loop only permute. No statement here needs the heap's order. -/

namespace Sys2Proof.Machine

/-! ### The symbols that occur -/

/-- The symbols with a non-zero frequency. -/
def occurring (n : Nat) (f : Nat → Nat) : Multiset Nat := (Multiset.range n).filter fun i => f i ≠ 0

theorem occurring_succ (n : Nat) (f : Nat → Nat) :
    occurring (n + 1) f = if f n ≠ 0 then n ::ₘ occurring n f else occurring n f := by
  rw [occurring, Multiset.range_succ, Multiset.filter_cons]
  split
  · rfl
  · exact zero_add _

theorem mem_occurring {n : Nat} {f : Nat → Nat} {i : Nat} : i ∈ occurring n f ↔ i < n ∧ f i ≠ 0 := by
  simp [occurring]

theorem nodup_occurring (n : Nat) (f : Nat → Nat) : (occurring n f).Nodup := (Multiset.nodup_range n).filter _

theorem card_occurring (n : Nat) (f : Nat → Nat) :
    (occurring n f).card = ((List.range n).filter fun i => f i ≠ 0).length := rfl

theorem card_occurring_le (n : Nat) (f : Nat → Nat) : (occurring n f).card ≤ n :=
  (Multiset.card_le_card (Multiset.filter_le _ _)).trans_eq (Multiset.card_range n)

/-- A sum over all symbols is one over those that occur, where the others add nothing. -/
theorem sum_map_occurring (n : Nat) (f g : Nat → Nat) (hg : ∀ i, i < n → f i = 0 → g i = 0) :
    ((occurring n f).map g).sum = ((List.range n).map g).sum := by
  induction n with
  | zero => rfl
  | succ n ih =>
    rw [occurring_succ, List.range_succ, List.map_append, List.sum_append, ← ih fun i hi => hg i (by omega)]
    by_cases hn : f n = 0
    · simp [hn, hg n (Nat.lt_succ_self n) hn]
    · simp [hn, Nat.add_comm]

/-! ### The nodes in the heap (R231, R232) -/

/-- The nodes at the positions `1 .. size` of the heap. -/
def heapNodes (h : Memory Nat) (size : Nat) : Multiset Nat := (Multiset.range size).map fun p => memRead 0 h (p + 1)

section Heap
variable {h : Memory Nat}

theorem heapNodes_succ (h : Memory Nat) (size : Nat) :
    heapNodes h (size + 1) = memRead 0 h (size + 1) ::ₘ heapNodes h size := by
  rw [heapNodes, Multiset.range_succ, Multiset.map_cons]; rfl

@[simp] theorem card_heapNodes (h : Memory Nat) (size : Nat) : (heapNodes h size).card = size := by simp [heapNodes]

theorem heapNodes_one (h : Memory Nat) : heapNodes h 1 = {memRead 0 h 1} := rfl

theorem memRead_mem_heapNodes (h : Memory Nat) {i size : Nat} (hi : 1 ≤ i) (hle : i ≤ size) :
    memRead 0 h i ∈ heapNodes h size :=
  Multiset.mem_map.mpr ⟨i - 1, Multiset.mem_range.mpr (by omega), by rw [Nat.sub_add_cancel hi]⟩

theorem heapNodes_memWrite_above (hh : Memory.wf 0 h = true) {i size : Nat} (hi : size < i) (k : Nat) :
    heapNodes (memWrite 0 h i k) size = heapNodes h size := by
  refine Multiset.map_congr rfl fun p hp => memRead_memWrite_ne 0 (rising_of_wf hh) k ?_
  have := Multiset.mem_range.mp hp
  omega

/-- A write inside the heap replaces one node. -/
theorem heapNodes_memWrite (hh : Memory.wf 0 h = true) {i size : Nat} (hi : 1 ≤ i) (hle : i ≤ size) (k : Nat) :
    heapNodes (memWrite 0 h i k) size = k ::ₘ (heapNodes h size).erase (memRead 0 h i) := by
  induction size, hle using Nat.le_induction with
  | base =>
    obtain ⟨p, rfl⟩ : ∃ p, i = p + 1 := ⟨i - 1, by omega⟩
    rw [heapNodes_succ, heapNodes_succ, memRead_memWrite_same 0 (rising_of_wf hh), Multiset.erase_cons_head,
      heapNodes_memWrite_above hh (Nat.lt_succ_self p)]
  | succ size hle ih =>
    rw [heapNodes_succ, heapNodes_succ, memRead_memWrite_ne 0 (rising_of_wf hh) k (by omega), ih,
      Multiset.erase_cons_tail_of_mem (memRead_mem_heapNodes h hi hle), Multiset.cons_swap]

/-- The child that DownHeap compares with: the right one only where it is strictly smaller (R232). -/
def smallerChild (fr : Nat → Nat) (size i : Nat) (h : Memory Nat) : Nat :=
  if 2 * i < size ∧ fr (memRead 0 h (2 * i + 1)) < fr (memRead 0 h (2 * i)) then 2 * i + 1 else 2 * i

theorem smallerChild_le (fr : Nat → Nat) {size i : Nat} (h : Memory Nat) (hchild : 2 * i ≤ size) :
    smallerChild fr size i h ≤ size := by
  unfold smallerChild
  split <;> omega

theorem lt_smallerChild (fr : Nat → Nat) (size : Nat) {i : Nat} (h : Memory Nat) (hi : 1 ≤ i) :
    i < smallerChild fr size i h := by
  unfold smallerChild
  split <;> omega

theorem downHeapLoop_succ (fr : Nat → Nat) (size k fuel i : Nat) (h : Memory Nat) :
    downHeapLoop fr size k (fuel + 1) i h =
      if 2 * i ≤ size then
        if fr k ≤ fr (memRead 0 h (smallerChild fr size i h)) then memWrite 0 h i k
        else downHeapLoop fr size k fuel (smallerChild fr size i h)
          (memWrite 0 h i (memRead 0 h (smallerChild fr size i h)))
      else memWrite 0 h i k := rfl

/-- DownHeap's loop leaves the nodes it leaves when it stops at once: passing a child up only swaps. -/
theorem heapNodes_downHeapLoop (fr : Nat → Nat) (k : Nat) {size : Nat} (fuel : Nat) {i : Nat}
    (hh : Memory.wf 0 h = true) (hi : 1 ≤ i) (hle : i ≤ size) :
    heapNodes (downHeapLoop fr size k fuel i h) size = k ::ₘ (heapNodes h size).erase (memRead 0 h i) := by
  induction fuel generalizing i h with
  | zero => exact heapNodes_memWrite hh hi hle k
  | succ fuel ih =>
    rw [downHeapLoop_succ]
    split
    · next hchild =>
      have hlt := lt_smallerChild fr size h hi
      split
      · exact heapNodes_memWrite hh hi hle k
      · rw [ih (wf_memWrite hh _ _) (by omega) (smallerChild_le fr h hchild), heapNodes_memWrite hh hi hle,
          memRead_memWrite_ne 0 (rising_of_wf hh) _ hlt.ne', Multiset.erase_cons_head]
    · exact heapNodes_memWrite hh hi hle k

theorem heapNodes_downHeap (fr : Nat → Nat) {size i : Nat} (hh : Memory.wf 0 h = true) (hi : 1 ≤ i) (hle : i ≤ size) :
    heapNodes (downHeap fr size i h) size = heapNodes h size :=
  (heapNodes_downHeapLoop fr _ size hh hi hle).trans (Multiset.cons_erase (memRead_mem_heapNodes h hi hle))

theorem heapNodes_heapify (fr : Nat → Nat) {size i : Nat} (hh : Memory.wf 0 h = true) (hle : i ≤ size) :
    heapNodes (heapify fr size i h) size = heapNodes h size := by
  induction i generalizing h with
  | zero => rfl
  | succ i ih =>
    exact (ih (wf_downHeap fr size (i + 1) hh) (by omega)).trans (heapNodes_downHeap fr hh (by omega) hle)

/-! ### The initial fill (R231) -/

theorem fillHeap_succ (n : Nat) (f : Nat → Nat) (h : Memory Nat) :
    fillHeap (n + 1) f h =
      if f n ≠ 0 then (memWrite 0 (fillHeap n f h).1 ((fillHeap n f h).2 + 1) n, (fillHeap n f h).2 + 1)
      else fillHeap n f h := by
  simp [fillHeap, List.range_succ]

theorem heapNodes_fillHeap (n : Nat) (f : Nat → Nat) (hh : Memory.wf 0 h = true) :
    heapNodes (fillHeap n f h).1 (fillHeap n f h).2 = occurring n f := by
  induction n with
  | zero => rfl
  | succ n ih =>
    have hwf := wf_fillHeap n f hh
    rw [fillHeap_succ, occurring_succ]
    split
    · rw [heapNodes_succ, memRead_memWrite_same 0 (rising_of_wf hwf), heapNodes_memWrite_above hwf (by omega), ih]
    · exact ih

theorem fillHeap_size (n : Nat) (f : Nat → Nat) (hh : Memory.wf 0 h = true) :
    (fillHeap n f h).2 = (occurring n f).card := by
  rw [← heapNodes_fillHeap n f hh, card_heapNodes]

/-- `heap[1] <- 0` stands where no symbol occurs. -/
theorem fillHeap_top_of_empty (n : Nat) (f : Nat → Nat) (hh : Memory.wf 0 h = true) (hempty : (fillHeap n f h).2 = 0) :
    memRead 0 (fillHeap n f h).1 1 = 0 := by
  induction n with
  | zero => exact memRead_memWrite_same 0 (rising_of_wf hh) 1 0
  | succ n ih =>
    rw [fillHeap_succ] at hempty ⊢
    split
    · next hn => rw [if_pos hn] at hempty; exact absurd hempty (Nat.succ_ne_zero _)
    · next hn => rw [if_neg hn] at hempty; exact ih hempty

end Heap

/-! ### Fewer than two symbols (R234) -/

theorem makeTree_degenerate {n : Nat} {f : Nat → Nat} {sc : TreeScratch} (h : (fillHeap n f sc.heap).2 < 2) :
    makeTree n f sc =
      { root := memRead 0 (fillHeap n f sc.heap).1 1, size := f (memRead 0 (fillHeap n f sc.heap).1 1), len := []
        code := [], scratch := { sc with heap := (fillHeap n f sc.heap).1 }, ok := true } :=
  if_pos h

/-- Settles O57: the heap then holds at most one node, and its top is the root. -/
theorem degenerateTree : Obligations.DegenerateTree := by
  intro n f sc hsc hfew
  obtain ⟨hheap, -⟩ := hsc
  have hnodes := heapNodes_fillHeap n f hheap
  have hsize := fillHeap_size n f hheap
  rw [← card_occurring, ← hsize] at hfew
  rw [makeTree_degenerate hfew]
  refine ⟨rfl, fun i => rfl, fun i hi hfi => ?_, fun hnone => fillHeap_top_of_empty n f hheap ?_⟩
  · have hmem : i ∈ occurring n f := mem_occurring.mpr ⟨hi, hfi⟩
    have hone : (fillHeap n f sc.heap).2 = 1 := by
      have := Multiset.card_pos_iff_exists_mem.mpr ⟨i, hmem⟩
      omega
    rw [← hnodes, hone, heapNodes_one, Multiset.mem_singleton] at hmem
    rw [hmem]
    exact ⟨rfl, rfl⟩
  · rw [hsize, Multiset.card_eq_zero, Multiset.eq_zero_iff_forall_notMem]
    exact fun i hi => (mem_occurring.mp hi).2 (hnone i (mem_occurring.mp hi).1)

end Sys2Proof.Machine
end

section
/-! PROOFS. MakeTree's loop (41_huffman_encode.md R231): the nodes in the heap are the roots of a forest that the child
memories store, every turn joins two of its trees, and what leaves the heap goes to the sort list. -/

namespace Sys2Proof.Machine

/-! ### Trees stored in the child memories -/

/-- A code tree: the symbols are its leaves, the inner nodes carry their index. -/
inductive CodeTree where
  | leaf (i : Nat)
  | node (k : Nat) (l r : CodeTree)

namespace CodeTree

/-- The index of the topmost node. -/
def root : CodeTree → Nat
  | leaf i => i
  | node k _ _ => k

/-- How many leaves it has. -/
def leafCount : CodeTree → Nat
  | leaf _ => 1
  | node _ l r => l.leafCount + r.leafCount

theorem leafCount_pos (t : CodeTree) : 1 ≤ t.leafCount := by
  induction t with
  | leaf i => exact Nat.le_refl 1
  | node k l r hl hr => exact Nat.le_trans hl (Nat.le_add_right _ _)

/-- The tree stands in the child memories: its leaves are symbols, its inner nodes have indices in `n ..< b`. -/
def Stored (n b : Nat) (left right : Memory Nat) : CodeTree → Prop
  | leaf i => i < n
  | node k l r => (n ≤ k ∧ k < b) ∧ (memRead 0 left k = l.root ∧ memRead 0 right k = r.root) ∧
      l.Stored n b left right ∧ r.Stored n b left right

variable {n b : Nat} {left right : Memory Nat} {t : CodeTree}

theorem Stored.root_lt (ht : t.Stored n b left right) (hnb : n ≤ b) : t.root < b := by
  cases t with
  | leaf i => exact Nat.lt_of_lt_of_le ht hnb
  | node k l r => exact ht.1.2

/-- The children of a new node overwrite nothing of a tree that is stored below it. -/
theorem Stored.memWrite (ht : t.Stored n b left right) (hleft : Memory.wf 0 left = true)
    (hright : Memory.wf 0 right = true) (i j : Nat) :
    t.Stored n (b + 1) (memWrite 0 left b i) (memWrite 0 right b j) := by
  induction t with
  | leaf x => exact ht
  | node k l r ihl ihr =>
    obtain ⟨⟨hnk, hkb⟩, ⟨hl, hr⟩, hsl, hsr⟩ := ht
    refine ⟨⟨hnk, by omega⟩, ⟨?_, ?_⟩, ihl hsl, ihr hsr⟩
    · rw [memRead_memWrite_ne 0 (rising_of_wf hleft) i hkb.ne, hl]
    · rw [memRead_memWrite_ne 0 (rising_of_wf hright) j hkb.ne, hr]

end CodeTree

/-! ### One turn of the loop -/

/-- The heap once its top was taken off: the last node, moved to the top and down. -/
def heapWithoutTop (n : Nat) (f : Nat → Nat) (size : Nat) (s : TreeScratch) : Memory Nat :=
  downHeap (nodeFreq n f s.freq) (size - 1) 1 (memWrite 0 s.heap 1 (memRead 0 s.heap size))

/-- The first node of a turn. -/
def firstNode (s : TreeScratch) : Nat := memRead 0 s.heap 1

/-- The second node of a turn. -/
def secondNode (n : Nat) (f : Nat → Nat) (size : Nat) (s : TreeScratch) : Nat :=
  memRead 0 (heapWithoutTop n f size s) 1

/-- The frequencies once the new node has its own. -/
def mergedFreq (n : Nat) (f : Nat → Nat) (size avail : Nat) (s : TreeScratch) : Memory Nat :=
  memWrite 0 s.freq avail (nodeFreq n f s.freq (firstNode s) + nodeFreq n f s.freq (secondNode n f size s))

/-- A turn of MakeTree's loop: the new node `avail` takes the place of its two children. -/
def mergeOnce (n : Nat) (f : Nat → Nat) (size avail : Nat) (s : TreeScratch) : TreeScratch :=
  { s with
    heap := downHeap (nodeFreq n f (mergedFreq n f size avail s)) (size - 1) 1
      (memWrite 0 (heapWithoutTop n f size s) 1 avail)
    freq := mergedFreq n f size avail s
    left := memWrite 0 s.left avail (firstNode s)
    right := memWrite 0 s.right avail (secondNode n f size s)
    sortlist := noteLeaf n (secondNode n f size s) (noteLeaf n (firstNode s) s.sortlist) }

theorem mergeNodes_succ (n : Nat) (f : Nat → Nat) (fuel size avail : Nat) (s : TreeScratch) :
    mergeNodes n f (fuel + 1) size avail s =
      if size - 1 ≤ 1 then (avail, mergeOnce n f size avail s)
      else mergeNodes n f fuel (size - 1) (avail + 1) (mergeOnce n f size avail s) := rfl

theorem mergeOnce_memWf (n : Nat) (f : Nat → Nat) (size avail : Nat) {s : TreeScratch} (hs : s.memWf) :
    (mergeOnce n f size avail s).memWf := by
  have h := mergeNodes_memWf n f 1 size avail hs
  rw [mergeNodes_succ] at h
  split at h
  · exact h
  · exact h

/-- A turn takes two nodes off the heap and puts the new one in. -/
theorem heapNodes_mergeOnce (n : Nat) (f : Nat → Nat) (avail : Nat) {size : Nat} {s : TreeScratch} (hs : s.memWf)
    (hsize : 2 ≤ size) : ∃ rest,
      heapNodes s.heap size = firstNode s ::ₘ secondNode n f size s ::ₘ rest ∧
      heapNodes (mergeOnce n f size avail s).heap (size - 1) = avail ::ₘ rest := by
  obtain ⟨hheap, -⟩ := hs
  obtain ⟨m, rfl, hm⟩ : ∃ m, size = m + 1 ∧ 1 ≤ m := ⟨size - 1, by omega, by omega⟩
  have hmoved : Memory.wf 0 (memWrite 0 s.heap 1 (memRead 0 s.heap (m + 1))) = true := wf_memWrite hheap _ _
  have hwithout : Memory.wf 0 (heapWithoutTop n f (m + 1) s) = true := wf_downHeap _ _ _ hmoved
  have hnodes : heapNodes s.heap (m + 1) = firstNode s ::ₘ heapNodes (heapWithoutTop n f (m + 1) s) m := by
    rw [heapWithoutTop, Nat.add_sub_cancel, heapNodes_downHeap _ hmoved (Nat.le_refl 1) hm,
      heapNodes_memWrite hheap (Nat.le_refl 1) hm, Multiset.cons_swap, firstNode,
      Multiset.cons_erase (memRead_mem_heapNodes s.heap (Nat.le_refl 1) hm), heapNodes_succ]
  refine ⟨(heapNodes (heapWithoutTop n f (m + 1) s) m).erase (secondNode n f (m + 1) s), ?_, ?_⟩
  · rw [secondNode, Multiset.cons_erase (memRead_mem_heapNodes _ (Nat.le_refl 1) hm), hnodes]
  · exact (heapNodes_downHeap _ (wf_memWrite hwithout _ _) (Nat.le_refl 1) hm).trans
      (heapNodes_memWrite hwithout (Nat.le_refl 1) hm avail)

/-! ### The forest -/

/-- Between two turns: the nodes in the heap are the roots of the forest `F`, which holds every symbol that occurs once,
and the symbols that have left the heap are in the sort list. -/
structure Merging (n : Nat) (f : Nat → Nat) (size avail : Nat) (s : TreeScratch) (F : Multiset CodeTree) : Prop where
  memWf : s.memWf
  le_avail : n ≤ avail
  roots : F.map CodeTree.root = heapNodes s.heap size
  stored : ∀ t ∈ F, t.Stored n avail s.left s.right
  leafCount : (F.map CodeTree.leafCount).sum = (occurring n f).card
  freq : ((heapNodes s.heap size).map (nodeFreq n f s.freq)).sum = ((occurring n f).map f).sum
  sorted : (s.sortlist : Multiset Nat) + (heapNodes s.heap size).filter (· < n) = occurring n f

theorem Merging.heap_lt {n : Nat} {f : Nat → Nat} {size avail : Nat} {s : TreeScratch} {F : Multiset CodeTree}
    (h : Merging n f size avail s F) {x : Nat} (hx : x ∈ heapNodes s.heap size) : x < avail := by
  rw [← h.roots] at hx
  obtain ⟨t, ht, rfl⟩ := Multiset.mem_map.mp hx
  exact (h.stored t ht).root_lt h.le_avail

/-- The fill and the heapify loop make a forest of single leaves. -/
theorem Merging.initial {n : Nat} {f : Nat → Nat} {size : Nat} {s : TreeScratch} (hs : s.memWf)
    (hheap : heapNodes s.heap size = occurring n f) (hsort : s.sortlist = []) :
    Merging n f size n s ((occurring n f).map CodeTree.leaf) where
  memWf := hs
  le_avail := Nat.le_refl n
  roots := by rw [hheap, Multiset.map_map]; exact Multiset.map_id _
  stored t ht := by
    obtain ⟨i, hi, rfl⟩ := Multiset.mem_map.mp ht
    exact (mem_occurring.mp hi).1
  leafCount := by simp [Function.comp_def, CodeTree.leafCount]
  freq := by
    rw [hheap]
    exact congrArg _ (Multiset.map_congr rfl fun i hi => if_pos (mem_occurring.mp hi).1)
  sorted := by
    rw [hheap, hsort, Multiset.filter_eq_self.mpr fun i hi => (mem_occurring.mp hi).1]
    exact zero_add _

/-- A multiset whose image has a first element has one that is sent there. -/
theorem exists_cons_of_map_eq_cons {α β : Type} {g : α → β} {F : Multiset α} {b : β} {rest : Multiset β}
    (h : F.map g = b ::ₘ rest) : ∃ a F', F = a ::ₘ F' ∧ g a = b ∧ F'.map g = rest := by
  classical
  obtain ⟨a, ha, hab, hrest⟩ := (Multiset.map_eq_cons g F rest b).mpr h
  exact ⟨a, F.erase a, (Multiset.cons_erase ha).symm, hab, hrest⟩

theorem coe_noteLeaf (n i : Nat) (l : List Nat) :
    (noteLeaf n i l : Multiset Nat) = (l : Multiset Nat) + ({i} : Multiset Nat).filter (· < n) := by
  rw [noteLeaf, Multiset.filter_singleton]
  split
  · rfl
  · exact (add_zero _).symm

theorem nodeFreq_memWrite_ne (n : Nat) (f : Nat → Nat) {freq : Memory Nat} (hfreq : Memory.wf 0 freq = true)
    {x k : Nat} (v : Nat) (hx : x ≠ k) : nodeFreq n f (memWrite 0 freq k v) x = nodeFreq n f freq x := by
  rw [nodeFreq, nodeFreq, memRead_memWrite_ne 0 (rising_of_wf hfreq) v hx]

theorem nodeFreq_memWrite_same {n k : Nat} (f : Nat → Nat) {freq : Memory Nat} (hfreq : Memory.wf 0 freq = true)
    (v : Nat) (hk : n ≤ k) : nodeFreq n f (memWrite 0 freq k v) k = v := by
  rw [nodeFreq, if_neg (Nat.not_lt.mpr hk), memRead_memWrite_same 0 (rising_of_wf hfreq)]

/-- A turn joins two trees of the forest under the new node, which is then in the heap. -/
theorem Merging.mergeOnce {n : Nat} {f : Nat → Nat} {size avail : Nat} {s : TreeScratch} {F : Multiset CodeTree}
    (h : Merging n f size avail s F) (hsize : 2 ≤ size) :
    avail ∈ heapNodes (mergeOnce n f size avail s).heap (size - 1) ∧
      ∃ F', Merging n f (size - 1) (avail + 1) (mergeOnce n f size avail s) F' := by
  obtain ⟨rest, hold, hnew⟩ := heapNodes_mergeOnce n f avail h.memWf hsize
  refine ⟨hnew ▸ Multiset.mem_cons_self _ _, ?_⟩
  have hroots := h.roots
  rw [hold] at hroots
  obtain ⟨l, F₁, rfl, hl, hroots₁⟩ := exists_cons_of_map_eq_cons hroots
  obtain ⟨r, F', rfl, hr, hrest⟩ := exists_cons_of_map_eq_cons hroots₁
  obtain ⟨-, hfreq, hleft, hright, -⟩ := h.memWf
  have hkept : ∀ t ∈ l ::ₘ r ::ₘ F',
      t.Stored n (avail + 1) (Machine.mergeOnce n f size avail s).left (Machine.mergeOnce n f size avail s).right :=
    fun t ht => (h.stored t ht).memWrite hleft hright _ _
  refine ⟨CodeTree.node avail l r ::ₘ F', {
    memWf := mergeOnce_memWf n f size avail h.memWf, le_avail := Nat.le_succ_of_le h.le_avail, roots := ?roots
    stored := ?stored, leafCount := ?leafCount, freq := ?freq, sorted := ?sorted }⟩
  case roots => rw [Multiset.map_cons, hrest, hnew]; rfl
  case stored =>
    intro t ht
    rcases Multiset.mem_cons.mp ht with rfl | ht
    · refine ⟨⟨h.le_avail, Nat.lt_succ_self _⟩, ⟨?_, ?_⟩, hkept l (by simp), hkept r (by simp)⟩
      · exact (memRead_memWrite_same 0 (rising_of_wf hleft) _ _).trans hl.symm
      · exact (memRead_memWrite_same 0 (rising_of_wf hright) _ _).trans hr.symm
    · exact hkept t (by simp [ht])
  case leafCount =>
    rw [← h.leafCount]
    simp [CodeTree.leafCount, Nat.add_assoc]
  case freq =>
    have hrestFreq : rest.map (nodeFreq n f (mergedFreq n f size avail s)) = rest.map (nodeFreq n f s.freq) :=
      Multiset.map_congr rfl fun x hx =>
        nodeFreq_memWrite_ne n f hfreq _ (h.heap_lt (hold ▸ by simp [hx])).ne
    have hself : nodeFreq n f (mergedFreq n f size avail s) avail = _ := nodeFreq_memWrite_same f hfreq _ h.le_avail
    rw [← h.freq, hold, hnew]
    change ((avail ::ₘ rest).map (nodeFreq n f (mergedFreq n f size avail s))).sum = _
    simp only [Multiset.map_cons, Multiset.sum_cons, hrestFreq, hself, Nat.add_assoc]
  case sorted =>
    have hinner : ({avail} : Multiset Nat).filter (· < n) = 0 := by
      rw [Multiset.filter_singleton, if_neg (Nat.not_lt.mpr h.le_avail)]; rfl
    rw [← h.sorted, hold, hnew]
    change (noteLeaf n _ (noteLeaf n _ _) : Multiset Nat) + _ = _
    simp only [coe_noteLeaf, ← Multiset.singleton_add, Multiset.filter_add, hinner, zero_add, add_assoc]

/-! ### The whole loop -/

/-- What MakeTree's loop gives, root and scratch: one tree over the symbols that occur, all of them in the sort list. -/
structure Merged (n : Nat) (f : Nat → Nat) (out : Nat × TreeScratch) (t : CodeTree) : Prop where
  root : t.root = out.1
  inner : n ≤ out.1
  stored : t.Stored n (out.1 + 1) out.2.left out.2.right
  leafCount : t.leafCount = (occurring n f).card
  freq : nodeFreq n f out.2.freq out.1 = ((occurring n f).map f).sum
  sorted : (out.2.sortlist : Multiset Nat) = occurring n f

/-- The loop ends when one inner node is left. -/
theorem Merging.merged {n : Nat} {f : Nat → Nat} {k : Nat} {s : TreeScratch} {F : Multiset CodeTree}
    (h : Merging n f 1 (k + 1) s F) (hk : n ≤ k) (hmem : k ∈ heapNodes s.heap 1) : ∃ t, Merged n f (k, s) t := by
  have hone : heapNodes s.heap 1 = {k} := by
    rw [heapNodes_one, Multiset.mem_singleton] at hmem
    rw [heapNodes_one, hmem]
  obtain ⟨-, -, hroots, hstored, hleaf, hfreq, hsorted⟩ := h
  rw [hone] at hroots hfreq hsorted
  obtain ⟨t, rfl, ht⟩ := Multiset.map_eq_singleton.mp hroots
  refine ⟨t, ht, hk, hstored t (Multiset.mem_singleton_self t), ?_, ?_, ?_⟩
  · simpa using hleaf
  · simpa using hfreq
  · rw [← hsorted, Multiset.filter_singleton, if_neg (Nat.not_lt.mpr hk)]
    exact (add_zero _).symm

theorem Merging.mergeNodes {n : Nat} {f : Nat → Nat} {fuel size avail : Nat} {s : TreeScratch} {F : Multiset CodeTree}
    (h : Merging n f size avail s F) (hsize : 2 ≤ size) (hfuel : size ≤ fuel) :
    ∃ t, Merged n f (mergeNodes n f fuel size avail s) t := by
  induction fuel generalizing size avail s F with
  | zero => omega
  | succ fuel ih =>
    obtain ⟨hmem, F', hnext⟩ := h.mergeOnce hsize
    rw [mergeNodes_succ]
    split
    · next hlast =>
      rw [show size - 1 = 1 by omega] at hmem hnext
      exact hnext.merged h.le_avail hmem
    · exact ih hnext (by omega) (by omega)

end Sys2Proof.Machine
end

section
/-! PROOFS. MakeLen's counts (41_huffman_encode.md R235, R236) as the multiset of lengths they count: the clamped depths
of a tree, their Kraft sum, and the length limit, which ends at the Kraft equality. -/

namespace Sys2Proof.Machine

/-! ### Counting lengths -/

/-- The memory counts the lengths in `L`. -/
structure Counts (cnt : Memory Nat) (L : Multiset Nat) : Prop where
  wf : Memory.wf 0 cnt = true
  read : ∀ k, memRead 0 cnt k = L.count k

namespace Counts

variable {cnt : Memory Nat} {L : Multiset Nat}

theorem nil : Counts [] 0 where
  wf := wf_nil 0
  read k := (Multiset.count_zero k).symm

/-- Adding to a count. -/
theorem add (h : Counts cnt L) (a m : Nat) :
    Counts (memWrite 0 cnt a (memRead 0 cnt a + m)) (Multiset.replicate m a + L) where
  wf := wf_memWrite h.wf _ _
  read k := by
    rw [memRead_memWrite 0 (rising_of_wf h.wf), Multiset.count_add, Multiset.count_replicate, h.read, h.read]
    by_cases hk : k = a
    · rw [if_pos hk, if_pos hk.symm, hk, Nat.add_comm]
    · rw [if_neg hk, if_neg (Ne.symm hk), Nat.zero_add]

/-- Taking one from a count. -/
theorem erase (h : Counts cnt L) (a : Nat) : Counts (memWrite 0 cnt a (memRead 0 cnt a - 1)) (L.erase a) where
  wf := wf_memWrite h.wf _ _
  read k := by
    rw [memRead_memWrite 0 (rising_of_wf h.wf), h.read, h.read]
    by_cases hk : k = a
    · rw [if_pos hk, hk, Multiset.count_erase_self]
    · rw [if_neg hk, Multiset.count_erase_of_ne hk]

theorem mem_iff (h : Counts cnt L) {a : Nat} : a ∈ L ↔ memRead 0 cnt a ≠ 0 := by
  rw [h.read, ← Multiset.one_le_count_iff_mem, Nat.one_le_iff_ne_zero]

end Counts

/-- Every length is one a code can have (R251). -/
def lengthsOk (L : Multiset Nat) : Prop := ∀ l ∈ L, 1 ≤ l ∧ l ≤ 16

/-- The Kraft sum of a multiset of lengths, in units of `2^-16` (R236). -/
def kraftOf (L : Multiset Nat) : Nat := (L.map fun l => 2 ^ (16 - l)).sum

@[simp] theorem kraftOf_add (L M : Multiset Nat) : kraftOf (L + M) = kraftOf L + kraftOf M := by simp [kraftOf]

@[simp] theorem kraftOf_replicate (m a : Nat) : kraftOf (Multiset.replicate m a) = m * 2 ^ (16 - a) := by
  simp [kraftOf]

theorem kraftOf_erase {L : Multiset Nat} {a : Nat} (ha : a ∈ L) : kraftOf L = 2 ^ (16 - a) + kraftOf (L.erase a) := by
  conv_lhs => rw [← Multiset.cons_erase ha]
  simp [kraftOf]

/-- A sum over the lengths 1 to 16, each as often as it is counted, is the sum over what is counted. -/
theorem sum_count_lengths {M : Type} [AddCommMonoid M] {L : Multiset Nat} (hL : lengthsOk L) (g : Nat → M) :
    ((List.range' 1 16).map fun i => L.count i • g i).sum = (L.map g).sum := by
  rw [← List.sum_toFinset _ List.nodup_range', Finset.sum_multiset_map_count]
  refine (Finset.sum_subset (fun i hi => ?_) fun i _ hi => ?_).symm
  · have := hL i (Multiset.mem_toFinset.mp hi)
    simp; omega
  · rw [Multiset.count_eq_zero.mpr fun hmem => hi (Multiset.mem_toFinset.mpr hmem), zero_nsmul]

theorem kraftSum_eq {cnt : Memory Nat} {L : Multiset Nat} (h : Counts cnt L) (hL : lengthsOk L) :
    kraftSum cnt = kraftOf L := by
  rw [kraftOf, ← sum_count_lengths hL, List.sum_eq_foldl, List.foldl_map, kraftSum]
  simp [h.read]

/-! ### The depths of a tree (R235) -/

/-- The depths of the leaves, each clamped to 16, of a tree that stands at depth `d`. -/
def CodeTree.depths : Nat → CodeTree → Multiset Nat
  | d, leaf _ => {min d 16}
  | d, node _ l r => l.depths (d + 1) + r.depths (d + 1)

/-- CountLen adds the tree's clamped depths; a fuel of as many turns as there are leaves is enough. -/
theorem counts_countLen {n b : Nat} {left right : Memory Nat} {t : CodeTree} (ht : t.Stored n b left right)
    {fuel : Nat} (hfuel : t.leafCount ≤ fuel) (d : Nat) {cnt : Memory Nat} {L : Multiset Nat} (hcnt : Counts cnt L) :
    Counts (countLen n left right fuel t.root d cnt) (t.depths d + L) := by
  induction t generalizing fuel d cnt L with
  | leaf i =>
    obtain ⟨fuel, rfl⟩ : ∃ m, fuel = m + 1 := ⟨fuel - 1, by have := CodeTree.leafCount_pos (.leaf i); omega⟩
    rw [countLen, CodeTree.root, if_pos (show i < n from ht)]
    exact hcnt.add (min d 16) 1
  | node k l r ihl ihr =>
    obtain ⟨⟨hnk, -⟩, ⟨hl, hr⟩, hsl, hsr⟩ := ht
    have hlpos := l.leafCount_pos
    have hrpos := r.leafCount_pos
    rw [CodeTree.leafCount] at hfuel
    obtain ⟨fuel, rfl⟩ : ∃ m, fuel = m + 1 := ⟨fuel - 1, by omega⟩
    rw [countLen, CodeTree.root, if_neg (Nat.not_lt.mpr hnk), hl, hr, CodeTree.depths, add_comm (l.depths _), add_assoc]
    exact ihr hsr (by omega) (d + 1) (ihl hsl (by omega) (d + 1) hcnt)

namespace CodeTree

theorem card_depths (t : CodeTree) (d : Nat) : (t.depths d).card = t.leafCount := by
  induction t generalizing d with
  | leaf i => rfl
  | node k l r hl hr => rw [depths, Multiset.card_add, hl, hr, leafCount]

theorem lengthsOk_depths (t : CodeTree) {d : Nat} (hd : 1 ≤ d) : lengthsOk (t.depths d) := by
  induction t generalizing d with
  | leaf i =>
    intro l hl
    rw [Multiset.mem_singleton.mp hl]
    omega
  | node k l r hl hr =>
    intro x hx
    rcases Multiset.mem_add.mp hx with hx | hx
    · exact hl (Nat.le_succ_of_le hd) x hx
    · exact hr (Nat.le_succ_of_le hd) x hx

theorem kraftOf_leaf (i d : Nat) : kraftOf ((leaf i).depths d) = 2 ^ (16 - min d 16) := by simp [depths, kraftOf]

/-- Clamping makes lengths shorter, so the Kraft sum of a tree never falls below that of its root. -/
theorem le_kraftOf_depths (t : CodeTree) (d : Nat) : 2 ^ (16 - d) ≤ kraftOf (t.depths d) := by
  induction t generalizing d with
  | leaf i =>
    rw [kraftOf_leaf]
    exact Nat.pow_le_pow_right Nat.two_pos (by omega)
  | node k l r hl hr =>
    rw [depths, kraftOf_add]
    have hhalf : 2 ^ (16 - d) ≤ 2 * 2 ^ (16 - (d + 1)) := by
      rw [← Nat.pow_succ']
      exact Nat.pow_le_pow_right Nat.two_pos (by omega)
    have := hl (d + 1)
    have := hr (d + 1)
    omega

/-- A clamped leaf adds at most one unit to the Kraft sum that the tree has without the limit (R236). -/
theorem kraftOf_depths_le (t : CodeTree) (d : Nat) :
    kraftOf (t.depths d) ≤ 2 ^ 16 / 2 ^ d + (t.depths d).count 16 := by
  induction t generalizing d with
  | leaf i =>
    rw [kraftOf_leaf]
    by_cases hd : d < 16
    · rw [Nat.min_eq_left hd.le, Nat.pow_div hd.le Nat.two_pos]
      exact Nat.le_add_right _ _
    · rw [depths, Nat.min_eq_right (by omega), Multiset.count_singleton_self, Nat.sub_self, Nat.pow_zero]
      exact Nat.le_add_left _ _
  | node k l r hl hr =>
    rw [depths, kraftOf_add, Multiset.count_add]
    have hhalf : 2 * (2 ^ 16 / 2 ^ (d + 1)) ≤ 2 ^ 16 / 2 ^ d := by
      rw [pow_succ 2 d, ← Nat.div_div_eq_div_mul]
      exact Nat.mul_div_le _ 2
    have := hl (d + 1)
    have := hr (d + 1)
    omega

end CodeTree

/-! ### The length limit (R236) -/

/-- What every pass of the limit keeps: fewer leaves than 16-bit codes, and a Kraft sum that exceeds 1 by no more units
than there are leaves of length 16. -/
structure Limitable (L : Multiset Nat) : Prop where
  lengthsOk : lengthsOk L
  card_lt : L.card < 2 ^ 16
  le_kraft : 2 ^ 16 ≤ kraftOf L
  kraft_le : kraftOf L ≤ 2 ^ 16 + L.count 16

/-- The depths of a tree with two leaves or more, and fewer than `2^16`, are such lengths. -/
theorem CodeTree.limitable_depths {k : Nat} {l r : CodeTree} (hcard : (node k l r).leafCount < 2 ^ 16) :
    Limitable ((node k l r).depths 0) where
  lengthsOk x hx := by
    rcases Multiset.mem_add.mp hx with hx | hx
    · exact l.lengthsOk_depths (Nat.le_refl 1) x hx
    · exact r.lengthsOk_depths (Nat.le_refl 1) x hx
  card_lt := by rwa [card_depths]
  le_kraft := le_kraftOf_depths _ 0
  kraft_le := kraftOf_depths_le _ 0

/-- A leaf of length 16 goes, one of length `i` becomes two of length `i + 1`. -/
def splitLength (L : Multiset Nat) (i : Nat) : Multiset Nat :=
  Multiset.replicate 2 (i + 1) + (L.erase 16).erase i

section Split
variable {L : Multiset Nat} {i : Nat}

theorem kraftOf_splitLength (h16 : 16 ∈ L) (hmem : i ∈ L.erase 16) (hi : i ≤ 15) :
    kraftOf L = kraftOf (splitLength L i) + 1 := by
  have hpow : 2 ^ (16 - i) = 2 * 2 ^ (16 - (i + 1)) := by
    rw [← Nat.pow_succ']
    congr 1
    omega
  rw [kraftOf_erase h16, kraftOf_erase hmem, splitLength, kraftOf_add, kraftOf_replicate, hpow]
  omega

theorem card_splitLength (h16 : 16 ∈ L) (hmem : i ∈ L.erase 16) : (splitLength L i).card = L.card := by
  have h1 := Multiset.card_erase_add_one h16
  have h2 := Multiset.card_erase_add_one hmem
  rw [splitLength, Multiset.card_add, Multiset.card_replicate]
  omega

theorem Limitable.splitLength (h : Limitable L) (h16 : 16 ∈ L) (hmem : i ∈ L.erase 16) (hi : 1 ≤ i ∧ i ≤ 15)
    (hne : kraftOf L ≠ 2 ^ 16) : Limitable (splitLength L i) := by
  have hkraft := kraftOf_splitLength h16 hmem hi.2
  refine ⟨fun l hl => ?_, (card_splitLength h16 hmem).trans_lt h.card_lt, ?_, ?_⟩
  · rcases Multiset.mem_add.mp hl with hl | hl
    · rw [Multiset.eq_of_mem_replicate hl]
      omega
    · exact h.lengthsOk l (Multiset.mem_of_mem_erase (Multiset.mem_of_mem_erase hl))
  · have := h.le_kraft
    omega
  · have hcount : L.count 16 - 1 ≤ (Machine.splitLength L i).count 16 := by
      rw [Machine.splitLength, Multiset.count_add, Multiset.count_erase_of_ne (by omega), Multiset.count_erase_self]
      exact Nat.le_add_left _ _
    have := h.kraft_le
    omega

/-- While the Kraft sum exceeds 1 there is a leaf of length 16. -/
theorem Limitable.mem_sixteen (h : Limitable L) (hne : kraftOf L ≠ 2 ^ 16) : 16 ∈ L := by
  have := h.le_kraft
  have := h.kraft_le
  rw [← Multiset.one_le_count_iff_mem]
  omega

/-- There are too few leaves for all of them to have length 16. -/
theorem Limitable.exists_shorter (h : Limitable L) : ∃ l ∈ L, l ≤ 15 := by
  by_contra hnone
  push Not at hnone
  have hall : L = Multiset.replicate L.card 16 := Multiset.eq_replicate_card.mpr fun l hl => by
    have := h.lengthsOk l hl
    have := hnone l hl
    omega
  have hlow := h.le_kraft
  have := h.card_lt
  rw [hall, kraftOf_replicate] at hlow
  omega

end Split

theorem longestBelow_eq_some {cnt : Memory Nat} {b i : Nat} (h : longestBelow cnt b = some i) :
    (1 ≤ i ∧ i ≤ b) ∧ memRead 0 cnt i ≠ 0 := by
  induction b with
  | zero => cases h
  | succ b ih =>
    rw [longestBelow] at h
    split at h
    · next hb => cases h; exact ⟨⟨by omega, Nat.le_refl _⟩, hb⟩
    · obtain ⟨⟨h1, h2⟩, hi⟩ := ih h
      exact ⟨⟨h1, by omega⟩, hi⟩

theorem longestBelow_ne_none {cnt : Memory Nat} {b i : Nat} (hi : 1 ≤ i) (hib : i ≤ b) (hcnt : memRead 0 cnt i ≠ 0) :
    longestBelow cnt b ≠ none := by
  induction b, hib using Nat.le_induction with
  | base =>
    obtain ⟨p, rfl⟩ : ∃ p, i = p + 1 := ⟨i - 1, by omega⟩
    rw [longestBelow, if_pos hcnt]
    exact Option.some_ne_none _
  | succ b _ ih =>
    rw [longestBelow]
    split
    · exact Option.some_ne_none _
    · exact ih

/-- The count of 16 with one taken off. -/
def dropSixteen (cnt : Memory Nat) : Memory Nat := memWrite 0 cnt 16 (memRead 0 cnt 16 - 1)

/-- The counts with one of length `i` turned into two of length `i + 1`. -/
def lengthen (i : Nat) (cnt : Memory Nat) : Memory Nat :=
  memWrite 0 (memWrite 0 cnt i (memRead 0 cnt i - 1)) (i + 1)
    (memRead 0 (memWrite 0 cnt i (memRead 0 cnt i - 1)) (i + 1) + 2)

theorem limitLens_done (fuel : Nat) (cnt : Memory Nat) : limitLens fuel (2 ^ 16) cnt = .ok cnt := by
  unfold limitLens
  exact if_pos rfl

theorem limitLens_pass {fuel cum i : Nat} {cnt : Memory Nat} (hcum : cum ≠ 2 ^ 16)
    (hi : longestBelow (dropSixteen cnt) 15 = some i) :
    limitLens (fuel + 1) cum cnt = limitLens fuel (cum - 1) (lengthen i (dropSixteen cnt)) := by
  rw [dropSixteen] at hi
  conv_lhs => unfold limitLens
  simp only [if_neg hcum, hi]
  rfl

/-- The limit succeeds: it keeps the number of leaves and ends at the Kraft equality. -/
theorem limitLens_ok {fuel : Nat} {cnt : Memory Nat} {L : Multiset Nat} (hcnt : Counts cnt L) (hL : Limitable L)
    (hfuel : kraftOf L ≤ 2 ^ 16 + fuel) : ∃ cnt' L', limitLens fuel (kraftOf L) cnt = .ok cnt' ∧ Counts cnt' L' ∧
      lengthsOk L' ∧ L'.card = L.card ∧ kraftOf L' = 2 ^ 16 := by
  induction fuel generalizing cnt L with
  | zero =>
    have hdone := Nat.le_antisymm hfuel hL.le_kraft
    exact ⟨cnt, L, hdone ▸ limitLens_done 0 cnt, hcnt, hL.lengthsOk, rfl, hdone⟩
  | succ fuel ih =>
    by_cases hdone : kraftOf L = 2 ^ 16
    · exact ⟨cnt, L, hdone ▸ limitLens_done _ cnt, hcnt, hL.lengthsOk, rfl, hdone⟩
    have h16 := hL.mem_sixteen hdone
    have hdrop : Counts (dropSixteen cnt) (L.erase 16) := hcnt.erase 16
    obtain ⟨i, hi⟩ : ∃ i, longestBelow (dropSixteen cnt) 15 = some i := by
      obtain ⟨l, hl, hle⟩ := hL.exists_shorter
      refine Option.ne_none_iff_exists'.mp (longestBelow_ne_none (hL.lengthsOk l hl).1 hle (hdrop.mem_iff.mp ?_))
      exact (Multiset.mem_erase_of_ne (by omega)).mpr hl
    obtain ⟨hbounds, hpos⟩ := longestBelow_eq_some hi
    have hmem : i ∈ L.erase 16 := hdrop.mem_iff.mpr hpos
    have hkraft := kraftOf_splitLength h16 hmem hbounds.2
    have hnext : Counts (lengthen i (dropSixteen cnt)) (splitLength L i) := (hdrop.erase i).add (i + 1) 2
    have hlim := hL.splitLength h16 hmem hbounds hdone
    rw [limitLens_pass hdone hi, ← card_splitLength h16 hmem, show kraftOf L - 1 = kraftOf (splitLength L i) by omega]
    exact ih hnext hlim (by omega)

end Sys2Proof.Machine
end

section
/-! PROOFS. The lengths that MakeTree hands out (41_huffman_encode.md R237) and the code it builds from them
(R231, R251): the loop's one tree gives the counts, the limit makes the Kraft sum 1, the sort list takes the lengths. -/

namespace Sys2Proof.Machine

open Claims

/-! ### Handing the lengths out (R237) -/

/-- The lengths handed out are those that are counted. -/
theorem coe_lengthOrder {cnt : Memory Nat} {L : Multiset Nat} (h : Counts cnt L) (hL : lengthsOk L) :
    (lengthOrder cnt : Multiset Nat) = L := by
  calc (lengthOrder cnt : Multiset Nat)
      = ((List.range' 1 16).map fun i => L.count i • ({i} : Multiset Nat)).sum := by
        rw [lengthOrder, ← Multiset.coe_bind, Multiset.coe_reverse, Multiset.bind, Multiset.join, Multiset.map_coe,
          Multiset.sum_coe]
        simp only [h.read, Multiset.nsmul_singleton, Multiset.coe_replicate]
    _ = L := by rw [sum_count_lengths hL, Multiset.sum_map_singleton]

/-- Hand the lengths `ls` out to the symbols of `S`, in order. -/
def handOut (S ls : List Nat) (m : Memory Len) : Memory Len :=
  (S.zip ls).foldl (fun m e => memWrite 0 m e.1 (BitVec.ofNat 5 e.2)) m

theorem assignLens_eq (S : List Nat) (cnt : Memory Nat) (m : Memory Len) :
    assignLens S cnt m = handOut S (lengthOrder cnt) m := rfl

theorem handOut_cons (x l : Nat) (S ls : List Nat) (m : Memory Len) :
    handOut (x :: S) (l :: ls) m = handOut S ls (memWrite 0 m x (BitVec.ofNat 5 l)) := rfl

theorem lenAt_memWrite {m : Memory Len} (hm : Memory.wf 0 m = true) {l : Nat} (hl : l ≤ 16) (x i : Nat) :
    lenAt (memWrite 0 m x (BitVec.ofNat 5 l)) i = if i = x then l else lenAt m i := by
  rw [lenAt, memRead_memWrite 0 (rising_of_wf hm)]
  split
  · exact Nat.mod_eq_of_lt (by omega)
  · rfl

section HandOut
variable {m : Memory Len} {S ls : List Nat}

theorem lenAt_handOut_of_notMem (hm : Memory.wf 0 m = true) (hls : ∀ l ∈ ls, l ≤ 16) {i : Nat} (hi : i ∉ S) :
    lenAt (handOut S ls m) i = lenAt m i := by
  induction S generalizing ls m with
  | nil => rfl
  | cons x S ih =>
    cases ls with
    | nil => rfl
    | cons l ls =>
      rw [List.mem_cons, not_or] at hi
      obtain ⟨hix, hiS⟩ := hi
      rw [handOut_cons, ih (wf_memWrite hm _ _) (fun l hl => hls l (List.mem_cons_of_mem _ hl)) hiS,
        lenAt_memWrite hm (hls l List.mem_cons_self), if_neg hix]

/-- Different symbols keep the lengths they were given. -/
theorem map_lenAt_handOut (hm : Memory.wf 0 m = true) (hls : ∀ l ∈ ls, l ≤ 16) (hS : S.Nodup)
    (hlength : S.length = ls.length) : S.map (lenAt (handOut S ls m)) = ls := by
  induction S generalizing ls m with
  | nil => exact (List.length_eq_zero_iff.mp hlength.symm).symm
  | cons x S ih =>
    cases ls with
    | nil => cases hlength
    | cons l ls =>
      obtain ⟨hx, hS⟩ := List.nodup_cons.mp hS
      have hls' : ∀ l ∈ ls, l ≤ 16 := fun l hl => hls l (List.mem_cons_of_mem _ hl)
      have hwf := wf_memWrite hm x (BitVec.ofNat 5 l)
      rw [handOut_cons, List.map_cons, ih hwf hls' hS (Nat.succ.inj hlength), lenAt_handOut_of_notMem hwf hls' hx,
        lenAt_memWrite hm (hls l List.mem_cons_self), if_pos rfl]

end HandOut

/-! ### The lengths of a complete code (R251) -/

/-- The symbols that occur have the lengths of `L`, in some order, and no other symbol has one. -/
structure LengthsFrom (n : Nat) (f : Nat → Nat) (L : Multiset Nat) (len : Nat → Nat) : Prop where
  occurring : (occurring n f).map len = L
  absent : ∀ i, i ∉ Machine.occurring n f → len i = 0

theorem lengthsFrom_assignLens {n : Nat} {f : Nat → Nat} {S : List Nat} {cnt : Memory Nat} {L : Multiset Nat}
    (hS : (S : Multiset Nat) = occurring n f) (hcnt : Counts cnt L) (hL : lengthsOk L)
    (hcard : L.card = (occurring n f).card) : LengthsFrom n f L (lenAt (assignLens S cnt [])) := by
  have horder := coe_lengthOrder hcnt hL
  have h16 : ∀ l ∈ lengthOrder cnt, l ≤ 16 := fun l hl =>
    (hL l (by rw [← horder]; exact Multiset.mem_coe.mpr hl)).2
  have hnodup : S.Nodup := Multiset.coe_nodup.mp (hS ▸ nodup_occurring n f)
  have hlength : S.length = (lengthOrder cnt).length := by
    rw [← hS, ← horder, Multiset.coe_card, Multiset.coe_card] at hcard
    exact hcard.symm
  rw [assignLens_eq]
  refine ⟨?_, fun i hi => ?_⟩
  · rw [← hS, Multiset.map_coe, map_lenAt_handOut (wf_nil 0) h16 hnodup hlength, horder]
  · exact lenAt_handOut_of_notMem (wf_nil 0) h16 fun hmem => hi (hS ▸ Multiset.mem_coe.mpr hmem)

namespace LengthsFrom

variable {n : Nat} {f : Nat → Nat} {L : Multiset Nat} {len : Nat → Nat}

theorem occurs_iff_and_le_sixteen (h : LengthsFrom n f L len) (hL : lengthsOk L) {i : Nat} (hi : i < n) :
    (f i ≠ 0 ↔ 1 ≤ len i) ∧ len i ≤ 16 := by
  by_cases hfi : f i = 0
  · have hzero := h.absent i fun hmem => (mem_occurring.mp hmem).2 hfi
    omega
  · have hmem : len i ∈ L := h.occurring ▸ Multiset.mem_map_of_mem len (mem_occurring.mpr ⟨hi, hfi⟩)
    have := hL _ hmem
    omega

theorem kraft_eq (h : LengthsFrom n f L len) (hL : lengthsOk L) : kraft n len = kraftOf L := by
  have habsent : ∀ i, i < n → f i = 0 → (if len i = 0 then 0 else 2 ^ (16 - len i)) = 0 := fun i _ hfi =>
    if_pos (h.absent i fun hmem => (mem_occurring.mp hmem).2 hfi)
  rw [kraft, ← sum_map_occurring n f _ habsent, kraftOf, ← h.occurring, Multiset.map_map]
  refine congrArg Multiset.sum (Multiset.map_congr rfl fun i hi => if_neg ?_)
  have hmem : len i ∈ L := h.occurring ▸ Multiset.mem_map_of_mem len hi
  exact Nat.one_le_iff_ne_zero.mp (hL _ hmem).1

end LengthsFrom

/-- The counts of the loop's tree, limited. -/
theorem Merged.limitLens_ok {n : Nat} {f : Nat → Nat} {out : Nat × TreeScratch} {t : CodeTree}
    (h : Merged n f out t) (hn : n ≤ 65535) :
    let cnt := countLen n out.2.left out.2.right n out.1 0 []
    ∃ cnt' L, limitLens (kraftSum cnt) (kraftSum cnt) cnt = .ok cnt' ∧ Counts cnt' L ∧ lengthsOk L ∧
      L.card = (occurring n f).card ∧ kraftOf L = 2 ^ 16 := by
  have hleaves : t.leafCount ≤ n := h.leafCount.trans_le (card_occurring_le n f)
  have hcounts := counts_countLen h.stored hleaves 0 .nil
  rw [add_zero, h.root] at hcounts
  have hlim : Limitable (t.depths 0) := by
    cases t with
    | leaf i => exact absurd (h.root ▸ h.stored : out.1 < n) (Nat.not_lt.mpr h.inner)
    | node k l r => exact CodeTree.limitable_depths (by omega)
  obtain ⟨cnt', L, hok, hcnt', hL, hcard, hkraft⟩ := Machine.limitLens_ok hcounts hlim (Nat.le_add_left _ (2 ^ 16))
  refine ⟨cnt', L, ?_, hcnt', hL, ?_, hkraft⟩
  · rw [kraftSum_eq hcounts hlim.lengthsOk]; exact hok
  · rw [hcard, CodeTree.card_depths, h.leafCount]

/-! ### MakeTree (R231) -/

/-- The scratch with which the loop begins: the heap filled and in order, the sort list empty. -/
def heapedScratch (n : Nat) (f : Nat → Nat) (s : TreeScratch) : TreeScratch :=
  { s with
    heap := heapify (nodeFreq n f s.freq) (fillHeap n f s.heap).2 ((fillHeap n f s.heap).2 / 2)
      (fillHeap n f s.heap).1
    sortlist := [] }

/-- MakeTree's loop, from the initial fill on. -/
def mergeAll (n : Nat) (f : Nat → Nat) (s : TreeScratch) : Nat × TreeScratch :=
  mergeNodes n f (fillHeap n f s.heap).2 (fillHeap n f s.heap).2 n (heapedScratch n f s)

theorem exists_merged_mergeAll {n : Nat} {f : Nat → Nat} {s : TreeScratch} (hs : s.memWf)
    (htwo : 2 ≤ (occurring n f).card) : ∃ t, Merged n f (mergeAll n f s) t := by
  obtain ⟨hheap, hrest⟩ := hs
  have hfill := wf_fillHeap n f hheap
  have hnodes : heapNodes (heapedScratch n f s).heap (fillHeap n f s.heap).2 = occurring n f :=
    (heapNodes_heapify _ hfill (Nat.div_le_self _ 2)).trans (heapNodes_fillHeap n f hheap)
  have hstart := Merging.initial (s := heapedScratch n f s) ⟨wf_heapify _ _ _ hfill, hrest⟩ hnodes rfl
  exact hstart.mergeNodes (by rwa [fillHeap_size n f hheap]) (Nat.le_refl _)

/-- MakeTree, where every check passes. -/
theorem makeTree_of_checks {n : Nat} {f : Nat → Nat} {s : TreeScratch} {cnt' : Memory Nat} {code : Memory Half}
    (htwo : 2 ≤ (fillHeap n f s.heap).2)
    (hlimit : let cnt := countLen n (mergeAll n f s).2.left (mergeAll n f s).2.right n (mergeAll n f s).1 0 []
      limitLens (kraftSum cnt) (kraftSum cnt) cnt = .ok cnt')
    (hcode : makeCode n (lenAt (assignLens (mergeAll n f s).2.sortlist cnt' [])) = some code) :
    makeTree n f s =
      { root := (mergeAll n f s).1, size := nodeFreq n f (mergeAll n f s).2.freq (mergeAll n f s).1
        len := assignLens (mergeAll n f s).2.sortlist cnt' [], code := code
        scratch := { (mergeAll n f s).2 with lenCnt := cnt' }, ok := true } := by
  dsimp only [mergeAll, heapedScratch] at hlimit hcode ⊢
  simp only [makeTree, if_neg (Nat.not_lt.mpr htwo), hlimit, hcode]

/-- Settles O56: the loop's tree gives limitable counts, the limit makes the Kraft sum 1, and MakeCode succeeds. -/
theorem makeTreeCode : Obligations.MakeTreeCode := by
  intro n f sc hn hsc htwo
  rw [← card_occurring] at htwo
  obtain ⟨t, hmerged⟩ := exists_merged_mergeAll hsc htwo
  obtain ⟨cnt', L, hlimit, hcnt', hL, hcard, hkraft⟩ := hmerged.limitLens_ok hn
  obtain ⟨hheap, -⟩ := hsc
  have hlens := lengthsFrom_assignLens hmerged.sorted hcnt' hL hcard
  have hsum := (hlens.kraft_eq hL).trans hkraft
  have hsome := (makeCode_isSome_iff fun i hi => (hlens.occurs_iff_and_le_sixteen hL hi).2).mpr hsum
  obtain ⟨code, hcode⟩ := Option.isSome_iff_exists.mp hsome
  rw [makeTree_of_checks (by rwa [fillHeap_size n f hheap]) hlimit hcode]
  refine ⟨rfl, hmerged.inner, ?_, fun i hi => hlens.occurs_iff_and_le_sixteen hL hi, hsum, hcode⟩
  exact hmerged.freq.trans (sum_map_occurring n f f fun i _ hfi => hfi)

end Sys2Proof.Machine
end

section
/-! PROOFS. Codewords as places of a decode table (42_huffman_decode.md R275): a bit string is written as a number with
a one in front of its bits, so that the beginnings of a string are the quotients of its number by powers of two. -/

namespace Sys2Proof.Machine

open Claims

/-! ### Bit strings with a leading one -/

/-- The bits of `y` begin with those of `x`. -/
def Begins (x y : Nat) : Prop := ∃ t, y / 2 ^ t = x

namespace Begins

variable {x y z b : Nat}

theorem refl (x : Nat) : Begins x x := ⟨0, Nat.div_one x⟩

theorem trans (hxy : Begins x y) (hyz : Begins y z) : Begins x z := by
  obtain ⟨s, rfl⟩ := hxy
  obtain ⟨t, rfl⟩ := hyz
  exact ⟨t + s, by rw [Nat.pow_add, Nat.div_div_eq_div_mul]⟩

theorem le (h : Begins x y) : x ≤ y := by
  obtain ⟨t, rfl⟩ := h
  exact Nat.div_le_self _ _

/-- Two beginnings of one string: the shorter one begins the longer one. -/
theorem total (hx : Begins x z) (hy : Begins y z) : Begins x y ∨ Begins y x := by
  obtain ⟨s, rfl⟩ := hx
  obtain ⟨t, rfl⟩ := hy
  have hdiv (u v : Nat) : z / 2 ^ u / 2 ^ v = z / 2 ^ (u + v) := by rw [Nat.pow_add, Nat.div_div_eq_div_mul]
  rcases Nat.le_total s t with h | h
  · exact .inr ⟨t - s, by rw [hdiv, Nat.add_sub_cancel' h]⟩
  · exact .inl ⟨s - t, by rw [hdiv, Nat.add_sub_cancel' h]⟩

/-- A beginning is the whole string or begins the string without its last bit. -/
theorem eq_or_half (h : Begins x y) : x = y ∨ Begins x (y / 2) := by
  obtain ⟨t, rfl⟩ := h
  cases t with
  | zero => exact .inl (Nat.div_one y)
  | succ t => exact .inr ⟨t, by rw [Nat.pow_succ', Nat.div_div_eq_div_mul]⟩

end Begins

/-- The next bit of `y` after the beginning that leaves `t + 1` bits. -/
theorem two_mul_div_add_testBit (y t : Nat) : 2 * (y / 2 ^ (t + 1)) + (y.testBit t).toNat = y / 2 ^ t := by
  rw [Nat.toNat_testBit, Nat.pow_succ, ← Nat.div_div_eq_div_mul]
  omega

/-- The leading one tells the lengths, and with them the bits. -/
theorem leadingOne_inj {m k a b : Nat} (ha : a < 2 ^ m) (hb : b < 2 ^ k) (h : 2 ^ m + a = 2 ^ k + b) :
    m = k ∧ a = b := by
  have hlog {l c : Nat} (hc : c < 2 ^ l) : Nat.log 2 (2 ^ l + c) = l :=
    Nat.log_eq_of_pow_le_of_lt_pow (Nat.le_add_right _ _) (by rw [Nat.pow_succ]; omega)
  have hmk : m = k := by rw [← hlog ha, h, hlog hb]
  exact ⟨hmk, by rw [hmk] at h; omega⟩

/-- Dropping the last bits of a string. -/
theorem leadingOne_div {m t : Nat} (a : Nat) (ht : t ≤ m) : (2 ^ m + a) / 2 ^ t = 2 ^ (m - t) + a / 2 ^ t := by
  rw [← Nat.sub_add_cancel ht, Nat.pow_add, Nat.mul_comm, Nat.mul_add_div (Nat.two_pow_pos t), Nat.add_sub_cancel]

theorem div_two_pow_lt {m t a : Nat} (ha : a < 2 ^ m) (ht : t ≤ m) : a / 2 ^ t < 2 ^ (m - t) := by
  rwa [Nat.div_lt_iff_lt_mul (Nat.two_pow_pos t), ← Nat.pow_add, Nat.sub_add_cancel ht]

/-- Beginnings of a string, in terms of the bits without the leading ones. -/
theorem begins_leadingOne_iff {m k a b : Nat} (ha : a < 2 ^ m) (hb : b < 2 ^ k) :
    Begins (2 ^ k + b) (2 ^ m + a) ↔ k ≤ m ∧ a / 2 ^ (m - k) = b := by
  constructor
  · rintro ⟨t, h⟩
    have ht : t ≤ m := by
      by_contra hlt
      have hpow : 2 ^ (m + 1) ≤ 2 ^ t := Nat.pow_le_pow_right Nat.two_pos (Nat.not_le.mp hlt)
      rw [Nat.pow_succ] at hpow
      rw [Nat.div_eq_of_lt (by omega)] at h
      exact (Nat.add_pos_left (Nat.two_pow_pos k) b).ne h
    rw [leadingOne_div a ht] at h
    obtain ⟨rfl, hbits⟩ := leadingOne_inj (div_two_pow_lt ha ht) hb h
    exact ⟨Nat.sub_le _ _, by rwa [Nat.sub_sub_self ht]⟩
  · rintro ⟨hkm, rfl⟩
    exact ⟨m - k, by rw [leadingOne_div a (Nat.sub_le m k), Nat.sub_sub_self hkm]⟩

/-! ### Codewords (30_encoding.md R136) -/

/-- The codeword of the symbol `c`. -/
def codeword (len : Nat → Nat) (code : Memory Half) (c : Nat) : Nat := 2 ^ len c + halfAt code c

/-- `x` is an inner node of the code tree: a beginning of a codeword, and not the whole of it. -/
def Inner (n : Nat) (len : Nat → Nat) (code : Memory Half) (x : Nat) : Prop :=
  ∃ u, u < n ∧ 0 < len u ∧ Begins x (codeword len code u) ∧ x < codeword len code u

section Codewords
variable {n : Nat} {len : Nat → Nat} {code : Memory Half} {c x : Nat}

theorem le_codeword (len : Nat → Nat) (code : Memory Half) (c : Nat) : 2 ^ len c ≤ codeword len code c :=
  Nat.le_add_right _ _

theorem codeword_div {t : Nat} (ht : t ≤ len c) :
    codeword len code c / 2 ^ t = 2 ^ (len c - t) + halfAt code c / 2 ^ t := leadingOne_div _ ht

variable (hlen : ∀ i, i < n → len i ≤ 16) (hcode : makeCode n len = some code)
include hlen hcode

theorem codeword_lt (hc : c < n) (hpos : 0 < len c) : codeword len code c < 2 ^ (len c + 1) := by
  have := halfAt_makeCode_lt hlen hcode hc hpos
  rw [codeword, Nat.pow_succ]
  omega

/-- No codeword begins another. -/
theorem eq_of_codeword_begins {i j : Nat} (hi : i < n) (hj : j < n) (hposi : 0 < len i) (hposj : 0 < len j)
    (h : Begins (codeword len code i) (codeword len code j)) : i = j := by
  by_contra hij
  obtain ⟨hle, hbits⟩ := (begins_leadingOne_iff (halfAt_makeCode_lt hlen hcode hj hposj)
    (halfAt_makeCode_lt hlen hcode hi hposi)).mp h
  exact halfAt_makeCode_prefixFree hlen hcode hi hj hij hposi hle hbits

/-- No codeword begins an inner node. -/
theorem Inner.not_begins (hc : c < n) (hpos : 0 < len c) (hx : Inner n len code x) :
    ¬ Begins (codeword len code c) x := by
  obtain ⟨u, hu, hposu, hbegins, hlt⟩ := hx
  intro h
  obtain rfl := eq_of_codeword_begins hlen hcode hc hu hpos hposu (h.trans hbegins)
  exact absurd h.le (Nat.not_le.mpr hlt)

theorem Inner.lt (hx : Inner n len code x) : x < 2 ^ 16 := by
  obtain ⟨u, hu, hposu, hbegins, hlt⟩ := hx
  have hword := codeword_lt hlen hcode hu hposu
  have hpow : 2 ^ (len u + 1) ≤ 2 ^ 17 := Nat.pow_le_pow_right Nat.two_pos (by have := hlen u hu; omega)
  have hhalf := (hbegins.eq_or_half.resolve_left hlt.ne).le
  omega

end Codewords

/-! ### How many inner nodes there are -/

/-- A complete code's inner nodes of depth `d`: the strings of `d` bits from the end of the codewords on (R136). -/
def innerNodes (n : Nat) (len : Nat → Nat) (d : Nat) : Finset Nat :=
  Finset.Ico (2 ^ d + (firstCode n len d + symbolCount n len d)) (2 ^ (d + 1))

section Counting
variable {n : Nat} {len : Nat → Nat} {code : Memory Half} (hlen : ∀ i, i < n → len i ≤ 16)
  (hcode : makeCode n len = some code)
include hlen hcode

theorem Inner.mem_innerNodes {x : Nat} (hx : Inner n len code x) (htwo : 2 ≤ x) :
    ∃ d ∈ Finset.Ico 1 16, x ∈ innerNodes n len d := by
  obtain ⟨u, hu, hpos, ⟨t, rfl⟩, hlt⟩ := hx
  have hlenu := hlen u hu
  have hword := codeword_lt hlen hcode hu hpos
  have ht : t < len u := by
    by_contra hge
    have hpow : 2 ^ len u ≤ 2 ^ t := Nat.pow_le_pow_right Nat.two_pos (Nat.not_lt.mp hge)
    have := (Nat.le_div_iff_mul_le (Nat.two_pow_pos t)).mp htwo
    rw [Nat.pow_succ] at hword
    omega
  have htpos : 0 < t := by
    by_contra h0
    obtain rfl : t = 0 := by omega
    exact hlt.ne (Nat.div_one _)
  have hfit := div_two_pow_lt (halfAt_makeCode_lt hlen hcode hu hpos) ht.le
  have hext := firstCode_extends n len (show 0 < len u - t by omega) (show len u - t < len u by omega)
  rw [Nat.sub_sub_self ht.le] at hext
  rw [codeword_div ht.le]
  refine ⟨len u - t, Finset.mem_Ico.mpr (by omega), Finset.mem_Ico.mpr ⟨?_, by rw [Nat.pow_succ]; omega⟩⟩
  refine Nat.add_le_add_left ((Nat.le_div_iff_mul_le (Nat.two_pow_pos t)).mpr ?_) _
  rw [halfAt_makeCode hlen hcode hu hpos]
  omega

end Counting

/-- Each inner node has two children, and each of those is an inner node or a codeword. -/
theorem sum_card_innerNodes {n : Nat} {len : Nat → Nat} (hkraft : firstCode n len 17 = 2 ^ 17) {d : Nat} (hd : 1 ≤ d)
    (h16 : d ≤ 16) : ∑ e ∈ Finset.Ico 1 d, (innerNodes n len e).card + 2 =
      (innerNodes n len d).card + ∑ e ∈ Finset.Ico 1 (d + 1), symbolCount n len e := by
  induction d, hd using Nat.le_induction with
  | base =>
    have := firstCode_add_symbolCount_le hkraft Nat.one_pos (by decide)
    simp [innerNodes, firstCode] at this ⊢
    omega
  | succ d hd ih =>
    obtain ⟨e, rfl⟩ : ∃ e, d = e + 1 := ⟨d - 1, by omega⟩
    have hcur := firstCode_add_symbolCount_le hkraft hd (by omega)
    have hnext := firstCode_add_symbolCount_le hkraft (Nat.succ_pos (e + 1)) h16
    rw [Finset.sum_Ico_succ_top hd, Finset.sum_Ico_succ_top (by omega : 1 ≤ e + 1 + 1)]
    have hih := ih (by omega)
    simp only [innerNodes, Nat.card_Ico, Nat.succ_eq_add_one, firstCode_add_two, Nat.pow_succ] at *
    omega

theorem sum_symbolCount_le (n : Nat) (len : Nat → Nat) (s : Finset Nat) : ∑ k ∈ s, symbolCount n len k ≤ n := by
  induction n with
  | zero => simp [symbolCount]
  | succ n ih =>
    simp only [symbolCount_succ, Finset.sum_add_distrib, Finset.sum_ite_eq]
    split <;> omega

/-- A code has fewer inner nodes than symbols. -/
theorem card_lt_of_inner {n : Nat} {len : Nat → Nat} {code : Memory Half} (hlen : ∀ i, i < n → len i ≤ 16)
    (hcode : makeCode n len = some code) {s : Finset Nat} (hs : ∀ x ∈ s, Inner n len code x ∧ 2 ≤ x) : s.card < n := by
  have hsub : s ⊆ (Finset.Ico 1 16).biUnion (innerNodes n len) := fun x hx =>
    Finset.mem_biUnion.mpr ((hs x hx).1.mem_innerNodes hlen hcode (hs x hx).2)
  have hkraft := firstCode_of_makeCode hcode
  have hsum := sum_card_innerNodes hkraft (by decide : 1 ≤ 16) (Nat.le_refl 16)
  have hlast : (innerNodes n len 16).card = 0 := by
    change 2 * (firstCode n len 16 + symbolCount n len 16) = 2 ^ 17 at hkraft
    rw [innerNodes, Nat.card_Ico]
    omega
  have hcount := sum_symbolCount_le n len (Finset.Ico 1 (16 + 1))
  have hcard := (Finset.card_le_card hsub).trans Finset.card_biUnion_le
  omega

end Sys2Proof.Machine
end

section
/-! PROOFS. MakeTable's start values and acceptance (42_huffman_decode.md R275, R276): its first codes are those of
30_encoding.md R136, moved to the left end of 16 bits. -/

namespace Sys2Proof.Machine

open Claims

/-- The decoder's first codes are R136's, left aligned. -/
theorem two_mul_tableStart (n : Nat) (len : Nat → Nat) {k : Nat} (hk : k ≤ 17) :
    2 * tableStart (lenCount n len) k = firstCode n len k * 2 ^ (17 - k) := by
  match k with
  | 0 => simp [tableStart, firstCode]
  | 1 => simp [tableStart, firstCode]
  | k + 2 =>
    have ih := two_mul_tableStart n len (show k + 1 ≤ 17 by omega)
    rw [show 17 - (k + 1) = 17 - (k + 2) + 1 by omega, Nat.pow_succ] at ih
    rw [tableStart, firstCode_add_two, Nat.mul_add, ih, show 16 - (k + 1) = 17 - (k + 2) by omega,
      show memRead 0 (lenCount n len) (k + 1) = symbolCount n len (k + 1) from memRead_lenCounts n len (k + 1)]
    ring

theorem tableStart_lenCount (n : Nat) (len : Nat → Nat) {k : Nat} (hk : k ≤ 16) :
    tableStart (lenCount n len) k = firstCode n len k * 2 ^ (16 - k) := by
  have h := two_mul_tableStart n len (show k ≤ 17 by omega)
  rw [show 17 - k = 16 - k + 1 by omega, Nat.pow_succ, ← Nat.mul_assoc] at h
  omega

/-- The table with which MakeTable's loop begins: the places of the first codes, no entry. -/
def emptyTable (n : Nat) (len : Nat → Nat) (tb : Nat) : TableBuild where
  start := memInit 0 17 (fun k => if k ≤ tb then tableStart (lenCount n len) k / 2 ^ (16 - tb)
    else tableStart (lenCount n len) k) []
  lookup := []
  left := []
  right := []
  avail := n

/-- MakeTable's loop over the first `m` symbols. -/
def enterSymbols (n : Nat) (len : Nat → Nat) (tb m : Nat) : TableBuild :=
  (List.range m).foldl (fun b ch => addSymbol tb ch (len ch) b) (emptyTable n len tb)

theorem enterSymbols_succ (n : Nat) (len : Nat → Nat) (tb m : Nat) :
    enterSymbols n len tb (m + 1) = addSymbol tb m (len m) (enterSymbols n len tb m) := by
  simp [enterSymbols, List.range_succ]

/-- The table as DECODE keeps it. -/
def TableBuild.table (b : TableBuild) : Table := .coded b.lookup b.left b.right

theorem makeTable_eq (n : Nat) (len : Nat → Nat) (tb : Nat) :
    makeTable n len tb = if firstCode n len 17 ≠ 2 ^ 17 then none else some (enterSymbols n len tb n).table := by
  have h := two_mul_tableStart n len (Nat.le_refl 17)
  have hiff : tableStart (lenCount n len) 17 ≠ 2 ^ 16 ↔ firstCode n len 17 ≠ 2 ^ 17 := by omega
  exact if_congr hiff rfl rfl

/-- R276: a table is accepted exactly under the Kraft equality. -/
theorem makeTable_isSome_iff {n : Nat} {len : Nat → Nat} (tb : Nat) (hlen : ∀ i, i < n → len i ≤ 16) :
    (makeTable n len tb).isSome = true ↔ kraft n len = 2 ^ 16 := by
  rw [makeTable_eq, firstCode_seventeen hlen]
  split
  · next h => simp only [Option.isSome_none, Bool.false_eq_true, false_iff]; omega
  · next h => simp only [Option.isSome_some, true_iff]; omega

theorem memRead_start_emptyTable (n : Nat) (len : Nat → Nat) {tb k : Nat} (htb : tb ≤ 16) (hk : k ≤ 16) :
    memRead 0 (emptyTable n len tb).start k = firstCode n len k * tableWeight tb k := by
  rw [emptyTable, memRead_memInit 0 (wf_nil 0), if_pos (by omega), tableStart_lenCount n len hk, tableWeight]
  split
  · rw [show 16 - k = tb - k + (16 - tb) by omega, Nat.pow_add, ← Nat.mul_assoc,
      Nat.mul_div_cancel _ (Nat.two_pow_pos _)]
  · rfl

end Sys2Proof.Machine
end

section
/-! PROOFS. The storage places of a decode table (42_huffman_decode.md R275): what they hold after each operation. -/

namespace Sys2Proof.Machine

/-! ### Cells -/

theorem cellGet_eq_some_iff {α : Type} {m : Memory α} (hm : Memory.rising m = true) {a : Nat} {v : α} :
    cellGet m a = some v ↔ (a, v) ∈ m := by
  induction m with
  | nil => simp
  | cons c rest ih =>
    obtain ⟨k, w⟩ := c
    rw [rising_iff] at hm
    have habove := fun x hx => List.rel_of_pairwise_cons hm (a' := x) hx
    rw [cellGet, List.mem_cons, Prod.mk.injEq, ← ih ((rising_iff _).mpr hm.of_cons)]
    rcases Nat.lt_trichotomy a k with hlt | rfl | hgt
    · have hrest : cellGet rest a = none := cellGet_eq_none_of_lt fun x hx => Nat.lt_trans hlt (habove x hx)
      simp [hlt.ne, hlt, hrest]
    · have hrest : cellGet rest a = none := cellGet_eq_none_of_lt habove
      simp [hrest, eq_comm]
    · simp [hgt.ne', Nat.not_lt.mpr hgt.le]

theorem cellGet_cellFill {α : Type} {m : Memory α} (hm : Memory.rising m = true) (a b : Nat) (v : α) (i : Nat) :
    cellGet (cellFill m a b v) i = if a ≤ i ∧ i < b then some v else cellGet m i := by
  refine Option.ext fun w => ?_
  rw [cellGet_eq_some_iff (rising_cellFill hm a b v)]
  simp only [cellFill, List.mem_append, List.mem_filter, List.mem_map, List.mem_range'_1, decide_eq_true_eq,
    Bool.and_eq_true, Prod.mk.injEq]
  split
  · next hin =>
    constructor
    · rintro ((⟨-, h⟩ | ⟨e, -, rfl, rfl⟩) | ⟨-, h⟩)
      · omega
      · rfl
      · omega
    · rintro ⟨⟩
      exact .inl (.inr ⟨i, by omega, rfl, rfl⟩)
  · next hout =>
    rw [cellGet_eq_some_iff hm]
    constructor
    · rintro ((⟨h, -⟩ | ⟨e, he, rfl, rfl⟩) | ⟨h, -⟩)
      · exact h
      · omega
      · exact h
    · intro h
      by_cases hia : i < a
      · exact .inl (.inl ⟨h, hia⟩)
      · exact .inr ⟨h, by omega, by omega⟩

theorem cellGet_cellPut {α : Type} (m : Memory α) (a b : Nat) (v : α) :
    cellGet (cellPut m a v) b = if b = a then some v else cellGet m b := by
  split
  · next h => rw [h, cellGet_cellPut_same]
  · next h => exact cellGet_cellPut_ne m v h

/-! ### Places -/

theorem slotGet_slotPut (b : TableBuild) (v : Half) (slot place : Slot) :
    slotGet (slotPut b v slot) place = if place = slot then some v else slotGet b place := by
  cases slot <;> cases place <;> simp [slotGet, slotPut, cellGet_cellPut]

@[simp] theorem slotPut_avail (b : TableBuild) (v : Half) (slot : Slot) : (slotPut b v slot).avail = b.avail := by
  cases slot <;> rfl

@[simp] theorem slotPut_start (b : TableBuild) (v : Half) (slot : Slot) : (slotPut b v slot).start = b.start := by
  cases slot <;> rfl

theorem slotNode_of_some {b : TableBuild} {slot : Slot} {v : Half} (h : slotGet b slot = some v) :
    slotNode b slot = (b, v.toNat) := by
  simp only [slotNode, h]

theorem slotNode_snd_of_none {b : TableBuild} {slot : Slot} (h : slotGet b slot = none) :
    (slotNode b slot).2 = b.avail := by
  simp only [slotNode, h]

theorem slotNode_avail_of_none {b : TableBuild} {slot : Slot} (h : slotGet b slot = none) :
    (slotNode b slot).1.avail = b.avail + 1 := by
  simp only [slotNode, h, slotPut_avail]

@[simp] theorem slotNode_start (b : TableBuild) (slot : Slot) : (slotNode b slot).1.start = b.start := by
  unfold slotNode
  split
  · rfl
  · exact slotPut_start _ _ _

/-- A new node: its number goes to the EMPTY place, and its own two places are EMPTY. -/
theorem slotGet_slotNode_of_none {b : TableBuild} (hb : b.MemWf) {slot : Slot} (h : slotGet b slot = none)
    (place : Slot) : slotGet (slotNode b slot).1 place =
      if place = slot then some (BitVec.ofNat 16 b.avail)
      else if place = .left b.avail ∨ place = .right b.avail then none
      else slotGet b place := by
  simp only [slotNode, h, slotGet_slotPut]
  congr 1
  cases place with
  | entry i => simp [slotGet]
  | left i =>
    by_cases hi : i = b.avail
    · simp [slotGet, hi, cellGet_cellDrop_same hb.left]
    · simp [slotGet, hi, cellGet_cellDrop_ne hb.left]
  | right i =>
    by_cases hi : i = b.avail
    · simp [slotGet, hi, cellGet_cellDrop_same hb.right]
    · simp [slotGet, hi, cellGet_cellDrop_ne hb.right]

end Sys2Proof.Machine
end

section
/-! PROOFS. MakeTable builds the code tree (42_huffman_decode.md R275): every entry and every node has the bits that
lead to it, a place holds a symbol whose codeword those bits begin with or the node they lead to, and once a symbol is
entered no place on its way is EMPTY. -/

namespace Sys2Proof.Machine

open Claims

/-- A code of `n` symbols and a table width as R283 has them. -/
structure TableCode (n tb : Nat) (len : Nat → Nat) (code : Memory Half) : Prop where
  one_le_width : 1 ≤ tb
  width_le : tb ≤ 16
  symbols_le : n ≤ 32768
  len_le : ∀ i, i < n → len i ≤ 16
  code : makeCode n len = some code

/-! ### Slots and the bits that lead to them -/

/-- The slots of a table whose nodes are numbered `n ..< avail`. -/
def Slot.InTable (n tb avail : Nat) : Slot → Prop
  | .entry i => i < 2 ^ tb
  | .left k => n ≤ k ∧ k < avail
  | .right k => n ≤ k ∧ k < avail

/-- The bits that lead to a slot, `nodePath k` being those that lead to the node `k`. -/
def Slot.path (tb : Nat) (nodePath : Nat → Nat) : Slot → Nat
  | .entry i => 2 ^ tb + i
  | .left k => 2 * nodePath k
  | .right k => 2 * nodePath k + 1

/-- The slot where the walk goes on from the node `k`. -/
def childSlot (bit : Bool) (k : Nat) : Slot := if bit then .right k else .left k

theorem path_childSlot (tb : Nat) (nodePath : Nat → Nat) (bit : Bool) (k : Nat) :
    (childSlot bit k).path tb nodePath = 2 * nodePath k + bit.toNat := by
  cases bit <;> rfl

theorem inTable_childSlot {n tb avail k : Nat} {bit : Bool} :
    (childSlot bit k).InTable n tb avail ↔ n ≤ k ∧ k < avail := by
  cases bit <;> rfl

/-- Every slot is an entry or a child of a node. -/
theorem Slot.entry_or_child (slot : Slot) : (∃ i, slot = .entry i) ∨ ∃ bit k, slot = childSlot bit k := by
  cases slot with
  | entry i => exact .inl ⟨i, rfl⟩
  | left k => exact .inr ⟨false, k, rfl⟩
  | right k => exact .inr ⟨true, k, rfl⟩

/-! ### The table as a tree -/

/-- What a slot with the bits `x` may hold: a symbol whose codeword begins `x`, or the node that `x` leads to. -/
def Holds (n : Nat) (len : Nat → Nat) (code : Memory Half) (avail : Nat) (nodePath : Nat → Nat) (x v : Nat) : Prop :=
  (v < n ∧ 0 < len v ∧ Begins (codeword len code v) x) ∨ (n ≤ v ∧ v < avail ∧ nodePath v = x)

/-- The node `k` is an inner node of the code tree, and a slot of the table leads to it. -/
structure NodeOk (n tb : Nat) (len : Nat → Nat) (code : Memory Half) (nodePath : Nat → Nat) (b : TableBuild)
    (k : Nat) : Prop where
  inner : Inner n len code (nodePath k)
  deep : 2 ^ tb ≤ nodePath k
  stored : ∃ slot : Slot, slot.InTable n tb b.avail ∧ slot.path tb nodePath = nodePath k ∧
    slotGet b slot = some (BitVec.ofNat 16 k)

/-- The table is a part of the code tree. -/
structure TableTree (n tb : Nat) (len : Nat → Nat) (code : Memory Half) (nodePath : Nat → Nat) (b : TableBuild) :
    Prop where
  memWf : b.MemWf
  le_avail : n ≤ b.avail
  injOn : Set.InjOn nodePath (Set.Ico n b.avail)
  node : ∀ k, n ≤ k → k < b.avail → NodeOk n tb len code nodePath b k
  holds : ∀ (slot : Slot) (v : Half), slot.InTable n tb b.avail → slotGet b slot = some v →
    Holds n len code b.avail nodePath (slot.path tb nodePath) v.toNat

/-- No slot on the way along the bits `y` is EMPTY. -/
def Filled (n tb : Nat) (nodePath : Nat → Nat) (b : TableBuild) (y : Nat) : Prop :=
  ∀ slot : Slot, slot.InTable n tb b.avail → Begins (slot.path tb nodePath) y → slotGet b slot ≠ none

namespace TableTree

variable {n tb : Nat} {len : Nat → Nat} {code : Memory Half} {nodePath : Nat → Nat} {b : TableBuild} {slot : Slot}

theorem two_pow_le_path (h : TableTree n tb len code nodePath b) (hslot : slot.InTable n tb b.avail) :
    2 ^ tb ≤ slot.path tb nodePath := by
  rcases slot.entry_or_child with ⟨i, rfl⟩ | ⟨bit, k, rfl⟩
  · exact Nat.le_add_right _ _
  · obtain ⟨hk, hlt⟩ := inTable_childSlot.mp hslot
    have := (h.node k hk hlt).deep
    rw [path_childSlot]
    omega

/-- Different slots have different bits. -/
theorem slot_eq (h : TableTree n tb len code nodePath b) {slot' : Slot} (hslot : slot.InTable n tb b.avail)
    (hslot' : slot'.InTable n tb b.avail) (heq : slot.path tb nodePath = slot'.path tb nodePath) : slot = slot' := by
  have entry_ne_child {i k : Nat} (bit : Bool) (hi : i < 2 ^ tb) (hk : n ≤ k ∧ k < b.avail) :
      2 ^ tb + i ≠ 2 * nodePath k + bit.toNat := by
    have := (h.node k hk.1 hk.2).deep
    omega
  rcases slot.entry_or_child with ⟨i, rfl⟩ | ⟨bit, k, rfl⟩ <;>
    rcases slot'.entry_or_child with ⟨i', rfl⟩ | ⟨bit', k', rfl⟩
  · exact congrArg _ (Nat.add_left_cancel heq)
  · rw [path_childSlot] at heq
    exact absurd heq (entry_ne_child bit' hslot (inTable_childSlot.mp hslot'))
  · rw [path_childSlot] at heq
    exact absurd heq.symm (entry_ne_child bit hslot' (inTable_childSlot.mp hslot))
  · rw [path_childSlot, path_childSlot] at heq
    have toNat_inj : ∀ x y : Bool, x.toNat = y.toNat → x = y := by decide
    have hbit : bit = bit' := toNat_inj _ _ (by have := bit.toNat_lt; have := bit'.toNat_lt; omega)
    subst hbit
    have hk : k = k' := h.injOn (inTable_childSlot.mp hslot) (inTable_childSlot.mp hslot') (by omega)
    rw [hk]

variable (hcode : TableCode n tb len code)
include hcode

/-- The node numbers fit 16 bits: there are fewer nodes than symbols. -/
theorem avail_lt (h : TableTree n tb len code nodePath b) : b.avail < 2 ^ 16 := by
  have hcard : ((Finset.Ico n b.avail).image nodePath).card = b.avail - n := by
    rw [Finset.card_image_of_injOn (by rw [Finset.coe_Ico]; exact h.injOn), Nat.card_Ico]
  have hlt : ((Finset.Ico n b.avail).image nodePath).card < n := by
    refine card_lt_of_inner hcode.len_le hcode.code fun x hx => ?_
    obtain ⟨k, hk, rfl⟩ := Finset.mem_image.mp hx
    obtain ⟨hnk, hka⟩ := Finset.mem_Ico.mp hk
    have hdeep := (h.node k hnk hka).deep
    have hwidth : 2 ^ 1 ≤ 2 ^ tb := Nat.pow_le_pow_right Nat.two_pos hcode.one_le_width
    exact ⟨(h.node k hnk hka).inner, by omega⟩
  have := hcode.symbols_le
  omega

/-- The slot of a node's bits holds no symbol. -/
theorem exists_node_of_inner (h : TableTree n tb len code nodePath b) (hslot : slot.InTable n tb b.avail) {v : Half}
    (hv : slotGet b slot = some v) (hinner : Inner n len code (slot.path tb nodePath)) :
    n ≤ v.toNat ∧ v.toNat < b.avail ∧ nodePath v.toNat = slot.path tb nodePath := by
  rcases h.holds slot v hslot hv with ⟨hlt, hpos, hbegins⟩ | hnode
  · exact absurd hbegins (hinner.not_begins hcode.len_le hcode.code hlt hpos)
  · exact hnode

end TableTree

/-! ### A symbol's number is stored -/

/-- The table `b'` is `b` but for slots whose bits begin with the codeword of `c`, and which hold `c`. -/
structure Stores (n tb : Nat) (len : Nat → Nat) (code : Memory Half) (nodePath : Nat → Nat) (c : Nat)
    (b b' : TableBuild) : Prop where
  memWf : b'.MemWf
  avail : b'.avail = b.avail
  get : ∀ slot : Slot, slot.InTable n tb b.avail → slotGet b' slot = slotGet b slot ∨
    slotGet b' slot = some (BitVec.ofNat 16 c) ∧ Begins (codeword len code c) (slot.path tb nodePath)

namespace Stores

variable {n tb : Nat} {len : Nat → Nat} {code : Memory Half} {nodePath : Nat → Nat} {c : Nat} {b b' : TableBuild}

theorem filled (hs : Stores n tb len code nodePath c b b') {y : Nat} (h : Filled n tb nodePath b y) :
    Filled n tb nodePath b' y := by
  intro slot hslot hbegins
  rw [hs.avail] at hslot
  rcases hs.get slot hslot with heq | ⟨hsome, -⟩
  · rw [heq]; exact h slot hslot hbegins
  · simp [hsome]

theorem tableTree (hs : Stores n tb len code nodePath c b b') (hcode : TableCode n tb len code) (hc : c < n)
    (hpos : 0 < len c) (h : TableTree n tb len code nodePath b) : TableTree n tb len code nodePath b' where
  memWf := hs.memWf
  le_avail := by rw [hs.avail]; exact h.le_avail
  injOn := by rw [hs.avail]; exact h.injOn
  node k hk hlt := by
    rw [hs.avail] at hlt
    obtain ⟨hinner, hdeep, slot, hslot, hpath, hget⟩ := h.node k hk hlt
    refine ⟨hinner, hdeep, slot, by rwa [hs.avail], hpath, ?_⟩
    rcases hs.get slot hslot with heq | ⟨-, hbegins⟩
    · rw [heq, hget]
    · rw [hpath] at hbegins
      exact absurd hbegins (hinner.not_begins hcode.len_le hcode.code hc hpos)
  holds slot v hslot hv := by
    rw [hs.avail] at hslot ⊢
    rcases hs.get slot hslot with heq | ⟨hsome, hbegins⟩
    · exact h.holds slot v hslot (by rw [← heq, hv])
    · have hfit : c < 2 ^ 16 := by have := hcode.symbols_le; omega
      rw [hsome, Option.some_inj] at hv
      rw [← hv, BitVec.toNat_ofNat, Nat.mod_eq_of_lt hfit]
      exact .inl ⟨hc, hpos, hbegins⟩

end Stores

/-! ### A new node -/

section NewNode
variable {n tb : Nat} {len : Nat → Nat} {code : Memory Half} {nodePath : Nat → Nat} {b : TableBuild} {slot : Slot}

theorem inTable_succ {avail : Nat} (hn : n ≤ avail) : slot.InTable n tb (avail + 1) ↔
    slot.InTable n tb avail ∨ ∃ bit, slot = childSlot bit avail := by
  rcases slot.entry_or_child with ⟨i, rfl⟩ | ⟨bit, k, rfl⟩
  · have hne (bit : Bool) : Slot.entry i ≠ childSlot bit avail := by cases bit <;> simp [childSlot]
    simp [Slot.InTable, hne]
  · rw [inTable_childSlot, inTable_childSlot]
    have hinj : (∃ bit', childSlot bit k = childSlot bit' avail) ↔ k = avail := by
      constructor
      · rintro ⟨bit', heq⟩
        cases bit <;> cases bit' <;> cases heq <;> rfl
      · rintro rfl; exact ⟨bit, rfl⟩
    rw [hinj]
    omega

theorem path_update {avail x : Nat} (hslot : slot.InTable n tb avail) :
    slot.path tb (Function.update nodePath avail x) = slot.path tb nodePath := by
  rcases slot.entry_or_child with ⟨i, rfl⟩ | ⟨bit, k, rfl⟩
  · rfl
  · have hk := (inTable_childSlot.mp hslot).2.ne
    rw [path_childSlot, path_childSlot, Function.update_of_ne hk]

/-- The nodes' bits once the new node was put into `slot`. -/
def extendPath (tb : Nat) (nodePath : Nat → Nat) (b : TableBuild) (slot : Slot) : Nat → Nat :=
  Function.update nodePath b.avail (slot.path tb nodePath)

theorem extendPath_avail : extendPath tb nodePath b slot b.avail = slot.path tb nodePath := Function.update_self ..

theorem extendPath_of_lt {k : Nat} (hk : k < b.avail) : extendPath tb nodePath b slot k = nodePath k :=
  Function.update_of_ne hk.ne ..

/-- The slots the table had keep their contents, but for the one that was EMPTY. -/
theorem slotGet_slotNode_of_inTable (h : TableTree n tb len code nodePath b) (hempty : slotGet b slot = none)
    {slot' : Slot} (hslot' : slot'.InTable n tb b.avail) : slotGet (slotNode b slot).1 slot' =
      if slot' = slot then some (BitVec.ofNat 16 b.avail) else slotGet b slot' := by
  rw [slotGet_slotNode_of_none h.memWf hempty]
  congr 1
  rw [if_neg]
  rintro (rfl | rfl)
  · exact Nat.lt_irrefl _ hslot'.2
  · exact Nat.lt_irrefl _ hslot'.2

/-- The new node's own slots are EMPTY. -/
theorem slotGet_slotNode_childSlot (h : TableTree n tb len code nodePath b) (hempty : slotGet b slot = none)
    (hslot : slot.InTable n tb b.avail) (bit : Bool) : slotGet (slotNode b slot).1 (childSlot bit b.avail) = none := by
  rw [slotGet_slotNode_of_none h.memWf hempty, if_neg, if_pos]
  · cases bit <;> simp [childSlot]
  · rintro rfl
    exact Nat.lt_irrefl _ (inTable_childSlot.mp hslot).2

theorem inTable_slotNode (h : TableTree n tb len code nodePath b) (hempty : slotGet b slot = none) {slot' : Slot}
    (hslot' : slot'.InTable n tb b.avail) : slot'.InTable n tb (slotNode b slot).1.avail := by
  rw [slotNode_avail_of_none hempty]
  exact (inTable_succ h.le_avail).mpr (.inl hslot')

/-- No node has the bits of an EMPTY slot. -/
theorem TableTree.path_ne_of_empty (h : TableTree n tb len code nodePath b) (hslot : slot.InTable n tb b.avail)
    (hempty : slotGet b slot = none) {k : Nat} (hk : n ≤ k) (hlt : k < b.avail) :
    nodePath k ≠ slot.path tb nodePath := by
  intro heq
  obtain ⟨slot', hslot', hpath, hget⟩ := (h.node k hk hlt).stored
  obtain rfl := h.slot_eq hslot' hslot (hpath.trans heq)
  rw [hempty] at hget
  cases hget

theorem TableTree.injOn_extendPath (h : TableTree n tb len code nodePath b) (hslot : slot.InTable n tb b.avail)
    (hempty : slotGet b slot = none) : Set.InjOn (extendPath tb nodePath b slot) (Set.Ico n (b.avail + 1)) := by
  rintro k ⟨hk, hlt⟩ k' ⟨hk', hlt'⟩ heq
  rcases Nat.lt_succ_iff_lt_or_eq.mp hlt with hlt | rfl <;>
    rcases Nat.lt_succ_iff_lt_or_eq.mp hlt' with hlt' | rfl
  · rw [extendPath_of_lt hlt, extendPath_of_lt hlt'] at heq
    exact h.injOn ⟨hk, hlt⟩ ⟨hk', hlt'⟩ heq
  · rw [extendPath_of_lt hlt, extendPath_avail] at heq
    exact absurd heq (h.path_ne_of_empty hslot hempty hk hlt)
  · rw [extendPath_of_lt hlt', extendPath_avail] at heq
    exact absurd heq.symm (h.path_ne_of_empty hslot hempty hk' hlt')
  · rfl

theorem NodeOk.extendPath (h : TableTree n tb len code nodePath b) (hempty : slotGet b slot = none) {k : Nat}
    (hlt : k < b.avail) (hk : NodeOk n tb len code nodePath b k) :
    NodeOk n tb len code (extendPath tb nodePath b slot) (slotNode b slot).1 k := by
  obtain ⟨hinner, hdeep, slot', hslot', hpath, hget⟩ := hk
  have hne : slot' ≠ slot := by
    rintro rfl
    rw [hempty] at hget
    cases hget
  refine ⟨by rwa [extendPath_of_lt hlt], by rwa [extendPath_of_lt hlt], slot', inTable_slotNode h hempty hslot', ?_, ?_⟩
  · rw [extendPath_of_lt hlt, Machine.extendPath, path_update hslot', hpath]
  · rw [slotGet_slotNode_of_inTable h hempty hslot', if_neg hne, hget]

theorem TableTree.nodeOk_avail (h : TableTree n tb len code nodePath b) (hslot : slot.InTable n tb b.avail)
    (hempty : slotGet b slot = none) (hinner : Inner n len code (slot.path tb nodePath)) :
    NodeOk n tb len code (extendPath tb nodePath b slot) (slotNode b slot).1 b.avail := by
  refine ⟨by rwa [extendPath_avail], ?_, slot, inTable_slotNode h hempty hslot, ?_, ?_⟩
  · rw [extendPath_avail]; exact h.two_pow_le_path hslot
  · rw [extendPath_avail, extendPath, path_update hslot]
  · rw [slotGet_slotNode_of_inTable h hempty hslot, if_pos rfl]

theorem TableTree.holds_slotNode (h : TableTree n tb len code nodePath b) (hcode : TableCode n tb len code)
    (hempty : slotGet b slot = none) {slot' : Slot} {v : Half} (hslot' : slot'.InTable n tb b.avail)
    (hv : slotGet (slotNode b slot).1 slot' = some v) : Holds n len code (b.avail + 1) (extendPath tb nodePath b slot)
      (slot'.path tb (extendPath tb nodePath b slot)) v.toNat := by
  rw [slotGet_slotNode_of_inTable h hempty hslot'] at hv
  rw [extendPath, path_update hslot']
  split at hv
  · next heq =>
    subst heq
    cases hv
    rw [BitVec.toNat_ofNat, Nat.mod_eq_of_lt (h.avail_lt hcode)]
    exact .inr ⟨h.le_avail, Nat.lt_succ_self _, extendPath_avail⟩
  · rcases h.holds slot' v hslot' hv with hsymbol | ⟨hnv, hlt, hpath⟩
    · exact .inl hsymbol
    · exact .inr ⟨hnv, by omega, (extendPath_of_lt hlt).trans hpath⟩

theorem TableTree.newNode (h : TableTree n tb len code nodePath b) (hcode : TableCode n tb len code)
    (hslot : slot.InTable n tb b.avail) (hempty : slotGet b slot = none)
    (hinner : Inner n len code (slot.path tb nodePath)) :
    TableTree n tb len code (extendPath tb nodePath b slot) (slotNode b slot).1 := by
  have havail := slotNode_avail_of_none hempty
  refine ⟨h.memWf.slotNode slot, ?_, ?_, fun k hk hlt => ?_, fun slot' v hslot' hv => ?_⟩
  · rw [havail]; exact Nat.le_succ_of_le h.le_avail
  · rw [havail]; exact h.injOn_extendPath hslot hempty
  · rw [havail] at hlt
    rcases Nat.lt_succ_iff_lt_or_eq.mp hlt with hold | rfl
    · exact (h.node k hk hold).extendPath h hempty hold
    · exact h.nodeOk_avail hslot hempty hinner
  · rw [havail] at hslot' ⊢
    rcases (inTable_succ h.le_avail).mp hslot' with hold | ⟨bit, rfl⟩
    · exact h.holds_slotNode hcode hempty hold hv
    · rw [slotGet_slotNode_childSlot h hempty hslot] at hv
      cases hv

/-- A slot on the way along `y` was EMPTY, or the new node is not on that way. -/
theorem TableTree.filled_newNode (h : TableTree n tb len code nodePath b) (hslot : slot.InTable n tb b.avail)
    (hempty : slotGet b slot = none) {y : Nat} (hfilled : Filled n tb nodePath b y) :
    Filled n tb (extendPath tb nodePath b slot) (slotNode b slot).1 y := by
  intro slot' hslot' hbegins
  rw [slotNode_avail_of_none hempty] at hslot'
  rcases (inTable_succ h.le_avail).mp hslot' with hold | ⟨bit, rfl⟩
  · rw [extendPath, path_update hold] at hbegins
    rw [slotGet_slotNode_of_inTable h hempty hold]
    split
    · simp
    · exact hfilled slot' hold hbegins
  · rw [path_childSlot, extendPath_avail] at hbegins
    have hparent : Begins (slot.path tb nodePath) (2 * slot.path tb nodePath + bit.toNat) :=
      ⟨1, by have := bit.toNat_lt; omega⟩
    exact absurd hempty (hfilled slot hslot (hparent.trans hbegins))

end NewNode

end Sys2Proof.Machine
end

section
/-! PROOFS. Every symbol enters the tree (42_huffman_decode.md R275), and TableDecode finds it there (R280, R283). -/

namespace Sys2Proof.Machine

open Claims

/-! ### The walk of a long code -/

theorem walkSlot_start (mask steps : Nat) (b : TableBuild) (slot : Slot) (code : Nat) :
    (walkSlot mask steps b slot code).1.start = b.start := by
  induction steps generalizing b slot code with
  | zero => rfl
  | succ steps ih => exact (ih _ _ _).trans (slotNode_start b slot)

section Enter
variable {n tb : Nat} {len : Nat → Nat} {code : Memory Half} {nodePath : Nat → Nat} {b : TableBuild} {slot : Slot}
  {c : Nat}

/-- `b'` is a later table: still a tree, and no way is EMPTY that was not. -/
structure Grows (n tb : Nat) (len : Nat → Nat) (code : Memory Half) (nodePath : Nat → Nat) (b : TableBuild)
    (nodePath' : Nat → Nat) (b' : TableBuild) : Prop where
  tree : TableTree n tb len code nodePath' b'
  filled : ∀ y, Filled n tb nodePath b y → Filled n tb nodePath' b' y

theorem Grows.trans {nodePath₁ nodePath₂ : Nat → Nat} {b₁ b₂ : TableBuild}
    (h₁ : Grows n tb len code nodePath b nodePath₁ b₁) (h₂ : Grows n tb len code nodePath₁ b₁ nodePath₂ b₂) :
    Grows n tb len code nodePath b nodePath₂ b₂ :=
  ⟨h₂.tree, fun y hy => h₂.filled y (h₁.filled y hy)⟩

/-- The node a slot leads to, found or new: it has the slot's bits, and the slot is not EMPTY any more. -/
theorem TableTree.exists_grows_slotNode (h : TableTree n tb len code nodePath b) (hcode : TableCode n tb len code)
    (hslot : slot.InTable n tb b.avail) (hinner : Inner n len code (slot.path tb nodePath))
    (hfilled : Filled n tb nodePath b (slot.path tb nodePath / 2)) :
    ∃ nodePath', Grows n tb len code nodePath b nodePath' (slotNode b slot).1 ∧
      (n ≤ (slotNode b slot).2 ∧ (slotNode b slot).2 < (slotNode b slot).1.avail) ∧
      nodePath' (slotNode b slot).2 = slot.path tb nodePath ∧
      Filled n tb nodePath' (slotNode b slot).1 (slot.path tb nodePath) := by
  cases hv : slotGet b slot with
  | some v =>
    obtain ⟨hnv, hlt, hpath⟩ := h.exists_node_of_inner hcode hslot hv hinner
    rw [slotNode_of_some hv]
    refine ⟨nodePath, ⟨h, fun _ => id⟩, ⟨hnv, hlt⟩, hpath, fun slot' hslot' hbegins => ?_⟩
    rcases hbegins.eq_or_half with heq | hhalf
    · rw [h.slot_eq hslot' hslot heq, hv]
      exact Option.some_ne_none v
    · exact hfilled slot' hslot' hhalf
  | none =>
    have havail := slotNode_avail_of_none hv
    rw [slotNode_snd_of_none hv]
    refine ⟨extendPath tb nodePath b slot, ⟨h.newNode hcode hslot hv hinner, fun _ => h.filled_newNode hslot hv⟩,
      ⟨h.le_avail, by omega⟩, extendPath_avail, fun slot' hslot' hbegins => ?_⟩
    rcases hbegins.eq_or_half with heq | hhalf
    · have hself : slot.path tb (extendPath tb nodePath b slot) = slot.path tb nodePath := path_update hslot
      rw [(h.newNode hcode hslot hv hinner).slot_eq hslot' (inTable_slotNode h hv hslot) (heq.trans hself.symm),
        slotGet_slotNode_of_inTable h hv hslot, if_pos rfl]
      exact Option.some_ne_none _
    · exact h.filled_newNode hslot hv hfilled slot' hslot' hhalf

/-- The walk to the slot of a codeword from the slot that `steps` bits of it are still to lead on from. -/
theorem TableTree.exists_grows_walkSlot (hcode : TableCode n tb len code) (hc : c < n) {steps : Nat}
    (hsteps : tb + steps ≤ len c) (h : TableTree n tb len code nodePath b) (hslot : slot.InTable n tb b.avail)
    (hpath : slot.path tb nodePath = codeword len code c / 2 ^ steps)
    (hfilled : Filled n tb nodePath b (slot.path tb nodePath / 2)) {walk : TableBuild × Slot}
    (hwalk : walkSlot (15 - tb) steps b slot (halfAt code c * 2 ^ (16 - tb - steps) % 2 ^ 16) = walk) :
    ∃ nodePath', Grows n tb len code nodePath b nodePath' walk.1 ∧ walk.2.InTable n tb walk.1.avail ∧
      walk.2.path tb nodePath' = codeword len code c ∧ Filled n tb nodePath' walk.1 (codeword len code c / 2) := by
  induction steps generalizing nodePath b slot with
  | zero =>
    subst hwalk
    rw [Nat.pow_zero, Nat.div_one] at hpath
    exact ⟨nodePath, ⟨h, fun _ => id⟩, hslot, hpath, hpath ▸ hfilled⟩
  | succ steps ih =>
    have hwidth := hcode.width_le
    have hlenc := hcode.len_le c hc
    have hpos : 0 < codeword len code c := Nat.lt_of_lt_of_le (Nat.two_pow_pos _) (le_codeword len code c)
    have hinner : Inner n len code (slot.path tb nodePath) := by
      refine ⟨c, hc, by have := hcode.one_le_width; omega, ⟨steps + 1, hpath.symm⟩, ?_⟩
      rw [hpath]
      exact Nat.div_lt_self hpos (Nat.one_lt_two_pow (Nat.succ_ne_zero steps))
    have hbit : (halfAt code c * 2 ^ (16 - tb - (steps + 1)) % 2 ^ 16).testBit (15 - tb) =
        (codeword len code c).testBit steps := by
      rw [Nat.testBit_mod_two_pow, Nat.testBit_mul_two_pow, codeword, Nat.testBit_two_pow_add_gt (by omega),
        show 15 - tb - (16 - tb - (steps + 1)) = steps by omega, decide_eq_true (by omega),
        decide_eq_true (by omega), Bool.true_and, Bool.true_and]
    have hshift : halfAt code c * 2 ^ (16 - tb - (steps + 1)) % 2 ^ 16 * 2 % 2 ^ 16 =
        halfAt code c * 2 ^ (16 - tb - steps) % 2 ^ 16 := by
      rw [Nat.mod_mul_mod, Nat.mul_assoc, ← Nat.pow_succ]
      congr 3
      omega
    rw [walkSlot, hbit, hshift] at hwalk
    obtain ⟨nodePath₁, hgrows, hnode, hnodePath, hfilled₁⟩ := h.exists_grows_slotNode hcode hslot hinner hfilled
    have hnext : (childSlot ((codeword len code c).testBit steps) (slotNode b slot).2).path tb nodePath₁ =
        codeword len code c / 2 ^ steps := by
      rw [path_childSlot, hnodePath, hpath, two_mul_div_add_testBit]
    obtain ⟨nodePath', hgrows', hrest⟩ := ih (by omega) hgrows.tree (inTable_childSlot.mpr hnode) hnext
      (by rw [hnext, Nat.div_div_eq_div_mul, ← Nat.pow_succ, ← hpath]; exact hfilled₁) hwalk
    exact ⟨nodePath', hgrows.trans hgrows', hrest⟩

/-! ### One symbol enters (R275) -/

/-- The entries `a ..< e` get the value `v`. -/
def fillEntries (a e : Nat) (v : Half) (b : TableBuild) : TableBuild := { b with lookup := cellFill b.lookup a e v }

theorem slotGet_fillEntries (hb : b.MemWf) (a e : Nat) (v : Half) (i : Nat) :
    slotGet (fillEntries a e v b) (.entry i) = if a ≤ i ∧ i < e then some v else slotGet b (.entry i) :=
  cellGet_cellFill hb.lookup a e v i

/-- The table with the symbol `ch`, whose code begins at `st`, apart from the next place of its length `k`. -/
def enterCode (tb ch k st : Nat) (b : TableBuild) : TableBuild :=
  if k ≤ tb then fillEntries st (st + tableWeight tb k) (BitVec.ofNat 16 ch) b
  else
    let w := walkSlot (15 - tb) (k - tb) b (.entry (st / 2 ^ (16 - tb))) st
    slotPut w.1 (BitVec.ofNat 16 ch) w.2

theorem addSymbol_zero (tb ch : Nat) (b : TableBuild) : addSymbol tb ch 0 b = b := rfl

theorem addSymbol_of_pos {k : Nat} (tb ch : Nat) (b : TableBuild) (hk : 0 < k) :
    addSymbol tb ch k b = { enterCode tb ch k (memRead 0 b.start k) b with
      start := memWrite 0 (enterCode tb ch k (memRead 0 b.start k) b).start k
        (memRead 0 b.start k + tableWeight tb k) } :=
  if_neg hk.ne'

theorem enterCode_start (tb ch k st : Nat) (b : TableBuild) : (enterCode tb ch k st b).start = b.start := by
  unfold enterCode
  split
  · rfl
  · exact (slotPut_start _ _ _).trans (walkSlot_start _ _ _ _ _)

/-- Once no slot up to a codeword's end is EMPTY, and no entry below it, no slot along any continuation is. -/
theorem TableTree.filled_of_begins_codeword (h : TableTree n tb len code nodePath b) (hcode : TableCode n tb len code)
    (hc : c < n) (hpos : 0 < len c) (hto : Filled n tb nodePath b (codeword len code c))
    (hbelow : ∀ i, i < 2 ^ tb → Begins (codeword len code c) (2 ^ tb + i) → slotGet b (.entry i) ≠ none) {y : Nat}
    (hy : Begins (codeword len code c) y) : Filled n tb nodePath b y := by
  intro slot hslot hbegins
  rcases hbegins.total hy with hle | hge
  · exact hto slot hslot hle
  · rcases slot.entry_or_child with ⟨i, rfl⟩ | ⟨bit, k, rfl⟩
    · exact hbelow i hslot hge
    · obtain ⟨hnk, hlt⟩ := inTable_childSlot.mp hslot
      rcases hge.eq_or_half with heq | hhalf
      · exact hto _ hslot (heq ▸ Begins.refl _)
      · rw [path_childSlot, show (2 * nodePath k + bit.toNat) / 2 = nodePath k by have := bit.toNat_lt; omega] at hhalf
        exact absurd hhalf ((h.node k hnk hlt).inner.not_begins hcode.len_le hcode.code hc hpos)

/-- The entries that begin with a short codeword. -/
theorem codeword_begins_entry_iff (hcode : TableCode n tb len code) (hc : c < n) (hpos : 0 < len c)
    (hshort : len c ≤ tb) {i : Nat} (hi : i < 2 ^ tb) : Begins (codeword len code c) (2 ^ tb + i) ↔
      halfAt code c * 2 ^ (tb - len c) ≤ i ∧ i < halfAt code c * 2 ^ (tb - len c) + 2 ^ (tb - len c) := by
  have hdiv := Nat.div_eq_iff (x := i) (y := halfAt code c) (Nat.two_pow_pos (tb - len c))
  have hstep := Nat.two_pow_pos (tb - len c)
  rw [codeword, begins_leadingOne_iff hi (halfAt_makeCode_lt hcode.len_le hcode.code hc hpos), hdiv]
  omega

/-- The symbol `c` is entered into the table `b`, which gives `b'`. -/
def Enters (n tb : Nat) (len : Nat → Nat) (code : Memory Half) (nodePath : Nat → Nat) (b : TableBuild) (c : Nat)
    (b' : TableBuild) : Prop :=
  ∃ nodePath', Grows n tb len code nodePath b nodePath' b' ∧
    ∀ y, Begins (codeword len code c) y → Filled n tb nodePath' b' y

theorem TableTree.enters_short (h : TableTree n tb len code nodePath b) (hcode : TableCode n tb len code) (hc : c < n)
    (hpos : 0 < len c) (hshort : len c ≤ tb) : Enters n tb len code nodePath b c
      (enterCode tb c (len c) (halfAt code c * tableWeight tb (len c)) b) := by
  have hrange {i : Nat} (hi : i < 2 ^ tb) := codeword_begins_entry_iff hcode hc hpos hshort hi
  rw [enterCode, if_pos hshort, tableWeight, if_pos hshort]
  have hstores : Stores n tb len code nodePath c b (fillEntries (halfAt code c * 2 ^ (tb - len c))
      (halfAt code c * 2 ^ (tb - len c) + 2 ^ (tb - len c)) (BitVec.ofNat 16 c) b) := by
    refine ⟨⟨rising_cellFill h.memWf.lookup _ _ _, h.memWf.left, h.memWf.right⟩, rfl, fun slot hslot => ?_⟩
    cases slot with
    | entry i =>
      rw [slotGet_fillEntries h.memWf]
      split
      · next hin => exact .inr ⟨rfl, (hrange hslot).mpr hin⟩
      · exact .inl rfl
    | left k => exact .inl rfl
    | right k => exact .inl rfl
  have hbelow (i : Nat) (hi : i < 2 ^ tb) (hbegins : Begins (codeword len code c) (2 ^ tb + i)) :
      slotGet (fillEntries (halfAt code c * 2 ^ (tb - len c))
        (halfAt code c * 2 ^ (tb - len c) + 2 ^ (tb - len c)) (BitVec.ofNat 16 c) b) (.entry i) ≠ none := by
    rw [slotGet_fillEntries h.memWf, if_pos ((hrange hi).mp hbegins)]
    exact Option.some_ne_none _
  have htree := hstores.tableTree hcode hc hpos h
  refine ⟨nodePath, ⟨htree, fun _ => hstores.filled⟩, fun y => htree.filled_of_begins_codeword hcode hc hpos ?_ hbelow⟩
  intro slot hslot hbegins
  have hdeep := htree.two_pow_le_path hslot
  have hword : codeword len code c < 2 ^ (tb + 1) := Nat.lt_of_lt_of_le
    (codeword_lt hcode.len_le hcode.code hc hpos) (Nat.pow_le_pow_right Nat.two_pos (by omega))
  rw [Nat.pow_succ] at hword
  rcases hbegins.eq_or_half with heq | hhalf
  · rcases slot.entry_or_child with ⟨i, rfl⟩ | ⟨bit, k, rfl⟩
    · exact hbelow i hslot (heq ▸ Begins.refl _)
    · obtain ⟨hnk, hlt⟩ := inTable_childSlot.mp hslot
      have := (htree.node k hnk hlt).deep
      rw [path_childSlot] at heq
      omega
  · have := hhalf.le
    omega

/-- A symbol is stored in the slot that its codeword, longer than the table width, leads to. -/
theorem TableTree.enters_slotPut (h : TableTree n tb len code nodePath b) (hcode : TableCode n tb len code)
    (hc : c < n) (hlong : tb < len c) (hslot : slot.InTable n tb b.avail)
    (hpath : slot.path tb nodePath = codeword len code c)
    (hway : Filled n tb nodePath b (codeword len code c / 2)) :
    Enters n tb len code nodePath b c (slotPut b (BitVec.ofNat 16 c) slot) := by
  have hpos : 0 < len c := by omega
  have hstores : Stores n tb len code nodePath c b (slotPut b (BitVec.ofNat 16 c) slot) := by
    refine ⟨h.memWf.slotPut _ _, slotPut_avail _ _ _, fun slot' _ => ?_⟩
    rw [slotGet_slotPut]
    split
    · next heq => exact .inr ⟨rfl, heq ▸ hpath ▸ Begins.refl _⟩
    · exact .inl rfl
  have htree := hstores.tableTree hcode hc hpos h
  refine ⟨nodePath, ⟨htree, fun _ => hstores.filled⟩, fun y =>
    htree.filled_of_begins_codeword hcode hc hpos (fun slot' hslot' hbegins => ?_) fun i hi hbegins => ?_⟩
  · rcases hbegins.eq_or_half with heq | hhalf
    · rw [hstores.avail] at hslot'
      rw [h.slot_eq hslot' hslot (heq.trans hpath.symm), slotGet_slotPut, if_pos rfl]
      exact Option.some_ne_none _
    · exact hstores.filled hway slot' hslot' hhalf
  · have hle := (le_codeword len code c).trans hbegins.le
    have hpow : 2 ^ (tb + 1) ≤ 2 ^ len c := Nat.pow_le_pow_right Nat.two_pos hlong
    rw [Nat.pow_succ] at hpow
    omega

theorem TableTree.enters_long (h : TableTree n tb len code nodePath b) (hcode : TableCode n tb len code) (hc : c < n)
    (hlong : tb < len c) : Enters n tb len code nodePath b c
      (enterCode tb c (len c) (halfAt code c * tableWeight tb (len c)) b) := by
  have hlenc := hcode.len_le c hc
  have hfits := halfAt_makeCode_lt hcode.len_le hcode.code hc (by omega)
  have hindex : halfAt code c * 2 ^ (16 - len c) / 2 ^ (16 - tb) = halfAt code c / 2 ^ (len c - tb) := by
    rw [show 16 - tb = len c - tb + (16 - len c) by omega, Nat.pow_add,
      Nat.mul_div_mul_right _ _ (Nat.two_pow_pos _)]
  have hbits : halfAt code c * 2 ^ (16 - len c) = halfAt code c * 2 ^ (16 - tb - (len c - tb)) % 2 ^ 16 := by
    have hlt : halfAt code c * 2 ^ (16 - len c) < 2 ^ len c * 2 ^ (16 - len c) :=
      Nat.mul_lt_mul_of_pos_right hfits (Nat.two_pow_pos _)
    rw [← Nat.pow_add, Nat.add_sub_cancel' hlenc] at hlt
    rw [show 16 - tb - (len c - tb) = 16 - len c by omega, Nat.mod_eq_of_lt hlt]
  have hentry : halfAt code c / 2 ^ (len c - tb) < 2 ^ tb := by
    have := div_two_pow_lt hfits (Nat.sub_le (len c) tb)
    rwa [Nat.sub_sub_self hlong.le] at this
  have hpath : 2 ^ tb + halfAt code c / 2 ^ (len c - tb) = codeword len code c / 2 ^ (len c - tb) := by
    rw [codeword_div (Nat.sub_le _ _), Nat.sub_sub_self hlong.le]
  have hroot : Filled n tb nodePath b ((2 ^ tb + halfAt code c / 2 ^ (len c - tb)) / 2) := by
    intro slot hslot hbegins
    have := (h.two_pow_le_path hslot).trans hbegins.le
    omega
  rw [enterCode, if_neg (by omega), tableWeight, if_neg (by omega), hindex, hbits]
  obtain ⟨nodePath₁, hgrows, hslot, hend, hway⟩ := h.exists_grows_walkSlot hcode hc (steps := len c - tb) (by omega)
    (slot := .entry (halfAt code c / 2 ^ (len c - tb))) hentry hpath hroot rfl
  obtain ⟨nodePath', hgrows', hfilled⟩ := hgrows.tree.enters_slotPut hcode hc hlong hslot hend hway
  exact ⟨nodePath', hgrows.trans hgrows', hfilled⟩

end Enter

/-! ### The whole table -/

/-- After `m` symbols: the next code of each length, in its unit, and a tree in which they are entered. -/
structure Entered (n tb : Nat) (len : Nat → Nat) (code : Memory Half) (m : Nat) (b : TableBuild) : Prop where
  wfStart : Memory.wf 0 b.start = true
  start : ∀ k, 0 < k → k ≤ 16 → memRead 0 b.start k = (firstCode n len k + symbolCount m len k) * tableWeight tb k
  tree : ∃ nodePath, TableTree n tb len code nodePath b ∧
    ∀ c, c < m → 0 < len c → ∀ y, Begins (codeword len code c) y → Filled n tb nodePath b y

section Loop
variable {n tb : Nat} {len : Nat → Nat} {code : Memory Half}

theorem slotGet_withStart (b : TableBuild) (start : Memory Nat) (slot : Slot) :
    slotGet { b with start := start } slot = slotGet b slot := by
  cases slot <;> rfl

/-- The tree does not depend on the next codes. -/
theorem TableTree.withStart {nodePath : Nat → Nat} {b : TableBuild} (h : TableTree n tb len code nodePath b)
    (start : Memory Nat) : TableTree n tb len code nodePath { b with start := start } where
  memWf := ⟨h.memWf.lookup, h.memWf.left, h.memWf.right⟩
  le_avail := h.le_avail
  injOn := h.injOn
  node k hk hlt := by
    obtain ⟨hinner, hdeep, slot, hslot, hpath, hget⟩ := h.node k hk hlt
    exact ⟨hinner, hdeep, slot, hslot, hpath, (slotGet_withStart b start slot).trans hget⟩
  holds slot v hslot hv := h.holds slot v hslot ((slotGet_withStart b start slot).symm.trans hv)

theorem Filled.withStart {nodePath : Nat → Nat} {b : TableBuild} {y : Nat} (h : Filled n tb nodePath b y)
    (start : Memory Nat) : Filled n tb nodePath { b with start := start } y := fun slot hslot hbegins => by
  rw [slotGet_withStart]
  exact h slot hslot hbegins

theorem Entered.initial (htb : tb ≤ 16) : Entered n tb len code 0 (emptyTable n len tb) where
  wfStart := wf_memInit (wf_nil 0) _ _
  start k _ h16 := memRead_start_emptyTable n len htb h16
  tree := by
    have hget (slot : Slot) : slotGet (emptyTable n len tb) slot = none := by cases slot <;> rfl
    refine ⟨id, ⟨⟨rising_nil, rising_nil, rising_nil⟩, Nat.le_refl n, ?_, ?_, ?_⟩, fun c hc => by omega⟩
    · rintro k ⟨hk, hlt⟩
      exact absurd hlt (Nat.not_lt.mpr hk)
    · intro k hk hlt
      exact absurd hlt (Nat.not_lt.mpr hk)
    · intro slot v _ hv
      rw [hget] at hv
      cases hv

theorem Entered.next (hcode : TableCode n tb len code) {m : Nat} {b : TableBuild} (hm : m < n)
    (h : Entered n tb len code m b) : Entered n tb len code (m + 1) (addSymbol tb m (len m) b) := by
  obtain ⟨hwf, hstart, nodePath, htree, hfilled⟩ := h
  have hlenm := hcode.len_le m hm
  rcases Nat.eq_zero_or_pos (len m) with h0 | hpos
  · rw [h0, addSymbol_zero]
    refine ⟨hwf, fun k hk h16 => ?_, nodePath, htree, fun c hc hposc => hfilled c ?_ hposc⟩
    · rw [hstart k hk h16, symbolCount_succ, if_neg (by omega), Nat.add_zero]
    · have hcm : c ≠ m := by rintro rfl; omega
      omega
  · have hplace : memRead 0 b.start (len m) = halfAt code m * tableWeight tb (len m) := by
      rw [hstart _ hpos hlenm, halfAt_makeCode hcode.len_le hcode.code hm hpos]
    rw [addSymbol_of_pos tb m b hpos, enterCode_start]
    refine ⟨wf_memWrite hwf _ _, fun k hk h16 => ?_, ?_⟩
    · rw [memRead_memWrite 0 (rising_of_wf hwf), symbolCount_succ, hstart _ hpos hlenm]
      by_cases hkm : k = len m
      · rw [if_pos hkm, if_pos hkm.symm, hkm, ← Nat.add_assoc, Nat.succ_mul]
      · rw [if_neg hkm, if_neg (Ne.symm hkm), hstart k hk h16, Nat.add_zero]
    · have henters : Enters n tb len code nodePath b m
          (enterCode tb m (len m) (memRead 0 b.start (len m)) b) := by
        rw [hplace]
        rcases Nat.lt_or_ge tb (len m) with hlong | hshort
        · exact htree.enters_long hcode hm hlong
        · exact htree.enters_short hcode hm hpos hshort
      obtain ⟨nodePath', hgrows, hnew⟩ := henters
      refine ⟨nodePath', hgrows.tree.withStart _, fun c hc hposc y hy => Filled.withStart ?_ _⟩
      rcases Nat.lt_succ_iff_lt_or_eq.mp hc with hlt | rfl
      · exact hgrows.filled y (hfilled c hlt hposc y hy)
      · exact hnew y hy

theorem entered_enterSymbols (hcode : TableCode n tb len code) {m : Nat} (hm : m ≤ n) :
    Entered n tb len code m (enterSymbols n len tb m) := by
  induction m with
  | zero => exact .initial hcode.width_le
  | succ m ih =>
    rw [enterSymbols_succ]
    exact (ih (by omega)).next hcode hm

end Loop

/-! ### TableDecode's walk (R280) -/

/-- What a slot leads to, as TableDecode reads it. -/
def slotValue (b : TableBuild) (slot : Slot) : Nat := ((slotGet b slot).getD 0).toNat

theorem lookupSymbol_table (b : TableBuild) (tb n : Nat) (s : State) : lookupSymbol b.table tb n s =
    walkTree s.br.bitbuf b.left b.right n (16 - tb) (slotValue b (.entry (peekBits tb s))) := rfl

theorem slotValue_childSlot (b : TableBuild) (bit : Bool) (k : Nat) :
    slotValue b (childSlot bit k) = halfAt (if bit then b.right else b.left) k := by
  cases bit <;> rfl

theorem walkTree_symbol (w : Half) (left right : Memory Half) {n j : Nat} (fuel : Nat) (hj : j < n) :
    walkTree w left right n fuel j = some j := by
  cases fuel <;> rw [walkTree, if_pos hj]

theorem walkTree_node (w : Half) (left right : Memory Half) {n j : Nat} (fuel : Nat) (hj : n ≤ j) :
    walkTree w left right n (fuel + 1) j =
      walkTree w left right n fuel (halfAt (if w.getLsbD fuel then right else left) j) := by
  rw [walkTree, if_neg (Nat.not_lt.mpr hj)]

section Walk
variable {n tb : Nat} {len : Nat → Nat} {code : Memory Half} {nodePath : Nat → Nat} {b : TableBuild} {w : Half}
  {c : Nat} {slot : Slot}

/-- A slot on the way along `w` leads to the symbol whose codeword `w` begins with, or to a node with its
bits. -/
theorem TableTree.slotValue_cases (h : TableTree n tb len code nodePath b) (hcode : TableCode n tb len code)
    (hfilled : Filled n tb nodePath b (2 ^ 16 + w.toNat)) (hc : c < n) (hpos : 0 < len c)
    (hw : Begins (codeword len code c) (2 ^ 16 + w.toNat)) (hslot : slot.InTable n tb b.avail)
    (hway : Begins (slot.path tb nodePath) (2 ^ 16 + w.toNat)) :
    slotValue b slot = c ∨ (n ≤ slotValue b slot ∧ slotValue b slot < b.avail ∧
      nodePath (slotValue b slot) = slot.path tb nodePath) := by
  obtain ⟨v, hv⟩ := Option.ne_none_iff_exists'.mp (hfilled slot hslot hway)
  have hvalue : slotValue b slot = v.toNat := by rw [slotValue, hv]; rfl
  rw [hvalue]
  rcases h.holds slot v hslot hv with ⟨hlt, hposv, hbegins⟩ | hnode
  · rcases (hbegins.trans hway).total hw with hvc | hcv
    · exact .inl (eq_of_codeword_begins hcode.len_le hcode.code hlt hc hposv hpos hvc)
    · exact .inl (eq_of_codeword_begins hcode.len_le hcode.code hc hlt hpos hposv hcv).symm
  · exact .inr hnode

/-- The walk from a slot on the way along `w` ends at the symbol whose codeword `w` begins with. -/
theorem TableTree.walkTree_eq (h : TableTree n tb len code nodePath b) (hcode : TableCode n tb len code)
    (hfilled : Filled n tb nodePath b (2 ^ 16 + w.toNat)) (hc : c < n) (hpos : 0 < len c)
    (hw : Begins (codeword len code c) (2 ^ 16 + w.toNat)) {fuel : Nat} (hfuel : fuel ≤ 16)
    (hslot : slot.InTable n tb b.avail) (hpath : slot.path tb nodePath = (2 ^ 16 + w.toNat) / 2 ^ fuel) :
    walkTree w b.left b.right n fuel (slotValue b slot) = some c := by
  induction fuel generalizing slot with
  | zero =>
    rcases h.slotValue_cases hcode hfilled hc hpos hw hslot ⟨0, hpath.symm⟩ with hsymbol | ⟨hn, hlt, hnode⟩
    · rw [hsymbol, walkTree_symbol w _ _ _ hc]
    · have hinner := (h.node _ hn hlt).inner.lt hcode.len_le hcode.code
      rw [hnode, hpath, Nat.pow_zero, Nat.div_one] at hinner
      omega
  | succ fuel ih =>
    rcases h.slotValue_cases hcode hfilled hc hpos hw hslot ⟨fuel + 1, hpath.symm⟩ with hsymbol | ⟨hn, hlt, hnode⟩
    · rw [hsymbol, walkTree_symbol w _ _ _ hc]
    · rw [walkTree_node w _ _ _ hn, ← slotValue_childSlot]
      refine ih (by omega) (inTable_childSlot.mpr ⟨hn, hlt⟩) ?_
      rw [path_childSlot, hnode, hpath, ← BitVec.testBit_toNat,
        ← Nat.testBit_two_pow_add_gt (show fuel < 16 by omega), two_mul_div_add_testBit]

end Walk

theorem peekBits_eq (k : Nat) (s : State) : peekBits k s = s.br.bitbuf.toNat / 2 ^ (16 - k) := by
  rw [peekBits, BitVec.toNat_ushiftRight, Nat.shiftRight_eq_div_pow]

/-- Settles O59: MakeTable builds the code tree, on which the bits of a codeword lead to their symbol. -/
theorem lookupFindsSymbol : Obligations.LookupFindsSymbol := by
  intro n tb lens tab code s c next hone hwidth hn hlen htab hmake hc hpos hbits
  have hcode : TableCode n tb (lenAt lens) code := ⟨hone, hwidth, hn, hlen, hmake⟩
  rw [makeTable_eq, if_neg (not_not.mpr (firstCode_of_makeCode hmake)), Option.some_inj] at htab
  obtain ⟨-, -, nodePath, htree, hfilled⟩ := entered_enterSymbols hcode (Nat.le_refl n)
  have hw : Begins (codeword (lenAt lens) code c) (2 ^ 16 + s.br.bitbuf.toNat) :=
    (begins_leadingOne_iff s.br.bitbuf.isLt (halfAt_makeCode_lt hlen hmake hc hpos)).mpr ⟨hlen c hc, hbits⟩
  have hentry : peekBits tb s < 2 ^ tb := by
    have := div_two_pow_lt s.br.bitbuf.isLt (Nat.sub_le 16 tb)
    rwa [Nat.sub_sub_self hwidth, ← peekBits_eq] at this
  have hpath : 2 ^ tb + peekBits tb s = (2 ^ 16 + s.br.bitbuf.toNat) / 2 ^ (16 - tb) := by
    rw [leadingOne_div _ (Nat.sub_le 16 tb), Nat.sub_sub_self hwidth, peekBits_eq]
  have hfind : lookupSymbol tab tb n s = some c := by
    rw [← htab, lookupSymbol_table]
    exact htree.walkTree_eq hcode (hfilled c hc hpos _ hw) hc hpos hw (Nat.sub_le 16 tb) hentry hpath
  refine ⟨hfind, ?_⟩
  rw [tableDecode, hfind, ← htab]
  rfl

end Sys2Proof.Machine
end

section
/-! PROOFS. Acceptance of a received table (42_huffman_decode.md R272, R274, R276): the lengths past the table's size
are 0, and MakeTable looks at the lengths of the alphabet only. -/

namespace Sys2Proof.Machine

open Claims

/-! ### The lengths past the table's size (R272, R274) -/

theorem lenAt_zeroLens {m : Memory Len} (hm : Memory.wf 0 m = true) (i nn j : Nat) :
    lenAt (zeroLens i nn m) j = if i ≤ j ∧ j < nn then 0 else lenAt m j := by
  rcases Nat.lt_or_ge nn i with hlt | hle
  · rw [zeroLens, Nat.sub_eq_zero_of_le hlt.le, if_neg (by omega)]
    rfl
  · induction nn, hle using Nat.le_induction with
    | base => rw [zeroLens, Nat.sub_self, if_neg (by omega)]; rfl
    | succ nn hle ih =>
      have hstep : zeroLens i (nn + 1) m = memWrite 0 (zeroLens i nn m) nn 0 := by
        rw [zeroLens, Nat.succ_sub hle, List.range'_1_concat, List.foldl_append, Nat.add_sub_cancel' hle]
        rfl
      rw [hstep, lenAt, memRead_memWrite 0 (rising_of_wf (wf_zeroLens hm i nn))]
      by_cases hj : j = nn
      · rw [if_pos hj, if_pos (by omega)]
        rfl
      · rw [if_neg hj]
        exact ih.trans (if_congr (by omega) rfl rfl)

/-- Zeroing from the table's size on leaves what was received. -/
theorem lenAt_zeroLens_eq_received {m : Memory Len} (hm : Memory.wf 0 m = true) (i : Nat) {nn j : Nat} (hj : j < nn) :
    lenAt (zeroLens i nn m) j = received i (lenAt m) j := by
  rw [lenAt_zeroLens hm, received]
  by_cases hij : i ≤ j
  · rw [if_pos ⟨hij, hj⟩, if_neg (Nat.not_lt.mpr hij)]
  · rw [if_neg (fun h => hij h.1), if_pos (Nat.not_le.mp hij)]

/-- Lengths that were not received add nothing to the Kraft sum. -/
theorem kraft_received (len : Nat → Nat) {i nn : Nat} (hi : i ≤ nn) : kraft nn (received i len) = kraft i len := by
  induction nn, hi using Nat.le_induction with
  | base =>
    refine congrArg List.sum (List.map_congr_left fun j hj => ?_)
    rw [received, if_pos (List.mem_range.mp hj)]
  | succ nn hle ih =>
    rw [kraft_succ, ih, received, if_neg (Nat.not_lt.mpr hle)]
    rfl

/-! ### MakeTable on what was received -/

theorem lenCount_congr {n : Nat} {len len' : Nat → Nat} (h : ∀ i, i < n → len i = len' i) :
    lenCount n len = lenCount n len' :=
  List.foldl_ext _ _ _ fun c i hi => by rw [h i (List.mem_range.mp hi)]

theorem makeTable_congr {n : Nat} {len len' : Nat → Nat} (tb : Nat) (h : ∀ i, i < n → len i = len' i) :
    makeTable n len tb = makeTable n len' tb := by
  have henter : enterSymbols n len tb n = enterSymbols n len' tb n := by
    rw [enterSymbols, enterSymbols, emptyTable, emptyTable, lenCount_congr h]
    exact List.foldl_ext _ _ _ fun b i hi => by rw [h i (List.mem_range.mp hi)]
  have hkraft : firstCode n len 17 = firstCode n len' 17 := by
    rw [← codeStart_lenCounts, ← codeStart_lenCounts]
    exact congrArg (codeStart · 17) (lenCount_congr h)
  rw [makeTable_eq, makeTable_eq, hkraft, henter]

section Received
variable {m : Memory Len} {i nn : Nat} (tb : Nat) (hi : i ≤ nn) (hlen : ∀ j, j < i → lenAt m j ≤ 16)
include hi hlen

theorem makeTable_received_isSome_iff :
    (makeTable nn (received i (lenAt m)) tb).isSome = true ↔ kraft i (lenAt m) = 2 ^ 16 := by
  rw [makeTable_isSome_iff tb, kraft_received _ hi]
  intro j _
  rw [received]
  split
  · next hj => exact hlen j hj
  · exact Nat.zero_le _

variable (hm : Memory.wf 0 m = true)
include hm

theorem makeTable_zeroLens_eq_none (hkraft : kraft i (lenAt m) ≠ 2 ^ 16) :
    makeTable nn (lenAt (zeroLens i nn m)) tb = none := by
  rw [makeTable_congr tb fun j => lenAt_zeroLens_eq_received hm i, ← Option.not_isSome_iff_eq_none,
    makeTable_received_isSome_iff tb hi hlen]
  exact hkraft

theorem exists_makeTable_zeroLens (hkraft : kraft i (lenAt m) = 2 ^ 16) :
    ∃ tab, makeTable nn (received i (lenAt m)) tb = some tab ∧
      makeTable nn (lenAt (zeroLens i nn m)) tb = some tab := by
  obtain ⟨tab, htab⟩ := Option.isSome_iff_exists.mp ((makeTable_received_isSome_iff tb hi hlen).mpr hkraft)
  exact ⟨tab, htab, (makeTable_congr tb fun j => lenAt_zeroLens_eq_received hm i).trans htab⟩

end Received

/-! ### The end of the two readers' loops -/

@[simp] theorem ptLens_zeroPtFrom (w : PtKind) (i nn : Nat) (s : State) :
    ptLens w (zeroPtFrom w i nn s).dec = zeroLens i nn (ptLens w s.dec) := by
  cases w <;> rfl

theorem ptLoopTask_refused {P : Params} {w : PtKind} {n i : Nat} {s : State} (hi : n ≤ i)
    (h : makeTable (ptAlphabet P w) (lenAt (zeroLens i (ptAlphabet P w) (ptLens w s.dec))) P.ptTableBits = none) :
    ptLoopTask P w n i s = raise .malformedInput (zeroPtFrom w i (ptAlphabet P w) s) := by
  simp only [ptLoopTask, if_neg (Nat.not_lt.mpr hi), ptLens_zeroPtFrom, h]

theorem ptLoopTask_accepted {P : Params} {w : PtKind} {n i : Nat} {s : State} {tab : Table} (hi : n ≤ i)
    (h : makeTable (ptAlphabet P w) (lenAt (zeroLens i (ptAlphabet P w) (ptLens w s.dec))) P.ptTableBits = some tab) :
    ptLoopTask P w n i s = { zeroPtFrom w i (ptAlphabet P w) s with
      dec := setPtTable w tab (zeroPtFrom w i (ptAlphabet P w) s).dec } := by
  simp only [ptLoopTask, if_neg (Nat.not_lt.mpr hi), ptLens_zeroPtFrom, h]

@[simp] theorem cLen_zeroCFrom (i nc : Nat) (s : State) : (zeroCFrom i nc s).dec.cLen = zeroLens i nc s.dec.cLen := by
  rw [zeroCFrom]

theorem cLoopTask_refused {P : Params} {n i : Nat} {s : State} (hi : n ≤ i)
    (h : makeTable P.nc (lenAt (zeroLens i P.nc s.dec.cLen)) P.cTableBits = none) :
    cLoopTask P n i s = raise .malformedInput (zeroCFrom i P.nc s) := by
  simp only [cLoopTask, if_neg (Nat.not_lt.mpr hi), cLen_zeroCFrom, h]

theorem cLoopTask_accepted {P : Params} {n i : Nat} {s : State} {tab : Table} (hi : n ≤ i)
    (h : makeTable P.nc (lenAt (zeroLens i P.nc s.dec.cLen)) P.cTableBits = some tab) :
    cLoopTask P n i s = { zeroCFrom i P.nc s with dec := { (zeroCFrom i P.nc s).dec with cTab := tab } } := by
  simp only [cLoopTask, if_neg (Nat.not_lt.mpr hi), cLen_zeroCFrom, h]

/-- Settles O58: the left-aligned first codes end at the Kraft sum, which MakeTable compares with 1. -/
theorem kraftCheck : Obligations.KraftCheck := by
  refine ⟨fun n tb len hlen => makeTable_isSome_iff tb hlen, fun P w n i s hn hi hwf hlen => ⟨?_, ?_, ?_⟩,
    fun P n i s hn hi hwf hlen => ⟨?_, ?_, ?_⟩⟩
  · exact fun hkraft => ptLoopTask_refused hn (makeTable_zeroLens_eq_none _ hi hlen hwf hkraft)
  · intro hkraft
    obtain ⟨tab, htab, hloop⟩ := exists_makeTable_zeroLens P.ptTableBits hi hlen hwf hkraft
    exact ⟨tab, htab, ptLoopTask_accepted hn hloop⟩
  · intro j hj
    rw [ptLens_zeroPtFrom]
    exact lenAt_zeroLens_eq_received hwf i hj
  · exact fun hkraft => cLoopTask_refused hn (makeTable_zeroLens_eq_none _ hi hlen hwf hkraft)
  · intro hkraft
    obtain ⟨tab, htab, hloop⟩ := exists_makeTable_zeroLens P.cTableBits hi hlen hwf hkraft
    exact ⟨tab, htab, cLoopTask_accepted hn hloop⟩
  · exact fun j hj => lenAt_zeroLens_eq_received hwf i hj

end Sys2Proof.Machine
end

section
/-! PROOFS. The fields of the coded tables as the decoder reads them: the length fields (30_encoding.md R125,
42_huffman_decode.md R272, R273), and the values that end DECODE with MalformedInput (R285). -/

namespace Sys2Proof.Machine

/-! ### Length fields (R273) -/

/-- A run of one bits is counted in whole. -/
theorem countOnes_of_ones {w : Half} {j f : Nat} (hones : ∀ t, t < j → w.getLsbD (f + t) = true) :
    countOnes w (f + j) = countOnes w f + j := by
  induction j with
  | zero => rfl
  | succ j ih =>
    rw [← Nat.add_assoc, countOnes, if_pos (hones j (Nat.lt_succ_self j)), ih fun t ht => hones t (by omega)]
    rfl

theorem peekPtLen_short {s : State} (h : peekBits 3 s ≠ 7) : peekPtLen s = peekBits 3 s := if_neg h

theorem peekPtLen_long {s : State} (h : peekBits 3 s = 7) : peekPtLen s = 7 + countOnes s.br.bitbuf 13 := if_pos h

/-- The bits of a long field: ones, ended by a zero. -/
theorem testBit_longField (m t : Nat) : (2 ^ (m + 1) - 2).testBit t = decide (0 < t ∧ t < m + 1) := by
  rw [show 2 ^ (m + 1) - 2 = 2 * (2 ^ m - 1) by rw [Nat.pow_succ]; omega]
  cases t with
  | zero => simp
  | succ t =>
    rw [Nat.testBit_succ, Nat.mul_div_cancel_left _ Nat.two_pos, Nat.testBit_two_pow_sub_one]
    exact decide_eq_decide.mpr (by omega)

theorem peekPtLen_of_longField {k : Nat} {s : State} (h7 : 7 ≤ k) (h16 : k ≤ 16)
    (hfield : s.br.bitbuf.toNat / 2 ^ (16 - (k - 3)) = 2 ^ (k - 3) - 2) : peekPtLen s = k := by
  have hbit (t : Nat) (ht : t < k - 3) : s.br.bitbuf.getLsbD (19 - k + t) = decide (0 < t) := by
    rw [← BitVec.testBit_toNat, Nat.add_comm, show 19 - k = 16 - (k - 3) by omega, ← Nat.testBit_div_two_pow, hfield,
      show k - 3 = k - 4 + 1 by omega, testBit_longField]
    exact decide_eq_decide.mpr (by omega)
  have hthree : peekBits 3 s = 7 := by
    rw [peekBits_eq, show 16 - 3 = 16 - (k - 3) + (k - 6) by omega, Nat.pow_add, ← Nat.div_div_eq_div_mul, hfield]
    interval_cases k <;> rfl
  have hend : countOnes s.br.bitbuf (19 - k + 1) = 0 := by
    rw [countOnes, if_neg]
    simpa using hbit 0 (by omega)
  have hones := countOnes_of_ones (w := s.br.bitbuf) (f := 19 - k + 1) (j := k - 7) fun t ht => by
    rw [Nat.add_assoc, hbit (1 + t) (by omega)]
    simp
  rw [show 19 - k + 1 + (k - 7) = 13 by omega, hend] at hones
  rw [peekPtLen_long hthree, hones]
  omega

/-- R273: the reader finds the length of the field that comes next. -/
theorem peekPtLen_of_ptLenField {k : Nat} {s : State} (h16 : k ≤ 16)
    (hfield : s.br.bitbuf.toNat / 2 ^ (16 - (ptLenField k).1) = (ptLenField k).2) : peekPtLen s = k := by
  rw [ptLenField] at hfield
  split at hfield
  · next h6 =>
    dsimp only at hfield
    rw [← peekBits_eq] at hfield
    rw [peekPtLen_short (by omega), hfield]
  · next h6 => exact peekPtLen_of_longField (by omega) h16 hfield

theorem ptLoopTask_too_long (P : Params) (w : PtKind) {n i : Nat} {s : State} (hi : i < n) (h : 16 < peekPtLen s) :
    ptLoopTask P w n i s = raise .malformedInput s := by
  simp only [ptLoopTask, if_pos hi, if_pos h]

theorem ptLoopTask_length (P : Params) (w : PtKind) {n i : Nat} {s : State} (hi : i < n) (h : peekPtLen s ≤ 16) :
    ptLoopTask P w n i s = push [.advance (ptLenField (peekPtLen s)).1, .ptLen w n i (peekPtLen s)] s := by
  have hwidth : (if peekPtLen s < 7 then 3 else peekPtLen s - 3) = (ptLenField (peekPtLen s)).1 := by
    rw [ptLenField, apply_ite Prod.fst]
    exact if_congr Nat.lt_succ_iff rfl rfl
  simp only [ptLoopTask, if_pos hi, if_neg (Nat.not_lt.mpr h), hwidth]

/-- Settles O53: the ones of a long field are counted up to the zero that ends it, so the reader sees the length, and
the width it skips is the field's. -/
theorem lengthFields : Obligations.LengthFields := by
  intro k s h16
  refine ⟨?_, fun hfield => ?_⟩
  · rw [ptLenField, apply_ite Prod.snd]
  · have hpeek := peekPtLen_of_ptLenField h16 hfield
    refine ⟨hpeek, fun P w n i hi => ?_⟩
    rw [ptLoopTask_length P w hi (by omega), hpeek]

/-! ### Malformed fields (R285) -/

/-- Thirteen one bits stand for a length above 16. -/
theorem sixteen_lt_peekPtLen {s : State} (h : s.br.bitbuf.toNat / 2 ^ 3 = 2 ^ 13 - 1) : 16 < peekPtLen s := by
  have hthree : peekBits 3 s = 7 := by
    rw [peekBits_eq]
    omega
  have hones := countOnes_of_ones (w := s.br.bitbuf) (f := 3) (j := 10) fun t ht => by
    rw [← BitVec.testBit_toNat, Nat.add_comm, ← Nat.testBit_div_two_pow, h, Nat.testBit_two_pow_sub_one]
    exact decide_eq_true (by omega)
  rw [peekPtLen_long hthree, hones]
  omega

/-- Settles O37: each check at the first value that fails it. -/
theorem malformedChecks : Obligations.MalformedChecks := by
  intro P s w n i k
  refine ⟨⟨rfl, rfl⟩, fun hn hlarge => ?_, fun hn hlarge => ?_, fun hk => ?_, fun hk => ?_, fun hi hbits => ?_,
    fun hi => ?_, fun hi => ?_⟩
  · rw [ptCountTask, if_neg hn.ne', if_pos hlarge]
  · rw [cCountTask, if_neg hn.ne', if_pos hlarge]
  · rw [ptConstTask, if_pos hk]
  · rw [cConstTask, if_pos hk]
  · exact ptLoopTask_too_long P w hi (sixteen_lt_peekPtLen hbits)
  · rw [ptSkipTask, if_pos hi]
  · rw [cRunTask, if_pos hi]

end Sys2Proof.Machine
end

section
/-! PROOFS. The match finder's operations one by one (43_match_finder.md R305-R320): what each access of the tree reads
after each update of it, and what Actual, the comparison, Split and DeleteNode make of that. -/

namespace Sys2Proof.Machine

/-! ### The tree's records after an update (10_state.md R60-R64) -/

@[simp] theorem innerRec_setChild (q : Handle) (c : Byte) (h : Handle) (m : MatchFinder) (i : Nat) :
    innerRec (setChild q c h m) i = innerRec m i := rfl

section Records

variable {m : MatchFinder} (hm : m.memWf)
include hm

theorem leafRec_setLeaf_self (p : Nat) (r : LeafRec) : leafRec (setLeaf p r m) p = r := by
  obtain ⟨-, hleaves, -, -⟩ := hm
  exact memRead_memWrite_same _ (rising_of_wf hleaves) p r

theorem leafRec_setLeaf_of_ne {p p' : Nat} (r : LeafRec) (h : p' ≠ p) :
    leafRec (setLeaf p r m) p' = leafRec m p' := by
  obtain ⟨-, hleaves, -, -⟩ := hm
  exact memRead_memWrite_ne _ (rising_of_wf hleaves) r h

theorem innerRec_setInner_self (i : Nat) (r : InnerRec) : innerRec (setInner i r m) i = r := by
  obtain ⟨-, -, hinners, -⟩ := hm
  exact memRead_memWrite_same _ (rising_of_wf hinners) i r

theorem innerRec_setInner_of_ne {i i' : Nat} (r : InnerRec) (h : i' ≠ i) :
    innerRec (setInner i r m) i' = innerRec m i' := by
  obtain ⟨-, -, hinners, -⟩ := hm
  exact memRead_memWrite_ne _ (rising_of_wf hinners) r h

theorem child_dropChild_self (q : Handle) (c : Byte) : child (dropChild q c m) q c = none := by
  obtain ⟨-, -, -, hchildren⟩ := hm
  exact cellGet_cellDrop_same hchildren _

theorem child_dropChild_of_ne {q q' : Handle} {c c' : Byte} (h : ¬ (q' = q ∧ c' = c)) :
    child (dropChild q c m) q' c' = child m q' c' := by
  obtain ⟨-, -, -, hchildren⟩ := hm
  exact cellGet_cellDrop_ne hchildren fun hk => h (childKey_inj hk)

end Records

/-! ### Actual (R305) -/

theorem actual_of_le {P : Params} {m : MatchFinder} {v : Nat} (h : m.pos ≤ v) : actual P m v = v - P.dicSiz := if_pos h

theorem actual_of_lt {P : Params} {m : MatchFinder} {v : Nat} (h : v < m.pos) : actual P m v = v :=
  if_neg (Nat.not_le.mpr h)

/-- The stored form of an offset in the window's upper half is the offset, in its lower half the one `D` above it. -/
theorem stored_of_le {P : Params} {o : Nat} (hle : P.dicSiz ≤ o) (hlt : o < 2 * P.dicSiz) : stored P o = o := by
  rw [stored, Nat.mod_eq_sub_mod hle, Nat.mod_eq_of_lt (by omega)]
  omega

theorem stored_of_lt {P : Params} {o : Nat} (h : o < P.dicSiz) : stored P o = P.dicSiz + o := by
  rw [stored, Nat.mod_eq_of_lt h]

/-- Settles O46: a value from `pos` on denotes the offset `D` below it, a smaller one denotes itself. -/
theorem actualOffset : Obligations.ActualOffset := by
  intro P m v hv hv2 hpos
  refine ⟨fun hpos2 => ?_, fun hslide => ?_⟩
  · rcases Nat.lt_or_ge v m.pos with hlt | hle
    · rw [actual_of_lt hlt, stored_of_le hv hv2]
      omega
    · rw [actual_of_le hle, stored_of_lt (by omega)]
      omega
  · rw [actual_of_le (m := { m with pos := P.dicSiz }) hv, actual_of_lt (by omega)]

/-! ### The comparison of Descend (R310) -/

theorem compareBytes_succ_of_ne {m : MatchFinder} {mp ml : Nat} (fuel : Nat)
    (h : textAt m (m.pos + ml) ≠ textAt m (mp + ml)) : compareBytes m mp (fuel + 1) ml = (ml, true) := if_pos h

theorem compareBytes_succ_of_eq {m : MatchFinder} {mp ml : Nat} (fuel : Nat)
    (h : textAt m (m.pos + ml) = textAt m (mp + ml)) :
    compareBytes m mp (fuel + 1) ml = compareBytes m mp fuel (ml + 1) := if_neg (not_not.mpr h)

/-- Settles O47: by induction on the bytes left to compare. -/
theorem compareStopsAtMismatch : Obligations.CompareStopsAtMismatch := by
  intro m mp fuel ml
  induction fuel generalizing ml with
  | zero =>
    exact ⟨Nat.le_refl ml, Nat.le_refl ml, fun k hle hlt => absurd hlt (Nat.not_lt.mpr hle), nofun, fun _ => rfl⟩
  | succ fuel ih =>
    by_cases hbyte : textAt m (m.pos + ml) = textAt m (mp + ml)
    · obtain ⟨hge, hle, hsame, hstop, hend⟩ := ih (ml + 1)
      rw [compareBytes_succ_of_eq fuel hbyte]
      refine ⟨by omega, by omega, fun k hk hlt => ?_, hstop, fun h => by rw [hend h]; omega⟩
      rcases Nat.eq_or_lt_of_le hk with rfl | hk
      · exact hbyte
      · exact hsame k hk hlt
    · rw [compareBytes_succ_of_ne fuel hbyte]
      exact ⟨Nat.le_refl ml, Nat.le_add_right ml _, fun k hle hlt => absurd hlt (Nat.not_lt.mpr hle), fun _ => hbyte,
        nofun⟩

/-! ### A node's link to its parent (R307) -/

/-- The parent and the edge of a node. -/
def linkOf (m : MatchFinder) (h : Handle) : Option Handle × Byte := (parentOf m h, edgeOf m h)

@[simp] theorem linkOf_setChild (q : Handle) (c : Byte) (r : Handle) (m : MatchFinder) (h : Handle) :
    linkOf (setChild q c r m) h = linkOf m h := rfl
@[simp] theorem leafRec_mapCount (q : Handle) (f : Nat → Nat) (m : MatchFinder) (p : Nat) :
    leafRec (mapCount q f m) p = leafRec m p := by
  cases q <;> rfl

section Links

variable {m : MatchFinder} (hm : m.memWf)
include hm

/-- A new leaf record with the parent and the edge of the old one leaves every link. -/
theorem linkOf_setLeaf_of_eq {p : Nat} {r : LeafRec} (hr : (r.parent, r.edge) = linkOf m (.leaf p)) (h : Handle) :
    linkOf (setLeaf p r m) h = linkOf m h := by
  cases h with
  | root b => rfl
  | inner i => rfl
  | leaf p' =>
    by_cases hp : p' = p
    · subst hp
      rw [← hr]
      simp only [linkOf, parentOf, edgeOf, leafRec_setLeaf_self hm]
    · simp only [linkOf, parentOf, edgeOf, leafRec_setLeaf_of_ne hm r hp]

/-- The same for an inner record. -/
theorem linkOf_setInner_of_eq {i : Nat} {r : InnerRec} (hr : (r.parent, r.edge) = linkOf m (.inner i)) (h : Handle) :
    linkOf (setInner i r m) h = linkOf m h := by
  cases h with
  | root b => rfl
  | leaf p => rfl
  | inner i' =>
    by_cases hi : i' = i
    · subst hi
      rw [← hr]
      simp only [linkOf, parentOf, edgeOf, innerRec_setInner_self hm]
    · simp only [linkOf, parentOf, edgeOf, innerRec_setInner_of_ne hm r hi]

theorem linkOf_setSucc (p : Nat) (q : Option Handle) (h : Handle) : linkOf (setSucc p q m) h = linkOf m h :=
  linkOf_setLeaf_of_eq hm (r := { leafRec m p with succ := q }) rfl h

theorem linkOf_mapCount (q : Handle) (f : Nat → Nat) (h : Handle) : linkOf (mapCount q f m) h = linkOf m h := by
  cases q with
  | inner i =>
    exact linkOf_setInner_of_eq hm (r := { innerRec m i with childcount := f (innerRec m i).childcount }) rfl h
  | root b => rfl
  | leaf p => rfl

theorem linkOf_setLink_self {h : Handle} (hroot : ∀ b, h ≠ .root b) (q : Option Handle) (c : Byte) :
    linkOf (setLink h q c m) h = (q, c) := by
  cases h with
  | root b => exact absurd rfl (hroot b)
  | inner i => simp only [linkOf, parentOf, edgeOf, setLink, innerRec_setInner_self hm]
  | leaf p => simp only [linkOf, parentOf, edgeOf, setLink, leafRec_setLeaf_self hm]

theorem innerRec_setLink_of_ne {h : Handle} {i : Nat} (hne : h ≠ .inner i) (q : Option Handle) (c : Byte) :
    innerRec (setLink h q c m) i = innerRec m i := by
  cases h with
  | root b => rfl
  | leaf p => rfl
  | inner i' => exact innerRec_setInner_of_ne hm _ fun hi => hne (by rw [hi])

theorem linkOf_setLink_of_ne {h h' : Handle} (hne : h' ≠ h) (q : Option Handle) (c : Byte) :
    linkOf (setLink h q c m) h' = linkOf m h' := by
  cases h with
  | root b => rfl
  | inner i =>
    cases h' with
    | inner i' =>
      have hi : i' ≠ i := fun hi => hne (by rw [hi])
      simp only [linkOf, parentOf, edgeOf, setLink, innerRec_setInner_of_ne hm _ hi]
    | root b => rfl
    | leaf p => rfl
  | leaf p =>
    cases h' with
    | leaf p' =>
      have hp : p' ≠ p := fun hp => hne (by rw [hp])
      simp only [linkOf, parentOf, edgeOf, setLink, leafRec_setLeaf_of_ne hm _ hp]
    | root b => rfl
    | inner i => rfl

theorem leafRec_setLink_self (p : Nat) (q : Option Handle) (c : Byte) :
    leafRec (setLink (.leaf p) q c m) p = { leafRec m p with parent := q, edge := c } :=
  leafRec_setLeaf_self hm p _

theorem innerRec_mapCount_self (i : Nat) (f : Nat → Nat) : innerRec (mapCount (.inner i) f m) i =
    { innerRec m i with childcount := f (innerRec m i).childcount } :=
  innerRec_setInner_self hm i _

end Links

/-! ### MakeChild (R307) -/

/-- MakeChild but for the `succ` of the newest leaf. -/
def adopt (q : Handle) (c : Byte) (r : Handle) (m : MatchFinder) : MatchFinder :=
  mapCount q (· + 1) (setLink r (some q) c (setChild q c r m))

theorem makeChild_newest (q : Handle) (c : Byte) (m : MatchFinder) :
    makeChild q c (.leaf m.pos) m = setSucc m.pos none (adopt q c (.leaf m.pos) m) := if_pos rfl

theorem makeChild_of_ne {q : Handle} {c : Byte} {r : Handle} {m : MatchFinder} (h : r ≠ .leaf m.pos) :
    makeChild q c r m = adopt q c r m := if_neg h

/-- MakeChild writes one place of the child map and node records, nothing else. -/
theorem makeChild_frame (q : Handle) (c : Byte) (r : Handle) (m : MatchFinder) : makeChild q c r m =
    { setChild q c r m with leaves := (makeChild q c r m).leaves, inners := (makeChild q c r m).inners } := by
  dsimp only [makeChild]
  cases q <;> cases r <;> split <;> rfl

theorem child_makeChild (q : Handle) (c : Byte) (r : Handle) (m : MatchFinder) (q' : Handle) (c' : Byte) :
    child (makeChild q c r m) q' c' = if q' = q ∧ c' = c then some r else child m q' c' := by
  rw [makeChild_frame]
  exact child_setChild m q q' c c' r

@[simp] theorem makeChild_text (q : Handle) (c : Byte) (r : Handle) (m : MatchFinder) :
    (makeChild q c r m).text = m.text := by rw [makeChild_frame]; rfl
@[simp] theorem makeChild_pos (q : Handle) (c : Byte) (r : Handle) (m : MatchFinder) :
    (makeChild q c r m).pos = m.pos := by rw [makeChild_frame]; rfl
@[simp] theorem makeChild_matchpos (q : Handle) (c : Byte) (r : Handle) (m : MatchFinder) :
    (makeChild q c r m).matchpos = m.matchpos := by rw [makeChild_frame]; rfl
@[simp] theorem makeChild_matchlen (q : Handle) (c : Byte) (r : Handle) (m : MatchFinder) :
    (makeChild q c r m).matchlen = m.matchlen := by rw [makeChild_frame]; rfl
@[simp] theorem makeChild_freepool (q : Handle) (c : Byte) (r : Handle) (m : MatchFinder) :
    (makeChild q c r m).freepool = m.freepool := by rw [makeChild_frame]; rfl

theorem innerRec_makeChild_eq_adopt (q : Handle) (c : Byte) (r : Handle) (m : MatchFinder) (i : Nat) :
    innerRec (makeChild q c r m) i = innerRec (adopt q c r m) i := by
  by_cases hr : r = .leaf m.pos
  · subst hr; rw [makeChild_newest]; rfl
  · rw [makeChild_of_ne hr]

section MakeChild

variable {m : MatchFinder} (hm : m.memWf)
include hm

theorem adopt_memWf (q : Handle) (c : Byte) (r : Handle) : (adopt q c r m).memWf :=
  ((hm.setChild q c r).setLink r (some q) c).mapCount q (· + 1)

theorem linkOf_makeChild_eq_adopt (q : Handle) (c : Byte) (r h : Handle) :
    linkOf (makeChild q c r m) h = linkOf (adopt q c r m) h := by
  by_cases hr : r = .leaf m.pos
  · subst hr; rw [makeChild_newest, linkOf_setSucc (adopt_memWf hm q c _)]
  · rw [makeChild_of_ne hr]

theorem linkOf_makeChild_self {r : Handle} (hroot : ∀ b, r ≠ .root b) (q : Handle) (c : Byte) :
    linkOf (makeChild q c r m) r = (some q, c) := by
  have hset := hm.setChild q c r
  rw [linkOf_makeChild_eq_adopt hm, adopt, linkOf_mapCount (hset.setLink r _ c), linkOf_setLink_self hset hroot]

theorem linkOf_makeChild_of_ne {r h : Handle} (hne : h ≠ r) (q : Handle) (c : Byte) :
    linkOf (makeChild q c r m) h = linkOf m h := by
  have hset := hm.setChild q c r
  rw [linkOf_makeChild_eq_adopt hm, adopt, linkOf_mapCount (hset.setLink r _ c), linkOf_setLink_of_ne hset hne,
    linkOf_setChild]

theorem innerRec_makeChild {i : Nat} {r : Handle} (hne : r ≠ .inner i) (c : Byte) :
    innerRec (makeChild (.inner i) c r m) i =
      { innerRec m i with childcount := (innerRec m i).childcount + 1 } := by
  have hset := hm.setChild (.inner i) c r
  rw [innerRec_makeChild_eq_adopt, adopt, innerRec_mapCount_self (hset.setLink r _ c),
    innerRec_setLink_of_ne hset hne, innerRec_setChild]

theorem leafRec_makeChild_newest {p : Nat} (hp : m.pos = p) (q : Handle) (c : Byte) :
    leafRec (makeChild q c (.leaf p) m) p = { parent := some q, edge := c, succ := none } := by
  subst hp
  have hset := hm.setChild q c (.leaf m.pos)
  rw [makeChild_newest, setSucc, leafRec_setLeaf_self (adopt_memWf hm q c _), adopt, leafRec_mapCount,
    leafRec_setLink_self hset]

end MakeChild

/-! ### Split (R309) -/

/-- Split before its new node has children: the node has its record and its place below `old`'s parent. -/
def splitNode (old q : Handle) (i : Nat) (pool : List Nat) (m : MatchFinder) : MatchFinder :=
  setInner i
    { parent := some q, edge := edgeOf m old, level := m.matchlen, position := .fresh m.pos, childcount := 0 }
    (setChild q (edgeOf m old) (.inner i) { m with freepool := pool })

theorem splitNode_memWf {m : MatchFinder} (hm : m.memWf) (old q : Handle) (i : Nat) (pool : List Nat) :
    (splitNode old q i pool m).memWf := by
  have htaken : MatchFinder.memWf { m with freepool := pool } := hm
  exact (htaken.setChild q _ _).setInner i _

theorem innerRec_splitNode {m : MatchFinder} (hm : m.memWf) (old q : Handle) (i : Nat) (pool : List Nat) :
    innerRec (splitNode old q i pool m) i =
      { parent := some q, edge := edgeOf m old, level := m.matchlen, position := .fresh m.pos, childcount := 0 } := by
  have htaken : MatchFinder.memWf { m with freepool := pool } := hm
  exact innerRec_setInner_self (htaken.setChild q _ _) i _

theorem child_splitNode (old q : Handle) (i : Nat) (pool : List Nat) (m : MatchFinder) :
    child (splitNode old q i pool m) q (edgeOf m old) = some (.inner i) :=
  (child_setChild { m with freepool := pool } q q (edgeOf m old) (edgeOf m old) (.inner i)).trans (if_pos ⟨rfl, rfl⟩)

theorem split_eq {old q : Handle} {i : Nat} {pool : List Nat} {m : MatchFinder} (hpool : m.freepool = i :: pool)
    (hq : parentOf m old = some q) :
    split old m = .ok (makeChild (.inner i) (textAt m (m.pos + m.matchlen)) (.leaf m.pos)
      (makeChild (.inner i) (textAt m (m.matchpos + m.matchlen)) old (splitNode old q i pool m))) := by
  simp only [split, hpool, hq, splitNode]

/-- Settles O48: Split gives the new node its place, then makes `old` and the new leaf its children, whose places there
differ because the two bytes do. -/
theorem splitLinks : Obligations.SplitLinks := by
  intro m t old q i pool hm hpool hq hqi hold hleaf hbytes h
  rw [split_eq hpool hq] at h
  cases h
  have hroot : ∀ b, old ≠ .root b := by rintro b rfl; cases hq
  have hnode := splitNode_memWf hm old q i pool
  have hfirst := hnode.makeChild (.inner i) (textAt m (m.matchpos + m.matchlen)) old
  have hlink := (linkOf_makeChild_of_ne hfirst hleaf (.inner i) (textAt m (m.pos + m.matchlen))).trans
    (linkOf_makeChild_self hnode hroot _ _)
  obtain ⟨hparent, hedge⟩ := Prod.mk.inj hlink
  refine ⟨?_, ?_, ?_, ?_, hparent, hedge, ?_, ?_, ?_, ?_, ?_, ?_⟩
  · rw [makeChild_freepool, makeChild_freepool]; rfl
  · rw [child_makeChild, if_neg fun h => hqi h.1, child_makeChild, if_neg fun h => hqi h.1, child_splitNode]
  · rw [innerRec_makeChild hfirst (r := .leaf m.pos) nofun, innerRec_makeChild hnode hold, innerRec_splitNode hm]
  · rw [child_makeChild, if_neg fun h => hbytes h.2.symm, child_makeChild, if_pos ⟨rfl, rfl⟩]
  · rw [child_makeChild, if_pos ⟨rfl, rfl⟩]
  · exact leafRec_makeChild_newest hfirst (makeChild_pos ..) _ _
  · rw [makeChild_text, makeChild_text]; rfl
  · rw [makeChild_matchlen, makeChild_matchlen]; rfl
  · rw [makeChild_matchpos, makeChild_matchpos]; rfl
  · rw [makeChild_pos, makeChild_pos]; rfl

/-! ### DeleteNode (R320) -/

/-- The leaf of the string that leaves the window, a child of `q`, taken out of the tree. -/
def unlinkLeaf (q : Handle) (m : MatchFinder) : MatchFinder :=
  clearParent (.leaf m.pos) (dropChild q (edgeOf m (.leaf m.pos)) m)

theorem leafRemoved_unlinkLeaf {m : MatchFinder} (hm : m.memWf) (q : Handle) :
    Claims.leafRemoved m (unlinkLeaf q m) q := by
  have hdrop := hm.dropChild q (leafRec m m.pos).edge
  exact ⟨child_dropChild_self hm q _, fun q' c h => child_dropChild_of_ne hm h, leafRec_setLeaf_self hdrop _ _,
    fun p hp => leafRec_setLeaf_of_ne hdrop _ hp⟩

theorem deleteNode_out {P : Params} {m : MatchFinder} (h : parentOf m (.leaf m.pos) = none) :
    deleteNode P m = .ok m := by
  simp only [deleteNode, h]

theorem deleteNode_root {P : Params} {m : MatchFinder} {b : Byte} (h : parentOf m (.leaf m.pos) = some (.root b)) :
    deleteNode P m = .ok (unlinkLeaf (.root b) m) := by
  simp only [deleteNode, h, unlinkLeaf]

theorem deleteNode_inner {P : Params} {m : MatchFinder} {i : Nat} (hm : m.memWf)
    (h : parentOf m (.leaf m.pos) = some (.inner i)) (hcount : 1 < (innerRec m i).childcount - 1) :
    deleteNode P m = .ok (mapCount (.inner i) (· - 1) (unlinkLeaf (.inner i) m)) := by
  have hunlink : (unlinkLeaf (.inner i) m).memWf := (hm.dropChild _ _).clearParent _
  simp only [deleteNode, h]
  refine if_pos ?_
  show 1 < (innerRec (mapCount (.inner i) (· - 1) (unlinkLeaf (.inner i) m)) i).childcount
  rwa [innerRec_mapCount_self hunlink]

/-- Settles O49: the leaf is unlinked, and an inner node counts one child fewer. -/
theorem deleteNodeEffect : Obligations.DeleteNodeEffect := by
  intro P m hm
  refine ⟨deleteNode_out, fun b h => ⟨_, deleteNode_root h, leafRemoved_unlinkLeaf hm _, rfl⟩, fun i h hcount => ?_⟩
  have hunlink : (unlinkLeaf (.inner i) m).memWf := (hm.dropChild _ _).clearParent _
  refine ⟨_, deleteNode_inner hm h (by omega), leafRemoved_unlinkLeaf hm _, ?_, fun j hj => ?_, rfl⟩
  · exact innerRec_mapCount_self hunlink i _
  · exact innerRec_setInner_of_ne hunlink _ hj

end Sys2Proof.Machine
end

section
/-! PROOFS. No command but ENCODE touches the match finder (43_match_finder.md R325): an operation of another command
does with any match finder what it does with this one, and passes it on. -/

namespace Sys2Proof.Machine

/-! ### The same block with another match finder -/

/-- The same block with match finder `m`. -/
def State.withMf (m : MatchFinder) (s : State) : State := { s with mf := m }

@[simp] theorem withMf_phase (m : MatchFinder) (s : State) : (s.withMf m).phase = s.phase := rfl

theorem push_withMf (m : MatchFinder) (ts : List Task) (s : State) :
    push ts (s.withMf m) = (push ts s).withMf m := by
  unfold push
  rw [withMf_phase]
  split <;> rfl

theorem endIfDone_withMf (m : MatchFinder) (s : State) : endIfDone (s.withMf m) = (endIfDone s).withMf m := by
  unfold endIfDone
  rw [withMf_phase]
  split <;> rfl

/-- `v` is `u` but for the match finder, which is `m`. -/
def MfTwin (m : MatchFinder) (u v : State) : Prop := v = u.withMf m

namespace MfTwin

variable {m : MatchFinder} {u v : State}

theorem push (h : MfTwin m u v) (ts : List Task) : MfTwin m (push ts u) (push ts v) := by
  cases h; exact push_withMf m ts u

theorem raise (h : MfTwin m u v) (k : ErrKind) : MfTwin m (raise k u) (raise k v) := by
  cases h; rfl

/-- Both branches of a test. -/
theorem ite {c : Prop} [Decidable c] {a a' b b' : State} (ha : MfTwin m a a') (hb : MfTwin m b b') :
    MfTwin m (if c then a else b) (if c then a' else b') := by
  split
  · exact ha
  · exact hb

theorem tableDecode (h : MfTwin m u v) (tab : Table) (len : Memory Len) (tb nchar : Nat) (next : Nat → Task) :
    MfTwin m (tableDecode tab len tb nchar next u) (tableDecode tab len tb nchar next v) := by
  cases h
  have hlookup : lookupSymbol tab tb nchar (u.withMf m) = lookupSymbol tab tb nchar u := rfl
  unfold Machine.tableDecode
  rw [hlookup]
  split
  · rfl
  · split
    · exact push_withMf ..
    · exact push_withMf ..

end MfTwin

/-! ### Operations that wait at a port -/

/-- Both branches of a test in an operation that may wait. -/
theorem ite_map_withMf {m : MatchFinder} {c : Prop} [Decidable c] {a a' b b' : Except Port State}
    (ha : a' = a.map (State.withMf m)) (hb : b' = b.map (State.withMf m)) :
    (if c then a' else b') = (if c then a else b).map (State.withMf m) := by
  rw [ha, hb, apply_ite (Except.map _)]

theorem MfTwin.ok {m : MatchFinder} {u v : State} (h : MfTwin m u v) :
    (.ok v : Except Port State) = (Except.ok u : Except Port State).map (State.withMf m) := congrArg Except.ok h

theorem srcRead_withMf (m : MatchFinder) (s : State) :
    srcRead (s.withMf m) = (srcRead s).map fun r => (r.1, r.2.withMf m) := by
  cases h : srcRead s with
  | ok r =>
    obtain ⟨hb, hr⟩ := srcRead_eq_ok.mp h
    exact srcRead_eq_ok.mpr ⟨hb, by rw [hr]; rfl⟩
  | error p => exact srcRead_eq_error.mpr ((srcRead_eq_error (s := s)).mp h)

theorem snkWrite_withMf (m : MatchFinder) (b : Byte) (s : State) :
    snkWrite b (s.withMf m) = (snkWrite b s).map (State.withMf m) := by
  cases h : snkWrite b s with
  | ok u =>
    obtain ⟨hroom, rfl⟩ := snkWrite_eq_ok.mp h
    exact snkWrite_eq_ok.mpr ⟨hroom, rfl⟩
  | error p => exact snkWrite_eq_error.mpr ((snkWrite_eq_error (s := s) (b := b)).mp h)

theorem fetchByte_withMf (m : MatchFinder) (s : State) :
    fetchByte (s.withMf m) = (fetchByte s).map fun r => (r.1, r.2.withMf m) := by
  unfold fetchByte
  rw [apply_ite (Except.map _), srcRead_withMf]
  refine if_congr Iff.rfl rfl ?_
  cases srcRead s <;> rfl

theorem emitByteTask_withMf (m : MatchFinder) (b : Byte) (s : State) :
    emitByteTask b (s.withMf m) = (emitByteTask b s).map (State.withMf m) := by
  unfold emitByteTask
  rw [snkWrite_withMf]
  refine ite_map_withMf ?_ rfl
  cases snkWrite b s <;> rfl

theorem fillLoopTask_withMf (m : MatchFinder) (n : Nat) (s : State) :
    fillLoopTask n (s.withMf m) = (fillLoopTask n s).map (State.withMf m) := by
  dsimp only [fillLoopTask]
  rw [fetchByte_withMf]
  refine ite_map_withMf ?_ rfl
  cases fetchByte s with
  | ok r => exact MfTwin.ok (.push rfl _)
  | error p => rfl

theorem storedCopyTask_withMf (m : MatchFinder) (n : Nat) (s : State) :
    storedCopyTask n (s.withMf m) = (storedCopyTask n s).map (State.withMf m) := by
  cases n with
  | zero => rfl
  | succ n =>
    dsimp only [storedCopyTask]
    rw [srcRead_withMf]
    cases srcRead s with
    | ok r => exact MfTwin.ok (.push rfl _)
    | error p => rfl

theorem outByteTask_withMf (m : MatchFinder) (P : Params) (b : Byte) (s : State) :
    outByteTask P b (s.withMf m) = (outByteTask P b s).map (State.withMf m) := by
  unfold outByteTask
  rw [snkWrite_withMf]
  cases snkWrite b s <;> rfl

/-! ### Every operation of the other commands -/

theorem ptLoopTask_withMf (m : MatchFinder) (P : Params) (w : PtKind) (n i : Nat) (s : State) :
    MfTwin m (ptLoopTask P w n i s) (ptLoopTask P w n i (s.withMf m)) := by
  rcases Nat.lt_or_ge i n with hi | hi
  · rcases Nat.lt_or_ge 16 (peekPtLen s) with hlong | hlen
    · rw [ptLoopTask_too_long P w hi hlong, ptLoopTask_too_long P w (s := s.withMf m) hi hlong]
      exact .raise rfl _
    · rw [ptLoopTask_length P w hi hlen, ptLoopTask_length P w (s := s.withMf m) hi hlen]
      exact .push rfl _
  · cases htab : makeTable (ptAlphabet P w) (lenAt (zeroLens i (ptAlphabet P w) (ptLens w s.dec))) P.ptTableBits with
    | none =>
      rw [ptLoopTask_refused hi htab, ptLoopTask_refused (s := s.withMf m) hi htab]
      exact .raise rfl _
    | some tab => rw [ptLoopTask_accepted hi htab, ptLoopTask_accepted (s := s.withMf m) hi htab]; rfl

theorem cLoopTask_next (P : Params) {n i : Nat} {s : State} (hi : i < n) :
    cLoopTask P n i s = tableDecode s.dec.tTab s.dec.tLen P.ptTableBits P.nt (fun y => .cSym n i y) s := if_pos hi

theorem cLoopTask_withMf (m : MatchFinder) (P : Params) (n i : Nat) (s : State) :
    MfTwin m (cLoopTask P n i s) (cLoopTask P n i (s.withMf m)) := by
  rcases Nat.lt_or_ge i n with hi | hi
  · rw [cLoopTask_next P hi, cLoopTask_next (s := s.withMf m) P hi]
    exact .tableDecode rfl ..
  · cases htab : makeTable P.nc (lenAt (zeroLens i P.nc s.dec.cLen)) P.cTableBits with
    | none =>
      rw [cLoopTask_refused hi htab, cLoopTask_refused (s := s.withMf m) hi htab]
      exact .raise rfl _
    | some tab => rw [cLoopTask_accepted hi htab, cLoopTask_accepted (s := s.withMf m) hi htab]; rfl

theorem runTask_withMf (m : MatchFinder) (P : Params) {t : Task} (ht : t.side ≠ .encode) (s : State) :
    runTask P t (s.withMf m) = (runTask P t s).map (State.withMf m) := by
  cases t
  -- the writer
  case putBits n x =>
    cases n with
    | zero => rfl
    | succ n => exact MfTwin.ok (.ite (.push rfl _) (.push rfl _))
  case emitByte b => exact emitByteTask_withMf m b s
  case clearAcc => rfl
  -- the reader
  case advance n => exact MfTwin.ok (.ite (.raise rfl _) (.push rfl _))
  case fill n => exact MfTwin.ok (.push rfl _)
  case fillLoop n => exact fillLoopTask_withMf m n s
  case brInitEnd => rfl
  case setResult v => rfl
  -- DECODE
  case decodeInit => exact MfTwin.ok (.ite (.push rfl _) (.ite (.raise rfl _) (.push rfl _)))
  case storedCopy n => exact storedCopyTask_withMf m n s
  case outByte b => exact outByteTask_withMf m P b s
  case hufDecodeStart => rfl
  case decodeLoop => exact MfTwin.ok (.ite (.push rfl _) rfl)
  case decodeC => exact MfTwin.ok (.ite (.push rfl _) (.push rfl _))
  case decodeSym => exact MfTwin.ok (.tableDecode rfl ..)
  case gotC c => exact MfTwin.ok (.ite (.push rfl _) (.push rfl _))
  case decodeP len => exact MfTwin.ok (.tableDecode rfl ..)
  case gotP len j => exact MfTwin.ok (.ite (.push rfl _) (.push rfl _))
  case copyMatch j p => exact MfTwin.ok (.ite (.raise rfl _) (.push rfl _))
  case copyLoop j c => exact MfTwin.ok (.ite (.push rfl _) rfl)
  case decodeFinish => exact MfTwin.ok (.ite rfl rfl)
  case readHeader => exact MfTwin.ok (.push rfl _)
  case gotSize x => exact MfTwin.ok (.ite (.raise rfl _) (.push rfl _))
  case readPt w => exact MfTwin.ok (.push rfl _)
  case ptCount w n => exact MfTwin.ok (.ite (.push rfl _) (.ite (.raise rfl _) (.push rfl _)))
  case ptConst w c => exact MfTwin.ok (.ite (.raise rfl _) rfl)
  case ptLoop w n i => exact MfTwin.ok (ptLoopTask_withMf m P w n i s)
  case ptLen w n i k => exact MfTwin.ok (.ite (.push rfl _) (.push rfl _))
  case ptSkip w n i z =>
    cases z with
    | zero => exact MfTwin.ok (.push rfl _)
    | succ z => exact MfTwin.ok (.ite (.raise rfl _) (.push rfl _))
  case readC => exact MfTwin.ok (.push rfl _)
  case cCount n => exact MfTwin.ok (.ite (.push rfl _) (.ite (.raise rfl _) (.push rfl _)))
  case cConst c => exact MfTwin.ok (.ite (.raise rfl _) rfl)
  case cLoop n i => exact MfTwin.ok (cLoopTask_withMf m P n i s)
  case cSym n i y =>
    exact MfTwin.ok (.ite (.push rfl _) (.ite (.push rfl _) (.ite (.push rfl _) (.push rfl _))))
  case cRun n i r =>
    cases r with
    | zero => exact MfTwin.ok (.push rfl _)
    | succ r => exact MfTwin.ok (.ite (.raise rfl _) (.push rfl _))
  all_goals exact absurd rfl ht

/-! ### Every command but ENCODE -/

/-- The same turn of the sequencer with another match finder. -/
def SeqTurn.withMf (m : MatchFinder) : SeqTurn → SeqTurn
  | .idle => .idle
  | .waits p => .waits p
  | .ran s => .ran (s.withMf m)

theorem seqStep_withMf (m : MatchFinder) (P : Params) {s : State} (hs : s.onSides (· ≠ .encode)) :
    seqStep P (s.withMf m) = (seqStep P s).withMf m := by
  match hphase : s.phase with
  | .idle => rw [seqStep_idle P hphase, seqStep_idle P (s := s.withMf m) hphase]; rfl
  | .run cmd [] => rw [seqStep_end P hphase, seqStep_end P (s := s.withMf m) hphase]; rfl
  | .run cmd (t :: todo) =>
    have hside : t.side ≠ .encode := hs t (by rw [todo_run hphase]; exact List.mem_cons_self)
    have htask := runTask_withMf m P hside { s with phase := .run cmd todo }
    cases h : runTask P t { s with phase := .run cmd todo } with
    | ok u =>
      rw [h] at htask
      rw [seqStep_ok P hphase h, seqStep_ok P (s := s.withMf m) hphase htask, endIfDone_withMf]; rfl
    | error p =>
      rw [h] at htask
      rw [seqStep_error P hphase h, seqStep_error P (s := s.withMf m) hphase htask]; rfl

theorem runSeq_withMf (m : MatchFinder) (P : Params) (n : Nat) {s : State} (hs : s.onSides (· ≠ .encode)) :
    runSeq P n (s.withMf m) = (runSeq P n s).withMf m := by
  induction n generalizing s with
  | zero => rfl
  | succ n ih =>
    have hstep := seqStep_withMf m P hs
    cases h : seqStep P s with
    | idle =>
      rw [h] at hstep
      simp only [runSeq, h, hstep, SeqTurn.withMf]
    | waits p =>
      rw [h] at hstep
      rw [runSeq_waits P _ h, runSeq_waits P _ hstep]
    | ran u =>
      rw [h] at hstep
      rw [runSeq_ran P n h, runSeq_ran P n hstep]
      exact ih (seqStep_onSides nofun h hs)

theorem started_withMf (m : MatchFinder) (i : Instr) (s : State) :
    started i (s.withMf m) = (started i s).withMf m := by
  cases i <;> rfl

/-- With another match finder the command does the same. -/
theorem exec_withMf (m : MatchFinder) {i : Instr} {s t : State} (hi : i ≠ .encode) (hidle : s.phase = .idle)
    (h : exec i s = .next t) : exec i (s.withMf m) = .next (t.withMf m) := by
  have hside : (started i s).onSides (· ≠ .encode) :=
    started_onSides s nofun (absurd · hi) (fun _ => nofun) fun _ _ => nofun
  rw [exec_idle i hidle] at h
  cases h
  rw [exec_idle (s := s.withMf m) i hidle, started_withMf]
  exact congrArg _ (runSeq_withMf m _ _ hside)

/-- Settles O44: with its own match finder a command does what it does, so it leaves that one as it is. -/
theorem matchFinderIsEncodes : Obligations.MatchFinderIsEncodes := by
  intro i s t m hi hidle h
  have hself : exec i s = .next (t.withMf s.mf) := exec_withMf s.mf hi hidle h
  have hmf : t.mf = (t.withMf s.mf).mf := congrArg State.mf (Host.Outcome.next.inj (h.symm.trans hself))
  exact ⟨hmf, exec_withMf m hi hidle h⟩

end Sys2Proof.Machine
end

section
/-! PROOFS. What a CMD write of NOP, ENCODE or DECODE does at once (44_pipeline.md R340, R341), and the two pieces of
window arithmetic ENCODE rests on: the slide (R344) and the distance code (R347). -/

namespace Sys2Proof.Machine

open Claims

/-- Settles O6: NOP has no operation. -/
theorem nopResult : Obligations.NopResult := fun _ hidle =>
  ⟨exec_of_no_tasks (i := .nop) ⟨nofun, nofun⟩ hidle rfl, wordsOf_plainWord hidle rfl⟩

/-! ### The start of ENCODE and DECODE (R340) -/

/-- Of STATUS's fields the mask keeps UNPACKABLE and CMD_LOST; then BUSY is set. -/
theorem busy_or_status_and_kept : ∀ (lost mismatch unpackable stored done busy : Bool) (code : BitVec 3),
    1#32 ||| ((0#20 ++ (bit lost ++ (bit mismatch ++ (bit unpackable ++ (bit stored ++ (0#1 ++ (code ++ (0#1 ++ (0#1 ++
      (bit done ++ bit busy)))))))))) &&& 0xA00#32) =
    0#20 ++ (bit lost ++ (0#1 ++ (bit unpackable ++ (0#1 ++ (0#1 ++ (0#3 ++ (0#1 ++ (0#1 ++ (0#1 ++ 1#1))))))))) := by
  decide

/-- STATUS of a command that has just cleared its outcome. -/
theorem statusWord_of_cleared {s t : State} (hbusy : t.busy = true)
    (hregs : t.regs = { s.regs with done := false, errcode := .none, stored := false, crcMismatch := false })
    (hbw : t.bw = s.bw) : statusWord t = 0x1#32 ||| (statusWord s &&& 0xA00#32) := by
  rw [statusWord, hbusy, hregs, hbw, statusWord, busy_or_status_and_kept]
  rfl

/-- Settles O21: with the host's next turn due at once the sequencer takes no step after the start. -/
theorem longCommandStart : Obligations.LongCommandStart := by
  intro s i hidle hpace hi
  have hstart : exec i s = .next (started i s) := by
    rw [exec_idle i hidle]
    refine congrArg _ (settle_paced_zero (todo := startTasks i s) Config.build ?_ ?_) <;> rcases hi with rfl | rfl
    · exact hpace
    · exact hpace
    · exact .inl rfl
    · exact .inr rfl
  refine ⟨_, hstart, statusWord_of_cleared (busy_of_run (started_phase i s)) ?_ ?_, ?_⟩ <;>
    rcases hi with rfl | rfl <;> rfl

/-! ### The slide (R344) -/

/-- Where two memories list the same cells, they read the same. -/
theorem cellGet_congr {α : Type} {m m' : Memory α} (hm : Memory.rising m = true) (hm' : Memory.rising m' = true)
    {a a' : Nat} (h : ∀ v, (a, v) ∈ m ↔ (a', v) ∈ m') : cellGet m a = cellGet m' a' :=
  Option.ext fun v => (cellGet_eq_some_iff hm).trans ((h v).trans (cellGet_eq_some_iff hm').symm)

theorem mem_slideText {P : Params} {text : Memory Byte} {i : Nat} {v : Byte} :
    (i, v) ∈ slideText P text ↔
      (i < P.dicSiz + P.maxMatch ∧ (i + P.dicSiz, v) ∈ text) ∨ (P.dicSiz + P.maxMatch ≤ i ∧ (i, v) ∈ text) := by
  simp only [slideText, List.mem_append, List.mem_map, List.mem_filter, Bool.and_eq_true, decide_eq_true_eq,
    Prod.mk.injEq]
  constructor
  · rintro (⟨c, ⟨hc, hlo, hhi⟩, hi, rfl⟩ | ⟨hmem, hle⟩)
    · exact .inl ⟨by omega, by rwa [show i + P.dicSiz = c.1 by omega]⟩
    · exact .inr ⟨hle, hmem⟩
  · rintro (⟨hlt, hmem⟩ | ⟨hle, hmem⟩)
    · exact .inl ⟨_, ⟨hmem, by dsimp only; omega, by dsimp only; omega⟩, by dsimp only; omega, rfl⟩
    · exact .inr ⟨hmem, hle⟩

/-- Settles O50: a cell of the slid window is the cell of the window it comes from. -/
theorem windowSlide : Obligations.WindowSlide := by
  intro P text i hwf
  have hslid := rising_of_wf (wf_slideText P hwf)
  have htext := rising_of_wf hwf
  refine ⟨fun hlt => congrArg (Option.getD · 0) (cellGet_congr hslid htext fun v => ?_),
    fun hle => congrArg (Option.getD · 0) (cellGet_congr hslid htext fun v => ?_)⟩
  · rw [mem_slideText]
    exact ⟨fun h => h.elim And.right fun h => absurd h.1 (by omega), fun h => .inl ⟨hlt, h⟩⟩
  · rw [mem_slideText]
    exact ⟨fun h => h.elim (fun h => absurd h.1 (by omega)) And.right, fun h => .inr ⟨hle, h⟩⟩

/-! ### The distance code (R347) -/

/-- The distance code is the distance below D in the same class. -/
theorem distanceCode_eq_of_emod {P : Params} {m : MatchFinder} {d : Nat} (hd : d < P.dicSiz) (q : Int)
    (h : (m.pos : Int) - m.lastmatchpos - 2 = d + P.dicSiz * q) : distanceCode P m = d := by
  rw [distanceCode, h, Int.add_mul_emod_self_left, Int.emod_eq_of_lt (by omega) (by omega), Int.toNat_natCast]

/-- Settles O51: the difference is in range, or one slide below it. -/
theorem MatchFinder.distanceCode : Obligations.DistanceCode := by
  intro P m
  refine ⟨fun hlo hhi => ?_, fun hpos hlo hhi => ?_⟩
  · have hd : m.pos - 1 - m.lastmatchpos - 1 < P.dicSiz := by omega
    have hcode := distanceCode_eq_of_emod (m := m) hd 0 (by omega)
    exact ⟨hcode, hcode ▸ hd⟩
  · have hd : 2 * P.dicSiz - 1 - m.lastmatchpos - 1 < P.dicSiz := by omega
    have hcode := distanceCode_eq_of_emod (m := m) hd (-1) (by omega)
    exact ⟨hcode, hcode ▸ hd⟩

end Sys2Proof.Machine
end

section
/-! PROOFS. Runs of the sequencer with a bound on their steps (44_pipeline.md R340, 70_reset_and_hazards.md R451): what
a list of operations does, put together from what each operation does. -/

namespace Sys2Proof.Machine

/-! ### The end of a list of operations -/

/-- The command `cmd` has the operations `rest` left, with `J`; or it has ended with an error, with `E`. -/
inductive Ending (cmd : Instr) (rest : List Task) (J E : State → Prop) : State → Prop
  | done (v : State) (h : J v) : Ending cmd rest J E (v.doing cmd rest)
  | failed (u : State) (hidle : u.phase = .idle) (h : E u) : Ending cmd rest J E u

/-- From `s` the operations `ts` of `cmd` take at most `n` steps, whatever comes after them: `J` holds then, or the
command has ended with an error, with `E`. -/
def Does (P : Params) (cmd : Instr) (n : Nat) (s : State) (ts : List Task) (J E : State → Prop) : Prop :=
  ∀ rest, ∃ k u, k ≤ n ∧ runSeq P k (endIfDone (s.doing cmd (ts ++ rest))) = endIfDone u ∧ Ending cmd rest J E u

/-- What one operation of `cmd` does: it leaves operations to do, or it ends the command with an error. -/
inductive Turn (P : Params) (cmd : Instr) (t : Task) (s : State) (A : List Task → State → Prop) (E : State → Prop) :
    Prop
  | leaves (ts : List Task) (v : State)
      (h : ∀ rest, runTask P t (s.doing cmd rest) = .ok (v.doing cmd (ts ++ rest))) (ha : A ts v)
  | faults (u : State) (h : ∀ rest, runTask P t (s.doing cmd rest) = .ok u) (hidle : u.phase = .idle) (he : E u)

namespace Does

variable {P : Params} {cmd : Instr} {n m : Nat} {s : State} {t : Task} {ts ts' : List Task}
  {J J' E E' : State → Prop}

theorem nil (h : J s) : Does P cmd n s [] J E := fun _ => ⟨0, _, Nat.zero_le n, rfl, .done s h⟩

theorem mono (h : Does P cmd n s ts J E) (hn : n ≤ m) (hJ : ∀ v, J v → J' v) (hE : ∀ v, E v → E' v) :
    Does P cmd m s ts J' E' := by
  intro rest
  obtain ⟨k, u, hk, hrun, hend⟩ := h rest
  refine ⟨k, u, hk.trans hn, hrun, ?_⟩
  cases hend with
  | done v h => exact .done v (hJ v h)
  | failed _ hidle h => exact .failed u hidle (hE u h)

theorem more_steps (h : Does P cmd n s ts J E) (hn : n ≤ m) : Does P cmd m s ts J E :=
  h.mono hn (fun _ => id) fun _ => id

/-- One operation, then what it leaves and what came after it. -/
theorem turn (h : Turn P cmd t s (fun ts v => Does P cmd n v (ts ++ ts') J E) E) :
    Does P cmd (n + 1) s (t :: ts') J E := by
  intro rest
  have hmore : endIfDone (s.doing cmd (t :: ts' ++ rest)) = s.doing cmd (t :: (ts' ++ rest)) :=
    endIfDone_more (doing_phase _ _ _)
  have hstep : ∀ {u}, runTask P t (s.doing cmd (ts' ++ rest)) = .ok u →
      seqStep P (s.doing cmd (t :: (ts' ++ rest))) = .ran (endIfDone u) := fun h => seqStep_ok P (doing_phase _ _ _) h
  cases h with
  | leaves ts v h hd =>
    obtain ⟨k, u, hk, hrun, hend⟩ := hd rest
    rw [List.append_assoc] at hrun
    exact ⟨k + 1, u, Nat.succ_le_succ hk, by rw [hmore, runSeq_ran P k (hstep (h _)), hrun], hend⟩
  | faults u h hidle he =>
    exact ⟨1, u, Nat.succ_le_succ n.zero_le, by rw [hmore, runSeq_ran P 0 (hstep (h _)), runSeq_zero],
      .failed u hidle he⟩

theorem step {v : State} (h : ∀ rest, runTask P t (s.doing cmd rest) = .ok (v.doing cmd (ts ++ rest)))
    (hd : Does P cmd n v (ts ++ ts') J E) : Does P cmd (n + 1) s (t :: ts') J E :=
  turn (.leaves ts v h hd)

/-- An operation that leaves none to do. -/
theorem last {v : State} (h : ∀ rest, runTask P t (s.doing cmd rest) = .ok (v.doing cmd rest)) (hJ : J v) :
    Does P cmd (n + 1) s [t] J E :=
  step (ts := []) h (.nil hJ)

theorem append (h : Does P cmd n s ts J E) (h' : ∀ v, J v → Does P cmd m v ts' J' E) :
    Does P cmd (n + m) s (ts ++ ts') J' E := by
  intro rest
  obtain ⟨k, u, hk, hrun, hend⟩ := h (ts' ++ rest)
  rw [← List.append_assoc] at hrun
  cases hend with
  | done v hv =>
    obtain ⟨j, w, hj, hrun', hend'⟩ := h' v hv rest
    exact ⟨k + j, w, Nat.add_le_add hk hj, by rw [runSeq_add, hrun, hrun'], hend'⟩
  | failed _ hidle he => exact ⟨k, u, hk.trans (Nat.le_add_right n m), hrun, .failed u hidle he⟩

theorem cons (h : Does P cmd n s [t] J E) (h' : ∀ v, J v → Does P cmd m v ts' J' E) :
    Does P cmd (n + m) s (t :: ts') J' E :=
  append h h'

/-- A list of operations each of which leaves operations that cost less than itself: the costs bound the steps. `I` may
speak of the operations still to do, `slack` is a part of the bound that the state holds. -/
theorem of_cost (cost : Task → Nat) (slack : State → Nat) {I : List Task → State → Prop}
    (hturn : ∀ t todo s, I (t :: todo) s → Turn P cmd t s
      (fun ts v => I (ts ++ todo) v ∧ (ts.map cost).sum + slack v < cost t + slack s) E)
    (ts : List Task) (s : State) (hI : I ts s) :
    Does P cmd ((ts.map cost).sum + slack s + 1) s ts (I []) E := by
  obtain ⟨n, hn⟩ : ∃ n, n = (ts.map cost).sum + slack s := ⟨_, rfl⟩
  rw [← hn]
  induction n using Nat.strong_induction_on generalizing ts s with
  | _ n ih =>
    cases ts with
    | nil => exact nil hI
    | cons t todo =>
      rw [List.map_cons, List.sum_cons] at hn
      cases hturn t todo s hI with
      | leaves ts v h hv =>
        have hlt : ((ts ++ todo).map cost).sum + slack v < n := by
          rw [List.map_append, List.sum_append]; omega
        exact step h ((ih _ hlt (ts ++ todo) v hv.1 rfl).more_steps hlt)
      | faults u h hidle he => exact turn (n := n) (.faults u h hidle he)

end Does

/-! ### Commands -/

/-- ENCODE and DECODE get to the end of their operations, the host leaving them alone. -/
theorem exec_of_does {i : Instr} (hi : i = .encode ∨ i = .decode) {s : State} (hidle : s.phase = .idle)
    (hpace : s.pace = none) {n : Nat} {J E : State → Prop}
    (h : Does Config.build i n (started i s) (startTasks i s) J E) (hn : n ≤ fullRun) :
    ∃ t, exec i s = .next t ∧ ((∃ v, t = endCommand .none v ∧ J v) ∨ (t.phase = .idle ∧ E t)) := by
  obtain ⟨k, u, hk, hrun, hend⟩ := h []
  have hstart : endIfDone ((started i s).doing i (startTasks i s ++ [])) = started i s := by
    rw [List.append_nil, State.doing, ← started_phase]
    rcases hi with rfl | rfl <;> rfl
  have hburst : burst (started i s) = fullRun := by
    rw [burst, started_phase]
    rcases hi with rfl | rfl <;> exact congrArg (Option.getD · fullRun) hpace
  have hfull : (endIfDone u).phase = .idle → settle Config.build (started i s) = endIfDone u := by
    intro hu
    obtain ⟨m, hm⟩ := Nat.exists_eq_add_of_le (hk.trans hn)
    rw [settle, hburst, hm, runSeq_add, ← hstart, hrun, runSeq_idle _ _ hu]
  rw [exec_idle i hidle]
  cases hend with
  | done v hv => exact ⟨_, congrArg _ (hfull rfl), .inl ⟨v, rfl, hv⟩⟩
  | failed _ hu he =>
    rw [endIfDone_idle hu] at hfull
    exact ⟨_, congrArg _ (hfull hu), .inr ⟨hu, he⟩⟩

end Sys2Proof.Machine
end

section
/-! PROOFS. DECODE's output (44_pipeline.md R356): a byte goes to the sink, the CRC and the window; CopyMatch (R358) and
DecodeStored (R360) as strings of such bytes. -/

namespace Sys2Proof.Machine

open Claims

/-! ### Bytes delivered (R356) -/

/-- The state after OutByte(b), the host accepting every byte. -/
def outDone (b : Byte) (s : State) : State :=
  { s with
    crc := crcStep s.crc b
    port := { s.port with sink := s.port.sink ++ [b] }
    dec := { s.dec with
      dwin := memWrite 0 s.dec.dwin (s.dec.outcount.toNat % Config.build.dicSiz) b
      outcount := s.dec.outcount + 1 } }

/-- The state after the bytes of a list. -/
def outAll (bs : List Byte) (s : State) : State := bs.foldl (fun u b => outDone b u) s

theorem runTask_outByte (b : Byte) {s : State} (hroom : s.port.room = none) (cmd : Instr) (rest : List Task) :
    runTask Config.build (.outByte b) (s.doing cmd rest) = .ok ((outDone b s).doing cmd rest) := by
  show outByteTask Config.build b (s.doing cmd rest) = _
  unfold outByteTask snkWrite
  rw [show (s.doing cmd rest).port.room = none from hroom]
  rfl

/-- Delivered bytes change the sink, the CRC, the count and the window. -/
theorem outAll_frame (bs : List Byte) (s : State) :
    outAll bs s = { s with
      crc := bs.foldl nextCrc s.crc
      port := { s.port with sink := s.port.sink ++ bs }
      dec := { s.dec with
        outcount := s.dec.outcount + BitVec.ofNat 64 bs.length, dwin := (outAll bs s).dec.dwin } } := by
  induction bs generalizing s with
  | nil => simp [outAll]
  | cons b bs ih =>
    have hcount : s.dec.outcount + BitVec.ofNat 64 (bs.length + 1)
        = s.dec.outcount + 1 + BitVec.ofNat 64 bs.length := by
      rw [Nat.add_comm, BitVec.ofNat_add, ← BitVec.add_assoc]; rfl
    rw [List.length_cons, hcount, List.foldl_cons, ← crcStep_eq_nextCrc, List.append_cons]
    exact ih (outDone b s)

theorem wf_dwin_outDone (b : Byte) {s : State} (hwf : Memory.wf 0 s.dec.dwin = true) :
    Memory.wf 0 (outDone b s).dec.dwin = true := wf_memWrite hwf _ _

theorem outcount_outDone (b : Byte) {s : State} {n : Nat} (h : s.dec.outcount.toNat < n) (hn : n < 2 ^ 64) :
    (outDone b s).dec.outcount.toNat = s.dec.outcount.toNat + 1 := by
  show (s.dec.outcount + 1).toNat = _
  bv_omega

theorem outcount_outAll (bs : List Byte) {s : State} (h : s.dec.outcount.toNat + bs.length < 2 ^ 64) :
    (outAll bs s).dec.outcount.toNat = s.dec.outcount.toNat + bs.length := by
  rw [outAll_frame]
  show (s.dec.outcount + BitVec.ofNat 64 bs.length).toNat = _
  rw [BitVec.toNat_add, BitVec.toNat_ofNat]
  omega

/-! ### The window (10_state.md R68) -/

/-- Another byte takes the place of the one D bytes earlier. -/
theorem windowHolds_outDone (b : Byte) {h : List Byte} {s : State} (hwf : Memory.wf 0 s.dec.dwin = true)
    (hh : windowHolds h s) (hlen : h.length + 1 < 2 ^ 64) : windowHolds (h ++ [b]) (outDone b s) := by
  obtain ⟨hcount, hwin⟩ := hh
  have hpos : 0 < Config.build.dicSiz := Nat.two_pow_pos _
  refine ⟨?_, fun k hk hlast => ?_⟩
  · rw [outcount_outDone b (Nat.lt_succ_self _) (by rwa [hcount]), hcount, List.length_append]; rfl
  rw [List.length_append, List.length_singleton] at hk hlast
  have hread : memRead 0 (outDone b s).dec.dwin (k % Config.build.dicSiz)
      = memRead 0 (memWrite 0 s.dec.dwin (h.length % Config.build.dicSiz) b) (k % Config.build.dicSiz) := by
    rw [← hcount]; rfl
  rw [hread]
  rcases Nat.lt_or_eq_of_le (Nat.le_of_lt_succ hk) with hlt | rfl
  · have hne : k % Config.build.dicSiz ≠ h.length % Config.build.dicSiz := fun heq => by
      have hdvd := (Nat.modEq_iff_dvd' hlt.le).mp heq
      exact absurd (Nat.le_of_dvd (by omega) hdvd) (by omega)
    rw [memRead_memWrite_ne _ (rising_of_wf hwf) _ hne, hwin k hlt (by omega), List.getElem?_append_left hlt]
  · rw [memRead_memWrite_same _ (rising_of_wf hwf), List.getElem?_concat_length, Option.getD_some]

theorem windowHolds_outAll (bs : List Byte) {h : List Byte} {s : State} (hwf : Memory.wf 0 s.dec.dwin = true)
    (hh : windowHolds h s) (hlen : h.length + bs.length < 2 ^ 64) : windowHolds (h ++ bs) (outAll bs s) := by
  induction bs generalizing h s with
  | nil => rwa [List.append_nil]
  | cons b bs ih =>
    rw [List.length_cons] at hlen
    rw [List.append_cons]
    exact ih (wf_dwin_outDone b hwf) (windowHolds_outDone b hwf hh (by omega))
      (by rw [List.length_append, List.length_singleton]; omega)

/-- Elements of the window that none of the bytes goes to. -/
theorem memRead_dwin_outAll (bs : List Byte) {s : State} {a : Nat} (hwf : Memory.wf 0 s.dec.dwin = true)
    (hcount : s.dec.outcount.toNat + bs.length < 2 ^ 64)
    (ha : ∀ i, i < bs.length → (s.dec.outcount.toNat + i) % Config.build.dicSiz ≠ a) :
    memRead 0 (outAll bs s).dec.dwin a = memRead 0 s.dec.dwin a := by
  induction bs generalizing s with
  | nil => rfl
  | cons b bs ih =>
    rw [List.length_cons] at hcount ha
    have hnext := outcount_outDone b (s := s) (Nat.lt_succ_self _) (by omega)
    have hb : memRead 0 (outDone b s).dec.dwin a = memRead 0 s.dec.dwin a :=
      memRead_memWrite_ne _ (rising_of_wf hwf) _ (ha 0 (Nat.succ_pos _)).symm
    rw [← hb]
    refine ih (s := outDone b s) (wf_dwin_outDone b hwf) (by omega) fun i hi => ?_
    rw [hnext, Nat.add_assoc, Nat.add_comm 1]
    exact ha (i + 1) (by omega)

/-! ### CopyMatch (R358) -/

/-- The `n` bytes CopyMatch's loop reads from output offset `c` on, each after the one before is delivered. -/
def copyBytes : Nat → Nat → State → List Byte
  | 0, _, _ => []
  | n + 1, c, s =>
    let b := memRead 0 s.dec.dwin (c % Config.build.dicSiz)
    b :: copyBytes n (c + 1) (outDone b s)

theorem length_copyBytes (n c : Nat) (s : State) : (copyBytes n c s).length = n := by
  induction n generalizing c s with
  | zero => rfl
  | succ n ih => rw [copyBytes, List.length_cons, ih]

/-- The bytes are those from offset `c` of the output on, their own included. -/
theorem getElem?_copyBytes {h : List Byte} {c n : Nat} {s : State} (hwf : Memory.wf 0 s.dec.dwin = true)
    (hh : windowHolds h s) (hc : c < h.length) (hreach : h.length ≤ c + Config.build.dicSiz)
    (hlen : h.length + n < 2 ^ 64) {i : Nat} (hi : i < n) :
    (copyBytes n c s)[i]? = (h ++ copyBytes n c s)[c + i]? := by
  induction n generalizing h c s i with
  | zero => omega
  | succ n ih =>
    have hread : memRead 0 s.dec.dwin (c % Config.build.dicSiz) = h[c] := by
      rw [hh.2 c hc hreach, List.getElem?_eq_getElem hc, Option.getD_some]
    rw [copyBytes]
    cases i with
    | zero =>
      rw [hread, List.getElem?_cons_zero]
      exact ((List.getElem?_append_left hc).trans (List.getElem?_eq_getElem hc)).symm
    | succ i =>
      have hlen' : ∀ b : Byte, (h ++ [b]).length = h.length + 1 := fun b => List.length_append
      rw [List.getElem?_cons_succ, List.append_cons, ← Nat.add_assoc, Nat.add_right_comm]
      exact ih (wf_dwin_outDone _ hwf) (windowHolds_outDone _ hwf hh (by omega)) (by rw [hlen']; omega)
        (by rw [hlen']; omega) (by rw [hlen']; omega) (by omega)

/-- How many bytes the loop copies: `j`, cut at ORIG_SIZE. -/
def copyCount (j : Nat) (s : State) : Nat := min j (origSize s - s.dec.outcount.toNat)

theorem does_copyLoop {cmd : Instr} {E : State → Prop} (j c : Nat) {s : State} (hroom : s.port.room = none) :
    Does Config.build cmd (2 * copyCount j s + 1) s [.copyLoop j c]
      (· = outAll (copyBytes (copyCount j s) c s) s) E := by
  obtain ⟨n, hn⟩ : ∃ n, n = copyCount j s := ⟨_, rfl⟩
  rw [← hn]
  rw [copyCount, origSize] at hn
  induction n generalizing j c s with
  | zero =>
    have hstop : ¬ (0 < j ∧ s.dec.outcount.toNat < s.regs.origSize.toNat) := by omega
    exact .last (v := s) (fun rest => congrArg Except.ok (if_neg hstop)) rfl
  | succ n ih =>
    set b := memRead 0 s.dec.dwin (c % Config.build.dicSiz)
    have hgo : ∀ rest, runTask Config.build (.copyLoop j c) (s.doing cmd rest)
        = .ok (s.doing cmd ([.outByte b, .copyLoop (j - 1) (c + 1)] ++ rest)) := fun rest =>
      congrArg Except.ok (if_pos (show 0 < j ∧ s.dec.outcount.toNat < s.regs.origSize.toNat by omega))
    have hcount := outcount_outDone b (s := s) (n := s.regs.origSize.toNat) (by omega) s.regs.origSize.isLt
    have hrest := ih (j - 1) (c + 1) (s := outDone b s) hroom (by
      rw [hcount]; show n = min (j - 1) (s.regs.origSize.toNat - _); omega)
    exact .step hgo (.step (ts := []) (runTask_outByte b hroom cmd) hrest)

/-- Settles O60: the loop's bytes are those of the output from `p + 1` bytes back on. -/
theorem copyMatch : Obligations.CopyMatch := by
  intro s h cmd todo j p hphase htodo hroom hwf hh hle hp
  have hcount := hh.1
  have horig := s.regs.origSize.isLt
  refine ⟨fun hlt => if_pos (by omega), fun hge => ?_⟩
  have hlen : copyCount j s = min j (s.regs.origSize.toNat - h.length) := by rw [copyCount, hcount]; rfl
  set a := copyBytes (copyCount j s) (h.length - p - 1) s with ha
  have halen : a.length = min j (s.regs.origSize.toNat - h.length) := by rw [ha, length_copyBytes, hlen]
  have hstart : ∀ rest, runTask Config.build (.copyMatch j p) (s.doing cmd rest)
      = .ok (s.doing cmd ([.copyLoop j (h.length - p - 1)] ++ rest)) := fun rest => by
    rw [← hcount]
    exact congrArg Except.ok (if_neg (show ¬ s.dec.outcount.toNat < p + 1 by omega))
  obtain ⟨k, u, -, hrun, hend⟩ := Does.step (E := fun _ => False) hstart (does_copyLoop j _ hroom) todo
  have hu : u = (outAll a s).doing cmd todo := by
    cases hend with
    | done v hv => rw [hv]
    | failed _ _ h => exact h.elim
  have hmore : ∀ v : State, endIfDone (v.doing cmd todo) = v.doing cmd todo := fun v => by
    obtain ⟨t, todo', rfl⟩ := List.exists_cons_of_ne_nil htodo
    exact endIfDone_more (doing_phase cmd _ v)
  refine ⟨k, (outAll a s).doing cmd todo, a, ?_, halen, fun i hi => ?_, ?_, ?_, ?_⟩
  · rw [hu, hmore] at hrun
    exact hrun
  · rw [show h.length + i - (p + 1) = h.length - p - 1 + i by omega]
    exact getElem?_copyBytes hwf hh (by omega) (by omega) (by omega) (by omega)
  · exact windowHolds_outAll a hwf hh (by omega)
  · rw [outAll_frame]; rfl
  · rw [State.doing, ← hphase, outAll_frame]

/-! ### DecodeStored (R360) -/

/-- The state after `n` bytes were taken from the source. -/
def takeSource (n : Nat) (s : State) : State := { s with port := { s.port with taken := s.port.taken + n } }

theorem runTask_storedCopy_byte {n : Nat} {s : State} (h : s.port.taken < s.port.source.length) (cmd : Instr)
    (rest : List Task) :
    runTask Config.build (.storedCopy (n + 1)) (s.doing cmd rest)
      = .ok ((takeSource 1 s).doing cmd ([.outByte s.port.source[s.port.taken], .storedCopy n] ++ rest)) := by
  have hread := srcRead_eq_ok (s := s.doing cmd rest).mpr ⟨List.getElem?_eq_getElem h, rfl⟩
  show storedCopyTask (n + 1) (s.doing cmd rest) = _
  rw [storedCopyTask, hread]
  rfl

theorem nextBytes_succ {n : Nat} {s : State} (h : s.port.taken < s.port.source.length) :
    nextBytes (n + 1) s = s.port.source[s.port.taken] :: nextBytes n (takeSource 1 s) := by
  rw [nextBytes, List.drop_eq_getElem_cons h, List.take_succ_cons]; rfl

theorem does_storedCopy {cmd : Instr} {E : State → Prop} (n : Nat) {s : State} (hroom : s.port.room = none)
    (hsource : s.port.taken + n ≤ s.port.source.length) :
    Does Config.build cmd (2 * n + 1) s [.storedCopy n] (· = outAll (nextBytes n s) (takeSource n s)) E := by
  induction n generalizing s with
  | zero => exact .last (v := s) (fun _ => rfl) rfl
  | succ n ih =>
    have hlt : s.port.taken < s.port.source.length := by omega
    have htake : takeSource n (takeSource 1 s) = takeSource (n + 1) s := by
      rw [takeSource, takeSource, takeSource, Nat.add_comm n 1, ← Nat.add_assoc]
    rw [nextBytes_succ hlt, ← htake]
    have hrest := ih (s := outDone s.port.source[s.port.taken] (takeSource 1 s)) hroom
      (by show s.port.taken + 1 + n ≤ s.port.source.length; omega)
    exact .step (runTask_storedCopy_byte hlt cmd)
      (.step (ts := []) (runTask_outByte _ (s := takeSource 1 s) hroom cmd) hrest)

/-! ### DECODE of the stored method (R355, R360, R363) -/

/-- The state DECODE's output starts from. -/
def decodeReady (s : State) : State :=
  { started .decode s with crc := 0xFFFF#16, dec := { s.dec with outcount := 0 } }

/-- The state after DecodeFinish. -/
def finishDone (s : State) : State :=
  { s with regs := { s.regs with
    crc := ~~~s.crc
    crcMismatch := s.regs.crcMismatch || (s.regs.crcCheck && decide (~~~s.crc ≠ s.regs.expectedCrc)) } }

theorem checkCrc_frame (v : Half) (s : State) : checkCrc v s = { s with regs := (checkCrc v s).regs } := by
  unfold checkCrc; split <;> rfl

theorem decodeFinishTask_eq (s : State) : decodeFinishTask s = finishDone s := by
  rw [decodeFinishTask, checkCrc_frame, checkCrc_regs, crcFinal_eq_not]
  rfl

theorem does_decodeFinish {cmd : Instr} {E : State → Prop} (s : State) :
    Does Config.build cmd 1 s [.decodeFinish] (· = finishDone s) E :=
  .last (v := finishDone s) (fun _ => congrArg Except.ok (decodeFinishTask_eq _)) rfl

theorem runTask_decodeInit_stored {s : State} (hmethod : s.regs.method = false)
    (hsize : s.regs.compSize = s.regs.origSize) (rest : List Task) :
    runTask Config.build .decodeInit ((started .decode s).doing .decode rest)
      = .ok ((decodeReady s).doing .decode ([.storedCopy s.regs.origSize.toNat] ++ rest)) := by
  refine congrArg Except.ok ((if_neg ?_).trans (if_neg ?_))
  · exact fun h => nomatch hmethod.symm.trans h
  · exact fun h => h hsize

theorem runTask_decodeInit_refused {s : State} (hmethod : s.regs.method = false)
    (hsize : s.regs.compSize ≠ s.regs.origSize) (rest : List Task) :
    runTask Config.build .decodeInit ((started .decode s).doing .decode rest)
      = .ok (raise .malformedInput (decodeReady s)) := by
  refine congrArg Except.ok ((if_neg ?_).trans (if_pos ?_))
  · exact fun h => nomatch hmethod.symm.trans h
  · exact hsize

/-- An input of ORIG_SIZE bytes is at most `2^64 - 1` long, and has no more steps than a command may take. -/
theorem storedSteps_le_fullRun (s : State) : 2 * s.regs.origSize.toNat + 1 + 1 + 1 ≤ fullRun := by
  have hsize := s.regs.origSize.isLt
  have hfull : 2 * 2 ^ 64 + 3 ≤ fullRun := by decide
  omega

/-- Settles O16: the size check, or the loop's bytes delivered one after the other. -/
theorem decodeStored : Obligations.DecodeStored := by
  intro s hidle hmethod ⟨hroom, _, _, hpace⟩ hmem
  refine ⟨fun hsize => ?_, fun hsize hsource => ?_⟩
  · have hdoes : Does Config.build .decode 1 (started .decode s) (startTasks .decode s) (fun _ => False)
        (· = raise .malformedInput (decodeReady s)) :=
      .turn (n := 0) (.faults _ (runTask_decodeInit_refused hmethod hsize) rfl rfl)
    obtain ⟨t, ht, ⟨v, -, hv⟩ | ⟨-, rfl⟩⟩ := exec_of_does (.inr rfl) hidle hpace hdoes (by decide)
    · exact hv.elim
    · exact ht
  · set n := s.regs.origSize.toNat
    have hbytes : (nextBytes n s).length = n := by
      rw [nextBytes, List.length_take, List.length_drop]; omega
    have hlt : (nextBytes n s).length < 2 ^ 64 := by rw [hbytes]; exact s.regs.origSize.isLt
    set u := outAll (nextBytes n s) (takeSource n (decodeReady s)) with hu
    have hcopy := does_storedCopy (cmd := .decode) (E := fun _ => False) n (s := decodeReady s) hroom hsource
    have hdoes := Does.step (runTask_decodeInit_stored hmethod hsize)
      (hcopy.cons (ts' := [.decodeFinish]) fun v hv => by
        rw [show v = u from hv]; exact does_decodeFinish u)
    obtain ⟨t, ht, ⟨v, rfl, rfl⟩ | ⟨-, h⟩⟩ :=
      exec_of_does (.inr rfl) hidle hpace hdoes (storedSteps_le_fullRun s)
    · have hwf : Memory.wf 0 (takeSource n (decodeReady s)).dec.dwin = true := by
        obtain ⟨-, -, ⟨-, -, -, hdwin⟩, -⟩ := hmem
        exact hdwin
      have hempty : windowHolds [] (takeSource n (decodeReady s)) := ⟨rfl, nofun⟩
      have hholds := windowHolds_outAll (nextBytes n s) hwf hempty (by rw [List.length_nil]; omega)
      have hcount : (takeSource n (decodeReady s)).dec.outcount + BitVec.ofNat 64 (nextBytes n s).length
          = s.regs.origSize := by
        rw [hbytes, BitVec.ofNat_toNat, BitVec.setWidth_eq]; exact BitVec.zero_add _
      have hframe := outAll_frame (nextBytes n s) (takeSource n (decodeReady s))
      rw [hcount, ← hu] at hframe
      rw [← hu] at hholds
      refine ⟨u.dec.dwin, ?_, ?_, fun a ha => ?_⟩
      · rw [ht]
        refine congrArg Host.Outcome.next ?_
        rw [hframe]
        rfl
      · exact ⟨hbytes.symm, hholds.2⟩
      · refine memRead_dwin_outAll (nextBytes n s) (s := takeSource n (decodeReady s)) hwf ?_ fun i hi => ?_
        · show 0 + _ < _; omega
        · show (0 + i) % _ ≠ a
          have hle := Nat.mod_le (0 + i) Config.build.dicSiz
          have hmod := Nat.mod_lt (0 + i) (show 0 < Config.build.dicSiz from Nat.two_pow_pos _)
          omega
    · exact h.elim

end Sys2Proof.Machine
end

section
/-! PROOFS. DECODE's reading of the compressed stream (42_huffman_decode.md R270-R282): the operations of a block header
and of the bit reader touch nothing but the reader, the tables and the position in the source, and end. -/

namespace Sys2Proof.Machine

open Claims

/-! ### What DECODE keeps (44_pipeline.md R361, R365) -/

/-- DECODE, started in `s`, has delivered `out` so far: what it has written, and how far it is in its COMP_SIZE source
bytes. -/
def Decoding (s : State) (out : List Byte) (u : State) : Prop :=
  (u.regs, u.bw, u.mf, u.enc, u.outer) = (s.regs, s.bw, s.mf, s.enc, s.outer) ∧
    (u.crc = accOf out ∧ u.dec.outcount.toNat = out.length) ∧
    u.port = { s.port with taken := u.port.taken, sink := s.port.sink ++ out } ∧
    s.port.taken ≤ u.port.taken ∧ u.port.taken + u.br.remaining.toNat = s.port.taken + s.regs.compSize.toNat

/-- DECODE has ended with MalformedInput before its output was complete. -/
def Malformed (s : State) (u : State) : Prop :=
  ∃ out v, u = raise .malformedInput v ∧ Decoding s out v ∧ out.length < s.regs.origSize.toNat

/-- The host's side of a DECODE that never waits: every byte is accepted, COMP_SIZE bytes are presented. -/
def Served (s : State) : Prop :=
  s.port.room = none ∧ s.port.taken + s.regs.compSize.toNat ≤ s.port.source.length

/-- A degenerate P table stands for a position class (42_huffman_decode.md R272). -/
def Table.isPosition (tab : Table) : Prop := ∀ c, tab = .const c → c < Config.build.np

theorem isPosition_of_makeTable {n tb : Nat} {len : Nat → Nat} {tab : Table} (h : makeTable n len tb = some tab) :
    tab.isPosition := by
  dsimp only [makeTable] at h
  split at h
  · cases h
  · cases h; nofun

/-! ### The cost of reading -/

/-- The operations of the bit reader and of a block header. -/
def Task.isReading : Task → Bool
  | .advance _ | .fill _ | .fillLoop _ | .readHeader | .gotSize _ | .readPt _ | .ptCount _ _ | .ptConst _ _
  | .ptLoop _ _ _ | .ptLen _ _ _ _ | .ptSkip _ _ _ _ | .readC | .cCount _ | .cConst _ | .cLoop _ _ | .cSym _ _ _
  | .cRun _ _ _ => true
  | _ => false

/-- The operations after which the P table is a new one. -/
def Task.makesPTable : Task → Bool
  | .readHeader | .gotSize _ | .readPt .p | .ptCount .p _ | .ptConst .p _ | .ptLoop .p _ _ | .ptLen .p _ _ _
  | .ptSkip .p _ _ _ => true
  | _ => false

/-- A bound on the steps a reading operation takes, with those it leaves to do, in the default build. -/
def Task.readCost : Task → Nat
  | .fillLoop n => 2 * n + 2
  | .fill n => 2 * n + 3
  | .advance n => 2 * n + 4
  | .ptConst _ _ | .cConst _ => 1
  | .ptLoop _ n i => 800 * (n - i) + 1
  | .ptLen _ n i _ => 800 * (n - (i + 1)) + 700
  | .ptSkip _ n i z => 800 * (n - (i + z)) + z + 2
  | .ptCount _ _ => 20000
  | .readPt _ => 20100
  | .cLoop n i => 800 * (n - i) + 1
  | .cRun n i r => 800 * (n - (i + r)) + r + 2
  | .cSym n i _ => 800 * (n - (i + 1)) + 700
  | .cCount _ => 500000
  | .readC => 500100
  | .gotSize _ => 600000
  | .readHeader => 600100
  | _ => 1

/-- An empty sub-byte buffer costs Fill one more turn. -/
def readSlack (s : State) : Nat := 1 - s.br.subn

section Reading

variable {s : State} {out : List Byte}

/-- While these operations are to be done: they read, and the P table is one of position classes or is about to be
read. -/
def Reading (s : State) (out : List Byte) (R : Table → Prop) (ts : List Task) (u : State) : Prop :=
  Decoding s out u ∧ ts.all Task.isReading = true ∧ (ts.any Task.makesPTable = false → R u.dec.pTab)

/-- A reading operation does its part: it leaves such operations at a smaller cost, or finds the input malformed. -/
def ReadTurn (s : State) (out : List Byte) (R : Table → Prop) (cmd : Instr) (t : Task) (todo : List Task)
    (u : State) : Prop :=
  Turn Config.build cmd t u (fun ts v => Reading s out R (ts ++ todo) v ∧
    (ts.map Task.readCost).sum + readSlack v < t.readCost + readSlack u) (Malformed s)

variable {R : Table → Prop} {cmd : Instr} {t : Task} {todo : List Task} {u v : State} {ts : List Task}

theorem ReadTurn.leaves (hu : Reading s out R (t :: todo) u)
    (hrun : ∀ rest, runTask Config.build t (u.doing cmd rest) = .ok (v.doing cmd (ts ++ rest)))
    (hv : Decoding s out v) (hts : ts.all Task.isReading = true)
    (htab : ts.any Task.makesPTable = true ∨ R v.dec.pTab ∨ (t.makesPTable = false ∧ v.dec.pTab = u.dec.pTab))
    (hcost : (ts.map Task.readCost).sum + readSlack v < t.readCost + readSlack u) :
    ReadTurn s out R cmd t todo u := by
  obtain ⟨-, hread, hmake⟩ := hu
  rw [List.all_cons, Bool.and_eq_true] at hread
  refine Turn.leaves ts v hrun ⟨⟨hv, by rw [List.all_append, hts, hread.2]; rfl, fun hnone => ?_⟩, hcost⟩
  rw [List.any_append, Bool.or_eq_false_iff] at hnone
  rcases htab with hmade | hR | ⟨hnot, hsame⟩
  · exact absurd (hnone.1.symm.trans hmade) Bool.false_ne_true
  · exact hR
  · rw [hsame]
    exact hmake (by rw [List.any_cons, hnot, hnone.2]; rfl)

/-- The P table stays, and is still to be read where it was. -/
theorem ReadTurn.pushes (ts : List Task) (v : State) (hu : Reading s out R (t :: todo) u)
    (hrun : ∀ rest, runTask Config.build t (u.doing cmd rest) = .ok (v.doing cmd (ts ++ rest)))
    (hv : Decoding s out v) (hts : ts.all Task.isReading = true) (hmake : ts.any Task.makesPTable = t.makesPTable)
    (hsame : v.dec.pTab = u.dec.pTab) (hsubn : v.br.subn = u.br.subn)
    (hcost : (ts.map Task.readCost).sum < t.readCost := by
      simp only [List.map, List.sum_cons, List.sum_nil, Task.readCost]; omega) : ReadTurn s out R cmd t todo u := by
  refine .leaves hu hrun hv hts ?_ (by rw [readSlack, hsubn]; exact Nat.add_lt_add_right hcost _)
  rw [hmake]
  cases t.makesPTable
  · exact .inr (.inr ⟨rfl, hsame⟩)
  · exact .inl rfl

theorem ReadTurn.refuses (hlt : out.length < s.regs.origSize.toNat)
    (hrun : ∀ rest, runTask Config.build t (u.doing cmd rest) = .ok (raise .malformedInput v))
    (hv : Decoding s out v) : ReadTurn s out R cmd t todo u :=
  Turn.faults _ hrun rfl ⟨out, v, rfl, hv, hlt⟩

/-! ### The bit reader (40_bitstream_crc.md R209) -/

theorem source_of_served (hs : Served s) (hu : Decoding s out u) :
    u.port.taken + min u.br.remaining.toNat 1 ≤ u.port.source.length := by
  obtain ⟨-, hsource⟩ := hs
  obtain ⟨-, -, hport, -, hbytes⟩ := hu
  rw [hport]
  show u.port.taken + _ ≤ s.port.source.length
  omega

theorem decoding_withDec {d : DecBlock} (hu : Decoding s out u) (hd : d.outcount = u.dec.outcount) :
    Decoding s out { u with dec := d } := by
  obtain ⟨hkept, ⟨hcrc, hcount⟩, hrest⟩ := hu
  exact ⟨hkept, ⟨hcrc, (congrArg BitVec.toNat hd).trans hcount⟩, hrest⟩

theorem decoding_takeBytes (hu : Decoding s out u) : Decoding s out (takeBytes 1 u) := by
  obtain ⟨hkept, hout, hport, hle, hbytes⟩ := hu
  refine ⟨hkept, hout, ?_, hle.trans (Nat.le_add_right _ _), ?_⟩
  · rw [takeBytes, hport]
  · rw [takeBytes_remaining]
    show u.port.taken + min u.br.remaining.toNat 1 + _ = _
    omega

theorem readTurn_advance {n : Nat} (hu : Reading s out R (.advance n :: todo) u) :
    ReadTurn s out R cmd (.advance n) todo u :=
  .pushes [.fill n] (counted n u) hu (runTask_advance cmd · n u) hu.1 rfl rfl rfl rfl
    (Nat.lt_succ_self _)

theorem readTurn_fill {n : Nat} (hu : Reading s out R (.fill n :: todo) u) : ReadTurn s out R cmd (.fill n) todo u :=
  .pushes [.fillLoop n] (fillShift n u) hu (fun _ => rfl) hu.1 rfl rfl rfl rfl
    (Nat.lt_succ_self _)

/-- A turn of Fill's loop, which takes the bits of the sub-byte buffer, or its end. -/
theorem readTurn_fillLoop {n : Nat} (hs : Served s) (hu : Reading s out R (.fillLoop n :: todo) u) :
    ReadTurn s out R cmd (.fillLoop n) todo u := by
  rcases Nat.lt_or_ge u.br.subn n with hlt | hge
  · refine .leaves (ts := [.fillLoop (n - u.br.subn)]) (v := fillTurn n u) hu
      (fun rest => runTask_fillLoop_turn _ cmd rest hlt (source_of_served hs hu.1)) (decoding_takeBytes hu.1) rfl
      (.inr (.inr ⟨rfl, rfl⟩)) ?_
    show 2 * (n - u.br.subn) + 2 + 0 + 0 < 2 * n + 2 + (1 - u.br.subn)
    omega
  · refine .leaves (ts := []) (v := fillEnd n u) hu (fun _ => if_neg (Nat.not_lt.mpr hge)) hu.1 rfl
      (.inr (.inr ⟨rfl, rfl⟩)) ?_
    show 0 + (1 - (u.br.subn - n)) < 2 * n + 2 + (1 - u.br.subn)
    omega

/-! ### The block header (42_huffman_decode.md R271) -/

theorem peekBits_lt {n : Nat} (hn : n ≤ 16) (s : State) : peekBits n s < 2 ^ n := by
  have hbits := s.br.bitbuf.isLt
  rw [peekBits_eq, Nat.div_lt_iff_lt_mul (Nat.two_pow_pos _), ← Nat.pow_add, Nat.add_sub_cancel' hn]
  exact hbits

/-- GetBits: the operation that goes on with the bits comes after the advance. -/
theorem ReadTurn.bits (n : Nat) (next : Nat → Task) (hu : Reading s out R (t :: todo) u)
    (hrun : ∀ rest, runTask Config.build t (u.doing cmd rest)
      = .ok (afterBits n (next (peekBits n u)) (u.doing cmd rest)))
    (hnext : (next (peekBits n u)).isReading = true) (hmake : (next (peekBits n u)).makesPTable = t.makesPTable)
    (hcost : 2 * n + 4 + (next (peekBits n u)).readCost < t.readCost) : ReadTurn s out R cmd t todo u :=
  .pushes [.advance n, next (peekBits n u)] u hu hrun hu.1 ((Bool.and_true _).trans hnext)
    ((Bool.or_false _).trans hmake) rfl rfl hcost

theorem readTurn_readHeader (hu : Reading s out R (.readHeader :: todo) u) :
    ReadTurn s out R cmd .readHeader todo u :=
  .bits 16 .gotSize hu (fun _ => rfl) rfl rfl (show 2 * 16 + 4 + 600000 < 600100 by decide)

theorem readTurn_gotSize {x : Nat} (hlt : out.length < s.regs.origSize.toNat)
    (hu : Reading s out R (.gotSize x :: todo) u) : ReadTurn s out R cmd (.gotSize x) todo u := by
  set v : State := { u with dec := { u.dec with blocksize := BitVec.ofNat 16 x } }
  by_cases hx : x = 0
  · exact .refuses (v := v) hlt (fun _ => congrArg Except.ok (if_pos hx)) hu.1
  · exact .pushes [.readPt .t, .readC, .readPt .p] v hu (fun _ => congrArg Except.ok (if_neg hx)) hu.1 rfl rfl rfl rfl
      (show 20100 + (500100 + (20100 + 0)) < 600000 by decide)

/-! ### ReadPtLen (42_huffman_decode.md R272) -/

theorem ptBits_le (w : PtKind) : ptBits Config.build w ≤ 5 := by cases w <;> decide

theorem ptAlphabet_le (w : PtKind) : ptAlphabet Config.build w ≤ 19 := by cases w <;> decide

theorem readTurn_readPt {w : PtKind} (hu : Reading s out R (.readPt w :: todo) u) :
    ReadTurn s out R cmd (.readPt w) todo u := by
  have hbits := ptBits_le w
  exact .bits _ (.ptCount w) hu (fun _ => rfl) rfl (by cases w <;> rfl) (by simp only [Task.readCost]; omega)

theorem readTurn_ptCount {w : PtKind} {n : Nat} (hlt : out.length < s.regs.origSize.toNat)
    (hu : Reading s out R (.ptCount w n :: todo) u) : ReadTurn s out R cmd (.ptCount w n) todo u := by
  have hbits := ptBits_le w
  have halphabet := ptAlphabet_le w
  by_cases hn : n = 0
  · exact .bits (ptBits Config.build w) (.ptConst w) hu (fun _ => congrArg Except.ok (if_pos hn)) rfl
      (by cases w <;> rfl) (by simp only [Task.readCost]; omega)
  by_cases hlarge : ptAlphabet Config.build w < n
  · exact .refuses hlt (fun _ => congrArg Except.ok ((if_neg hn).trans (if_pos hlarge))) hu.1
  · exact .pushes [.ptLoop w n 0] u hu (fun _ => congrArg Except.ok ((if_neg hn).trans (if_neg hlarge))) hu.1 rfl
      (by cases w <;> rfl) rfl rfl

/-- A table is set, and the lengths past its size are zeroed. -/
def withPtTable (w : PtKind) (i nn : Nat) (tab : Table) (u : State) : State :=
  { zeroPtFrom w i nn u with dec := setPtTable w tab (zeroPtFrom w i nn u).dec }

theorem decoding_zeroPtFrom (w : PtKind) (i nn : Nat) (hu : Decoding s out u) :
    Decoding s out (zeroPtFrom w i nn u) := by
  cases w <;> exact decoding_withDec hu rfl

theorem decoding_withPtTable (w : PtKind) (i nn : Nat) (tab : Table) (hu : Decoding s out u) :
    Decoding s out (withPtTable w i nn tab u) := by
  cases w <;> exact decoding_withDec hu rfl

theorem withPtTable_keeps (w : PtKind) (i nn : Nat) (tab : Table) (u : State) :
    (withPtTable w i nn tab u).br = u.br ∧
      (withPtTable w i nn tab u).dec.pTab = match w with | .t => u.dec.pTab | .p => tab := by
  cases w <;> exact ⟨rfl, rfl⟩

/-- The end of ReadPtLen's loop: the lengths have no table, or MakeTable makes one. -/
theorem ptLoopTask_end (P : Params) (w : PtKind) {n i : Nat} (hi : n ≤ i) (cmd : Instr) (u : State) :
    (∀ rest, ptLoopTask P w n i (u.doing cmd rest) = raise .malformedInput (zeroPtFrom w i (ptAlphabet P w) u)) ∨
    ∃ tab : Table, tab.isPosition ∧
      ∀ rest, ptLoopTask P w n i (u.doing cmd rest) = (withPtTable w i (ptAlphabet P w) tab u).doing cmd rest := by
  cases h : makeTable (ptAlphabet P w) (lenAt (zeroLens i (ptAlphabet P w) (ptLens w u.dec))) P.ptTableBits with
  | none => exact .inl fun rest => (ptLoopTask_refused (s := u.doing cmd rest) hi h).trans rfl
  | some tab =>
    exact .inr ⟨tab, isPosition_of_makeTable h, fun rest =>
      (ptLoopTask_accepted (s := u.doing cmd rest) hi h).trans rfl⟩

/-- ReadPtLen's degenerate form: the symbol is outside the alphabet, or the table is that symbol. -/
theorem ptConstTask_cases (P : Params) (w : PtKind) (c : Nat) (cmd : Instr) (u : State) :
    (∀ rest, ptConstTask P w c (u.doing cmd rest) = raise .malformedInput u) ∨
    (c < ptAlphabet P w ∧
      ∀ rest, ptConstTask P w c (u.doing cmd rest)
        = (withPtTable w 0 (ptAlphabet P w) (.const c) u).doing cmd rest) := by
  by_cases hlarge : ptAlphabet P w ≤ c
  · exact .inl fun _ => if_pos hlarge
  · exact .inr ⟨Nat.not_le.mp hlarge, fun _ => if_neg hlarge⟩

/-- A new table: a T table leaves the P table. -/
theorem ReadTurn.table (w : PtKind) (tab : Table) (i nn : Nat) (hu : Reading s out R (t :: todo) u)
    (hrun : ∀ rest, runTask Config.build t (u.doing cmd rest) = .ok ((withPtTable w i nn tab u).doing cmd rest))
    (hmake : w = .t → t.makesPTable = false) (htab : w = .p → R tab) (hcost : 0 < t.readCost) :
    ReadTurn s out R cmd t todo u := by
  obtain ⟨hbr, hpTab⟩ := withPtTable_keeps w i nn tab u
  refine .leaves (ts := []) (v := withPtTable w i nn tab u) hu hrun (decoding_withPtTable w i nn tab hu.1) rfl ?_
    (by rw [readSlack, readSlack, hbr]; exact Nat.add_lt_add_right hcost _)
  cases w with
  | t => exact .inr (.inr ⟨hmake rfl, hpTab⟩)
  | p => exact .inr (.inl (hpTab ▸ htab rfl))

theorem readTurn_ptConst {w : PtKind} {c : Nat} (hR : ∀ tab : Table, tab.isPosition → R tab)
    (hlt : out.length < s.regs.origSize.toNat) (hu : Reading s out R (.ptConst w c :: todo) u) :
    ReadTurn s out R cmd (.ptConst w c) todo u := by
  obtain hlarge | ⟨hsmall, hrun⟩ := ptConstTask_cases Config.build w c cmd u
  · exact .refuses hlt (fun rest => congrArg Except.ok (hlarge rest)) hu.1
  · refine .table w (.const c) 0 (ptAlphabet Config.build w) hu (fun rest => congrArg Except.ok (hrun rest))
      (by rintro rfl; rfl) ?_ Nat.one_pos
    rintro rfl
    refine hR _ fun c' hc => ?_
    cases hc
    exact hsmall

theorem readTurn_ptLoop {w : PtKind} {n i : Nat} (hR : ∀ tab : Table, tab.isPosition → R tab)
    (hlt : out.length < s.regs.origSize.toNat) (hu : Reading s out R (.ptLoop w n i :: todo) u) :
    ReadTurn s out R cmd (.ptLoop w n i) todo u := by
  rcases Nat.lt_or_ge i n with hi | hi
  · rcases Nat.lt_or_ge 16 (peekPtLen u) with hlong | hlen
    · exact .refuses (v := u) hlt
        (fun rest => congrArg Except.ok (ptLoopTask_too_long Config.build w (s := u.doing cmd rest) hi hlong)) hu.1
    · have hwidth : (ptLenField (peekPtLen u)).1 ≤ 13 := by
        rw [ptLenField]; split <;> dsimp only <;> omega
      exact .pushes [.advance (ptLenField (peekPtLen u)).1, .ptLen w n i (peekPtLen u)] u hu
        (fun rest => congrArg Except.ok (ptLoopTask_length Config.build w (s := u.doing cmd rest) hi hlen)) hu.1 rfl
        (by cases w <;> rfl) rfl rfl
  · obtain hnone | ⟨tab, htab, hrun⟩ := ptLoopTask_end Config.build w hi cmd u
    · exact .refuses hlt (fun rest => congrArg Except.ok (hnone rest)) (decoding_zeroPtFrom w i _ hu.1)
    · exact .table w tab i (ptAlphabet Config.build w) hu (fun rest => congrArg Except.ok (hrun rest))
        (by rintro rfl; rfl) (fun _ => hR tab htab) (by simp only [Task.readCost]; omega)

theorem decoding_writePtLenAt (w : PtKind) (i k : Nat) (hu : Decoding s out u) :
    Decoding s out (writePtLenAt w i k u) ∧ (writePtLenAt w i k u).dec.pTab = u.dec.pTab := by
  cases w <;> exact ⟨hu, rfl⟩

theorem readTurn_ptLen {w : PtKind} {n i k : Nat} (hu : Reading s out R (.ptLen w n i k :: todo) u) :
    ReadTurn s out R cmd (.ptLen w n i k) todo u := by
  set v := writePtLenAt w i k u
  obtain ⟨hv, hsame⟩ := decoding_writePtLenAt w i k hu.1
  have hpeek := peekBits_lt (n := 2) (by decide) v
  by_cases hspecial : ptSpecial w = some (i + 1)
  · exact .pushes [.advance 2, .ptSkip w n (i + 1) (peekBits 2 v)] v hu
      (fun _ => congrArg Except.ok (if_pos hspecial)) hv rfl (by cases w <;> rfl) hsame rfl
  · exact .pushes [.ptLoop w n (i + 1)] v hu (fun _ => congrArg Except.ok (if_neg hspecial)) hv rfl
      (by cases w <;> rfl) hsame rfl

theorem readTurn_ptSkip {w : PtKind} {n i z : Nat} (hlt : out.length < s.regs.origSize.toNat)
    (hu : Reading s out R (.ptSkip w n i z :: todo) u) : ReadTurn s out R cmd (.ptSkip w n i z) todo u := by
  cases z with
  | zero =>
    exact .pushes [.ptLoop w n i] u hu (fun _ => rfl) hu.1 rfl (by cases w <;> rfl) rfl rfl
  | succ z =>
    by_cases hlarge : ptAlphabet Config.build w ≤ i
    · exact .refuses (v := u) hlt (fun _ => congrArg Except.ok (if_pos hlarge)) hu.1
    · obtain ⟨hv, hsame⟩ := decoding_writePtLenAt w i 0 hu.1
      exact .pushes [.ptSkip w n (i + 1) z] (writePtLenAt w i 0 u) hu (fun _ => congrArg Except.ok (if_neg hlarge)) hv
        rfl (by cases w <;> rfl) hsame rfl

/-! ### ReadCLen (42_huffman_decode.md R274) -/

/-- The C table is set, and the lengths past its size are zeroed. -/
def withCTable (i nc : Nat) (tab : Table) (u : State) : State :=
  { zeroCFrom i nc u with dec := { (zeroCFrom i nc u).dec with cTab := tab } }

theorem decoding_zeroCFrom (i nc : Nat) (hu : Decoding s out u) : Decoding s out (zeroCFrom i nc u) :=
  decoding_withDec hu rfl

theorem decoding_withCTable (i nc : Nat) (tab : Table) (hu : Decoding s out u) :
    Decoding s out (withCTable i nc tab u) :=
  decoding_withDec hu rfl

theorem withCTable_keeps (i nc : Nat) (tab : Table) (u : State) :
    (withCTable i nc tab u).br = u.br ∧ (withCTable i nc tab u).dec.pTab = u.dec.pTab := ⟨rfl, rfl⟩

/-- The end of ReadCLen's loop: the lengths have no table, or MakeTable makes one. -/
theorem cLoopTask_end (P : Params) {n i : Nat} (hi : n ≤ i) (cmd : Instr) (u : State) :
    (∀ rest, cLoopTask P n i (u.doing cmd rest) = raise .malformedInput (zeroCFrom i P.nc u)) ∨
    ∃ tab, ∀ rest, cLoopTask P n i (u.doing cmd rest) = (withCTable i P.nc tab u).doing cmd rest := by
  cases h : makeTable P.nc (lenAt (zeroLens i P.nc u.dec.cLen)) P.cTableBits with
  | none => exact .inl fun rest => (cLoopTask_refused (s := u.doing cmd rest) hi h).trans rfl
  | some tab => exact .inr ⟨tab, fun rest => (cLoopTask_accepted (s := u.doing cmd rest) hi h).trans rfl⟩

/-- ReadCLen's degenerate form: the symbol is outside the alphabet, or the table is that symbol. -/
theorem cConstTask_cases (P : Params) (c : Nat) (cmd : Instr) (u : State) :
    (∀ rest, cConstTask P c (u.doing cmd rest) = raise .malformedInput u) ∨
    ∀ rest, cConstTask P c (u.doing cmd rest) = (withCTable 0 P.nc (.const c) u).doing cmd rest := by
  by_cases hlarge : P.nc ≤ c
  · exact .inl fun _ => if_pos hlarge
  · exact .inr fun _ => if_neg hlarge

/-- A new C table leaves the P table. -/
theorem ReadTurn.cTable (tab : Table) (i nc : Nat) (hu : Reading s out R (t :: todo) u)
    (hrun : ∀ rest, runTask Config.build t (u.doing cmd rest) = .ok ((withCTable i nc tab u).doing cmd rest))
    (hmake : t.makesPTable = false) (hcost : 0 < t.readCost) : ReadTurn s out R cmd t todo u := by
  obtain ⟨hbr, hpTab⟩ := withCTable_keeps i nc tab u
  exact .pushes [] (withCTable i nc tab u) hu hrun (decoding_withCTable i nc tab hu.1) rfl hmake.symm hpTab
    (congrArg Reader.subn hbr) hcost

theorem readTurn_readC (hu : Reading s out R (.readC :: todo) u) : ReadTurn s out R cmd .readC todo u :=
  .bits 9 .cCount hu (fun _ => rfl) rfl rfl (show 2 * 9 + 4 + 500000 < 500100 by decide)

theorem readTurn_cCount {n : Nat} (hlt : out.length < s.regs.origSize.toNat)
    (hu : Reading s out R (.cCount n :: todo) u) : ReadTurn s out R cmd (.cCount n) todo u := by
  have halphabet : Config.build.nc = 510 := rfl
  by_cases hn : n = 0
  · exact .bits 9 .cConst hu (fun _ => congrArg Except.ok (if_pos hn)) rfl rfl
      (by simp only [Task.readCost]; omega)
  by_cases hlarge : Config.build.nc < n
  · exact .refuses (v := u) hlt (fun _ => congrArg Except.ok ((if_neg hn).trans (if_pos hlarge))) hu.1
  · exact .pushes [.cLoop n 0] u hu (fun _ => congrArg Except.ok ((if_neg hn).trans (if_neg hlarge))) hu.1 rfl rfl rfl
      rfl

theorem readTurn_cConst {c : Nat} (hlt : out.length < s.regs.origSize.toNat)
    (hu : Reading s out R (.cConst c :: todo) u) : ReadTurn s out R cmd (.cConst c) todo u := by
  obtain hlarge | hrun := cConstTask_cases Config.build c cmd u
  · exact .refuses hlt (fun rest => congrArg Except.ok (hlarge rest)) hu.1
  · exact .cTable (.const c) 0 Config.build.nc hu (fun rest => congrArg Except.ok (hrun rest)) rfl Nat.one_pos

/-- A symbol of a valid table, or of a degenerate one (42_huffman_decode.md R280). -/
theorem walkTree_lt {w : Half} {left right : Memory Half} {n j fuel i : Nat}
    (h : walkTree w left right n fuel i = some j) : j < n := by
  induction fuel generalizing i with
  | zero =>
    rw [walkTree] at h
    split at h
    · next hi => cases h; exact hi
    · cases h
  | succ fuel ih =>
    rcases Nat.lt_or_ge i n with hi | hi
    · rw [walkTree_symbol _ _ _ _ hi] at h; cases h; exact hi
    · rw [walkTree_node _ _ _ _ hi] at h; exact ih h

/-- What TableDecode does: it finds no symbol, or goes on with one, past at most 31 bits. -/
theorem tableDecode_cases (tab : Table) (len : Memory Len) (tb nchar : Nat) (next : Nat → Task) (cmd : Instr)
    (u : State) :
    (∀ rest, tableDecode tab len tb nchar next (u.doing cmd rest) = raise .malformedInput u) ∨
    ∃ j bits, (j < nchar ∨ tab = .const j) ∧ (bits = [] ∨ ∃ n ≤ 31, bits = [.advance n]) ∧
      ∀ rest, tableDecode tab len tb nchar next (u.doing cmd rest) = u.doing cmd (bits ++ [next j] ++ rest) := by
  cases tab with
  | const c => exact .inr ⟨c, [], .inr rfl, .inl rfl, fun _ => rfl⟩
  | coded lookup left right =>
    cases hj : lookupSymbol (.coded lookup left right) tb nchar u with
    | none =>
      refine .inl fun rest => ?_
      have hj' : lookupSymbol (.coded lookup left right) tb nchar (u.doing cmd rest) = none := hj
      rw [tableDecode, hj']
      rfl
    | some j =>
      refine .inr ⟨j, [.advance (lenAt len j)], .inl (walkTree_lt hj), .inr ⟨_, Nat.le_of_lt_succ (BitVec.isLt _), rfl⟩,
        fun rest => ?_⟩
      have hj' : lookupSymbol (.coded lookup left right) tb nchar (u.doing cmd rest) = some j := hj
      rw [tableDecode, hj']
      rfl

theorem readTurn_cLoop {n i : Nat} (hlt : out.length < s.regs.origSize.toNat)
    (hu : Reading s out R (.cLoop n i :: todo) u) : ReadTurn s out R cmd (.cLoop n i) todo u := by
  rcases Nat.lt_or_ge i n with hi | hi
  · have hrun : ∀ rest v, _ = v → runTask Config.build (.cLoop n i) (u.doing cmd rest) = .ok v := fun rest v h =>
      congrArg Except.ok ((cLoopTask_next Config.build (s := u.doing cmd rest) hi).trans h)
    obtain hnone | ⟨j, bits, -, hbits, hnext⟩ :=
      tableDecode_cases u.dec.tTab u.dec.tLen Config.build.ptTableBits Config.build.nt (fun y => .cSym n i y) cmd u
    · exact .refuses (v := u) hlt (fun rest => hrun rest _ (hnone rest)) hu.1
    · obtain rfl | ⟨k, hk, rfl⟩ := hbits
      · exact .pushes [.cSym n i j] u hu (fun rest => hrun rest _ (hnext rest)) hu.1 rfl rfl rfl rfl
      · exact .pushes [.advance k, .cSym n i j] u hu (fun rest => hrun rest _ (hnext rest)) hu.1 rfl rfl rfl rfl
  · obtain hnone | ⟨tab, hrun⟩ := cLoopTask_end Config.build hi cmd u
    · exact .refuses hlt (fun rest => congrArg Except.ok (hnone rest)) (decoding_zeroCFrom i _ hu.1)
    · exact .cTable tab i Config.build.nc hu (fun rest => congrArg Except.ok (hrun rest)) rfl
        (by simp only [Task.readCost]; omega)

theorem readTurn_cSym {n i y : Nat} (hu : Reading s out R (.cSym n i y :: todo) u) :
    ReadTurn s out R cmd (.cSym n i y) todo u := by
  have hpeek4 := peekBits_lt (n := 4) (by decide) u
  have hpeek9 := peekBits_lt (n := 9) (by decide) u
  by_cases h0 : y = 0
  · exact .pushes [.cRun n i 1] u hu (fun _ => congrArg Except.ok (if_pos h0)) hu.1 rfl rfl rfl rfl
  by_cases h1 : y = 1
  · exact .bits 4 (fun z => .cRun n i (z + 3)) hu
      (fun _ => congrArg Except.ok ((if_neg h0).trans (if_pos h1))) rfl rfl (by simp only [Task.readCost]; omega)
  by_cases h2 : y = 2
  · exact .bits 9 (fun z => .cRun n i (z + 20)) hu
      (fun _ => congrArg Except.ok ((if_neg h0).trans ((if_neg h1).trans (if_pos h2)))) rfl rfl
      (by simp only [Task.readCost]; omega)
  · exact .pushes [.cLoop n (i + 1)] (writeCLenAt i (y - 2) u) hu
      (fun _ => congrArg Except.ok ((if_neg h0).trans ((if_neg h1).trans (if_neg h2)))) hu.1 rfl rfl rfl rfl

theorem readTurn_cRun {n i r : Nat} (hlt : out.length < s.regs.origSize.toNat)
    (hu : Reading s out R (.cRun n i r :: todo) u) : ReadTurn s out R cmd (.cRun n i r) todo u := by
  cases r with
  | zero =>
    exact .pushes [.cLoop n i] u hu (fun _ => rfl) hu.1 rfl rfl rfl rfl
  | succ r =>
    by_cases hlarge : Config.build.nc ≤ i
    · exact .refuses (v := u) hlt (fun _ => congrArg Except.ok (if_pos hlarge)) hu.1
    · exact .pushes [.cRun n (i + 1) r] (writeCLenAt i 0 u) hu (fun _ => congrArg Except.ok (if_neg hlarge)) hu.1 rfl
        rfl rfl rfl

/-! ### All of them -/

theorem readTurn (hs : Served s) (hR : ∀ tab : Table, tab.isPosition → R tab)
    (hlt : out.length < s.regs.origSize.toNat) (hu : Reading s out R (t :: todo) u) :
    ReadTurn s out R cmd t todo u := by
  have hread : t.isReading = true := (Bool.and_eq_true _ _ ▸ hu.2.1).1
  cases t
  case advance n => exact readTurn_advance hu
  case fill n => exact readTurn_fill hu
  case fillLoop n => exact readTurn_fillLoop hs hu
  case readHeader => exact readTurn_readHeader hu
  case gotSize x => exact readTurn_gotSize hlt hu
  case readPt w => exact readTurn_readPt hu
  case ptCount w n => exact readTurn_ptCount hlt hu
  case ptConst w c => exact readTurn_ptConst hR hlt hu
  case ptLoop w n i => exact readTurn_ptLoop hR hlt hu
  case ptLen w n i k => exact readTurn_ptLen hu
  case ptSkip w n i z => exact readTurn_ptSkip hlt hu
  case readC => exact readTurn_readC hu
  case cCount n => exact readTurn_cCount hlt hu
  case cConst c => exact readTurn_cConst hlt hu
  case cLoop n i => exact readTurn_cLoop hlt hu
  case cSym n i y => exact readTurn_cSym hu
  case cRun n i r => exact readTurn_cRun hlt hu
  all_goals cases hread

end Reading

end Sys2Proof.Machine
end

section
/-! PROOFS. DECODE of the compressed method (44_pipeline.md R355, R357-R359, 42_huffman_decode.md R281, R282): every
symbol delivers a byte, or the input is malformed. -/

namespace Sys2Proof.Machine

open Claims

section Symbols

variable {s : State} {out : List Byte} {cmd : Instr} {u : State} {E : State → Prop}

/-! ### Reading -/

theorem does_reading {R : Table → Prop} (hs : Served s) (hR : ∀ tab : Table, tab.isPosition → R tab)
    (hlt : out.length < s.regs.origSize.toNat) {ts : List Task} (hu : Reading s out R ts u) :
    Does Config.build cmd ((ts.map Task.readCost).sum + readSlack u + 1) u ts
      (fun v => Decoding s out v ∧ R v.dec.pTab) (Malformed s) :=
  (Does.of_cost Task.readCost readSlack (I := Reading s out R) (fun _ _ _ hv => readTurn hs hR hlt hv) ts u hu).mono
    le_rfl (fun _ hv => ⟨hv.1, hv.2.2 rfl⟩) fun _ => id

/-- A block header leaves a P table of position classes. -/
theorem does_readHeader (hs : Served s) (hlt : out.length < s.regs.origSize.toNat) (hu : Decoding s out u) :
    Does Config.build cmd (2 ^ 20) u [.readHeader] (fun v => Decoding s out v ∧ v.dec.pTab.isPosition) (Malformed s) :=
  (does_reading hs (fun _ => id) hlt ⟨hu, rfl, fun h => absurd h (by decide)⟩).more_steps (by
    have hslack : readSlack u ≤ 1 := Nat.sub_le _ _
    show 600100 + 0 + readSlack u + 1 ≤ 2 ^ 20
    omega)

/-- Advancing leaves the tables. -/
theorem does_advance {n : Nat} (hn : n ≤ 31) (hs : Served s) (hlt : out.length < s.regs.origSize.toNat)
    (hu : Decoding s out u) (hpTab : u.dec.pTab.isPosition) :
    Does Config.build cmd 100 u [.advance n] (fun v => Decoding s out v ∧ v.dec.pTab.isPosition) (Malformed s) :=
  (does_reading hs (fun _ => id) hlt ⟨hu, rfl, fun _ => hpTab⟩).more_steps (by
    have hslack : readSlack u ≤ 1 := Nat.sub_le _ _
    show 2 * n + 4 + 0 + readSlack u + 1 ≤ 100
    omega)

/-- BrInit's Fill, which nothing in the input can stop. -/
theorem does_fillLoop (hs : Served s) (n : Nat) (hu : Decoding s out u) :
    Does Config.build cmd (2 * n + readSlack u + 1) u [.fillLoop n] (Decoding s out) E := by
  obtain ⟨m, hm⟩ : ∃ m, m = 2 * n + readSlack u := ⟨_, rfl⟩
  rw [← hm]
  induction m using Nat.strong_induction_on generalizing n u with
  | _ m ih =>
    rw [readSlack] at hm
    rcases Nat.lt_or_ge u.br.subn n with hlt | hge
    · have hless : 2 * (n - u.br.subn) + readSlack (fillTurn n u) < m := by
        show 2 * (n - u.br.subn) + 0 < m
        omega
      exact .step (ts := [.fillLoop (n - u.br.subn)])
        (fun rest => runTask_fillLoop_turn _ cmd rest hlt (source_of_served hs hu))
        ((ih _ hless _ (u := fillTurn n u) (decoding_takeBytes hu) rfl).more_steps hless)
    · exact .last (v := fillEnd n u) (fun _ => if_neg (Nat.not_lt.mpr hge)) hu

theorem does_fill (hs : Served s) (n : Nat) (hu : Decoding s out u) :
    Does Config.build cmd (2 * n + 1 + 1 + 1) u [.fill n] (Decoding s out) E :=
  .step (v := fillShift n u) (ts := [.fillLoop n]) (fun _ => rfl)
    ((does_fillLoop hs n (u := fillShift n u) hu).more_steps
      (Nat.succ_le_succ (Nat.add_le_add_left (Nat.sub_le _ _) _)))

theorem does_brInitTasks (hs : Served s) (hu : Decoding s out u) :
    Does Config.build cmd (35 + 1) u brInitTasks (Decoding s out) E :=
  (does_fill hs 16 hu).cons fun v hv => .last (n := 0) (v := brInitEndTask v) (fun _ => rfl) hv

/-! ### Bytes delivered -/

/-- A symbol has been decoded: the output is longer, and the P table is still there. -/
def Progress (s : State) (out : List Byte) (u : State) : Prop :=
  ∃ out', out.length < out'.length ∧ out'.length ≤ s.regs.origSize.toNat ∧ Decoding s out' u ∧ u.dec.pTab.isPosition

theorem decoding_outAll {bs : List Byte} (hu : Decoding s out u)
    (hlen : out.length + bs.length ≤ s.regs.origSize.toNat) : Decoding s (out ++ bs) (outAll bs u) := by
  obtain ⟨hkept, ⟨hcrc, hcount⟩, hport, hrest⟩ := hu
  have hlt := s.regs.origSize.isLt
  have hcount' := outcount_outAll bs (s := u) (by omega)
  rw [outAll_frame] at hcount' ⊢
  refine ⟨hkept, ⟨?_, ?_⟩, ?_, hrest⟩
  · rw [accOf, List.foldl_append, ← accOf, ← hcrc]
  · rw [hcount', hcount, List.length_append]
  · rw [hport, ← List.append_assoc]

theorem progress_outAll {bs : List Byte} (hu : Decoding s out u) (hpTab : u.dec.pTab.isPosition) (hbs : 0 < bs.length)
    (hlen : out.length + bs.length ≤ s.regs.origSize.toNat) : Progress s out (outAll bs u) := by
  refine ⟨out ++ bs, ?_, ?_, decoding_outAll hu hlen, ?_⟩
  · rw [List.length_append]; omega
  · rwa [List.length_append]
  · rw [outAll_frame]; exact hpTab

theorem room_of_served (hs : Served s) (hu : Decoding s out u) : u.port.room = none := by
  obtain ⟨-, -, hport, -⟩ := hu
  rw [hport]
  exact hs.1

theorem origSize_of_decoding (hu : Decoding s out u) : origSize u = s.regs.origSize.toNat :=
  congrArg (fun r : HostRegs => r.origSize.toNat) (Prod.mk.inj hu.1).1

/-! ### One symbol (R281, R282, R357-R359) -/

theorem does_copyMatch {j : Nat} (hj : 0 < j) (p : Nat) (hs : Served s) (hlt : out.length < s.regs.origSize.toNat)
    (hu : Decoding s out u) (hpTab : u.dec.pTab.isPosition) :
    Does Config.build cmd (2 ^ 65 + 2) u [.copyMatch j p] (Progress s out) (Malformed s) := by
  by_cases hearly : u.dec.outcount.toNat < p + 1
  · exact .turn (n := 2 ^ 65 + 1) (.faults (raise .malformedInput u) (fun _ => congrArg Except.ok (if_pos hearly)) rfl
      ⟨out, u, rfl, hu, hlt⟩)
  · have hcopied : copyCount j u = min j (s.regs.origSize.toNat - out.length) := by
      rw [copyCount, origSize_of_decoding hu, hu.2.1.2]
    have horig := s.regs.origSize.isLt
    refine .step (v := u) (ts := [.copyLoop j (u.dec.outcount.toNat - p - 1)])
      (fun _ => congrArg Except.ok (if_neg hearly))
      ((does_copyLoop j _ (room_of_served hs hu)).mono (by omega) (fun v hv => ?_) fun _ => id)
    have hlen := length_copyBytes (copyCount j u) (u.dec.outcount.toNat - p - 1) u
    rw [hv]
    exact progress_outAll hu hpTab (by omega) (by omega)

theorem does_gotP {len j : Nat} (hlen : 0 < len) (hj : j < Config.build.np) (hs : Served s)
    (hlt : out.length < s.regs.origSize.toNat) (hu : Decoding s out u) (hpTab : u.dec.pTab.isPosition) :
    Does Config.build cmd (2 ^ 65 + 103) u [.gotP len j] (Progress s out) (Malformed s) := by
  by_cases h0 : j = 0
  · exact .step (v := u) (ts := [.copyMatch len 0]) (fun _ => congrArg Except.ok (if_pos h0))
      ((does_copyMatch hlen 0 hs hlt hu hpTab).more_steps (by decide))
  · have hnp : Config.build.np = 14 := rfl
    exact .step (v := u) (ts := [.advance (j - 1), .copyMatch len (2 ^ (j - 1) + peekBits (j - 1) u)])
      (fun _ => congrArg Except.ok (if_neg h0))
      (((does_advance (by omega) hs hlt hu hpTab).cons fun v ⟨hv, hvTab⟩ =>
        does_copyMatch hlen _ hs hlt hv hvTab).more_steps (by decide))

/-- TableDecode of a table whose symbols are all good: the codeword is skipped, and the symbol goes on. -/
theorem does_tableDecode {t : Task} {n nchar tb : Nat} {tab : Table} {len : Memory Len} {next : Nat → Task}
    {J : State → Prop} (hs : Served s) (hlt : out.length < s.regs.origSize.toNat) (hpTab : u.dec.pTab.isPosition)
    {v : State} (hv : Decoding s out v) (hsame : v.dec.pTab = u.dec.pTab)
    (hrun : ∀ rest, runTask Config.build t (u.doing cmd rest)
      = .ok (tableDecode tab len tb nchar next (v.doing cmd rest)))
    (hnext : ∀ j w, (j < nchar ∨ tab = .const j) → Decoding s out w → w.dec.pTab.isPosition →
      Does Config.build cmd n w [next j] J (Malformed s)) :
    Does Config.build cmd (100 + n + 1) u [t] J (Malformed s) := by
  have hvTab : v.dec.pTab.isPosition := hsame ▸ hpTab
  obtain hnone | ⟨j, bits, hj, rfl | ⟨k, hk, rfl⟩, hnext'⟩ := tableDecode_cases tab len tb nchar next cmd v
  · exact .turn (n := 100 + n) (.faults _ (fun rest => (hrun rest).trans (congrArg Except.ok (hnone rest))) rfl
      ⟨out, v, rfl, hv, hlt⟩)
  · exact .step (v := v) (ts := [next j]) (fun rest => (hrun rest).trans (congrArg Except.ok (hnext' rest)))
      ((hnext j v hj hv hvTab).more_steps (Nat.le_add_left _ _))
  · exact .step (v := v) (ts := [.advance k, next j]) (fun rest => (hrun rest).trans (congrArg Except.ok (hnext' rest)))
      ((does_advance hk hs hlt hv hvTab).cons fun w ⟨hw, hwTab⟩ => hnext j w hj hw hwTab)

theorem does_decodeP {len : Nat} (hlen : 0 < len) (hs : Served s) (hlt : out.length < s.regs.origSize.toNat)
    (hu : Decoding s out u) (hpTab : u.dec.pTab.isPosition) :
    Does Config.build cmd (100 + (2 ^ 65 + 103) + 1) u [.decodeP len] (Progress s out) (Malformed s) :=
  does_tableDecode (tab := u.dec.pTab) (len := u.dec.pLen) (tb := Config.build.ptTableBits) (nchar := Config.build.np)
    (next := fun j => .gotP len j) hs hlt hpTab hu rfl (fun _ => rfl) fun j _ hj hw hwTab =>
    does_gotP hlen (hj.elim id (hpTab j)) hs hlt hw hwTab

theorem does_gotC (c : Nat) (hs : Served s) (hlt : out.length < s.regs.origSize.toNat) (hu : Decoding s out u)
    (hpTab : u.dec.pTab.isPosition) :
    Does Config.build cmd (100 + (2 ^ 65 + 103) + 2) u [.gotC c] (Progress s out) (Malformed s) := by
  by_cases hc : c < 256
  · exact .step (v := u) (ts := [.outByte (BitVec.ofNat 8 c)]) (fun _ => congrArg Except.ok (if_pos hc))
      (.last (n := 100 + (2 ^ 65 + 103)) (runTask_outByte _ (room_of_served hs hu) cmd)
        (progress_outAll (bs := [BitVec.ofNat 8 c]) hu hpTab Nat.one_pos hlt))
  · exact .step (v := u) (ts := [.decodeP (c - 256 + Config.build.threshold)])
      (fun _ => congrArg Except.ok (if_neg hc))
      (does_decodeP (Nat.lt_add_left _ (by decide)) hs hlt hu hpTab)

theorem does_decodeSym (hs : Served s) (hlt : out.length < s.regs.origSize.toNat) (hu : Decoding s out u)
    (hpTab : u.dec.pTab.isPosition) :
    Does Config.build cmd (2 ^ 65 + 500) u [.decodeSym] (Progress s out) (Malformed s) :=
  (does_tableDecode (tab := u.dec.cTab) (len := u.dec.cLen) (tb := Config.build.cTableBits) (nchar := Config.build.nc)
    (next := fun c => .gotC c) hs hlt hpTab (v := { u with dec := { u.dec with blocksize := u.dec.blocksize - 1 } })
    hu rfl (fun _ => rfl) fun j _ _ hw hwTab => does_gotC j hs hlt hw hwTab).more_steps (by decide)

/-- Before a symbol: a block header is due, or the last one's P table is there. -/
def AtSymbol (u : State) : Prop := u.dec.blocksize = 0 ∨ u.dec.pTab.isPosition

/-- A bound on the steps one symbol takes, with its block header. -/
def symbolSteps : Nat := 2 ^ 66 + 1

theorem does_decodeC (hs : Served s) (hlt : out.length < s.regs.origSize.toNat) (hu : Decoding s out u)
    (hat : AtSymbol u) : Does Config.build cmd symbolSteps u [.decodeC] (Progress s out) (Malformed s) := by
  by_cases h0 : u.dec.blocksize = 0
  · have hdoes := (does_readHeader (cmd := cmd) hs hlt hu).cons fun v ⟨hv, hvTab⟩ => does_decodeSym hs hlt hv hvTab
    exact .step (v := u) (ts := [.readHeader, .decodeSym]) (fun _ => congrArg Except.ok (if_pos h0))
      (hdoes.more_steps (by decide))
  · exact .step (v := u) (ts := [.decodeSym]) (fun _ => congrArg Except.ok (if_neg h0))
      ((does_decodeSym hs hlt hu (hat.resolve_left h0)).more_steps (by decide))

/-! ### All symbols -/

/-- DECODE's loop has delivered everything. -/
def Decoded (s u : State) : Prop := ∃ out, out.length = s.regs.origSize.toNat ∧ Decoding s out u

theorem does_decodeLoop (hs : Served s) (hle : out.length ≤ s.regs.origSize.toNat) (hu : Decoding s out u)
    (hat : AtSymbol u) :
    Does Config.build cmd ((symbolSteps + 1) * (s.regs.origSize.toNat - out.length) + 1) u [.decodeLoop] (Decoded s)
      (Malformed s) := by
  obtain ⟨d, hd⟩ : ∃ d, d = s.regs.origSize.toNat - out.length := ⟨_, rfl⟩
  rw [← hd]
  induction d using Nat.strong_induction_on generalizing out u with
  | _ d ih =>
    have hcount : u.dec.outcount.toNat = out.length := hu.2.1.2
    rcases Nat.lt_or_eq_of_le hle with hlt | heq
    · have hgo : u.dec.outcount.toNat < origSize u := by rwa [hcount, origSize_of_decoding hu]
      obtain ⟨d, rfl⟩ := Nat.exists_eq_add_of_le' (show 1 ≤ d by omega)
      have hrest : Does Config.build cmd (symbolSteps + ((symbolSteps + 1) * d + 1)) u [.decodeC, .decodeLoop]
          (Decoded s) (Malformed s) := by
        refine (does_decodeC hs hlt hu hat).cons fun v ⟨out', hmore, hle', hv, hvTab⟩ => ?_
        refine (ih _ ?_ hle' hv (.inr hvTab) rfl).more_steps (Nat.succ_le_succ (Nat.mul_le_mul_left _ ?_)) <;> omega
      exact .step (v := u) (ts := [.decodeC, .decodeLoop]) (fun _ => congrArg Except.ok (if_pos hgo))
        (hrest.more_steps (by rw [Nat.mul_succ]; omega))
    · have hstop : ¬ u.dec.outcount.toNat < origSize u := by
        rw [hcount, origSize_of_decoding hu, heq]; exact Nat.lt_irrefl _
      exact .last (v := u) (fun _ => congrArg Except.ok (if_neg hstop)) ⟨out, heq, hu⟩

/-- The reader is filled, then the symbols follow. -/
theorem does_symbols (hs : Served s) (hu : Decoding s [] u) :
    Does Config.build cmd (35 + 1 + ((symbolSteps + 1) * s.regs.origSize.toNat + 1 + 1)) u
      (brInitTasks ++ [.hufDecodeStart, .decodeLoop]) (Decoded s) (Malformed s) :=
  (does_brInitTasks hs hu).append fun v hv =>
    .step (v := hufDecodeStartTask v) (ts := []) (fun _ => rfl)
      (does_decodeLoop hs (Nat.zero_le _) (u := hufDecodeStartTask v) hv (.inl rfl))

end Symbols

/-! ### DECODE with METHOD = 1 -/

theorem runTask_decodeInit_coded {s : State} (hmethod : s.regs.method = true) (rest : List Task) :
    runTask Config.build .decodeInit ((started .decode s).doing .decode rest)
      = .ok ((brInit s.regs.compSize (decodeReady s)).doing .decode
        (brInitTasks ++ ([.hufDecodeStart, .decodeLoop] ++ rest))) :=
  congrArg Except.ok (if_pos hmethod)

theorem decoding_decodeReady (s : State) : Decoding (started .decode s) [] (brInit s.regs.compSize (decodeReady s)) :=
  ⟨rfl, ⟨rfl, rfl⟩, by simp [decodeReady, brInit], Nat.le_refl _, rfl⟩

/-- A bound on the steps of a DECODE whose output is `n` bytes long. -/
def decodeSteps (n : Nat) : Nat := 35 + 1 + ((symbolSteps + 1) * n + 1 + 1) + 1 + 1

theorem decodeSteps_le_fullRun (n : Quad) : decodeSteps n.toNat ≤ fullRun := by
  have hfull : 35 + 1 + ((symbolSteps + 1) * 2 ^ 64 + 1 + 1) + 1 + 1 ≤ fullRun := by decide
  refine le_trans ?_ hfull
  rw [decodeSteps]
  gcongr
  exact n.isLt.le

theorem does_decodeCoded {s : State} (hmethod : s.regs.method = true) (hs : Served (started .decode s)) :
    Does Config.build .decode (decodeSteps (started .decode s).regs.origSize.toNat) (started .decode s)
      (startTasks .decode s) (fun u => ∃ v, u = finishDone v ∧ Decoded (started .decode s) v)
      (Malformed (started .decode s)) := by
  have hsymbols := does_symbols (cmd := .decode) hs (decoding_decodeReady s)
  have hfinish := hsymbols.append (ts' := [.decodeFinish])
    (J' := fun u => ∃ v, u = finishDone v ∧ Decoded (started .decode s) v)
    fun v hv => (does_decodeFinish v).mono le_rfl (fun _ hw => ⟨v, hw, hv⟩) fun _ => id
  exact .step (ts := brInitTasks ++ [Task.hufDecodeStart, Task.decodeLoop]) (ts' := [Task.decodeFinish])
    (runTask_decodeInit_coded hmethod) hfinish

/-- The operands and results after a DECODE whose output is complete (R361-R363). -/
theorem regs_decoded {s v : State} {out : List Byte} (hregs : v.regs = (started .decode s).regs)
    (hcrc : v.crc = accOf out) :
    (endCommand .none (finishDone v)).regs = { s.regs with
      done := true, errcode := .none, stored := false, crc := crcOf out
      crcMismatch := s.regs.crcCheck && decide (crcOf out ≠ s.regs.expectedCrc) } := by
  rw [crcOf, ← hcrc, endCommand, finishDone, hregs]
  rfl

/-- The operands and results after a DECODE that was stopped (60_exceptions.md R401). -/
theorem regs_malformed {s v : State} (hregs : v.regs = (started .decode s).regs) :
    (raise .malformedInput v).regs = { s.regs with
      done := true, errcode := .malformedInput, stored := false, crcMismatch := false } := by
  rw [raise, endCommand, hregs]
  rfl

/-- Settles O17: every symbol makes the output longer, every other operation has a bound on its steps. -/
theorem decodeCoded : Obligations.DecodeCoded := by
  intro s hidle hmethod ⟨hroom, _, _, hpace⟩ hsource
  obtain ⟨t, ht, ⟨_, rfl, v, rfl, out, hlen, hv⟩ | ⟨hphase, out, v, rfl, hv, hlt⟩⟩ :=
    exec_of_does (.inr rfl) hidle hpace (does_decodeCoded hmethod ⟨hroom, hsource⟩) (decodeSteps_le_fullRun _)
  all_goals
    obtain ⟨hkept, ⟨hcrc, hcount⟩, hport, hle, hbytes⟩ := hv
    simp only [Prod.mk.injEq, State.outer] at hkept
    obtain ⟨hregs, hbw, hmf, henc, hagenda, hpace', hpor, hrdata⟩ := hkept
    have htaken : v.port.taken ≤ s.port.taken + s.regs.compSize.toNat := Nat.le.intro hbytes
  · have hregs' := regs_decoded hregs hcrc
    refine ⟨_, out, ht, rfl, rfl, .inl ?_, hcrc, hcount, ?_⟩
    · rw [hregs']; exact ⟨rfl, hlen, rfl, rfl⟩
    · rw [hregs']
      exact ⟨rfl, rfl, ⟨rfl, rfl, rfl, rfl, rfl, rfl, rfl⟩, hle, htaken, hport, hbw, hmf, henc, hagenda, hpace', hpor,
        hrdata⟩
  · have hregs' := regs_malformed hregs
    refine ⟨_, out, ht, rfl, rfl, .inr ?_, hcrc, hcount, ?_⟩
    · rw [hregs']; exact ⟨rfl, hlt, rfl, rfl⟩
    · rw [hregs']
      exact ⟨rfl, rfl, ⟨rfl, rfl, rfl, rfl, rfl, rfl, rfl⟩, hle, htaken, hport, hbw, hmf, henc, hagenda, hpace', hpor,
        hrdata⟩

end Sys2Proof.Machine
end

section
/-! PROOFS. What the match finder's operations leave alone (43_match_finder.md R308, R320): the position, the bytes left
and read, and the previous match are the loop's own (44_pipeline.md R343-R345). -/

namespace Sys2Proof.Machine

/-- The parts of the match finder that only the operations of ENCODE's loop write. -/
def loopVars (m : MatchFinder) : Int × Nat × Quad × Nat := (m.remainder, m.pos, m.nread, m.lastmatchlen)

section Tree

variable (m : MatchFinder)

@[simp] theorem loopVars_setLink (h : Handle) (q : Option Handle) (c : Byte) :
    loopVars (setLink h q c m) = loopVars m := by
  cases h <;> rfl

@[simp] theorem loopVars_clearParent (h : Handle) : loopVars (clearParent h m) = loopVars m :=
  loopVars_setLink m h none _

@[simp] theorem loopVars_setPosition (h : Handle) (v : RepPos) : loopVars (setPosition h v m) = loopVars m := by
  cases h <;> rfl

@[simp] theorem loopVars_mapCount (h : Handle) (f : Nat → Nat) : loopVars (mapCount h f m) = loopVars m := by
  cases h <;> rfl

@[simp] theorem loopVars_setSucc (p : Nat) (q : Option Handle) : loopVars (setSucc p q m) = loopVars m := rfl

@[simp] theorem loopVars_setChild (q : Handle) (c : Byte) (h : Handle) : loopVars (setChild q c h m) = loopVars m := rfl

@[simp] theorem loopVars_makeChild (q : Handle) (c : Byte) (r : Handle) :
    loopVars (makeChild q c r m) = loopVars m := by
  dsimp only [makeChild]
  split <;> simp

/-! ### Insertion -/

theorem loopVars_split (old : Handle) : (split old m).both (loopVars · = loopVars m) := by
  unfold split
  split
  · exact (loopVars_makeChild _ _ _ _).trans (loopVars_makeChild _ _ _ _)
  · exact rfl

theorem loopVars_replace (q r : Handle) : loopVars (replace q r m) = loopVars m := by
  cases r with
  | leaf p => exact loopVars_setLink _ _ _ _
  | inner i => exact (loopVars_clearParent _ _).trans (loopVars_setLink _ _ _ _)
  | root b => exact loopVars_setLink _ _ _ _

theorem loopVars_descend (P : Params) (fuel : Nat) (q r : Handle) :
    (descend P fuel q r m).both (loopVars · = loopVars m) := by
  induction fuel generalizing q r m with
  | zero => exact rfl
  | succ fuel ih =>
    obtain ⟨mp, ml, mismatch, hturn⟩ := descend_succ P fuel q r m
    rw [hturn]
    refine .ite (loopVars_split _ r) (.ite (loopVars_replace _ q r) ?_)
    dsimp only [descendBelow]
    split
    · exact (loopVars_makeChild _ _ _ _).trans (loopVars_setPosition _ _ _)
    · refine cast (congrArg (fun x => Checked.both (loopVars · = x) _) ?_) (ih _ _ _)
      exact loopVars_setPosition _ _ _

theorem loopVars_percolate (fuel : Nat) (q : Option Handle) : loopVars (percolate fuel q m) = loopVars m := by
  induction fuel generalizing q m with
  | zero => rfl
  | succ fuel ih =>
    rcases q with _ | ⟨b | i | p⟩
    · rfl
    · rfl
    · rw [percolate]
      split
      · exact (ih _ _).trans (loopVars_setPosition m _ _)
      · exact loopVars_setPosition m _ _
    · rfl

theorem loopVars_resumeStart (P : Params) :
    (∀ m', resumeStart P m = .error m' → loopVars m' = loopVars m) ∧
      ∀ m' q r, resumeStart P m = .ok (m', q, r) → loopVars m' = loopVars m := by
  dsimp only [resumeStart]
  split
  · exact ⟨fun m' h => by cases h; rfl, nofun⟩
  · split
    · exact ⟨fun m' h => by cases h; rfl, nofun⟩
    · exact ⟨nofun, fun m' q r h => by cases h; exact loopVars_percolate _ _ _⟩

theorem loopVars_insertNode (P : Params) : (insertNode P m).both (loopVars · = loopVars m) := by
  refine .ite ?_ ?_
  · obtain ⟨herror, hok⟩ := loopVars_resumeStart m P
    split
    · exact herror _ ‹_›
    · rw [← hok _ _ _ ‹_›]; exact loopVars_descend _ P _ _ _
  · dsimp only
    split
    · exact loopVars_makeChild m _ _ _
    · exact loopVars_descend { m with matchlen := 2 } P _ _ _

/-! ### Deletion -/

theorem loopVars_percolateDelete (P : Params) (fuel : Nat) (q : Option Handle) (s : Nat) :
    loopVars (percolateDelete P fuel q s m) = loopVars m := by
  induction fuel generalizing q s m with
  | zero => rfl
  | succ fuel ih =>
    rcases q with _ | ⟨b | i | p⟩
    · rfl
    · rfl
    · dsimp only [percolateDelete]
      split
      · exact (ih _ _ _).trans (loopVars_setPosition m _ _)
      · exact loopVars_setPosition m _ _
    · rfl

theorem loopVars_splice (P : Params) (i : Nat) : (splice P i m).both (loopVars · = loopVars m) := by
  have hperc := loopVars_percolateDelete m P P.dicSiz (parentOf m (.inner i)) (actual P m (innerRec m i).position.value)
  dsimp only [splice]
  split
  · refine Eq.trans ?_ hperc
    exact (loopVars_clearParent _ _).trans (loopVars_setLink _ _ _ _)
  · exact hperc

theorem loopVars_deleteNode (P : Params) : (deleteNode P m).both (loopVars · = loopVars m) := by
  dsimp only [deleteNode]
  split
  · exact rfl
  · next r hr =>
    have hgone : loopVars (clearParent (.leaf m.pos) (dropChild r (edgeOf m (.leaf m.pos)) m)) = loopVars m :=
      loopVars_clearParent _ _
    cases r with
    | inner i =>
      have hcount := (loopVars_mapCount _ (.inner i) (· - 1)).trans hgone
      refine .ite hcount ?_
      rw [← hcount]
      exact loopVars_splice _ P i
    | root b => exact hgone
    | leaf p => exact hgone

end Tree

/-- An operation of the match finder runs on, with the loop's variables as they were, or is stopped by an invariant
check (60_exceptions.md R404). -/
theorem runMatchFinder_cases {f : MatchFinder → Checked MatchFinder} {s : State}
    (hf : (f s.mf).both (loopVars · = loopVars s.mf)) :
    ∃ m, loopVars m = loopVars s.mf ∧ ((∀ cmd rest,
        runMatchFinder f (s.doing cmd rest) = ({ s with mf := m } : State).doing cmd rest) ∨
      ∀ cmd rest, runMatchFinder f (s.doing cmd rest) = raise .internalInconsistency { s with mf := m }) := by
  cases h : f s.mf with
  | ok m =>
    refine ⟨m, hf.of_ok h, .inl fun cmd rest => ?_⟩
    simp only [runMatchFinder, State.doing, h]
  | error m =>
    refine ⟨m, hf.of_error h, .inr fun cmd rest => ?_⟩
    simp only [runMatchFinder, State.doing, h]
    rfl

end Sys2Proof.Machine
end

section
/-! PROOFS. ENCODE's output (41_huffman_encode.md R239-R249, 40_bitstream_crc.md R203-R205): the operations that send
bits and blocks touch only the writer, the encoder and the sink, and end; no invariant check of theirs fails. -/

namespace Sys2Proof.Machine

open Claims

/-! ### What ENCODE keeps (44_pipeline.md R342, R351) -/

/-- ENCODE, started in `s`, has written what `u` shows: the sink holds the writer's bytes, at most ORIG_SIZE of them. -/
def Emitted (s u : State) : Prop :=
  (u.regs, u.br, u.dec, u.outer) = (s.regs, s.br, s.dec, s.outer) ∧ u.bw.limit = s.regs.origSize ∧
    u.port = { s.port with taken := u.port.taken, sink := u.port.sink } ∧
    ∃ out, u.port.sink = s.port.sink ++ out ∧ out.length = u.bw.compsize.toNat ∧
      out.length ≤ s.regs.origSize.toNat

/-- From `w` to `u` only output is made; UNPACKABLE stays set. -/
def SendKept (w u : State) : Prop :=
  (u.mf, u.crc, u.port.taken) = (w.mf, w.crc, w.port.taken) ∧ (w.bw.unpackable = true → u.bw.unpackable = true)

theorem SendKept.trans {w u v : State} (h : SendKept w u) (h' : SendKept u v) : SendKept w v :=
  ⟨h'.1.trans h.1, fun hfull => h'.2 (h.2 hfull)⟩

/-- ENCODE, started in `s`, has only made output from `w` to `u`. -/
def Sent (s w u : State) : Prop := u.memWf ∧ Emitted s u ∧ SendKept w u

/-- The memories stay canonical along an operation. -/
theorem memWf_of_runTask {u v : State} {cmd : Instr} {t : Task} {ts : List Task} (hu : u.memWf)
    (hrun : ∀ rest, runTask Config.build t (u.doing cmd rest) = .ok (v.doing cmd (ts ++ rest))) : v.memWf :=
  State.memWf.runTask (s := u.doing cmd []) (u := v.doing cmd (ts ++ [])) hu (hrun [])

/-! ### The trees (R231-R234) -/

theorem sum_map_range_le (n : Nat) {f : Nat → Nat} {b : Nat} (hf : ∀ i, f i ≤ b) :
    ((List.range n).map f).sum ≤ n * b := by
  have h := List.sum_le_card_nsmul ((List.range n).map f) b fun x hx => by
    obtain ⟨i, -, rfl⟩ := List.mem_map.mp hx
    exact hf i
  rwa [List.length_map, List.length_range, smul_eq_mul] at h

/-- MakeTree's checks pass, and the root's frequency is no more than 16-bit frequencies add up to. -/
theorem makeTree_ok_and_size {n : Nat} {f : Nat → Nat} {sc : TreeScratch} (hn : n ≤ 65535) (hsc : sc.memWf)
    (hf : ∀ i, f i ≤ 65535) : (makeTree n f sc).ok = true ∧ (makeTree n f sc).size ≤ 65535 + n * 65535 := by
  rcases Nat.lt_or_ge ((List.range n).filter fun i => f i ≠ 0).length 2 with hfew | htwo
  · obtain ⟨hok, -⟩ := degenerateTree n f sc hsc hfew
    obtain ⟨hheap, -⟩ := hsc
    rw [← card_occurring, ← fillHeap_size n f hheap] at hfew
    refine ⟨hok, ?_⟩
    rw [makeTree_degenerate hfew]
    exact (hf _).trans (Nat.le_add_right _ _)
  · obtain ⟨hok, -, hsize, -⟩ := makeTreeCode n f sc hn hsc htwo
    exact ⟨hok, hsize.trans_le ((sum_map_range_le n hf).trans (Nat.le_add_left _ _))⟩

theorem halfAt_le (m : Memory Half) (i : Nat) : halfAt m i ≤ 65535 := Nat.le_of_lt_succ (memRead 0 m i).isLt

/-! ### The cost of sending -/

/-- The operations that send bits and blocks. -/
def Task.isSending : Task → Bool
  | .putBits _ _ | .emitByte _ | .clearAcc | .output _ _ | .outputAfterBlock _ _ | .sendBlock | .sendTables _
  | .sendPTable | .sendToken _ _ _ _ | .sendNext _ _ _ _ | .hufEncodeEnd => true
  | _ => false

/-- A bound on the steps a sending operation takes, with those it leaves to do, in the default build. -/
def Task.sendCost : Task → Nat
  | .putBits n _ => 3 * n + 1
  | .sendToken size t _ _ => 300 * (size - t) + 1
  | .sendNext size t _ _ => 300 * (size - t) + 2
  | .sendTables _ => 200000
  | .sendPTable => 3000
  | .sendBlock => 2 ^ 40
  | .output _ _ => 2 ^ 41
  | .hufEncodeEnd => 2 ^ 41
  | _ => 1

/-- The steps of a list of puts. -/
def putsCost (l : List (Nat × Nat)) : Nat := (l.map fun e => 3 * e.1 + 1).sum

theorem sum_sendCost_putAll (l : List (Nat × Nat)) : ((putAll l).map Task.sendCost).sum = putsCost l := by
  rw [putAll, List.map_map]; rfl

theorem all_isSending_putAll (l : List (Nat × Nat)) : (putAll l).all Task.isSending = true := by
  rw [putAll, List.all_map]; exact List.all_eq_true.mpr fun _ _ => rfl

theorem putsCost_append (l r : List (Nat × Nat)) : putsCost (l ++ r) = putsCost l + putsCost r := by
  rw [putsCost, List.map_append, List.sum_append]; rfl

/-- Fields of at most 31 bits. -/
theorem putsCost_le {l : List (Nat × Nat)} (hl : ∀ e ∈ l, e.1 ≤ 31) : putsCost l ≤ 94 * l.length := by
  have h := List.sum_le_card_nsmul (l.map fun e => 3 * e.1 + 1) 94 fun x hx => by
    obtain ⟨e, he, rfl⟩ := List.mem_map.mp hx
    have := hl e he
    omega
  rwa [List.length_map, smul_eq_mul, Nat.mul_comm] at h

/-! ### The table writers (R242, R243) -/

theorem lenAt_le (m : Memory Len) (i : Nat) : lenAt m i ≤ 31 := Nat.le_of_lt_succ (memRead 0 m i).isLt

theorem width_ptLenField_le {k : Nat} (hk : k ≤ 31) : (ptLenField k).1 ≤ 31 := by
  rw [ptLenField]
  split <;> dsimp only <;> omega

theorem length_ptFields_le (len : Nat → Nat) (n : Nat) (special : Option Nat) (fuel i : Nat) :
    (ptFields len n special fuel i).length ≤ 2 * fuel := by
  induction fuel generalizing i with
  | zero => exact Nat.le_refl 0
  | succ fuel ih =>
    rw [ptFields]
    split
    · split
      · exact Nat.succ_le_succ (Nat.succ_le_succ (ih _))
      · exact Nat.succ_le_succ ((ih _).trans (Nat.le_succ _))
    · exact Nat.zero_le _

theorem width_ptFields_le {len : Nat → Nat} (hlen : ∀ i, len i ≤ 31) (n : Nat) (special : Option Nat) (fuel i : Nat) :
    ∀ e ∈ ptFields len n special fuel i, e.1 ≤ 31 := by
  induction fuel generalizing i with
  | zero => exact fun e he => nomatch he
  | succ fuel ih =>
    rw [ptFields]
    split
    · split
      · simp only [List.forall_mem_cons]
        exact ⟨width_ptLenField_le (hlen i), Nat.le_of_ble_eq_true rfl, ih _⟩
      · simp only [List.forall_mem_cons]
        exact ⟨width_ptLenField_le (hlen i), ih _⟩
    · exact fun e he => nomatch he

theorem putsCost_writePtLen_le {len : Nat → Nat} (hlen : ∀ i, len i ≤ 31) (nn : Nat) {nbit : Nat} (hbit : nbit ≤ 31)
    (special : Option Nat) : putsCost (writePtLen len nn nbit special) ≤ 94 * (2 * nn + 1) := by
  have hused := usedLens_le len nn
  have hlength := length_ptFields_le len (usedLens len nn) special (usedLens len nn) 0
  refine (putsCost_le ?_).trans (Nat.mul_le_mul_left _ (Nat.succ_le_succ (hlength.trans (Nat.mul_le_mul_left 2 hused))))
  exact List.forall_mem_cons.mpr ⟨hbit, width_ptFields_le hlen _ special _ 0⟩

theorem length_lenItems_le (len : Nat → Nat) (n fuel i : Nat) : (lenItems len n fuel i).length ≤ fuel := by
  induction fuel generalizing i with
  | zero => exact Nat.le_refl 0
  | succ fuel ih =>
    rw [lenItems]
    split
    · split
      · exact Nat.succ_le_succ (ih _)
      · exact Nat.succ_le_succ (ih _)
    · exact Nat.zero_le _

/-- An item is sent with at most two T symbols, and a count field is at most CBIT or 4 bits wide. -/
theorem itemSymbols_bounds (P : Params) (it : Nat × Nat) :
    (itemSymbols P it).length ≤ 2 ∧ ∀ y ∈ itemSymbols P it, ∀ e ∈ y.2, e.1 ≤ max 4 P.cBit := by
  unfold itemSymbols
  split
  · simp
  split
  · next h => simp [h]
  split
  · simp
  split
  · simp
  · simp

theorem length_flatMap_le {α β : Type} {l : List α} {f : α → List β} {k : Nat} (hf : ∀ a ∈ l, (f a).length ≤ k) :
    (l.flatMap f).length ≤ l.length * k := by
  have h := List.sum_le_card_nsmul (l.map fun a => (f a).length) k fun x hx => by
    obtain ⟨a, ha, rfl⟩ := List.mem_map.mp hx
    exact hf a ha
  rwa [List.length_map, smul_eq_mul, ← List.length_flatMap] at h

/-- One T symbol is put as its codeword and its count field. -/
theorem putsCost_writeCLen_le (P : Params) (hP : P.cBit ≤ 31) (len : Nat → Nat) {tLen : Nat → Nat}
    (htLen : ∀ i, tLen i ≤ 31) (tCode : Nat → Nat) : putsCost (writeCLen P len tLen tCode) ≤ 94 * (4 * P.nc + 1) := by
  set symbols := (cItems len P.nc).flatMap (itemSymbols P) with hsymbols
  have hitems : (cItems len P.nc).length ≤ P.nc := (length_lenItems_le _ _ _ _).trans (usedLens_le len P.nc)
  have hcount : symbols.length ≤ (cItems len P.nc).length * 2 :=
    length_flatMap_le fun it _ => (itemSymbols_bounds P it).1
  have hputs : (symbols.flatMap fun y => (tLen y.1, tCode y.1) :: y.2.toList).length ≤ symbols.length * 2 :=
    length_flatMap_le fun y _ => by cases y.2 <;> simp
  have hwidth : ∀ e ∈ writeCLen P len tLen tCode, e.1 ≤ 31 := by
    refine List.forall_mem_cons.mpr ⟨hP, fun e he => ?_⟩
    obtain ⟨y, hy, he⟩ := List.mem_flatMap.mp he
    obtain ⟨it, -, hy⟩ := List.mem_flatMap.mp hy
    rcases List.mem_cons.mp he with rfl | he
    · exact htLen _
    · exact ((itemSymbols_bounds P it).2 y hy e (Option.mem_toList.mp he)).trans (max_le (by decide) hP)
  refine (putsCost_le hwidth).trans (Nat.mul_le_mul_left _ (Nat.succ_le_succ ?_))
  exact hputs.trans (by omega)

/-! ### One token (R244, R245) -/

theorem pClass_le {p : Nat} (hp : p < 2 ^ 16) : pClass p ≤ 16 := by
  rw [pClass]
  split
  · exact Nat.zero_le _
  · next h => exact Nat.succ_le_of_lt ((Nat.log2_lt h).mpr hp)

theorem putsCost_encodeC_le (e : EncBlock) (c : Nat) : putsCost (encodeC e c) ≤ 94 :=
  putsCost_le (l := encodeC e c) fun x hx => by rw [List.mem_singleton.mp hx]; exact lenAt_le _ _

theorem putsCost_encodeP_le (e : EncBlock) {p : Nat} (hp : p < 2 ^ 16) : putsCost (encodeP e p) ≤ 188 := by
  have hclass := pClass_le hp
  have hlen := lenAt_le e.pLen (pClass p)
  unfold encodeP
  dsimp only
  split
  · exact putsCost_le (l := [_, _]) (by
      simp only [List.forall_mem_cons]
      exact ⟨hlen, by omega, fun e he => nomatch he⟩)
  · exact (putsCost_le (l := [_]) (by
      simp only [List.forall_mem_cons]
      exact ⟨hlen, fun e he => nomatch he⟩)).trans (Nat.mul_le_mul_left 94 one_le_two)

/-! ### Each sending operation -/

section Sending

variable {s w u v : State} {cmd : Instr} {t : Task} {todo ts : List Task} {E : State → Prop}

/-- While the operations `ts` are to be done, they send. -/
def Sending (s w : State) (ts : List Task) (u : State) : Prop := Sent s w u ∧ ts.all Task.isSending = true

/-- A sending operation does its part: it leaves such operations at a smaller cost. -/
def SendTurn (s w : State) (E : State → Prop) (cmd : Instr) (t : Task) (todo : List Task) (u : State) : Prop :=
  Turn Config.build cmd t u (fun ts v => Sending s w (ts ++ todo) v ∧ (ts.map Task.sendCost).sum + 0 < t.sendCost + 0) E

/-- An operation only makes output. -/
def Sends (s u v : State) : Prop := (Emitted s u → Emitted s v) ∧ SendKept u v

theorem Sending.scratch (hu : Sending s w ts u) : u.enc.scratch.memWf := by
  obtain ⟨⟨⟨-, henc, -⟩, -⟩, -⟩ := hu
  exact henc.scratch

theorem SendTurn.leaves (ts : List Task) (v : State) (hu : Sending s w (t :: todo) u)
    (hrun : ∀ rest, runTask Config.build t (u.doing cmd rest) = .ok (v.doing cmd (ts ++ rest)))
    (hv : Sends s u v) (hts : ts.all Task.isSending = true)
    (hcost : (ts.map Task.sendCost).sum < t.sendCost := by
      simp only [List.map, List.sum_cons, List.sum_nil, Task.sendCost]; omega) :
    SendTurn s w E cmd t todo u := by
  obtain ⟨⟨hwf, hemit, hkept⟩, hsend⟩ := hu
  rw [List.all_cons, Bool.and_eq_true] at hsend
  exact Turn.leaves ts v hrun
    ⟨⟨⟨memWf_of_runTask hwf hrun, hv.1 hemit, hkept.trans hv.2⟩, by rw [List.all_append, hts, hsend.2]; rfl⟩, hcost⟩

/-- Nothing but the encoder's own state and the pending bits are changed. -/
theorem sends_of_eq {e : EncBlock} {b : Writer} (hlimit : b.limit = u.bw.limit) (hsize : b.compsize = u.bw.compsize)
    (hfull : b.unpackable = u.bw.unpackable) : Sends s u { u with enc := e, bw := b } := by
  refine ⟨fun ⟨hkept, hlim, hport, out, hsink, hlen, hle⟩ => ?_, rfl, hfull.trans⟩
  exact ⟨hkept, hlimit.trans hlim, hport, out, hsink, hlen.trans (congrArg BitVec.toNat hsize.symm), hle⟩

theorem sends_enc (e : EncBlock) : Sends s u { u with enc := e } := sends_of_eq (b := u.bw) rfl rfl rfl

theorem sends_self : Sends s u u := sends_enc u.enc

theorem sendTurn_putBits {n x : Nat} (hu : Sending s w (.putBits n x :: todo) u) :
    SendTurn s w E cmd (.putBits n x) todo u := by
  cases n with
  | zero => exact .leaves [] u hu (fun _ => rfl) sends_self rfl (Nat.succ_pos _)
  | succ i =>
    have hkept : Sends s u { u with bw := appendBit (x.testBit i) u.bw } :=
      sends_of_eq (e := u.enc) rfl rfl rfl
    by_cases h8 : (appendBit (x.testBit i) u.bw).wn = 8
    · exact .leaves [.emitByte (appendBit (x.testBit i) u.bw).wacc, .clearAcc, .putBits i x]
        { u with bw := appendBit (x.testBit i) u.bw } hu
        (fun _ => congrArg Except.ok (if_pos h8)) hkept rfl
    · exact .leaves [.putBits i x] { u with bw := appendBit (x.testBit i) u.bw } hu
        (fun _ => congrArg Except.ok (if_neg h8)) hkept rfl

theorem sends_emitDone (b : Byte) : Sends s u (emitDone b u) := by
  refine ⟨fun ⟨hkept, hlimit, hport, out, hsink, hlen, hle⟩ => ?_, rfl, fun hfull => ?_⟩
  swap
  · show (if _ then u.bw.unpackable else true) = true
    rw [hfull, ite_self]
  by_cases hlt : u.bw.compsize.toNat < u.bw.limit.toNat
  · rw [emitDone, if_pos hlt, if_pos hlt, if_pos hlt]
    have hceil : u.bw.limit.toNat = s.regs.origSize.toNat := congrArg BitVec.toNat hlimit
    refine ⟨hkept, hlimit, ?_, out ++ [b], ?_, ?_, ?_⟩
    · rw [hport]
    · rw [hsink, List.append_assoc]
    · rw [List.length_append, hlen]
      show _ + 1 = (u.bw.compsize + 1).toNat
      have := u.bw.limit.isLt
      bv_omega
    · rw [List.length_append, List.length_singleton]; omega
  · rw [emitDone, if_neg hlt, if_neg hlt, if_neg hlt]
    exact ⟨hkept, hlimit, hport, out, hsink, hlen, hle⟩

theorem room_of_emitted (hroom : s.port.room = none) (hu : Emitted s u) : u.port.room = none := by
  obtain ⟨-, -, hport, -⟩ := hu
  rw [hport]
  exact hroom

theorem sendTurn_emitByte {b : Byte} (hroom : s.port.room = none) (hu : Sending s w (.emitByte b :: todo) u) :
    SendTurn s w E cmd (.emitByte b) todo u :=
  .leaves [] (emitDone b u) hu
    (fun rest => emitByteTask_eq_emitDone b (s := u.doing cmd rest) (room_of_emitted hroom hu.1.2.1))
    (sends_emitDone b) rfl Nat.one_pos

theorem sendTurn_clearAcc (hu : Sending s w (.clearAcc :: todo) u) : SendTurn s w E cmd .clearAcc todo u :=
  .leaves [] (clearAccTask u) hu (fun _ => rfl) (sends_of_eq (e := u.enc) rfl rfl rfl) rfl Nat.one_pos

theorem sendTurn_output {c p : Nat} (hu : Sending s w (.output c p :: todo) u) :
    SendTurn s w E cmd (.output c p) todo u := by
  by_cases hmask : u.enc.flagmask >>> 1 ≠ 0
  · exact .leaves [] { u with enc := recordToken c p { u.enc with flagmask := u.enc.flagmask >>> 1 } } hu
      (fun _ => congrArg Except.ok (if_pos hmask)) (sends_enc _) rfl (Nat.two_pow_pos 41)
  by_cases hfull : Config.build.bufSiz - 24 ≤ u.enc.bufpos
  · exact .leaves [.sendBlock, .outputAfterBlock c p] { u with enc := { u.enc with flagmask := 0x80 } } hu
      (fun _ => congrArg Except.ok ((if_neg hmask).trans (if_pos hfull))) (sends_enc _) rfl
      (show 2 ^ 40 + (1 + 0) < 2 ^ 41 by decide)
  · exact .leaves [] { u with enc := recordToken c p (openGroup { u.enc with flagmask := 0x80 }) } hu
      (fun _ => congrArg Except.ok ((if_neg hmask).trans (if_neg hfull))) (sends_enc _) rfl (Nat.two_pow_pos 41)

theorem sendTurn_outputAfterBlock {c p : Nat} (hu : Sending s w (.outputAfterBlock c p :: todo) u) :
    SendTurn s w E cmd (.outputAfterBlock c p) todo u := by
  by_cases hfull : u.bw.unpackable = true
  · exact .leaves [] u hu (fun _ => congrArg Except.ok (if_pos hfull)) sends_self rfl Nat.one_pos
  · exact .leaves [] { u with enc := recordToken c p (openGroup { u.enc with bufpos := 0 }) } hu
      (fun _ => congrArg Except.ok (if_neg hfull)) (sends_enc _) rfl Nat.one_pos

theorem sendTurn_hufEncodeEnd (hu : Sending s w (.hufEncodeEnd :: todo) u) :
    SendTurn s w E cmd .hufEncodeEnd todo u := by
  by_cases hfull : u.bw.unpackable = true
  · exact .leaves [] u hu (fun _ => congrArg Except.ok (if_pos hfull)) sends_self rfl (Nat.two_pow_pos 41)
  · exact .leaves [.sendBlock, .putBits 7 0] u hu (fun _ => congrArg Except.ok (if_neg hfull)) sends_self rfl
      (show 2 ^ 40 + (3 * 7 + 1 + 0) < 2 ^ 41 by decide)

theorem sendTurn_sendNext {size k j : Nat} {fl : Byte} (hu : Sending s w (.sendNext size k j fl :: todo) u) :
    SendTurn s w E cmd (.sendNext size k j fl) todo u := by
  by_cases hfull : u.bw.unpackable = true
  · exact .leaves [] u hu (fun _ => congrArg Except.ok (if_pos hfull)) sends_self rfl (Nat.succ_pos _)
  · exact .leaves [.sendToken size k j fl] u hu (fun _ => congrArg Except.ok (if_neg hfull)) sends_self rfl

/-- A list of puts, and what comes after it. -/
theorem SendTurn.puts (l : List (Nat × Nat)) (ts : List Task) (v : State) (hu : Sending s w (t :: todo) u)
    (hrun : ∀ rest, runTask Config.build t (u.doing cmd rest) = .ok (v.doing cmd (putAll l ++ ts ++ rest)))
    (hv : Sends s u v) (hts : ts.all Task.isSending = true)
    (hcost : putsCost l + (ts.map Task.sendCost).sum < t.sendCost) : SendTurn s w E cmd t todo u :=
  .leaves (putAll l ++ ts) v hu hrun hv (by rw [List.all_append, all_isSending_putAll, hts]; rfl)
    (by rw [List.map_append, List.sum_append, sum_sendCost_putAll]; exact hcost)

/-! ### A block (R249) -/

/-- SendBlock's C tree. -/
def cTreeOf (P : Params) (u : State) : TreeOut := makeTree P.nc (halfAt u.enc.cFreq) u.enc.scratch

theorem sendBlockTask_doing (P : Params) (u : State) (hok : (cTreeOf P u).ok = true) (cmd : Instr) (rest : List Task) :
    sendBlockTask P (u.doing cmd rest) =
      State.doing cmd ([.putBits P.sizeBit (cTreeOf P u).size, .sendTables (cTreeOf P u).root, .sendPTable,
          .sendToken (cTreeOf P u).size 0 0 0] ++ rest)
        { u with enc := { u.enc with
          cLen := (cTreeOf P u).len, cCode := (cTreeOf P u).code, scratch := (cTreeOf P u).scratch } } :=
  if_pos hok

theorem sendTurn_sendBlock (hu : Sending s w (.sendBlock :: todo) u) : SendTurn s w E cmd .sendBlock todo u := by
  obtain ⟨hok, hsize⟩ := makeTree_ok_and_size (n := Config.build.nc) (by decide) hu.scratch
    (halfAt_le u.enc.cFreq)
  have hrun := fun rest => congrArg (Except.ok (ε := Port)) (sendBlockTask_doing Config.build u hok cmd rest)
  rw [← cTreeOf] at hsize
  have hnc : Config.build.nc = 510 := rfl
  have hbits : Config.build.sizeBit = 16 := rfl
  refine .leaves _ _ hu hrun (sends_enc _) rfl ?_
  simp only [List.map, List.sum_cons, List.sum_nil, Task.sendCost]
  omega

/-- SendBlock's T tree, of a C table. -/
def tTreeOf (P : Params) (u : State) : TreeOut :=
  makeTree P.nt (halfAt (countTFreq P (lenAt u.enc.cLen))) u.enc.scratch

/-- The fields of the T and the C table. -/
def tableFields (P : Params) (root : Nat) (u : State) : List (Nat × Nat) :=
  if P.nc ≤ root then
    (if P.nt ≤ (tTreeOf P u).root then writePtLen (lenAt (tTreeOf P u).len) P.nt P.tBit (some 3)
      else [(P.tBit, 0), (P.tBit, (tTreeOf P u).root)]) ++
    writeCLen P (lenAt u.enc.cLen) (lenAt (tTreeOf P u).len) (halfAt (tTreeOf P u).code)
  else [(P.tBit, 0), (P.tBit, 0), (P.cBit, 0), (P.cBit, root)]

theorem sendTablesTask_doing (P : Params) (root : Nat) (u : State) (hok : (tTreeOf P u).ok = true) :
    ∃ e, ∀ cmd rest, sendTablesTask P root (u.doing cmd rest)
      = State.doing cmd (putAll (tableFields P root u) ++ [] ++ rest) { u with enc := e } := by
  by_cases hroot : P.nc ≤ root
  · refine ⟨{ u.enc with
      tFreq := countTFreq P (lenAt u.enc.cLen), tLen := (tTreeOf P u).len, tCode := (tTreeOf P u).code
      scratch := (tTreeOf P u).scratch }, fun cmd rest => ?_⟩
    rw [tableFields, if_pos hroot, List.append_nil]
    exact (if_pos hroot).trans (if_pos hok)
  · refine ⟨u.enc, fun cmd rest => ?_⟩
    rw [tableFields, if_neg hroot, List.append_nil]
    exact if_neg hroot

/-- Two fields of the degenerate form, or a table. -/
theorem putsCost_ptTable_le {len : Nat → Nat} (hlen : ∀ i, len i ≤ 31) (nn root : Nat) {nbit : Nat}
    (hbit : nbit ≤ 31) (special : Option Nat) :
    putsCost (if nn ≤ root then writePtLen len nn nbit special else [(nbit, 0), (nbit, root)]) ≤ 94 * (2 * nn + 2) := by
  split
  · exact (putsCost_writePtLen_le hlen nn hbit special).trans (Nat.mul_le_mul_left _ (Nat.le_succ _))
  · refine (putsCost_le ?_).trans (Nat.mul_le_mul_left 94 (Nat.le_add_left 2 (2 * nn)))
    simp only [List.forall_mem_cons]
    exact ⟨hbit, hbit, fun e he => nomatch he⟩

theorem putsCost_tableFields_le (P : Params) (hc : P.cBit ≤ 31) (ht : P.tBit ≤ 31) (root : Nat) (u : State) :
    putsCost (tableFields P root u) ≤ 94 * (2 * P.nt + 2) + 94 * (4 * P.nc + 4) := by
  rw [tableFields]
  split
  · rw [putsCost_append]
    exact Nat.add_le_add (putsCost_ptTable_le (lenAt_le _) _ _ ht _)
      ((putsCost_writeCLen_le P hc _ (lenAt_le _) _).trans (Nat.mul_le_mul_left _ (Nat.add_le_add_left (by decide) _)))
  · refine (putsCost_le (l := [_, _, _, _]) ?_).trans
      ((Nat.mul_le_mul_left 94 (Nat.le_add_left 4 (4 * P.nc))).trans (Nat.le_add_left _ _))
    simp only [List.forall_mem_cons]
    exact ⟨ht, ht, hc, hc, fun e he => nomatch he⟩

theorem sendTurn_sendTables {root : Nat} (hu : Sending s w (.sendTables root :: todo) u) :
    SendTurn s w E cmd (.sendTables root) todo u := by
  obtain ⟨hok, -⟩ := makeTree_ok_and_size (n := Config.build.nt) (by decide) hu.scratch
    (halfAt_le (countTFreq Config.build (lenAt u.enc.cLen)))
  obtain ⟨e, hrun⟩ := sendTablesTask_doing Config.build root u hok
  have hcost := putsCost_tableFields_le Config.build (by decide) (by decide) root u
  have hnc : Config.build.nc = 510 := rfl
  have hnt : Config.build.nt = 19 := rfl
  refine .puts _ [] _ hu (fun rest => congrArg Except.ok (hrun cmd rest)) (sends_enc e) rfl ?_
  simp only [List.map, List.sum_nil, Task.sendCost]
  omega

/-- SendBlock's P tree. -/
def pTreeOf (P : Params) (u : State) : TreeOut := makeTree P.np (halfAt u.enc.pFreq) u.enc.scratch

theorem sendPTableTask_doing (P : Params) (u : State) (hok : (pTreeOf P u).ok = true) (cmd : Instr) (rest : List Task) :
    sendPTableTask P (u.doing cmd rest) =
      State.doing cmd (putAll (if P.np ≤ (pTreeOf P u).root then writePtLen (lenAt (pTreeOf P u).len) P.np P.pBit none
          else [(P.pBit, 0), (P.pBit, (pTreeOf P u).root)]) ++ [] ++ rest)
        { u with enc := { u.enc with
          pLen := (pTreeOf P u).len, pCode := (pTreeOf P u).code, scratch := (pTreeOf P u).scratch } } := by
  rw [List.append_nil]
  exact if_pos hok

theorem sendTurn_sendPTable (hu : Sending s w (.sendPTable :: todo) u) : SendTurn s w E cmd .sendPTable todo u := by
  obtain ⟨hok, -⟩ := makeTree_ok_and_size (n := Config.build.np) (by decide) hu.scratch
    (halfAt_le u.enc.pFreq)
  have hcost := putsCost_ptTable_le (lenAt_le (pTreeOf Config.build u).len) Config.build.np
    (pTreeOf Config.build u).root (nbit := Config.build.pBit) (by decide) none
  have hnp : Config.build.np = 14 := rfl
  refine .puts _ [] _ hu (fun rest => congrArg Except.ok (sendPTableTask_doing Config.build u hok cmd rest))
    (sends_enc _) rfl ?_
  simp only [List.map, List.sum_nil, Task.sendCost]
  omega

/-- A token is put and the next one follows, or all are sent. -/
theorem sendTokenTask_doing (size t k : Nat) (flags : Byte) (u : State) :
    (t < size ∧ ∃ l k' fl, putsCost l ≤ 282 ∧ ∀ cmd rest, sendTokenTask size t k flags (u.doing cmd rest)
      = u.doing cmd (putAll l ++ [.sendNext size (t + 1) k' fl] ++ rest)) ∨
    ∀ cmd rest, sendTokenTask size t k flags (u.doing cmd rest)
      = State.doing cmd rest { u with enc := { u.enc with cFreq := [], pFreq := [] } } := by
  by_cases ht : t < size
  · refine .inl ⟨ht, ?_⟩
    set fl := if t % 8 = 0 then memRead 0 u.enc.buf k else flags <<< 1
    set k1 := if t % 8 = 0 then k + 1 else k
    by_cases hflag : fl.getLsbD 7 = true
    · set p := (memRead 0 u.enc.buf (k1 + 1)).toNat * 256 + (memRead 0 u.enc.buf (k1 + 2)).toNat
      have hp : p < 2 ^ 16 := by
        have h1 := (memRead 0 u.enc.buf (k1 + 1)).isLt
        have h2 := (memRead 0 u.enc.buf (k1 + 2)).isLt
        omega
      have hc := putsCost_encodeC_le u.enc ((memRead 0 u.enc.buf k1).toNat + 256)
      refine ⟨encodeC u.enc ((memRead 0 u.enc.buf k1).toNat + 256) ++ encodeP u.enc p, k1 + 3, fl, ?_,
        fun cmd rest => (if_pos ht).trans (if_pos hflag)⟩
      rw [putsCost_append]
      exact Nat.add_le_add hc (putsCost_encodeP_le u.enc hp)
    · exact ⟨encodeC u.enc (memRead 0 u.enc.buf k1).toNat, k1 + 1, fl,
        (putsCost_encodeC_le u.enc (memRead 0 u.enc.buf k1).toNat).trans (by decide),
        fun cmd rest => (if_pos ht).trans (if_neg hflag)⟩
  · exact .inr fun cmd rest => if_neg ht

theorem sendTurn_sendToken {size k j : Nat} {fl : Byte} (hu : Sending s w (.sendToken size k j fl :: todo) u) :
    SendTurn s w E cmd (.sendToken size k j fl) todo u := by
  obtain ⟨hlt, l, j', fl', hcost, hrun⟩ | hrun := sendTokenTask_doing size k j fl u
  · refine .puts l [.sendNext size (k + 1) j' fl'] u hu (fun rest => congrArg Except.ok (hrun cmd rest)) sends_self
      rfl ?_
    simp only [List.map, List.sum_cons, List.sum_nil, Task.sendCost]
    omega
  · exact .leaves [] _ hu (fun rest => congrArg Except.ok (hrun cmd rest)) (sends_enc _) rfl (Nat.succ_pos _)

/-! ### All of them -/

theorem sendTurn (hroom : s.port.room = none) (hu : Sending s w (t :: todo) u) : SendTurn s w E cmd t todo u := by
  have hsend : t.isSending = true := (Bool.and_eq_true _ _ ▸ hu.2).1
  cases t
  case putBits n x => exact sendTurn_putBits hu
  case emitByte b => exact sendTurn_emitByte hroom hu
  case clearAcc => exact sendTurn_clearAcc hu
  case output c p => exact sendTurn_output hu
  case outputAfterBlock c p => exact sendTurn_outputAfterBlock hu
  case sendBlock => exact sendTurn_sendBlock hu
  case sendTables root => exact sendTurn_sendTables hu
  case sendPTable => exact sendTurn_sendPTable hu
  case sendToken size k j fl => exact sendTurn_sendToken hu
  case sendNext size k j fl => exact sendTurn_sendNext hu
  case hufEncodeEnd => exact sendTurn_hufEncodeEnd hu
  all_goals cases hsend

/-- Sending operations only send, and end. -/
theorem does_sending (hroom : s.port.room = none) (hu : Sent s w u) (hts : ts.all Task.isSending = true) :
    Does Config.build cmd ((ts.map Task.sendCost).sum + 0 + 1) u ts (Sent s w) E :=
  (Does.of_cost Task.sendCost (fun _ => 0) (I := Sending s w) (fun _ _ _ hv => sendTurn hroom hv) ts u
    ⟨hu, hts⟩).mono le_rfl (fun _ hv => hv.1) fun _ => id

end Sending

end Sys2Proof.Machine
end

section
/-! PROOFS. ENCODE's input (44_pipeline.md R343-R349): the source is read into the window, the positions pass one after
the other, and each turn of the loop passes at least one. -/

namespace Sys2Proof.Machine

open Claims

/-! ### The host's side -/

/-- The host's side of an ENCODE that never waits: every byte and request is accepted, what the sink held before the
command is marked, ORIG_SIZE bytes are presented. -/
def Attended (s : State) : Prop :=
  s.port.room = none ∧ (s.port.ackDiscard = true ∧ s.port.ackRewind = true ∧ s.port.mark = s.port.sink.length) ∧
    ∀ n, n < s.regs.origSize.toNat → s.port.taken + n < s.port.source.length

/-- ENCODE, started in `s`, has read NREAD source bytes; the CRC is theirs. -/
def HasRead (s u : State) : Prop :=
  u.mf.nread.toNat ≤ s.regs.origSize.toNat ∧ u.port.taken = s.port.taken + u.mf.nread.toNat ∧
    u.crc = accOf (nextBytes u.mf.nread.toNat s)

/-- `d` positions have passed: `pos` is in the upper half of the window, and while bytes are unread the window is
full. -/
def Positioned (s : State) (d l : Nat) (m : MatchFinder) : Prop :=
  (Config.build.dicSiz ≤ m.pos ∧ m.pos < 2 * Config.build.dicSiz) ∧
    (m.nread.toNat < s.regs.origSize.toNat →
      m.remainder = (2 * Config.build.dicSiz + Config.build.maxMatch : Nat) - (m.pos : Int)) ∧
    m.remainder + d = m.nread.toNat ∧ m.lastmatchlen = l

/-- ENCODE's state between two positions. -/
def Scanning (s : State) (d l : Nat) (u : State) : Prop :=
  u.memWf ∧ Emitted s u ∧ HasRead s u ∧ Positioned s d l u.mf

/-- An invariant check has ended ENCODE (60_exceptions.md R401, R404). -/
def Inconsistent (s u : State) : Prop := ∃ v, u = raise .internalInconsistency v ∧ Emitted s v

section Scan

variable {s u v : State} {cmd : Instr} {d l : Nat} {E : State → Prop}

theorem positioned_congr {m m' : MatchFinder} (h : loopVars m' = loopVars m) (hm : Positioned s d l m) :
    Positioned s d l m' := by
  simp only [loopVars, Prod.mk.injEq] at h
  obtain ⟨hrem, hpos, hread, hlast⟩ := h
  rwa [Positioned, hrem, hpos, hread, hlast]

theorem regs_of_emitted (hu : Emitted s u) : u.regs = s.regs := (Prod.mk.inj hu.1).1

theorem source_of_emitted (hu : Emitted s u) : u.port.source = s.port.source := by
  obtain ⟨-, -, hport, -⟩ := hu
  rw [hport]

/-- The bytes ReadSrc reads are there. -/
theorem source_of_attended (hs : Attended s) (hemit : Emitted s u) (hread : HasRead s u) (n : Nat) :
    ∀ j, j < readCount n u → u.port.taken + j < u.port.source.length := by
  intro j hj
  obtain ⟨-, -, hsource⟩ := hs
  obtain ⟨-, htaken, -⟩ := hread
  rw [readCount, origSize, regs_of_emitted hemit] at hj
  rw [source_of_emitted hemit, htaken, Nat.add_assoc]
  exact hsource _ (by omega)

/-- Output leaves the scan as it is. -/
theorem scanning_of_sent (hw : Scanning s d l u) (hv : Sent s u v) : Scanning s d l v := by
  obtain ⟨-, -, hread, hpos⟩ := hw
  obtain ⟨hwf, hemit, hkept, -⟩ := hv
  simp only [Prod.mk.injEq] at hkept
  obtain ⟨hmf, hcrc, htaken⟩ := hkept
  refine ⟨hwf, hemit, ?_, ?_⟩
  · rwa [HasRead, hmf, hcrc, htaken]
  · rwa [hmf]

/-! ### ReadSrc (R349) -/

/-- The state after ReadSrc has put `n` bytes into the window. -/
def readDone (n k : Nat) (text : Memory Byte) (u : State) : State :=
  { u with
    crc := (nextBytes n u).foldl nextCrc u.crc
    port := { u.port with taken := u.port.taken + n }
    mf := { u.mf with text := text, nread := u.mf.nread + BitVec.ofNat 64 k } }

theorem does_readSrc (off i k : Nat) (hwf : u.memWf)
    (hsource : ∀ j, j < k - i → u.port.taken + j < u.port.source.length) :
    Does Config.build cmd (k - i + 1) u [.readSrc off i k]
      (fun v => v.memWf ∧ ∃ text, v = readDone (k - i) k text u) E := by
  obtain ⟨n, hn⟩ : ∃ n, n = k - i := ⟨_, rfl⟩
  rw [← hn] at hsource ⊢
  induction n generalizing i u with
  | zero =>
    have hrun : ∀ rest, runTask Config.build (.readSrc off i k) (u.doing cmd rest)
        = .ok ((readDone 0 k u.mf.text u).doing cmd ([] ++ rest)) := fun rest => if_neg (by omega)
    exact .step hrun (.nil ⟨memWf_of_runTask hwf hrun, _, rfl⟩)
  | succ n ih =>
    have hlt : u.port.taken < u.port.source.length := hsource 0 n.succ_pos
    set b := u.port.source[u.port.taken]
    set w : State := crcUpdate b { takeSource 1 u with
      mf := { u.mf with text := memWrite 0 u.mf.text (off + i) b } } with hw
    have hrun : ∀ rest, runTask Config.build (.readSrc off i k) (u.doing cmd rest)
        = .ok (w.doing cmd ([.readSrc off (i + 1) k] ++ rest)) := fun rest => by
      have hread := srcRead_eq_ok (s := u.doing cmd rest).mpr ⟨List.getElem?_eq_getElem hlt, rfl⟩
      show readSrcTask off i k (u.doing cmd rest) = _
      rw [readSrcTask, if_pos (by omega), hread]
      rfl
    have hlater := ih (i + 1) (u := w) (memWf_of_runTask hwf hrun) (fun j hj => by
      rw [show w.port.taken + j = u.port.taken + (j + 1) from (Nat.add_right_comm _ 1 j)]
      exact hsource (j + 1) (Nat.succ_lt_succ hj)) (by omega)
    refine .step hrun (hlater.mono le_rfl (fun v ⟨hv, text, hread⟩ => ⟨hv, text, ?_⟩) fun _ => id)
    rw [hread, readDone, readDone, nextBytes_succ hlt, List.foldl_cons, ← crcStep_eq_nextCrc, Nat.add_comm n 1,
      ← Nat.add_assoc]
    rfl

theorem emitted_readDone (n k : Nat) (text : Memory Byte) (hu : Emitted s u) : Emitted s (readDone n k text u) := by
  obtain ⟨hkept, hlimit, hport, hout⟩ := hu
  refine ⟨hkept, hlimit, ?_, hout⟩
  show { u.port with taken := u.port.taken + n } = _
  rw [hport]
  rfl

/-- ReadSrc reads at most what is left of ORIG_SIZE. -/
theorem hasRead_readDone {k : Nat} (text : Memory Byte) (hu : HasRead s u) (hport : u.port.source = s.port.source)
    (hk : u.mf.nread.toNat + k ≤ s.regs.origSize.toNat) :
    HasRead s (readDone k k text u) ∧ (readDone k k text u).mf.nread.toNat = u.mf.nread.toNat + k := by
  obtain ⟨-, htaken, hcrc⟩ := hu
  have hnread : (readDone k k text u).mf.nread.toNat = u.mf.nread.toNat + k := by
    show (u.mf.nread + BitVec.ofNat 64 k).toNat = _
    have := s.regs.origSize.isLt
    rw [BitVec.toNat_add, BitVec.toNat_ofNat]
    omega
  refine ⟨⟨hnread.trans_le hk, ?_, ?_⟩, hnread⟩
  · rw [hnread]
    show u.port.taken + k = _
    omega
  · have hbytes : nextBytes k u = ((s.port.source.drop s.port.taken).drop u.mf.nread.toNat).take k := by
      rw [nextBytes, hport, htaken, List.drop_drop]
    rw [hnread, nextBytes, List.take_add, accOf, List.foldl_append, ← nextBytes, ← accOf, ← hcrc, ← hbytes]
    rfl

/-! ### The match finder's operations -/

theorem hasRead_withMf {m : MatchFinder} (hm : loopVars m = loopVars u.mf) (hu : HasRead s u) :
    HasRead s { u with mf := m } := by
  have hnread : m.nread = u.mf.nread := congrArg (fun x => x.2.2.1) hm
  rw [HasRead]
  show m.nread.toNat ≤ _ ∧ u.port.taken = s.port.taken + m.nread.toNat ∧ u.crc = accOf (nextBytes m.nread.toNat s)
  rwa [hnread]

/-- Insertion or deletion at the position: an invariant check fails, or the scan goes on. -/
theorem does_matchFinder {t : Task} {f : MatchFinder → Checked MatchFinder}
    (hrun : ∀ u, runTask Config.build t u = .ok (runMatchFinder f u))
    (hf : ∀ m, (f m).both (loopVars · = loopVars m)) (hu : Scanning s d l u) :
    Does Config.build cmd 1 u [t] (Scanning s d l) (Inconsistent s) := by
  obtain ⟨hwf, hemit, hread, hpos⟩ := hu
  obtain ⟨m, hm, hok | herror⟩ := runMatchFinder_cases (s := u) (hf u.mf)
  · have hrun' : ∀ rest, runTask Config.build t (u.doing cmd rest)
        = .ok (State.doing cmd ([] ++ rest) { u with mf := m }) := fun rest =>
      (hrun _).trans (congrArg Except.ok (hok cmd rest))
    exact .step hrun' (.nil
      ⟨memWf_of_runTask hwf hrun', hemit, hasRead_withMf hm hread, positioned_congr hm hpos⟩)
  · exact .turn (n := 0) (.faults (raise .internalInconsistency { u with mf := m })
      (fun rest => (hrun _).trans (congrArg Except.ok (herror cmd rest))) rfl ⟨_, rfl, hemit⟩)

theorem does_insertNode (hu : Scanning s d l u) :
    Does Config.build cmd 1 u [.insertNode] (Scanning s d l) (Inconsistent s) :=
  does_matchFinder (fun _ => rfl) (loopVars_insertNode · Config.build) hu

theorem does_deleteNode (hu : Scanning s d l u) :
    Does Config.build cmd 1 u [.deleteNode] (Scanning s d l) (Inconsistent s) :=
  does_matchFinder (fun _ => rfl) (loopVars_deleteNode · Config.build) hu

/-! ### GetNextMatch (R344) -/

/-- The next position, the window's bytes given. -/
def advanceWindow (text : Memory Byte) (u : State) : State :=
  { u with mf := { u.mf with remainder := u.mf.remainder - 1, pos := u.mf.pos + 1, text := text } }

/-- GetNextMatch slides the window at its end. -/
theorem getNextMatchTask_doing (P : Params) (u : State) :
    ∃ text, (u.mf.pos + 1 ≠ 2 * P.dicSiz ∧ ∀ cmd rest, getNextMatchTask P (u.doing cmd rest)
      = (advanceWindow text u).doing cmd ([.deleteNode, .insertNode] ++ rest)) ∨
    (u.mf.pos + 1 = 2 * P.dicSiz ∧ ∀ cmd rest, getNextMatchTask P (u.doing cmd rest)
      = (advanceWindow text u).doing cmd ([.readSrc (P.dicSiz + P.maxMatch) 0 (readCount P.dicSiz u),
        .slideEnd (readCount P.dicSiz u), .deleteNode, .insertNode] ++ rest)) := by
  by_cases hend : u.mf.pos + 1 = 2 * P.dicSiz
  · exact ⟨slideText P u.mf.text, .inr ⟨hend, fun cmd rest => if_pos hend⟩⟩
  · exact ⟨u.mf.text, .inl ⟨hend, fun cmd rest => if_neg hend⟩⟩

theorem does_deleteInsert (hu : Scanning s d l u) :
    Does Config.build cmd (1 + 1) u [.deleteNode, .insertNode] (Scanning s d l) (Inconsistent s) :=
  (does_deleteNode hu).cons fun _ hv => does_insertNode hv

/-- The slide's read fills the window up, or reads the last bytes. -/
theorem scanning_slideEnd {text text' : Memory Byte} {k : Nat} (hu : Scanning s d l u)
    (hend : u.mf.pos + 1 = 2 * Config.build.dicSiz) (hk : k = readCount Config.build.dicSiz u)
    (hwf : (slideEndTask Config.build k (readDone k k text' (advanceWindow text u))).memWf) :
    Scanning s (d + 1) l (slideEndTask Config.build k (readDone k k text' (advanceWindow text u))) := by
  obtain ⟨-, hemit, hread, ⟨hlow, hhigh⟩, hfull, hpassed, hlast⟩ := hu
  have hsize : k = min Config.build.dicSiz (s.regs.origSize.toNat - u.mf.nread.toNat) := by
    rw [hk, readCount, origSize, regs_of_emitted hemit]
  have hle := hread.1
  obtain ⟨hread', hnread⟩ := hasRead_readDone (u := advanceWindow text u) (k := k) text' hread
    (source_of_emitted hemit) (by show u.mf.nread.toNat + k ≤ _; omega)
  have hnread' : (readDone k k text' (advanceWindow text u)).mf.nread.toNat = u.mf.nread.toNat + k := hnread
  have hD : 0 < Config.build.dicSiz := Nat.two_pow_pos _
  refine ⟨hwf, emitted_readDone k k text' (u := advanceWindow text u) hemit, hread',
    ⟨Nat.le_refl _, ?_⟩, fun hmore => ?_, ?_, hlast⟩
  · show Config.build.dicSiz < 2 * Config.build.dicSiz
    omega
  · change (readDone k k text' (advanceWindow text u)).mf.nread.toNat < _ at hmore
    show u.mf.remainder - 1 + (k : Int) = _ - (Config.build.dicSiz : Int)
    rw [hnread'] at hmore
    have := hfull (by omega)
    omega
  · show u.mf.remainder - 1 + (k : Int) + ((d + 1 : Nat) : Int)
      = ((readDone k k text' (advanceWindow text u)).mf.nread.toNat : Int)
    rw [hnread']
    omega

/-- A bound on the steps of GetNextMatch. -/
def nextSteps : Nat := 2 ^ 14

theorem does_getNextMatch (hs : Attended s) (hu : Scanning s d l u) :
    Does Config.build cmd nextSteps u [.getNextMatch] (Scanning s (d + 1) l) (Inconsistent s) := by
  obtain ⟨text, ⟨hmid, hrun⟩ | ⟨hend, hrun⟩⟩ := getNextMatchTask_doing Config.build u
  all_goals
    have hrun' := fun rest => congrArg (Except.ok (ε := Port)) (hrun cmd rest)
    have hwf' := memWf_of_runTask (t := .getNextMatch) hu.1 hrun'
    obtain ⟨hwf, hemit, hread, ⟨hlow, hhigh⟩, hfull, hpassed, hlast⟩ := id hu
  · have hv : Scanning s (d + 1) l (advanceWindow text u) := by
      refine ⟨hwf', hemit, hread, ⟨Nat.le_succ_of_le hlow, ?_⟩, fun hmore => ?_, ?_, hlast⟩
      · exact Nat.lt_of_le_of_ne hhigh hmid
      · show u.mf.remainder - 1 = _ - ((u.mf.pos + 1 : Nat) : Int)
        have := hfull hmore
        omega
      · show u.mf.remainder - 1 + ((d + 1 : Nat) : Int) = (u.mf.nread.toNat : Int)
        omega
    exact .step hrun' ((does_deleteInsert hv).more_steps (m := 2 ^ 14 - 1) (by decide))
  · set k := readCount Config.build.dicSiz u with hk
    have hkle : k ≤ Config.build.dicSiz := Nat.min_le_left _ _
    have hsource := source_of_attended hs hemit hread Config.build.dicSiz
    have hD : Config.build.dicSiz = 8192 := rfl
    refine .step hrun' (.more_steps (n := (k - 0 + 1) + (1 + 1 + 1)) ?_ (m := 2 ^ 14 - 1) (by omega))
    refine (does_readSrc _ 0 k hwf' hsource).cons (ts' := [.slideEnd k, .deleteNode, .insertNode])
      fun v ⟨hv, text', hdone⟩ => ?_
    have hslide : ∀ rest, runTask Config.build (.slideEnd k) (v.doing cmd rest)
        = .ok ((slideEndTask Config.build k v).doing cmd ([] ++ rest)) := fun _ => rfl
    have hv' := memWf_of_runTask hv hslide
    rw [hdone, Nat.sub_zero] at hv'
    refine .step hslide (does_deleteInsert (cmd := cmd) ?_)
    rw [hdone, Nat.sub_zero]
    exact scanning_slideEnd hu hend hk hv'

/-! ### EncodeLoop (R345) -/

/-- The scan at a position whose match does not reach past the input. -/
def Clamped (s : State) (d l : Nat) (u : State) : Prop :=
  Scanning s d l u ∧ u.mf.matchlen ≤ s.regs.origSize.toNat

theorem loopVars_clampLen (m : MatchFinder) : loopVars (clampLen m) = loopVars m := by
  unfold clampLen
  split <;> rfl

/-- What is left of the input bounds a clamped match. -/
theorem matchlen_clampLen_le {m : MatchFinder} {n : Nat} (h : m.remainder ≤ (n : Int)) : (clampLen m).matchlen ≤ n := by
  unfold clampLen
  split
  · show m.remainder.toNat ≤ n
    omega
  · omega

theorem does_clampMatch (hu : Scanning s d l u) : Does Config.build cmd 1 u [.clampMatch]
      (fun v => Clamped s d l v ∧ v.bw = u.bw) E := by
  obtain ⟨hwf, hemit, hread, hpos⟩ := hu
  have hread' := hasRead_withMf (loopVars_clampLen u.mf) hread
  have hv := positioned_congr (loopVars_clampLen u.mf) hpos
  have hrun : ∀ rest, runTask Config.build .clampMatch (u.doing cmd rest)
      = .ok ((clampMatchTask u).doing cmd ([] ++ rest)) := fun _ => rfl
  refine .step hrun (.nil ⟨⟨⟨memWf_of_runTask hwf hrun, hemit, hread', hv⟩, ?_⟩, rfl⟩)
  obtain ⟨-, -, hpassed, -⟩ := hpos
  have hle := hread.1
  exact matchlen_clampLen_le (by omega)

/-- The scan is at a later position. -/
def Passed (s : State) (d : Nat) (u : State) : Prop := ∃ d' l, d ≤ d' ∧ Clamped s d' l u

theorem does_skipMatch (hs : Attended s) (n : Nat) (hu : Scanning s d l u) :
    Does Config.build cmd ((nextSteps + 1) * n + 2) u [.skipMatch n] (Passed s d) (Inconsistent s) := by
  induction n generalizing d u with
  | zero =>
    exact .step (v := u) (ts := [.clampMatch]) (n := 1) (fun _ => rfl)
      ((does_clampMatch hu).mono le_rfl (fun v ⟨hv, _⟩ => ⟨d, l, le_rfl, hv⟩) fun _ => id)
  | succ n ih =>
    have hdoes := (does_getNextMatch (cmd := cmd) hs hu).cons fun v hv =>
      (ih hv).mono (J' := Passed s d) le_rfl
        (fun w ⟨d', l', hd, hw⟩ => ⟨d', l', (Nat.le_succ d).trans hd, hw⟩) fun _ => id
    exact .step (v := u) (ts := [.getNextMatch, .skipMatch n]) (fun _ => rfl)
      (hdoes.more_steps (by rw [Nat.mul_succ]; omega))

/-- A literal, or a match and the positions it covers. -/
theorem chooseTokenTask_doing (P : Params) (u : State) :
    ∃ c p, (∀ cmd rest, chooseTokenTask P (u.doing cmd rest) = u.doing cmd ([.output c p] ++ rest)) ∨
      ∀ cmd rest, chooseTokenTask P (u.doing cmd rest)
        = u.doing cmd ([.output c p, .skipMatch (u.mf.lastmatchlen - 1)] ++ rest) := by
  by_cases hlit : u.mf.lastmatchlen < u.mf.matchlen ∨ u.mf.lastmatchlen < P.threshold
  · exact ⟨(textAt u.mf (u.mf.pos - 1)).toNat, 0, .inl fun cmd rest => if_pos hlit⟩
  · exact ⟨u.mf.lastmatchlen + 256 - P.threshold, distanceCode P u.mf, .inr fun cmd rest => if_neg hlit⟩

/-- A bound on the steps of one turn of the loop. -/
def loopSteps : Nat := 2 ^ 81

theorem does_output (hs : Attended s) (c p : Nat) (hu : Scanning s d l u) :
    Does Config.build cmd (2 ^ 42) u [.output c p] (fun v => Scanning s d l v ∧ Sent s u v) E :=
  (does_sending hs.1 (w := u) ⟨hu.1, hu.2.1, rfl, id⟩ rfl).mono
    (by simp [Task.sendCost]) (fun _ hv => ⟨scanning_of_sent hu hv, hv⟩) fun _ => id

theorem does_chooseToken (hs : Attended s) (hu : Clamped s d l u)
    (hlast : l ≤ s.regs.origSize.toNat) :
    Does Config.build cmd (2 ^ 80) u [.chooseToken] (Passed s d) (Inconsistent s) := by
  obtain ⟨hu, hmatch⟩ := hu
  obtain ⟨-, -, -, -, -, -, hl⟩ := id hu
  obtain ⟨c, p, hrun | hrun⟩ := chooseTokenTask_doing Config.build u
  · refine .step (fun rest => congrArg Except.ok (hrun cmd rest))
      ((does_output hs c p hu).mono (m := 2 ^ 80 - 1) (by decide) (fun v ⟨hv, _, _, hkept, _⟩ => ?_) fun _ => id)
    have hmf : v.mf = u.mf := (Prod.mk.inj hkept).1
    exact ⟨d, l, le_rfl, hv, hmf ▸ hmatch⟩
  · have hskip : (nextSteps + 1) * (u.mf.lastmatchlen - 1) + 2 ≤ (nextSteps + 1) * 2 ^ 64 + 2 :=
      Nat.add_le_add_right (Nat.mul_le_mul_left _ (by have := s.regs.origSize.isLt; omega)) 2
    exact .step (fun rest => congrArg Except.ok (hrun cmd rest))
      (((does_output hs c p hu).cons fun v ⟨hv, _⟩ => (does_skipMatch hs _ hv).more_steps hskip).more_steps
        (m := 2 ^ 80 - 1) (by decide))

/-- EncodeLoop has ended: everything is read, or UNPACKABLE is set. -/
def Scanned (s u : State) : Prop :=
  u.memWf ∧ Emitted s u ∧ HasRead s u ∧ (u.bw.unpackable = true ∨ u.mf.nread.toNat = s.regs.origSize.toNat)

/-- The head of the loop, at the clamped match: a turn remembers that match. -/
theorem scanning_encodeLoop (hu : Scanning s d l u)
    (hwf : State.memWf { u with mf := { u.mf with
      lastmatchlen := u.mf.matchlen, lastmatchpos := u.mf.matchpos } }) :
    Scanning s d u.mf.matchlen { u with mf := { u.mf with
      lastmatchlen := u.mf.matchlen, lastmatchpos := u.mf.matchpos } } := by
  obtain ⟨-, hemit, hread, hrange, hfull, hpassed, -⟩ := hu
  exact ⟨hwf, hemit, hread, hrange, hfull, hpassed, rfl⟩

/-- While bytes are unread the loop does not run out of positions. -/
theorem nread_of_remainder (hu : Scanning s d l u) (hrem : u.mf.remainder ≤ 0) :
    u.mf.nread.toNat = s.regs.origSize.toNat := by
  obtain ⟨-, -, ⟨hle, -⟩, ⟨-, hhigh⟩, hfull, -⟩ := hu
  rcases Nat.lt_or_eq_of_le hle with hlt | heq
  · have := hfull hlt
    omega
  · exact heq

theorem does_encodeLoop (hs : Attended s) (hu : Clamped s d l u) :
    Does Config.build cmd (loopSteps * (s.regs.origSize.toNat - d) + 1) u [.encodeLoop] (Scanned s)
      (Inconsistent s) := by
  obtain ⟨n, hn⟩ : ∃ n, n = s.regs.origSize.toNat - d := ⟨_, rfl⟩
  rw [← hn]
  induction n using Nat.strong_induction_on generalizing d l u with
  | _ n ih =>
    obtain ⟨hscan, hmatch⟩ := hu
    obtain ⟨hwf, hemit, hread, -, -, hpassed, -⟩ := id hscan
    by_cases hgo : 0 < u.mf.remainder ∧ u.bw.unpackable = false
    · set w : State := { u with mf := { u.mf with
        lastmatchlen := u.mf.matchlen, lastmatchpos := u.mf.matchpos } }
      have hrun : ∀ rest, runTask Config.build .encodeLoop (u.doing cmd rest)
          = .ok (w.doing cmd ([.getNextMatch, .clampMatch, .chooseToken, .encodeLoop] ++ rest)) := fun _ =>
        congrArg Except.ok (if_pos hgo)
      have hw : Scanning s d u.mf.matchlen w := scanning_encodeLoop hscan (memWf_of_runTask hwf hrun)
      have hmore : d < s.regs.origSize.toNat := by
        have hle := hread.1
        omega
      have hrest : ∀ v, Passed s (d + 1) v →
          Does Config.build cmd (loopSteps * (n - 1) + 1) v [.encodeLoop] (Scanned s) (Inconsistent s) :=
        fun v ⟨d', l', hd, hv⟩ => (ih _ (by omega) hv rfl).more_steps
          (Nat.succ_le_succ (Nat.mul_le_mul_left _ (by omega)))
      have hturn := (does_getNextMatch (cmd := cmd) hs hw).cons
        (ts' := [.clampMatch, .chooseToken, .encodeLoop]) fun v hv =>
        (does_clampMatch hv).cons fun v ⟨hv, _⟩ => (does_chooseToken hs hv hmatch).cons hrest
      obtain ⟨m, rfl⟩ := Nat.exists_eq_add_of_le' (show 1 ≤ n by omega)
      have hsteps : nextSteps + (1 + (2 ^ 80 + 1)) ≤ loopSteps := by decide
      exact .step hrun (hturn.more_steps (by rw [Nat.add_sub_cancel, Nat.mul_succ]; linarith))
    · refine .last (v := u) (fun _ => congrArg Except.ok (if_neg hgo)) ?_
      have hend : u.bw.unpackable = true ∨ u.mf.remainder ≤ 0 := by
        rcases hfull : u.bw.unpackable with _ | _
        · exact .inr (Int.not_lt.mp fun hpos => hgo ⟨hpos, hfull⟩)
        · exact .inl rfl
      exact ⟨hwf, hemit, hread, hend.imp_right (nread_of_remainder hscan)⟩

end Scan

end Sys2Proof.Machine
end

section
/-! PROOFS. ENCODE's beginning and end (44_pipeline.md R343, R351-R354): the first insertion goes into an empty tree; at
the end the input is stored, or the results are set. -/

namespace Sys2Proof.Machine

open Claims

variable {s u v : State} {cmd : Instr} {d l : Nat} {E : State → Prop}

/-! ### EncodeInit (R343) -/

/-- The state before EncodeInit's read. -/
def initDone (P : Params) (u : State) : State :=
  hufEncodeStart { crcInit u with mf := initSlide P { u.mf with nread := 0, text := [] } }

theorem encodeInitTask_doing (P : Params) (u : State) (cmd : Instr) (rest : List Task) :
    encodeInitTask P (u.doing cmd rest) = (initDone P u).doing cmd
      ([.readSrc P.dicSiz 0 (readCount (P.dicSiz + P.maxMatch) (initDone P u)),
        .encodeFirst (readCount (P.dicSiz + P.maxMatch) (initDone P u))] ++ rest) := rfl

theorem emitted_initDone (P : Params) (s : State) : Emitted s (initDone P s) :=
  ⟨rfl, rfl, rfl, [], (List.append_nil _).symm, rfl, Nat.zero_le _⟩

theorem hasRead_initDone (P : Params) (s : State) : HasRead s (initDone P s) :=
  ⟨Nat.zero_le _, rfl, rfl⟩

/-- EncodeInit after its read. -/
def firstPosition (P : Params) (k : Nat) (u : State) : State :=
  { u with mf := { u.mf with remainder := (k : Int), matchlen := 0, matchpos := 0, pos := P.dicSiz } }

/-- Insertion into an empty tree. -/
theorem insertNode_empty {P : Params} {m : MatchFinder} (hlen : m.matchlen = 0) (hchildren : m.children = []) :
    ∃ m', insertNode P m = .ok m' := by
  have hnone : child m (.root (textAt m m.pos)) (textAt m (m.pos + 1)) = none := by rw [child, hchildren]; rfl
  refine ⟨{ makeChild (.root (textAt m m.pos)) (textAt m (m.pos + 1)) (.leaf m.pos) m with matchlen := 1 }, ?_⟩
  rw [insertNode, if_neg (by omega)]
  dsimp only
  rw [hnone]

theorem does_firstInsert (hu : Scanning s d l u) (hlen : u.mf.matchlen = 0) (hchildren : u.mf.children = []) :
    Does Config.build cmd 1 u [.insertNode] (fun v => Scanning s d l v ∧ v.bw = u.bw) E := by
  obtain ⟨m, hm⟩ := insertNode_empty (P := Config.build) hlen hchildren
  have hvars := (loopVars_insertNode u.mf Config.build).of_ok hm
  have hrun : ∀ rest, runTask Config.build .insertNode (u.doing cmd rest)
      = .ok (State.doing cmd ([] ++ rest) { u with mf := m }) := fun rest => by
    show Except.ok (runMatchFinder (insertNode Config.build) (u.doing cmd rest)) = _
    rw [runMatchFinder, show (u.doing cmd rest).mf = u.mf from rfl, hm]
    rfl
  obtain ⟨hwf, hemit, hread, hpos⟩ := hu
  exact .step hrun (.nil ⟨⟨memWf_of_runTask hwf hrun, hemit, hasRead_withMf hvars hread, positioned_congr hvars hpos⟩,
    rfl⟩)

/-- A bound on the steps of EncodeInit. -/
def initSteps : Nat := 2 ^ 15

theorem scanning_firstPosition {k : Nat} {text : Memory Byte}
    (hk : k = min (Config.build.dicSiz + Config.build.maxMatch) s.regs.origSize.toNat)
    (hwf : (firstPosition Config.build k (readDone k k text (initDone Config.build s))).memWf) :
    ∃ l, Scanning s 0 l (firstPosition Config.build k (readDone k k text (initDone Config.build s))) := by
  have hzero : (initDone Config.build s).mf.nread.toNat = 0 := rfl
  obtain ⟨hread, hnread⟩ := hasRead_readDone text (hasRead_initDone Config.build s) rfl (k := k) (by omega)
  have hD : 0 < Config.build.dicSiz := Nat.two_pow_pos _
  refine ⟨_, hwf, emitted_readDone k k text (emitted_initDone Config.build s), hread,
    ⟨Nat.le_refl _, ?_⟩, fun hmore => ?_, ?_, rfl⟩
  · show Config.build.dicSiz < 2 * Config.build.dicSiz
    omega
  · show (k : Int) = _ - (Config.build.dicSiz : Int)
    have : k < s.regs.origSize.toNat := by
      rw [← Nat.zero_add k, ← hzero, ← hnread]; exact hmore
    omega
  · show (k : Int) + ((0 : Nat) : Int) = ((readDone k k text (initDone Config.build s)).mf.nread.toNat : Int)
    rw [hnread, hzero]
    omega

theorem does_encodeInit (hs : Attended s) (hwf : s.memWf) :
    Does Config.build cmd initSteps s [.encodeInit]
      (fun v => ∃ l, Clamped s 0 l v ∧ v.bw = (bwInit s.regs.origSize s).bw) E := by
  have hinit := fun rest => congrArg (Except.ok (ε := Port)) (encodeInitTask_doing Config.build s cmd rest)
  have hsource := source_of_attended hs (emitted_initDone Config.build s) (hasRead_initDone Config.build s)
    (Config.build.dicSiz + Config.build.maxMatch)
  have hsize : readCount (Config.build.dicSiz + Config.build.maxMatch) (initDone Config.build s)
      = min (Config.build.dicSiz + Config.build.maxMatch) s.regs.origSize.toNat := rfl
  have hwf' := memWf_of_runTask (t := .encodeInit) hwf hinit
  generalize readCount (Config.build.dicSiz + Config.build.maxMatch) (initDone Config.build s) = k at *
  have hwindow : Config.build.dicSiz + Config.build.maxMatch = 8448 := rfl
  have hreads := does_readSrc (cmd := cmd) (E := E) Config.build.dicSiz 0 k hwf' hsource
  refine .step hinit (.more_steps (n := (k - 0 + 1) + (1 + 1 + 1)) ?_ (m := 2 ^ 15 - 1) (by omega))
  refine hreads.cons (ts' := [.encodeFirst k]) fun v ⟨hv, text, hdone⟩ => ?_
  rw [Nat.sub_zero] at hdone
  have hfirst : ∀ rest, runTask Config.build (.encodeFirst k) (v.doing cmd rest)
      = .ok ((firstPosition Config.build k v).doing cmd ([.insertNode, .clampMatch] ++ rest)) := fun _ => rfl
  have hscan := memWf_of_runTask hv hfirst
  refine .step hfirst ?_
  rw [hdone] at hscan ⊢
  obtain ⟨l, hscan⟩ := scanning_firstPosition hsize hscan
  exact (does_firstInsert hscan rfl rfl).cons fun w ⟨hw, hbw⟩ =>
    (does_clampMatch hw).mono le_rfl (fun x ⟨hx, hbw'⟩ => ⟨l, hx, hbw'.trans hbw⟩) fun _ => id

/-! ### StoreFallback (R352) -/

/-- The state after `n` bytes were copied from the source to the sink. -/
def storeDone (n : Nat) (u : State) : State :=
  { u with
    crc := (nextBytes n u).foldl nextCrc u.crc
    port := { u.port with taken := u.port.taken + n, sink := u.port.sink ++ nextBytes n u } }

theorem does_storeCopy (n : Nat) (hroom : u.port.room = none)
    (hsource : ∀ j, j < n → u.port.taken + j < u.port.source.length) :
    Does Config.build cmd (2 * n + 1) u [.storeCopy n] (· = storeDone n u) E := by
  induction n generalizing u with
  | zero =>
    refine .last (v := u) (fun _ => rfl) ?_
    rw [storeDone, nextBytes, List.take_zero, List.append_nil]
    rfl
  | succ n ih =>
    have hlt : u.port.taken < u.port.source.length := hsource 0 n.succ_pos
    set b := u.port.source[u.port.taken] with hb
    have hread : ∀ rest, runTask Config.build (.storeCopy (n + 1)) (u.doing cmd rest)
        = .ok ((crcUpdate b (takeSource 1 u)).doing cmd ([.storeWrite b, .storeCopy n] ++ rest)) := fun rest => by
      have hread := srcRead_eq_ok (s := u.doing cmd rest).mpr ⟨List.getElem?_eq_getElem hlt, rfl⟩
      show storeCopyTask (n + 1) (u.doing cmd rest) = _
      rw [storeCopyTask, hread]
      rfl
    set w : State := { crcUpdate b (takeSource 1 u) with
      port := { (takeSource 1 u).port with sink := u.port.sink ++ [b] } }
    have hwrite : ∀ rest, runTask Config.build (.storeWrite b) ((crcUpdate b (takeSource 1 u)).doing cmd rest)
        = .ok (w.doing cmd ([] ++ rest)) := fun rest => by
      show snkWrite b _ = _
      rw [snkWrite, show ((crcUpdate b (takeSource 1 u)).doing cmd rest).port.room = none from hroom]
      rfl
    have hlater := ih (u := w) hroom fun j hj => by
      rw [show w.port.taken + j = u.port.taken + (j + 1) from Nat.add_right_comm _ 1 j]
      exact hsource (j + 1) (Nat.succ_lt_succ hj)
    refine .step hread (.step hwrite (hlater.mono le_rfl (fun v hv => ?_) fun _ => id))
    rw [hv, storeDone, storeDone, nextBytes_succ hlt, List.foldl_cons, ← crcStep_eq_nextCrc, List.append_cons,
      Nat.add_comm n 1, ← Nat.add_assoc]
    rfl

/-- The state in which StoreFallback begins its copy. -/
def storeReady (u : State) : State :=
  crcInit { u with port := { u.port with sink := u.port.sink.take u.port.mark, taken := 0 } }

theorem does_store (n : Nat) (hroom : u.port.room = none) (hack : u.port.ackDiscard = true ∧ u.port.ackRewind = true)
    (hsource : n ≤ u.port.source.length) :
    Does Config.build cmd (2 * n + 1 + (0 + 1) + 1 + 1 + 1) u
      [.snkDiscard, .srcRewind, .storeInit, .storeCopy n, .storeEnd]
      (· = storeEndTask (storeDone n (storeReady u))) E := by
  have hdiscard : ∀ rest, runTask Config.build .snkDiscard (u.doing cmd rest)
      = .ok (State.doing cmd ([] ++ rest) { u with port := { u.port with sink := u.port.sink.take u.port.mark } }) :=
    fun rest => snkDiscard_eq_ok.mpr ⟨hack.1, rfl⟩
  have hrewind : ∀ rest, runTask Config.build .srcRewind
      (State.doing cmd rest { u with port := { u.port with sink := u.port.sink.take u.port.mark } })
      = .ok (State.doing cmd ([] ++ rest)
        { u with port := { u.port with sink := u.port.sink.take u.port.mark, taken := 0 } }) :=
    fun rest => srcRewind_eq_ok.mpr ⟨hack.2, rfl⟩
  refine .step hdiscard (.step hrewind (.step (v := storeReady u) (ts := []) (fun _ => rfl) ?_))
  have hcopy := does_storeCopy (cmd := cmd) (E := E) n (u := storeReady u) hroom fun j hj => by
    show 0 + j < u.port.source.length
    omega
  exact hcopy.cons (ts' := [.storeEnd]) (J' := (· = storeEndTask (storeDone n (storeReady u)))) fun v hv => by
    rw [show v = _ from hv]
    exact .last (n := 0) (v := storeEndTask (storeDone n (storeReady u))) (fun _ => rfl) rfl

/-! ### The end (R351-R354) -/

/-- What ENCODE leaves alone, and its count of bytes. -/
def EncodeKept (s u : State) : Prop :=
  (u.br, u.dec, u.outer) = (s.br, s.dec, s.outer) ∧ u.bw.compsize.toNat ≤ s.regs.origSize.toNat

/-- The input is in the sink as it is (R352). -/
def StoredBy (s u : State) : Prop :=
  u.bw.unpackable = true ∧
    u.regs = { s.regs with
      compSize := s.regs.origSize, crc := crcOf (s.port.source.take s.regs.origSize.toNat), stored := true } ∧
    u.port = { s.port with
      taken := s.regs.origSize.toNat, sink := s.port.sink ++ s.port.source.take s.regs.origSize.toNat }

/-- The compressed bytes are in the sink (R354). -/
def PackedBy (s u : State) : Prop :=
  u.bw.unpackable = false ∧
    u.regs = { s.regs with compSize := u.bw.compsize, crc := crcOf (nextBytes s.regs.origSize.toNat s) } ∧
    ∃ out, out.length = u.bw.compsize.toNat ∧
      u.port = { s.port with taken := s.port.taken + s.regs.origSize.toNat, sink := s.port.sink ++ out }

theorem encodeKept_of_emitted (hu : Emitted s u) : EncodeKept s u := by
  obtain ⟨hkept, -, -, out, -, hlen, hle⟩ := hu
  simp only [Prod.mk.injEq] at hkept
  obtain ⟨-, hbr, hdec, houter⟩ := hkept
  exact ⟨by rw [hbr, hdec, houter], hlen ▸ hle⟩

theorem source_length_of_attended (hs : Attended s) : s.regs.origSize.toNat ≤ s.port.source.length := by
  obtain ⟨-, -, hsource⟩ := hs
  by_contra hshort
  have := hsource s.port.source.length (by omega)
  omega

theorem storedBy_store (hs : Attended s) (hu : Emitted s u) (hfull : u.bw.unpackable = true) :
    StoredBy s (storeEndTask (storeDone s.regs.origSize.toNat (storeReady u))) := by
  obtain ⟨-, ⟨-, -, hmark⟩, -⟩ := hs
  have hregs := regs_of_emitted hu
  obtain ⟨-, -, hport, out, hsink, -⟩ := hu
  have hsource : u.port.source = s.port.source := by rw [hport]
  have hmark' : u.port.mark = s.port.sink.length := by rw [hport]; exact hmark
  have hbytes : nextBytes s.regs.origSize.toNat (storeReady u) = s.port.source.take s.regs.origSize.toNat := by
    show (u.port.source.drop 0).take _ = _
    rw [hsource, List.drop_zero]
  refine ⟨hfull, ?_, ?_⟩
  · show { u.regs with
      compSize := u.regs.origSize
      crc := crcFinal (storeDone s.regs.origSize.toNat (storeReady u)), stored := true } = _
    rw [hregs, crcFinal_eq_not, storeDone, hbytes]
    rfl
  · show { u.port with
      taken := 0 + s.regs.origSize.toNat
      sink := u.port.sink.take u.port.mark ++ nextBytes s.regs.origSize.toNat (storeReady u) } = _
    rw [hbytes, hmark', hsink, List.take_left, Nat.zero_add, hport]

theorem packedBy_encodeFinish (hu : Scanned s u) (hfits : u.bw.unpackable = false) : PackedBy s (encodeFinish u) := by
  obtain ⟨-, hemit, ⟨-, htaken, hcrc⟩, hend⟩ := hu
  have hread := hend.resolve_left (by rw [hfits]; exact Bool.false_ne_true)
  have hregs := regs_of_emitted hemit
  obtain ⟨-, -, hport, out, hsink, hlen, -⟩ := hemit
  rw [hread] at htaken hcrc
  refine ⟨hfits, ?_, out, hlen, ?_⟩
  · show { u.regs with compSize := u.bw.compsize, crc := crcFinal u } = _
    rw [hregs, crcFinal_eq_not, hcrc]
    rfl
  · show u.port = _
    rw [hport, ← htaken, ← hsink]

/-- A bound on the steps of ENCODE's end. -/
def endSteps (n : Nat) : Nat := 2 * n + 10

/-- The input that does not compress is stored. -/
theorem does_encodeEnd_stored (hs : Attended s) (hu : Emitted s u) (hfull : u.bw.unpackable = true) :
    Does Config.build cmd (endSteps s.regs.origSize.toNat) u [.encodeEnd]
      (fun v => EncodeKept s v ∧ StoredBy s v) E := by
  have hsize : origSize u = s.regs.origSize.toNat := by rw [origSize, regs_of_emitted hu]
  obtain ⟨-, -, hport, -⟩ := id hu
  have hack : u.port.ackDiscard = true ∧ u.port.ackRewind = true := by
    obtain ⟨-, ⟨hdiscard, hrewind, -⟩, -⟩ := hs
    rw [hport]
    exact ⟨hdiscard, hrewind⟩
  have hlen : s.regs.origSize.toNat ≤ u.port.source.length := by
    rw [source_of_emitted hu]; exact source_length_of_attended hs
  have hstore := does_store (cmd := cmd) (E := E) s.regs.origSize.toNat (room_of_emitted hs.1 hu) hack hlen
  have hkept := encodeKept_of_emitted hu
  refine .step (v := u) (ts := [.snkDiscard, .srcRewind, .storeInit, .storeCopy (origSize u), .storeEnd])
    (fun _ => congrArg Except.ok (if_pos hfull)) ?_
  rw [hsize]
  refine hstore.mono (by omega) (fun v hv => ?_) fun _ => id
  rw [show v = _ from hv]
  exact ⟨hkept, storedBy_store hs hu hfull⟩

theorem does_encodeEnd (hs : Attended s) (hu : Scanned s u) :
    Does Config.build cmd (endSteps s.regs.origSize.toNat) u [.encodeEnd]
      (fun v => EncodeKept s v ∧ (StoredBy s v ∨ PackedBy s v)) E := by
  have hkept := encodeKept_of_emitted hu.2.1
  rcases hfull : u.bw.unpackable with _ | _
  · have hfits : ¬ u.bw.unpackable = true := by rw [hfull]; exact Bool.false_ne_true
    exact .last (v := encodeFinish u) (fun _ => congrArg Except.ok (if_neg hfits))
      ⟨hkept, .inr (packedBy_encodeFinish hu hfull)⟩
  · exact (does_encodeEnd_stored hs hu.2.1 hfull).mono le_rfl (fun v ⟨hv, hstored⟩ => ⟨hv, .inl hstored⟩) fun _ => id

theorem scanned_of_sent (hw : Scanned s u) (hv : Sent s u v) : Scanned s v := by
  obtain ⟨-, -, hread, hend⟩ := hw
  obtain ⟨hwf, hemit, hkept, hfull⟩ := hv
  simp only [Prod.mk.injEq] at hkept
  obtain ⟨hmf, hcrc, htaken⟩ := hkept
  refine ⟨hwf, hemit, ?_, ?_⟩
  · rwa [HasRead, hmf, hcrc, htaken]
  · rw [hmf]
    exact hend.imp_left hfull

theorem does_hufEncodeEnd (hs : Attended s) (hu : Scanned s u) :
    Does Config.build cmd (2 ^ 42) u [.hufEncodeEnd] (Scanned s) E :=
  (does_sending hs.1 (w := u) ⟨hu.1, hu.2.1, rfl, id⟩ rfl).mono (by simp [Task.sendCost])
    (fun _ hv => scanned_of_sent hu hv) fun _ => id

/-- A bound on the steps of ENCODE, its input `n` bytes long. -/
def encodeSteps (n : Nat) : Nat := initSteps + (loopSteps * n + 1 + (2 ^ 42 + endSteps n))

theorem encodeSteps_le_fullRun (n : Quad) : encodeSteps n.toNat ≤ fullRun := by
  have hfull : encodeSteps (2 ^ 64) ≤ fullRun := by decide
  refine le_trans ?_ hfull
  have hn := n.isLt.le
  unfold encodeSteps endSteps
  gcongr

theorem does_encode (hs : Attended s) (hwf : s.memWf) :
    Does Config.build cmd (encodeSteps s.regs.origSize.toNat) s [.encodeInit, .encodeLoop, .hufEncodeEnd, .encodeEnd]
      (fun v => EncodeKept s v ∧ (StoredBy s v ∨ PackedBy s v)) (Inconsistent s) :=
  (does_encodeInit hs hwf).cons (ts' := [.encodeLoop, .hufEncodeEnd, .encodeEnd]) fun _ ⟨_, hv, _⟩ =>
    (does_encodeLoop hs hv).cons (ts' := [.hufEncodeEnd, .encodeEnd]) fun _ hv =>
      (does_hufEncodeEnd hs hv).cons (ts' := [.encodeEnd]) fun _ hv => does_encodeEnd hs hv

end Sys2Proof.Machine
end

section
/-! PROOFS. ENCODE as a command (44_pipeline.md R342, R351-R354, R367): its end on every input, the empty input, and the
round trip of an input that was stored. -/

namespace Sys2Proof.Machine

open Claims

/-! ### ENCODE on every input -/

theorem attended_started {s : State} (hs : dutiful s)
    (hsource : ∀ n, n < s.regs.origSize.toNat → s.port.taken + n < s.port.source.length) :
    Attended (started .encode s) := by
  obtain ⟨hroom, hdiscard, hrewind, -⟩ := hs
  exact ⟨hroom, ⟨hdiscard, hrewind, rfl⟩, hsource⟩

/-- ENCODE ends: the input is stored, or compressed, or an invariant check has failed. -/
theorem encode_ends {s : State} (hidle : s.phase = .idle) (hs : dutiful s) (hwf : s.memWf)
    (hsource : ∀ n, n < s.regs.origSize.toNat → s.port.taken + n < s.port.source.length) :
    ∃ t, exec .encode s = .next t ∧
      ((∃ v, t = endCommand .none v ∧ EncodeKept (started .encode s) v ∧
        (StoredBy (started .encode s) v ∨ PackedBy (started .encode s) v)) ∨
      Inconsistent (started .encode s) t) := by
  obtain ⟨-, -, -, hpace⟩ := id hs
  obtain ⟨t, ht, hend⟩ := exec_of_does (.inl rfl) hidle hpace (does_encode (attended_started hs hsource) hwf)
    (encodeSteps_le_fullRun _)
  exact ⟨t, ht, hend.imp_right And.right⟩

/-- The operands and results after an ENCODE that has stored its input (R352). -/
theorem regs_stored {s v : State} (hv : StoredBy (started .encode s) v) :
    (endCommand .none v).regs = { s.regs with
      done := true, errcode := .none, stored := true, crcMismatch := false, compSize := s.regs.origSize
      crc := crcOf (s.port.source.take s.regs.origSize.toNat) } := by
  obtain ⟨-, hregs, -⟩ := hv
  rw [endCommand, hregs]
  rfl

/-- The operands and results after an ENCODE whose output is compressed (R354). -/
theorem regs_packed {s v : State} (hv : PackedBy (started .encode s) v) :
    (endCommand .none v).regs = { s.regs with
      done := true, errcode := .none, stored := false, crcMismatch := false, compSize := v.bw.compsize
      crc := crcOf (nextBytes s.regs.origSize.toNat s) } := by
  obtain ⟨-, hregs, -⟩ := hv
  rw [endCommand, hregs]
  rfl

/-- The operands and results after an ENCODE that an invariant check has ended (60_exceptions.md R401). -/
theorem regs_inconsistent {s v : State} (hv : Emitted (started .encode s) v) :
    (raise .internalInconsistency v).regs = { s.regs with
      done := true, errcode := .internalInconsistency, stored := false, crcMismatch := false } := by
  rw [raise, endCommand, regs_of_emitted hv]
  rfl

/-- Settles O19: every turn of the loop passes a position, and only the match finder's checks can fail. -/
theorem encodeRuns : Obligations.EncodeRuns := by
  intro s hidle hs hwf htaken hsource
  obtain ⟨t, ht, ⟨v, rfl, ⟨hkept, hsize⟩, hstored | hpacked⟩ | ⟨v, rfl, hemit⟩⟩ :=
    encode_ends hidle hs hwf fun n hn => by rw [htaken]; omega
  · simp only [Prod.mk.injEq, State.outer] at hkept
    have hregs := regs_stored hstored
    obtain ⟨hfull, -, hport⟩ := hstored
    have hports : v.port = { s.port with mark := s.port.sink.length, taken := v.port.taken, sink := v.port.sink } := by
      rw [hport]; rfl
    refine ⟨_, ht, rfl, rfl, .inl ?_, ?_⟩
    · rw [hregs]
      exact ⟨rfl, rfl, hfull.symm, congrArg Ports.taken hport, le_rfl, fun _ => ⟨rfl, congrArg Ports.sink hport⟩, nofun⟩
    · rw [hregs]
      exact ⟨rfl, ⟨rfl, rfl, rfl, rfl, rfl, rfl, rfl⟩, hports, hkept⟩
  · simp only [Prod.mk.injEq, State.outer] at hkept
    have hregs := regs_packed hpacked
    obtain ⟨hfits, -, out, hlen, hport⟩ := hpacked
    have hports : v.port = { s.port with mark := s.port.sink.length, taken := v.port.taken, sink := v.port.sink } := by
      rw [hport]; rfl
    have htaken' : v.port.taken = s.regs.origSize.toNat :=
      (congrArg Ports.taken hport).trans (htaken ▸ Nat.zero_add _)
    refine ⟨_, ht, rfl, rfl, .inl ?_, ?_⟩
    · rw [hregs, nextBytes, htaken]
      exact ⟨rfl, rfl, hfits.symm, htaken', hsize, nofun, fun _ => ⟨out, congrArg Ports.sink hport, hlen⟩⟩
    · rw [hregs]
      exact ⟨rfl, ⟨rfl, rfl, rfl, rfl, rfl, rfl, rfl⟩, hports, hkept⟩
  · have hregs := regs_inconsistent hemit
    obtain ⟨hkept, -, hport, -⟩ := hemit
    simp only [Prod.mk.injEq, State.outer] at hkept
    refine ⟨_, ht, rfl, rfl, .inr ?_, ?_⟩
    · rw [hregs]
      exact ⟨rfl, rfl, rfl, rfl⟩
    · rw [hregs]
      exact ⟨rfl, ⟨rfl, rfl, rfl, rfl, rfl, rfl, rfl⟩, hport, hkept.2⟩

/-! ### The round trip of a stored input (R367) -/

/-- Settles O20: ENCODE has stored the input, and DECODE copies it. -/
theorem storedRoundTrip : Obligations.StoredRoundTrip := by
  intro s t x hidle hs hwf htaken hx hsize hexec hstored
  obtain ⟨t', ht, htidle, -, hend, -, ⟨-, -, -, horig, -⟩, hport, -, -, -, hpace, -⟩ :=
    encodeRuns s hidle hs hwf htaken (by rw [hx, hsize])
  obtain rfl : t = t' := Host.Outcome.next.inj (hexec.symm.trans ht)
  obtain ⟨-, hcrc, -, -, -, hbytes, -⟩ | ⟨-, -, -, hnot⟩ := hend
  swap
  · exact absurd (hnot.symm.trans hstored) Bool.false_ne_true
  obtain ⟨hcomp, hsink⟩ := hbytes hstored
  rw [hx, hsize, List.take_length] at hcrc hsink
  set u : State := { t with
    regs := { t.regs with method := false }
    port := { t.port with source := t.port.sink.drop s.port.sink.length, taken := 0 } } with hu
  have hsource : u.port.source = x := by
    show t.port.sink.drop s.port.sink.length = x
    rw [hsink, List.drop_left]
  have hdutiful : dutiful u := by
    obtain ⟨hroom, hdiscard, hrewind, hnopace⟩ := hs
    refine ⟨?_, ?_, ?_, hpace.trans hnopace⟩
    · show t.port.room = none; rw [hport]; exact hroom
    · show t.port.ackDiscard = true; rw [hport]; exact hdiscard
    · show t.port.ackRewind = true; rw [hport]; exact hrewind
  have hbytes' : nextBytes u.regs.origSize.toNat u = x := by
    rw [nextBytes, hsource]
    show (x.drop 0).take t.regs.origSize.toNat = x
    rw [horig, hsize, List.drop_zero, List.take_length]
  have hlong : u.port.taken + u.regs.origSize.toNat ≤ u.port.source.length := by
    rw [hsource]
    show 0 + t.regs.origSize.toNat ≤ x.length
    rw [horig, hsize, Nat.zero_add]
  have hwf' : t.memWf := State.memWf.exec hwf hexec
  obtain ⟨w, hv, -⟩ := (decodeStored u htidle rfl hdutiful hwf').2 (hcomp.trans horig.symm) hlong
  rw [hbytes'] at hv
  exact ⟨hcrc, _, hv, rfl, rfl, rfl, rfl⟩

end Sys2Proof.Machine
end

section
/-! PROOFS. ENCODE of the empty input (44_pipeline.md R353): the loop ends at once, and the first byte of the one block
does not fit. -/

namespace Sys2Proof.Machine

open Claims

section Tripped

variable {s u : State} {cmd : Instr} {E : State → Prop}

/-- UNPACKABLE is set. -/
def Tripped (s u : State) : Prop := u.memWf ∧ Emitted s u ∧ u.bw.unpackable = true

/-- Sending leaves UNPACKABLE set. -/
theorem does_tripped (hroom : s.port.room = none) (hu : Tripped s u) {ts : List Task}
    (hts : ts.all Task.isSending = true) :
    Does Config.build cmd ((ts.map Task.sendCost).sum + 0 + 1) u ts (Tripped s) E := by
  obtain ⟨hwf, hemit, hfull⟩ := hu
  exact (does_sending hroom (w := u) ⟨hwf, hemit, rfl, id⟩ hts).mono le_rfl
    (fun v ⟨hv, hemit', _, hfull'⟩ => ⟨hv, hemit', hfull' hfull⟩) fun _ => id

/-- At the ceiling, a put that completes a byte sets UNPACKABLE (40_bitstream_crc.md R204). -/
theorem does_putBits_tripped (hroom : s.port.room = none) (n x : Nat) (hwf : u.memWf) (hemit : Emitted s u)
    (hceil : ¬ u.bw.compsize.toNat < u.bw.limit.toNat) (hwn : u.bw.wn ≤ 7) (hbyte : 8 ≤ u.bw.wn + n) :
    Does Config.build cmd (3 * n + 2) u [.putBits n x] (Tripped s) E := by
  induction n generalizing u with
  | zero => omega
  | succ i ih =>
    set w : State := { u with bw := appendBit (x.testBit i) u.bw }
    have hemit' : Emitted s w := hemit
    have hcount : w.bw.wn = u.bw.wn + 1 := rfl
    by_cases h8 : (appendBit (x.testBit i) u.bw).wn = 8
    · set b := (appendBit (x.testBit i) u.bw).wacc
      have hput : ∀ rest, runTask Config.build (.putBits (i + 1) x) (u.doing cmd rest)
          = .ok (w.doing cmd ([.emitByte b, .clearAcc, .putBits i x] ++ rest)) := fun _ =>
        congrArg Except.ok (if_pos h8)
      have hbyte : ∀ rest, runTask Config.build (.emitByte b) (w.doing cmd rest)
          = .ok ((emitDone b w).doing cmd ([] ++ rest)) := fun rest =>
        emitByteTask_eq_emitDone b (s := w.doing cmd rest) (room_of_emitted hroom hemit')
      have hfull : (emitDone b w).bw.unpackable = true := if_neg hceil
      have htripped : Tripped s (emitDone b w) :=
        ⟨memWf_of_runTask (memWf_of_runTask hwf hput) hbyte, (sends_emitDone b).1 hemit', hfull⟩
      have hrest := does_tripped (cmd := cmd) (E := E) (ts := [.clearAcc, .putBits i x]) hroom htripped rfl
      refine .step hput (.step hbyte (hrest.more_steps ?_))
      simp only [List.map, List.sum_cons, List.sum_nil, Task.sendCost]
      omega
    · have hput : ∀ rest, runTask Config.build (.putBits (i + 1) x) (u.doing cmd rest)
          = .ok (w.doing cmd ([.putBits i x] ++ rest)) := fun _ => congrArg Except.ok (if_neg h8)
      have hne : u.bw.wn + 1 ≠ 8 := h8
      exact (Does.step hput (ih (u := w) (memWf_of_runTask hwf hput) hemit' hceil (by omega) (by omega))).more_steps
        (by omega)

/-- A block sent at the ceiling sets UNPACKABLE with its size field. -/
theorem does_sendBlock_tripped (hroom : s.port.room = none) (hwf : u.memWf) (hemit : Emitted s u)
    (hceil : ¬ u.bw.compsize.toNat < u.bw.limit.toNat) (hwn : u.bw.wn ≤ 7) :
    Does Config.build cmd (2 ^ 40) u [.sendBlock] (Tripped s) E := by
  obtain ⟨hok, hsize⟩ := makeTree_ok_and_size (n := Config.build.nc) (by decide) hwf.2.1.scratch
    (halfAt_le u.enc.cFreq)
  have hrun := fun rest => congrArg (Except.ok (ε := Port)) (sendBlockTask_doing Config.build u hok cmd rest)
  rw [← cTreeOf] at hsize
  have hnc : Config.build.nc = 510 := rfl
  have hbits : Config.build.sizeBit = 16 := rfl
  have hput := does_putBits_tripped (cmd := cmd) (E := E) hroom Config.build.sizeBit (cTreeOf Config.build u).size
    (memWf_of_runTask (t := .sendBlock) hwf hrun) ((sends_enc _).1 hemit) hceil hwn (by omega)
  refine .step hrun (.more_steps (hput.cons fun v hv => does_tripped
    (ts := [.sendTables (cTreeOf Config.build u).root, .sendPTable, .sendToken (cTreeOf Config.build u).size 0 0 0])
    hroom hv rfl) (m := 2 ^ 40 - 1) ?_)
  simp only [List.map, List.sum_cons, List.sum_nil, Task.sendCost]
  omega

theorem does_hufEncodeEnd_tripped (hroom : s.port.room = none) (hwf : u.memWf) (hemit : Emitted s u)
    (hceil : ¬ u.bw.compsize.toNat < u.bw.limit.toNat) (hwn : u.bw.wn ≤ 7) (hfits : u.bw.unpackable = false) :
    Does Config.build cmd (2 ^ 42) u [.hufEncodeEnd] (Tripped s) E := by
  have hfits' : ¬ u.bw.unpackable = true := by rw [hfits]; exact Bool.false_ne_true
  refine .step (v := u) (ts := [.sendBlock, .putBits 7 0]) (fun _ => congrArg Except.ok (if_neg hfits')) ?_
  exact ((does_sendBlock_tripped hroom hwf hemit hceil hwn).cons fun v hv =>
    does_tripped (ts := [.putBits 7 0]) hroom hv rfl).more_steps (m := 2 ^ 42 - 1) (by simp [Task.sendCost])

end Tripped

/-- With nothing to read, EncodeLoop ends at its head. -/
theorem does_encodeLoop_empty {s u : State} {cmd : Instr} {E : State → Prop} {l : Nat} (hsize : s.regs.origSize = 0)
    (hu : Clamped s 0 l u) : Does Config.build cmd 1 u [.encodeLoop] (· = u) E := by
  obtain ⟨⟨-, -, ⟨hle, -⟩, -, -, hpassed, -⟩, -⟩ := hu
  rw [hsize] at hle
  have hend : ¬ (0 < u.mf.remainder ∧ u.bw.unpackable = false) := fun ⟨hmore, _⟩ => by
    have : u.mf.nread.toNat = 0 := Nat.le_zero.mp hle
    omega
  exact .last (v := u) (fun _ => congrArg Except.ok (if_neg hend)) rfl

theorem does_encodeEmpty {s : State} {cmd : Instr} {E : State → Prop} (hs : Attended s) (hwf : s.memWf)
    (hsize : s.regs.origSize = 0) :
    Does Config.build cmd (initSteps + (1 + (2 ^ 42 + endSteps s.regs.origSize.toNat))) s
      [.encodeInit, .encodeLoop, .hufEncodeEnd, .encodeEnd] (fun v => EncodeKept s v ∧ StoredBy s v) E := by
  refine (does_encodeInit hs hwf).cons (ts' := [.encodeLoop, .hufEncodeEnd, .encodeEnd]) fun u ⟨l, hu, hbw⟩ => ?_
  refine (does_encodeLoop_empty hsize hu).cons (ts' := [.hufEncodeEnd, .encodeEnd]) fun v hv => ?_
  rw [show v = u from hv]
  obtain ⟨⟨hwf', hemit', -⟩, -⟩ := id hu
  refine .cons (ts' := [.encodeEnd]) (does_hufEncodeEnd_tripped hs.1 hwf' hemit' ?_ ?_ ?_)
    fun w ⟨_, hemit, hfull⟩ => does_encodeEnd_stored hs hemit hfull
  · rw [hbw, hsize]
    exact Nat.lt_irrefl 0
  · rw [hbw]
    exact Nat.zero_le 7
  · rw [hbw]
    rfl

/-- Settles O18: nothing is read, the block does not fit, and nothing is stored. -/
theorem encodeEmpty : Obligations.EncodeEmpty := by
  intro s hidle hs hwf hsize
  have hattended := attended_started (s := s) hs fun n hn => by rw [hsize] at hn; exact absurd hn (Nat.not_lt_zero n)
  obtain ⟨-, -, -, hpace⟩ := id hs
  obtain ⟨t, ht, ⟨v, rfl, ⟨hkept, hcomp⟩, hstored⟩ | ⟨-, hfalse⟩⟩ := exec_of_does (.inl rfl) hidle hpace
    (does_encodeEmpty (E := fun _ => False) hattended hwf hsize) (by
      show initSteps + (1 + (2 ^ 42 + endSteps s.regs.origSize.toNat)) ≤ fullRun
      rw [hsize]
      decide)
  · simp only [Prod.mk.injEq] at hkept
    obtain ⟨hbr, hdec, -⟩ := hkept
    have hregs := regs_stored hstored
    obtain ⟨hfull, -, hport⟩ := hstored
    have hempty : s.port.source.take s.regs.origSize.toNat = [] := by rw [hsize]; exact List.take_zero
    refine ⟨_, ht, rfl, ?_, hfull, ?_, ?_, hbr, hdec⟩
    · rw [hregs, hempty, hsize]
      rfl
    · change v.bw.compsize.toNat ≤ s.regs.origSize.toNat at hcomp
      rw [hsize] at hcomp
      exact BitVec.eq_of_toNat_eq (Nat.le_zero.mp hcomp)
    · refine hport.trans ?_
      show { s.port with
        taken := s.regs.origSize.toNat, mark := s.port.sink.length
        sink := s.port.sink ++ s.port.source.take s.regs.origSize.toNat } = _
      rw [hempty, hsize, List.append_nil]
      rfl
  · exact hfalse.elim

end Sys2Proof.Machine
end

section
/-! PROOFS. What the sequencer waits for (60_exceptions.md R422, 20_memory.md R98-R100): an operation waits only at a
port that the host holds back. -/

namespace Sys2Proof.Machine

/-! ### Operations that wait -/

/-- The host holds back what the sequencer waits for at a port (20_memory.md R98-R100). -/
def Ports.holdsBack (p : Ports) : Port → Prop
  | .source => p.source.length ≤ p.taken
  | .sink => p.room = some 0
  | .discard => p.ackDiscard = false
  | .rewind => p.ackRewind = false

section Waits

variable {s : State} {p : Port}

theorem srcRead_waits (h : srcRead s = .error p) : s.port.holdsBack p := by
  obtain ⟨rfl, hnone⟩ := srcRead_eq_error.mp h
  exact List.getElem?_eq_none_iff.mp hnone

theorem snkWrite_waits {b : Byte} (h : snkWrite b s = .error p) : s.port.holdsBack p := by
  obtain ⟨rfl, hroom⟩ := snkWrite_eq_error.mp h
  exact hroom

theorem snkDiscard_waits (h : snkDiscard s = .error p) : s.port.holdsBack p := by
  unfold snkDiscard at h
  split at h
  · cases h
  · next hack => cases h; exact Bool.eq_false_iff.mpr hack

theorem srcRewind_waits (h : srcRewind s = .error p) : s.port.holdsBack p := by
  unfold srcRewind at h
  split at h
  · cases h
  · next hack => cases h; exact Bool.eq_false_iff.mpr hack

theorem emitByteTask_waits {b : Byte} (h : emitByteTask b s = .error p) : s.port.holdsBack p := by
  unfold emitByteTask at h
  split at h
  · split at h
    · next hwait => cases h; exact snkWrite_waits hwait
    · cases h
  · cases h

theorem fetchByte_waits (h : fetchByte s = .error p) : s.port.holdsBack p := by
  unfold fetchByte at h
  split at h
  · cases h
  · split at h
    · next hwait => cases h; exact srcRead_waits hwait
    · cases h

theorem fillLoopTask_waits {n : Nat} (h : fillLoopTask n s = .error p) : s.port.holdsBack p := by
  dsimp only [fillLoopTask] at h
  split at h
  · split at h
    · next hwait => cases h; exact fetchByte_waits hwait
    · cases h
  · cases h

theorem readSrcTask_waits {off i k : Nat} (h : readSrcTask off i k s = .error p) : s.port.holdsBack p := by
  unfold readSrcTask at h
  split at h
  · split at h
    · next hwait => cases h; exact srcRead_waits hwait
    · cases h
  · cases h

theorem storeCopyTask_waits {n : Nat} (h : storeCopyTask n s = .error p) : s.port.holdsBack p := by
  unfold storeCopyTask at h
  split at h
  · cases h
  · split at h
    · next hwait => cases h; exact srcRead_waits hwait
    · cases h

theorem storedCopyTask_waits {n : Nat} (h : storedCopyTask n s = .error p) : s.port.holdsBack p := by
  unfold storedCopyTask at h
  split at h
  · cases h
  · split at h
    · next hwait => cases h; exact srcRead_waits hwait
    · cases h

theorem outByteTask_waits {P : Params} {b : Byte} (h : outByteTask P b s = .error p) : s.port.holdsBack p := by
  unfold outByteTask at h
  split at h
  · next hwait => cases h; exact snkWrite_waits hwait
  · cases h

theorem runTask_waits {P : Params} {t : Task} (h : runTask P t s = .error p) : s.port.holdsBack p := by
  cases t <;> simp only [runTask, reduceCtorEq] at h
  case emitByte => exact emitByteTask_waits h
  case fillLoop => exact fillLoopTask_waits h
  case readSrc => exact readSrcTask_waits h
  case snkDiscard => exact snkDiscard_waits h
  case srcRewind => exact srcRewind_waits h
  case storeCopy => exact storeCopyTask_waits h
  case storeWrite => exact snkWrite_waits h
  case storedCopy => exact storedCopyTask_waits h
  case outByte => exact outByteTask_waits h

/-! ### The sequencer -/

theorem seqStep_waits {P : Params} (h : seqStep P s = .waits p) : s.port.holdsBack p := by
  unfold seqStep at h
  split at h
  · cases h
  · cases h
  · split at h
    · cases h
    · next hwait => cases h; exact (runTask_waits hwait :)

theorem step_starved (hagenda : s.agenda = []) (h : seqStep Config.build s = .waits p) :
    step s = .fault (.portStarved p) := by
  simp only [step, hagenda, seqAlone, h]

end Waits

/-- Settles O39: a run cannot pass a step that waits, and a step waits only where the host holds something back. -/
theorem portWait : Obligations.PortWait := by
  intro s p h
  have hheld := seqStep_waits h
  refine ⟨fun n => runSeq_waits _ n h, fun hagenda => step_starved hagenda h, ?_, ?_, ?_, ?_⟩ <;> rintro rfl <;>
    exact hheld

end Sys2Proof.Machine
end

section
/-! PROOFS. Faults (60_exceptions.md R401-R405) in a build without STRICT_EOF: which operation raises which error kind,
and that the operation that raises it does nothing else to the registers, the ports and the writer. -/

namespace Sys2Proof.Machine

/-! ### Operations that raise a fault -/

/-- The error kind that the operations of a side raise: the trees' (R404) and the stream's (R403). -/
def Side.fault : Side → Option ErrKind
  | .encode => some .internalInconsistency
  | .decode => some .malformedInput
  | .bits | .result => none

/-- What only a fault or the end of a command changes. -/
def State.control (s : State) : Phase × ErrKind := (s.phase, s.regs.errcode)

/-- An operation lets its command go on, or it raises its side's fault, having done nothing to the units. -/
inductive RunsOrFaults (t : Task) (s s' : State) : Prop
  | runs (hbusy : s'.busy = s.busy) (herr : s'.regs.errcode = s.regs.errcode)
  | faults (k : ErrKind) (hk : t.side.fault = some k) (h : s'.shell = (raise k s).shell)

theorem busy_push (ts : List Task) (s : State) : (push ts s).busy = s.busy := by
  cases h : s.phase with
  | idle => rw [push_idle h]
  | run cmd todo => rw [push_run h, busy_of_run h]; rfl

namespace RunsOrFaults

variable {t : Task} {s u : State}

theorem stay (h : u.control = s.control) : RunsOrFaults t s u := by
  obtain ⟨hphase, herr⟩ := Prod.mk.inj h
  exact .runs (by rw [State.busy, hphase]; rfl) herr

theorem push (ts : List Task) (h : u.control = s.control) : RunsOrFaults t s (push ts u) := by
  obtain ⟨hphase, herr⟩ := Prod.mk.inj h
  exact .runs (by rw [busy_push, State.busy, hphase]; rfl) (by rw [push_regs, herr])

theorem raise {k : ErrKind} (hk : t.side.fault = some k) (h : u.shell = s.shell) : RunsOrFaults t s (raise k u) :=
  .faults k hk (raise_shell_congr k h)

/-- Both branches of a test. -/
theorem ite {c : Prop} [Decidable c] {a b : State} (ha : RunsOrFaults t s a) (hb : RunsOrFaults t s b) :
    RunsOrFaults t s (if c then a else b) := by
  split
  · exact ha
  · exact hb

theorem runMatchFinder (f : MatchFinder → Checked MatchFinder) (ht : t.side = .encode) :
    RunsOrFaults t s (runMatchFinder f s) := by
  unfold Machine.runMatchFinder
  split
  · exact stay rfl
  · exact raise (by rw [ht]; rfl) rfl

theorem tableDecode {tab : Table} {len : Memory Len} {tb nchar : Nat} {next : Nat → Task} (ht : t.side = .decode)
    (h : u.shell = s.shell) (hc : u.control = s.control) : RunsOrFaults t s (tableDecode tab len tb nchar next u) := by
  unfold Machine.tableDecode
  split
  · exact raise (by rw [ht]; rfl) h
  · split
    · exact push _ hc
    · exact push _ hc

end RunsOrFaults

theorem advanceTask_not_strict {P : Params} (hP : P.strictEof = false) (n : Nat) (s : State) : advanceTask P n s =
    push [.fill n] { s with br := { s.br with consumed := s.br.consumed + BitVec.ofNat 64 n } } := by
  simp [advanceTask, hP]

/-- Operation by operation: the trees' checks raise InternalInconsistency, the stream's MalformedInput, and without
STRICT_EOF the bitstream unit raises nothing. -/
theorem runTask_runsOrFaults {P : Params} (hP : P.strictEof = false) {t : Task} {s s' : State}
    (h : runTask P t s = .ok s') : RunsOrFaults t s s' := by
  cases t <;> simp only [runTask, Except.ok.injEq] at h <;> try subst h
  -- the bitstream unit
  case putBits n x =>
    cases n with
    | zero => exact .stay rfl
    | succ n => exact .ite (.push _ rfl) (.push _ rfl)
  case emitByte => exact .stay (congrArg State.control (emitByteTask_frame h) :)
  case advance n => rw [advanceTask_not_strict hP]; exact .push _ rfl
  case fillLoop =>
    dsimp only [fillLoopTask] at h
    split at h
    · split at h
      · cases h
      · next hfetch => cases h; exact .push _ (congrArg State.control (fetchByte_frame hfetch) :)
    · cases h; exact .stay rfl
  -- the ports
  case readSrc =>
    unfold readSrcTask at h
    split at h
    · split at h
      · cases h
      · next hread => cases h; rw [(srcRead_eq_ok.mp hread).2]; exact .push _ rfl
    · cases h; exact .stay rfl
  case storeCopy n | storedCopy n =>
    cases n with
    | zero => cases h; exact .stay rfl
    | succ n =>
      dsimp only [storeCopyTask, storedCopyTask] at h
      split at h
      · cases h
      · next hread => cases h; rw [(srcRead_eq_ok.mp hread).2]; exact .push _ rfl
  case storeWrite => rw [(snkWrite_eq_ok.mp h).2]; exact .stay rfl
  case outByte =>
    unfold outByteTask at h
    split at h
    · cases h
    · next hwrite => cases h; rw [(snkWrite_eq_ok.mp hwrite).2]; exact .stay rfl
  case snkDiscard => rw [(snkDiscard_eq_ok.mp h).2]; exact .stay rfl
  case srcRewind => rw [(srcRewind_eq_ok.mp h).2]; exact .stay rfl
  -- operations that neither fail nor choose
  case clearAcc | brInitEnd | setResult _ | clampMatch | slideEnd _ | storeInit | storeEnd | hufDecodeStart =>
    exact .stay rfl
  case fill _ | encodeInit | encodeFirst _ | readHeader | readPt _ | readC => exact .push _ rfl
  -- operations that choose
  case chooseToken | getNextMatch | decodeC | gotC _ | gotP _ _ | ptLen _ _ _ _ =>
    exact .ite (.push _ rfl) (.push _ rfl)
  case encodeLoop | encodeEnd | decodeLoop | copyLoop _ _ => exact .ite (.push _ rfl) (.stay rfl)
  case sendNext _ _ _ _ | hufEncodeEnd => exact .ite (.stay rfl) (.push _ rfl)
  case outputAfterBlock _ _ => exact .ite (.stay rfl) (.stay rfl)
  case output _ _ => exact .ite (.stay rfl) (.ite (.push _ rfl) (.stay rfl))
  case sendToken _ _ _ _ => exact .ite (.ite (.push _ rfl) (.push _ rfl)) (.stay rfl)
  case cSym _ _ _ => exact .ite (.push _ rfl) (.ite (.push _ rfl) (.ite (.push _ rfl) (.push _ rfl)))
  case skipMatch n =>
    cases n with
    | zero => exact .push _ rfl
    | succ n => exact .push _ rfl
  case decodeFinish =>
    dsimp only [decodeFinishTask, checkCrc]
    exact .ite (.stay rfl) (.stay rfl)
  -- the trees' checks
  case deleteNode | insertNode => exact .runMatchFinder _ rfl
  case sendBlock | sendPTable => exact .ite (.push _ rfl) (.raise rfl rfl)
  case sendTables _ => exact .ite (.ite (.push _ rfl) (.raise rfl rfl)) (.push _ rfl)
  -- the stream's checks
  case decodeInit => exact .ite (.push _ rfl) (.ite (.raise rfl rfl) (.push _ rfl))
  case decodeSym | decodeP _ => exact .tableDecode rfl rfl rfl
  case copyMatch _ _ | gotSize _ => exact .ite (.raise rfl rfl) (.push _ rfl)
  case ptCount _ _ | cCount _ => exact .ite (.push _ rfl) (.ite (.raise rfl rfl) (.push _ rfl))
  case ptConst _ _ | cConst _ => exact .ite (.raise rfl rfl) (.stay rfl)
  case ptSkip _ _ _ z =>
    cases z with
    | zero => exact .push _ rfl
    | succ z => exact .ite (.raise rfl rfl) (.push _ rfl)
  case cRun _ _ r =>
    cases r with
    | zero => exact .push _ rfl
    | succ r => exact .ite (.raise rfl rfl) (.push _ rfl)
  case ptLoop =>
    refine .ite (.ite (.raise rfl rfl) (.push _ rfl)) ?_
    dsimp only
    split
    · exact .raise rfl rfl
    · exact .stay rfl
  case cLoop =>
    refine .ite (.tableDecode rfl rfl rfl) ?_
    dsimp only
    split
    · exact .raise rfl rfl
    · exact .stay rfl

/-! ### Steps of the sequencer -/

/-- How a step of the sequencer leaves the command: ended with no error, going on, or faulted by its operation. -/
theorem seqStep_fault_cases {P : Params} (hP : P.strictEof = false) {s s' : State} (h : seqStep P s = .ran s') :
    s'.regs.errcode = .none ∨ (s'.busy = true ∧ s'.regs.errcode = s.regs.errcode) ∨
      ∃ t ∈ s.todo, ∃ k, t.side.fault = some k ∧ s'.shell = (raise k s).shell := by
  obtain ⟨cmd, -, rfl⟩ | ⟨cmd, t, todo, s1, hphase, ht, rfl⟩ := seqStep_cases h
  · exact .inl rfl
  have hmem : t ∈ s.todo := by rw [todo_run hphase]; exact List.mem_cons_self
  cases runTask_runsOrFaults hP ht with
  | runs hbusy herr =>
    unfold endIfDone
    split
    · exact .inl rfl
    · exact .inr (.inl ⟨hbusy, herr⟩)
    · next hidle => exact nomatch (busy_of_idle hidle).symm.trans hbusy
  | faults k hk hshell =>
    have hidle : s1.phase = .idle := (Prod.mk.inj (Prod.mk.inj hshell).2).1
    rw [endIfDone_idle hidle]
    exact .inr (.inr ⟨t, hmem, k, hk, hshell⟩)

/-- Settles O35: the step that ends a command with an error is a fault, and the operation that raised it has changed
nothing else. -/
theorem faultFrame : Obligations.FaultFrame := by
  intro s t h hidle herr
  obtain hnone | ⟨hbusy, -⟩ | ⟨task, -, k, -, hshell⟩ := seqStep_fault_cases rfl h
  · exact absurd hnone herr
  · exact nomatch (busy_of_idle hidle).symm.trans hbusy
  · simp only [State.shell, raise_regs, raise_bw, raise_port, Prod.mk.injEq] at hshell
    obtain ⟨hregs, -, hbw, -, hport⟩ := hshell
    exact ⟨by rw [hregs], hport, hbw⟩

/-! ### Commands -/

/-- ERRCODE reports nothing, or the fault of a side that `p` allows. -/
def State.faultsOf (p : Side → Prop) (s : State) : Prop :=
  s.regs.errcode = .none ∨ ∃ d, p d ∧ d.fault = some s.regs.errcode

theorem seqStep_faultsOf {P : Params} (hP : P.strictEof = false) {p : Side → Prop} {s s' : State}
    (h : seqStep P s = .ran s') (hside : s.onSides p) (hs : s.faultsOf p) : s'.faultsOf p := by
  obtain hnone | ⟨-, herr⟩ | ⟨t, ht, k, hk, hshell⟩ := seqStep_fault_cases hP h
  · exact .inl hnone
  · rwa [State.faultsOf, herr]
  · have hregs : s'.regs = (raise k s).regs := (Prod.mk.inj hshell).1
    exact .inr ⟨t.side, hside t ht, by rw [hregs, hk]; rfl⟩

theorem settle_faultsOf {P : Params} (hP : P.strictEof = false) {p : Side → Prop} (hbits : p .bits) {s : State}
    (hside : s.onSides p) (hs : s.faultsOf p) : (settle P s).faultsOf p := by
  refine (runSeq_induct P (I := fun u => u.onSides p ∧ u.faultsOf p) ?_ _ s ⟨hside, hs⟩).2
  rintro u v ⟨hu, hI⟩ h
  exact ⟨seqStep_onSides hbits h hu, seqStep_faultsOf hP h hu hI⟩

theorem started_errcode (i : Instr) (s : State) : (started i s).regs.errcode = .none := by
  cases i <;> rfl

/-- Settles O31: a command's operations stay on its sides, and each side has one kind of fault. -/
theorem errorKinds : Obligations.ErrorKinds := by
  intro i s t hidle h
  rw [exec_idle i hidle] at h
  cases h
  have hside := started_onSides (i := i) (p := fun d => (d = .encode → i = .encode) ∧ (d = .decode → i = .decode)) s
    ⟨nofun, nofun⟩ (fun hi => ⟨fun _ => hi, nofun⟩) (fun hi => ⟨nofun, fun _ => hi⟩) fun _ _ => ⟨nofun, nofun⟩
  obtain hnone | ⟨d, ⟨hencode, hdecode⟩, hd⟩ :=
    settle_faultsOf (P := Config.build) rfl ⟨nofun, nofun⟩ hside (.inl (started_errcode i s))
  · exact .inl hnone
  · cases d with
    | encode => exact .inr (.inr ⟨hencode rfl, (Option.some.inj hd).symm⟩)
    | decode => exact .inr (.inl ⟨hdecode rfl, (Option.some.inj hd).symm⟩)
    | bits => cases hd
    | result => cases hd

end Sys2Proof.Machine
end

section
/-! PROOFS. The invariant checks of ENCODE (60_exceptions.md R404): in the match finder at a split, at a resume and at a
splice (43_match_finder.md R309, R312, R321), in the length limit and in MakeCode (41_huffman_encode.md R236, R238). -/

namespace Sys2Proof.Machine

open Sys2Proof.Claims

/-! ### The match finder (43_match_finder.md R309, R312, R321) -/

theorem split_of_empty_pool {m : MatchFinder} (hpool : m.freepool = []) (old : Handle) : split old m = .error m := by
  simp only [split, hpool]

theorem insertNode_of_lost_chain {P : Params} {m : MatchFinder} (hlen : 4 ≤ m.matchlen)
    (hlost : followSucc { m with matchlen := m.matchlen - 1 } P.dicSiz (.leaf (stored P (m.matchpos + 1))) = none) :
    insertNode P m = .error { m with matchlen := m.matchlen - 1 } := by
  simp only [insertNode, if_pos hlen, resumeStart, hlost]

/-- PercolateDelete only writes positions. -/
theorem percolateDelete_induct {P : Params} {I : MatchFinder → Prop}
    (hI : ∀ u i v, I u → I (setPosition (.inner i) v u)) (fuel : Nat) (q : Option Handle) (offset : Nat)
    {m : MatchFinder} (hm : I m) : I (percolateDelete P fuel q offset m) := by
  induction fuel generalizing q offset m with
  | zero => exact hm
  | succ fuel ih =>
    rcases q with _ | ⟨b | i | p⟩
    · exact hm
    · exact hm
    · dsimp only [percolateDelete]
      split
      · exact ih _ _ (hI _ _ _ hm)
      · exact hI _ _ _ hm
    · exact hm

theorem level_setPosition {m : MatchFinder} (hm : m.memWf) (i : Nat) (v : RepPos) (j : Nat) :
    (innerRec (setPosition (.inner i) v m) j).level = (innerRec m j).level := by
  by_cases hj : j = i
  · subst hj
    rw [setPosition, innerRec_setInner_self hm]
  · rw [setPosition, innerRec_setInner_of_ne hm _ hj]

/-- What a splice looks its representative's child up with: the window, the child map and the levels. -/
def lookups (m : MatchFinder) : Memory Byte × Memory Handle × (Nat → Nat) :=
  (m.text, m.children, fun j => (innerRec m j).level)

theorem lookups_setPosition {m : MatchFinder} (hm : m.memWf) (i : Nat) (v : RepPos) :
    lookups (setPosition (.inner i) v m) = lookups m := by
  rw [lookups, funext (level_setPosition hm i v)]
  rfl

theorem lookups_percolateDelete (P : Params) (fuel : Nat) (q : Option Handle) (offset : Nat) {m : MatchFinder}
    (hm : m.memWf) : lookups (percolateDelete P fuel q offset m) = lookups m := by
  refine (percolateDelete_induct (I := fun u => u.memWf ∧ lookups u = lookups m) ?_ fuel q offset ⟨hm, rfl⟩).2
  rintro u i v ⟨hu, hlook⟩
  exact ⟨hu.setPosition _ v, (lookups_setPosition hu i v).trans hlook⟩

theorem splice_of_no_child {P : Params} {i : Nat} {m : MatchFinder} (hm : m.memWf)
    (hnone : child m (.inner i) (textAt m (actual P m (innerRec m i).position.value + (innerRec m i).level)) = none) :
    ∃ m', splice P i m = .error m' := by
  have hlook := lookups_percolateDelete P P.dicSiz (parentOf m (.inner i)) (actual P m (innerRec m i).position.value) hm
  simp only [lookups, Prod.mk.injEq] at hlook
  obtain ⟨htext, hchildren, hlevel⟩ := hlook
  rw [child, textAt, ← htext, ← hchildren, ← congrFun hlevel i] at hnone
  dsimp only [splice]
  rw [child, textAt, hnone]
  exact ⟨_, rfl⟩

theorem runMatchFinder_of_error {f : MatchFinder → Checked MatchFinder} {s : State} {m : MatchFinder}
    (h : f s.mf = .error m) : runMatchFinder f s = raise .internalInconsistency { s with mf := m } := by
  simp only [runMatchFinder, h]

/-! ### The length limit (41_huffman_encode.md R236) -/

theorem longestBelow_congr {cnt cnt' : Memory Nat} (b : Nat)
    (h : ∀ i, i ≤ b → memRead 0 cnt i = memRead 0 cnt' i) : longestBelow cnt b = longestBelow cnt' b := by
  induction b with
  | zero => rfl
  | succ b ih => rw [longestBelow, longestBelow, h _ (Nat.le_refl _), ih fun i hi => h i (by omega)]

/-- Taking a leaf of length 16 leaves the shorter lengths. -/
theorem longestBelow_dropSixteen {cnt : Memory Nat} (hcnt : Memory.wf 0 cnt = true) :
    longestBelow (dropSixteen cnt) 15 = longestBelow cnt 15 :=
  longestBelow_congr 15 fun _ hi => memRead_memWrite_ne 0 (rising_of_wf hcnt) _ (by omega)

theorem limitLens_stuck {cum : Nat} {cnt : Memory Nat} (fuel : Nat) (hcum : cum ≠ 2 ^ 16)
    (hnone : longestBelow (dropSixteen cnt) 15 = none) : limitLens fuel cum cnt = .error (dropSixteen cnt) := by
  rw [dropSixteen] at hnone
  unfold limitLens
  simp only [if_neg hcum, hnone]
  rfl

/-! ### MakeTree's answer (41_huffman_encode.md R231, R238) -/

/-- The heap's size counts the symbols that occur, whatever the scratch held. -/
theorem fillHeap_count (n : Nat) (f : Nat → Nat) (h : Memory Nat) : (fillHeap n f h).2 = (occurring n f).card := by
  induction n with
  | zero => rfl
  | succ n ih =>
    rw [fillHeap_succ, occurring_succ]
    split
    · rw [Multiset.card_cons, ← ih]
    · exact ih

theorem firstCode_of_zero_lens {n : Nat} {len : Nat → Nat} (hlen : ∀ i, len i = 0) (k : Nat) :
    firstCode n len k = 0 := by
  induction n with
  | zero => exact firstCode_no_symbols len k
  | succ n ih => rw [firstCode_succ, ih, hlen n, if_neg (by omega)]

theorem makeCode_of_zero_lens (n : Nat) {len : Nat → Nat} (hlen : ∀ i, len i = 0) : makeCode n len = none := by
  rw [makeCode_eq, firstCode_of_zero_lens hlen]
  rfl

/-- A tree passes its checks exactly where its lengths have a code. -/
def TreeOut.okIfCode (n : Nat) (t : TreeOut) : Prop := t.ok = (makeCode n (lenAt t.len)).isSome

/-- MakeTree of two symbols or more: where the limit fails no length is handed out, and then there is no code. -/
theorem makeTree_okIfCode {n : Nat} {f : Nat → Nat} {sc : TreeScratch} (htwo : 2 ≤ (fillHeap n f sc.heap).2) :
    (makeTree n f sc).okIfCode n := by
  dsimp only [makeTree]
  rw [if_neg (Nat.not_lt.mpr htwo)]
  split
  · exact congrArg Option.isSome (makeCode_of_zero_lens n fun _ => rfl).symm
  · split
    · next hcode => exact congrArg Option.isSome hcode.symm
    · next hcode => exact congrArg Option.isSome hcode.symm

/-! ### SendBlock (41_huffman_encode.md R249) -/

/-- An operation that goes on where the tree's checks passed, and else raises. -/
theorem failsOn_of_check {tree : TreeOut} {s : State} (ts : List Task) (hbusy : s.busy = true) :
    failsOn tree (if tree.ok = true then push ts s else raise .internalInconsistency s) := by
  cases hok : tree.ok
  · exact ⟨⟨fun _ => hok, fun _ => rfl⟩, fun _ => rfl⟩
  · refine ⟨⟨fun hidle => ?_, fun h => nomatch hok.symm.trans h⟩, fun h => nomatch hok.symm.trans h⟩
    rw [if_pos rfl, busy_push, hbusy] at hidle
    cases hidle

/-- Settles O36: each check at the operation that makes it, and ENCODE's end where an operation of the match finder or
of SendBlock fails. -/
theorem invariantChecks : Obligations.InvariantChecks := by
  refine ⟨fun m h hpool => split_of_empty_pool hpool h,
    fun P m hlen hlost => ⟨_, insertNode_of_lost_chain hlen hlost⟩,
    fun P i m => splice_of_no_child, fun f s m => runMatchFinder_of_error,
    fun fuel cum cnt hcnt hcum hnone => ?_, fun n f sc htwo => ?_,
    fun P s hbusy => ⟨failsOn_of_check _ hbusy, fun root hroot => ?_, failsOn_of_check _ hbusy⟩⟩
  · exact ⟨_, limitLens_stuck fuel hcum ((longestBelow_dropSixteen hcnt).trans hnone)⟩
  · have hok : (makeTree n f sc).okIfCode n :=
      makeTree_okIfCode (by rwa [fillHeap_count, card_occurring])
    rw [TreeOut.okIfCode] at hok
    rw [hok, Option.isSome_eq_false_iff, Option.isNone_iff_eq_none]
  · rw [sendTablesTask, if_pos hroot]
    exact failsOn_of_check _ hbusy

end Sys2Proof.Machine
end

section
/-! PROOFS. The two resets (70_reset_and_hazards.md R430-R432): the state they leave has every value of R431's table and
meets the machine's invariant. -/

namespace Sys2Proof.Machine

open Sys2Proof.Claims

/-! ### The reset state (R431) -/

theorem readReg_of_reset (P : Params) {s : State} {o : BitVec 8} (hregs : s.regs = HostRegs.reset)
    (ho : 0x18 ≤ o.toNat) : readReg P s o = 0#32 := by
  unfold readReg
  rw [hregs]
  split
  -- ID, PARAM0, PARAM1, CTRL and STATUS lie below
  iterate 5 omega
  all_goals rfl

theorem statusWord_of_reset {s : State} (hregs : s.regs = HostRegs.reset) (hphase : s.phase = .idle)
    (hbw : s.bw = Writer.reset) : statusWord s = 0#32 := by
  rw [statusWord, hregs, hbw, busy_of_idle hphase]; rfl

theorem ctrlWord_of_reset {s : State} (hregs : s.regs = HostRegs.reset) : ctrlWord s = 1#32 := by
  rw [ctrlWord, hregs]; rfl

/-- R431's table speaks of the registers, the sequencer, the bitstream unit and the CRC alone. -/
theorem atReset_of_fields {s : State} (hregs : s.regs = HostRegs.reset) (hphase : s.phase = .idle)
    (hbw : s.bw = Writer.reset) (hbr : s.br = Reader.reset) (hcrc : s.crc = 0xFFFF#16) : atReset s :=
  ⟨⟨rfl, rfl, rfl, ctrlWord_of_reset hregs, statusWord_of_reset hregs hphase hbw⟩,
    fun _ _ ho => readReg_of_reset _ hregs ho, hphase, hbw, hbr, hcrc, by rw [doneLine, hregs]; rfl⟩

/-- Settles O33: the reset state's fields are those of the table. -/
theorem resetValues : Obligations.ResetValues := atReset_of_fields rfl rfl rfl rfl rfl

/-- Settles O41: the memories are empty, and the units hold what a reset leaves them. -/
theorem resetInv : Obligations.ResetInv := by
  have hunits : State.reset.UnitsOk := .of_reset rfl rfl rfl rfl ⟨Nat.le_refl _, Nat.le_refl _⟩
  exact ⟨reset_memories, hunits.writer, hunits.ceiling, hunits.reader, hunits.port, hunits.control, hunits.results⟩

/-! ### The soft reset (R432) -/

theorem writeCtrl_softReset {v : Word} (s : State) (h : v.getLsbD 31 = true) : writeCtrl v s = resetBlock s := if_pos h

/-- Settles O32: the write is the reset of the block, which is then idle, so that no step of the sequencer follows. -/
theorem softReset : Obligations.SoftReset := by
  intro s v hpor hsrst
  refine ⟨resetBlock s, ?_, atReset_of_fields rfl rfl rfl rfl rfl, rfl, rfl, rfl, hpor, rfl⟩
  exact hostWrite_idle hpor rfl (by decide) (writeCtrl_softReset s hsrst) rfl

/-! ### The power-on reset (R430) -/

theorem hostWrite_of_por {o : BitVec 8} (v : Word) {s : State} (hpor : s.por = true) (ho : o.toNat % 4 = 0) :
    hostWrite 4 o v s = .next s := by
  rw [hostWrite, accessOk_word ho, if_neg (by decide), if_pos hpor]

theorem hostRead_of_por {o : BitVec 8} {s : State} (hpor : s.por = true) (ho : o.toNat % 4 = 0) :
    hostRead 4 o s = .next s := by
  rw [hostRead, accessOk_word ho, if_neg (by decide), if_pos hpor]

theorem hostAct_releaseReset {s : State} (hpor : s.por = true) :
    hostAct .releaseReset s = .next { resetBlock s with por := false } := if_pos hpor

/-- Settles O34: the assertion, the accesses it shuts out, and the release. -/
theorem powerOnReset : Obligations.PowerOnReset := fun s =>
  ⟨{ resetBlock s with por := true }, { resetBlock s with por := false }, rfl,
    fun _ v ho => ⟨hostWrite_of_por v rfl ho, hostRead_of_por rfl ho⟩,
    hostAct_releaseReset rfl, atReset_of_fields rfl rfl rfl rfl rfl, rfl, rfl⟩

end Sys2Proof.Machine
end

section
/-! PROOFS. A busy block (70_reset_and_hazards.md R440-R443): what the host's writes do to it, and that no step changes
its registers but the one that ends the command. -/

namespace Sys2Proof.Machine

/-! ### Host writes while a command runs (R441, R442) -/

theorem writeCmd_busy (w : Word) {s : State} (hbusy : s.busy = true) : writeCmd w s = .next (loseCommand s) := by
  unfold writeCmd
  split
  · exact exec_busy _ hbusy
  · rw [issueIllegal_busy hbusy]

/-- Settles O27: legal or not, the word is lost. -/
theorem busyDropsCommand : Obligations.BusyDropsCommand := fun _ w hbusy =>
  ⟨writeCmd_busy w hbusy, fun i => exec_busy i hbusy⟩

theorem writeOperand_busy (f : HostRegs → HostRegs) {s : State} (hbusy : s.busy = true) : writeOperand f s = s :=
  if_pos hbusy

theorem writeCtrl_busy {v : Word} {s : State} (hbusy : s.busy = true) (h31 : v.getLsbD 31 = false) :
    writeCtrl v s = s := by
  rw [writeCtrl, h31, hbusy]; rfl

/-- While a command runs DONE is 0, so that a write to STATUS finds CMD_LOST alone to clear. -/
theorem writeStatus_busy (v : Word) {s : State} (hbusy : s.busy = true) (hs : s.controlOk) :
    writeStatus v s = { s with regs := { s.regs with cmdLost := s.regs.cmdLost && !v.getLsbD 11 } } := by
  have hdone : (s.regs.done && !v.getLsbD 1) = s.regs.done := by rw [(hs.1 hbusy).1, Bool.false_and]
  rw [writeStatus, hdone]

/-- Settles O28: each register's write to a busy block. -/
theorem busyIgnoresWrites : Obligations.BusyIgnoresWrites := by
  intro s v hbusy hs
  refine ⟨fun o ho => ?_, writeCtrl_busy hbusy, writeStatus_busy v hbusy hs, fun hsrst => ?_⟩
  · obtain ⟨f, hf⟩ := writeReg_operand v ho
    rw [hf, writeOperand_busy f hbusy]
  · have hreset : writeReg s 0x0C#8 v = resetBlock s := writeCtrl_softReset s hsrst
    rw [hreset]
    exact ⟨rfl, statusWord_of_reset rfl rfl rfl⟩

/-- Everything a write to a register other than CMD can do to a busy block. -/
theorem writeReg_busy (o : BitVec 8) (v : Word) {s : State} (hbusy : s.busy = true) (hs : s.controlOk) :
    writeReg s o v = resetBlock s ∨
      ∃ lost, writeReg s o v = { s with regs := { s.regs with cmdLost := lost } } := by
  have hoperand : ∀ f, ∃ lost, writeOperand f s = { s with regs := { s.regs with cmdLost := lost } } := fun f =>
    ⟨s.regs.cmdLost, writeOperand_busy f hbusy⟩
  unfold writeReg
  split
  · cases h31 : v.getLsbD 31
    · exact .inr ⟨s.regs.cmdLost, writeCtrl_busy hbusy h31⟩
    · exact .inl (writeCtrl_softReset s h31)
  · exact .inr ⟨_, writeStatus_busy v hbusy hs⟩
  iterate 6 exact .inr (hoperand _)
  exact .inr ⟨s.regs.cmdLost, rfl⟩

/-! ### The sequencer's steps (R440) -/

theorem UnitEffect.regs {t : Task} {s u : State} (h : UnitEffect t s u) (ht : t.writesResult = false) :
    u.regs = s.regs := by
  cases h with
  | setResult v => cases ht
  | encodeFinish => cases ht
  | storeEnd => cases ht
  | decodeFinish => cases ht
  | _ => rfl

theorem runTask_regs_or_idle {P : Params} {t : Task} {s s' : State} (ht : t.writesResult = false)
    (h : runTask P t s = .ok s') : s'.regs = s.regs ∨ s'.phase = .idle := by
  obtain ⟨u, hu, hend⟩ := runTask_cases h
  cases hend with
  | leaves ts _ hshell =>
    have hregs : s'.regs = (push ts u).regs := (Prod.mk.inj hshell).1
    exact .inl (hregs.trans ((push_regs ts u).trans (hu.regs ht)))
  | faults k _ hshell => exact .inr (Prod.mk.inj (Prod.mk.inj hshell).2).1

/-- An operation that writes a result register leaves nothing more to do; where ENCODE's leaves its store fallback, it
has written none (44_pipeline.md R342). -/
theorem runTask_regs_or_phase {P : Params} {t : Task} {s s' : State} (ht : t.writesResult = true)
    (h : runTask P t s = .ok s') : s'.regs = s.regs ∨ s'.phase = s.phase := by
  cases t with
  | setResult v => cases h; exact .inr rfl
  | storeEnd => cases h; exact .inr rfl
  | decodeFinish => cases h; exact .inr (checkCrc_phase _ _)
  | encodeEnd =>
    cases h
    unfold encodeEndTask
    split
    · exact .inl (push_regs _ _)
    · exact .inr rfl
  | _ => cases ht

theorem endIfDone_of_busy {s : State} (h : (endIfDone s).busy = true) :
    endIfDone s = s ∧ ∃ cmd t todo, s.phase = .run cmd (t :: todo) := by
  unfold endIfDone at h ⊢
  split at h
  · cases h
  · next hphase => exact ⟨rfl, _, _, _, hphase⟩
  · next hphase => exact nomatch (busy_of_idle hphase).symm.trans h

/-- A step that does not end the command writes no register: its operation is none that writes a result, or it is the
command's last one and has left others to do. -/
theorem seqStep_regs {P : Params} {s s' : State} (h : seqStep P s = .ran s') (hs : s.resultsLast)
    (hbusy : s'.busy = true) : s'.regs = s.regs := by
  obtain ⟨cmd, -, rfl⟩ | ⟨cmd, t, todo, s1, hphase, ht, rfl⟩ := seqStep_cases h
  · cases hbusy
  obtain ⟨hstay, cmd', t', todo', hphase'⟩ := endIfDone_of_busy hbusy
  rw [hstay]
  cases hres : t.writesResult
  · exact (runTask_regs_or_idle hres ht).resolve_right fun hidle => nomatch hphase'.symm.trans hidle
  · have hlast : todo = [] := by
      rw [State.resultsLast, todo_run hphase] at hs
      cases todo with
      | nil => rfl
      | cons t2 todo => rw [List.dropLast_cons_cons, List.all_cons, hres] at hs; cases hs
    subst hlast
    exact (runTask_regs_or_phase hres ht).resolve_right fun hp => nomatch hphase'.symm.trans hp

theorem busy_of_ran {P : Params} {s s' : State} (h : seqStep P s = .ran s') : s.busy = true := by
  obtain ⟨cmd, hphase, -⟩ | ⟨cmd, t, todo, s1, hphase, -⟩ := seqStep_cases h
  · exact busy_of_run hphase
  · exact busy_of_run hphase

theorem settle_regs {P : Params} {s : State} (hs : s.resultsLast) (hbusy : (settle P s).busy = true) :
    (settle P s).regs = s.regs := by
  refine (runSeq_induct P (I := fun u => u.resultsLast ∧ (u.busy = true → u.regs = s.regs)) ?_ _ s
    ⟨hs, fun _ => rfl⟩).2 hbusy
  rintro u v ⟨hlast, hregs⟩ h
  exact ⟨seqStep_resultsLast h hlast, fun hv => (seqStep_regs h hlast hv).trans (hregs (busy_of_ran h))⟩

/-! ### Every step (R440, R442, R443) -/

/-- If the command still runs in `t`, the registers are those of `s`, but for CMD_LOST. -/
def State.regsHeldIn (s t : State) : Prop :=
  t.busy = true → t.regs = { s.regs with cmdLost := t.regs.cmdLost }

theorem regsHeldIn_of_idle {s t : State} (h : t.phase = .idle) : s.regsHeldIn t := fun hb =>
  nomatch (busy_of_idle h).symm.trans hb

/-- What the host did to the running command was no more than to write CMD_LOST; then the sequencer ran. -/
theorem regsHeldIn_settle {P : Params} {s u : State} (hs : s.resultsLast) (hphase : u.phase = s.phase)
    (hregs : u.regs = { s.regs with cmdLost := u.regs.cmdLost }) : s.regsHeldIn (settle P u) := by
  intro hb
  have hu : u.resultsLast := by rwa [State.resultsLast, State.todo, hphase]
  rw [settle_regs hu hb]
  exact hregs

theorem hostRead_regsHeldIn {bytes : Nat} {o : BitVec 8} {s t : State} (hresults : s.resultsLast)
    (h : hostRead bytes o s = .next t) : s.regsHeldIn t := by
  unfold hostRead at h
  split at h
  · cases h
  · split at h
    · cases h; exact fun _ => rfl
    · cases h; exact regsHeldIn_settle hresults rfl rfl

section Busy

variable {s t : State} (hcontrol : s.controlOk) (hresults : s.resultsLast) (hbusy : s.busy = true)
include hcontrol hresults hbusy

theorem hostWrite_regsHeldIn {bytes : Nat} {o : BitVec 8} {v : Word} (h : hostWrite bytes o v s = .next t) :
    s.regsHeldIn t := by
  unfold hostWrite at h
  split at h
  · cases h
  · split at h
    · cases h; exact fun _ => rfl
    · split at h
      · rw [writeCmd_busy v hbusy] at h
        cases h; exact fun _ => rfl
      · cases h
        obtain hw | ⟨lost, hw⟩ := writeReg_busy o v hbusy hcontrol <;> rw [hw]
        · rw [settle_idle Config.build (resetBlock_phase s)]
          exact regsHeldIn_of_idle rfl
        · exact regsHeldIn_settle hresults rfl rfl

/-- The WAIT loop does not find DONE while the command runs. -/
theorem hostWait_regsHeldIn {pace : Option Nat} (h : hostWait pace s = .next t) : s.regsHeldIn t := by
  obtain ⟨hdone, -, hpor⟩ := hcontrol.1 hbusy
  dsimp only [hostWait] at h
  rw [hpor, hdone, if_neg (by decide), if_neg (by decide)] at h
  cases h
  exact regsHeldIn_settle hresults rfl rfl

theorem hostAct_regsHeldIn {a : HostAct} (h : hostAct a s = .next t) : s.regsHeldIn t := by
  cases a <;> dsimp only [hostAct] at h
  case write bytes o v => exact hostWrite_regsHeldIn hcontrol hresults hbusy h
  case read bytes o => exact hostRead_regsHeldIn hresults h
  case waitDone => exact hostWait_regsHeldIn hcontrol hresults hbusy h
  case assertReset => cases h; exact regsHeldIn_of_idle rfl
  case releaseReset =>
    split at h
    · cases h; exact regsHeldIn_of_idle rfl
    · cases h; exact fun _ => rfl
  -- the host's side of the ports
  all_goals
    cases h
    exact regsHeldIn_settle hresults rfl rfl

theorem step_regsHeldIn (h : step s = .next t) : s.regsHeldIn t := by
  unfold step at h
  split at h
  · next turn rest _ =>
    exact hostAct_regsHeldIn (s := { s with agenda := rest, pace := turn.pace }) hcontrol hresults hbusy h
  · unfold seqAlone at h
    split at h
    · cases h; exact fun _ => rfl
    · cases h
    · cases h; exact regsHeldIn_settle hresults rfl rfl

end Busy

/-- Settles O29: the host's turn writes no register of a busy block but CMD_LOST, and the sequencer's steps write none
before the last. -/
theorem resultsStableWhileBusy : Obligations.ResultsStableWhileBusy := fun _ _ hcontrol hresults hbusy h =>
  step_regsHeldIn hcontrol hresults hbusy h

end Sys2Proof.Machine
end
